-- ==== Sys2Proof/Word.lean ====
section
/-! DEFINITION. The word of SONICA-AE: every register and buffer word is 32 bits wide (00_scope.md R9). -/

namespace Sys2Proof

/-- A register or buffer word, bit 0 the least significant (R9). -/
abbrev Word := BitVec 32

end Sys2Proof
end

