-- ==== Sys2Proof/Config.lean ====
section
/-! DEFINITION. What an implementation fixes and the values the spec leaves free. Every constant here is opaque and
has no body, so no proof can rest on a value of it. `Machine/Num.lean` imposes the properties of R15 on the three
numeric functions; here they are unrestricted. -/

namespace Sys2Proof.Config

/-- The implementation's choice behind `P_MAX` (R8, I15). Log 11. -/
opaque pMaxChoice : Nat

/-- The implementation's choice behind `FRAME_MAX` (R8, I15). Log 11. -/
opaque frameMaxChoice : Nat

/-- `P_MAX`, the capacity of the PCM buffer in samples: any value from 1 to 2^24 (R8). -/
def pMax : Nat := pMaxChoice % 2 ^ 24 + 1

/-- `FRAME_MAX`, the capacity of the frame buffer in records: any value from 1 to 2^24 (R8). -/
def frameMax : Nat := frameMaxChoice % 2 ^ 24 + 1

/-- `HOP_MAX = ceil(P_MAX / 1024)` (R8): derived, not free. -/
def hopMax : Nat := (pMax + 1023) / 1024

/-- Behind `NUM.hann(sym, n)` (R14, I3). Log 7. -/
opaque hannRaw : Bool → Nat → Word

/-- Behind bin `k` of `NUM.fftmag(s)` (R14, I4). Log 7. -/
opaque fftmagRaw : List Word → Nat → Word

/-- Behind `NUM.exp(a)` (R14, I5). Log 7. -/
opaque expRaw : Word → Word

/-- The n-th unspecified word a host read returns while a command runs (R73(b), R80, I6, I7). Log 4. -/
opaque freeWord : Nat → Word

/-- Which operand `max` and `min` return when the operands are zeros of opposite sign (R12 says one of them). Log 10. -/
opaque zeroTie : Word → Word → Bool

end Sys2Proof.Config
end

