-- ==== Sys2Proof/Syntax.lean ====
section
/-! DEFINITION. The commands of the "SONICA-AE command set, version 1" (30_encoding.md R103), one constructor per row
of spec/opcode_table.json. -/

namespace Sys2Proof

/-- A command (R103). Only SPECTRUM has an operand, the hop index `h` (R102). -/
inductive Instr where
  /-- NOP, R124 -/
  | nop
  /-- CONFIG, R125 -/
  | config
  /-- SPECTRUM `h`, R155 -/
  | spectrum (h : Nat)
  /-- ANALYZE, R156 -/
  | analyze
  /-- ONSET, R185 -/
  | onset
  /-- TEMPO, R190 -/
  | tempo
  /-- RESAMPLE, R205 -/
  | resample
  /-- SMOOTH, R208 -/
  | smooth
  /-- NORMALIZE, R211 -/
  | normalize
  /-- BEAT, R216 -/
  | beat
  /-- RUN, R129 -/
  | run
  deriving DecidableEq, Repr

end Sys2Proof
end

