-- ==== Sys2Proof/WellFormed.lean ====
section
/-! DEFINITION. Which commands have an encoding: the operand of SPECTRUM is a 24-bit unsigned number
(30_encoding.md R102, R109). -/

namespace Sys2Proof

/-- A command that has a command word: SPECTRUM's hop index is below 2^24 (R102, R109). -/
def Instr.wellFormed : Instr → Bool
  | .spectrum h => h < 2 ^ 24
  | .nop | .config | .analyze | .onset | .tempo | .resample | .smooth | .normalize | .beat | .run => true

end Sys2Proof
end

