-- ==== Sys2Proof/Decode.lean ====
section
/-! DEFINITION. The command word (30_encoding.md R100 to R106): one 32-bit format, `OP` in bits 7:0 and `ARG` in bits
31:8. Decoding is total: a word is one of the eleven commands or the verdict BADCMD. -/

namespace Sys2Proof

/-- Why a word is `BADCMD` (R106(b)). -/
inductive BadCommand where
  /-- a reserved opcode, 0x0B to 0xFF (R104) -/
  | reservedOpcode (op : Nat)
  /-- a nonzero `ARG` on an opcode other than SPECTRUM's (R105) -/
  | nonzeroArg (op : Nat)
  deriving DecidableEq, Repr

/-- `OP = word[7:0]` (R101). -/
def opField (w : Word) : Nat := (w.extractLsb' 0 8).toNat

/-- `ARG = word[31:8]` (R102). -/
def argField (w : Word) : Nat := (w.extractLsb' 8 24).toNat

/-- The command of an opcode whose `ARG` must be 0 (R105). -/
def withoutArg (w : Word) (i : Instr) : Except BadCommand Instr :=
  if argField w = 0 then .ok i else .error (.nonzeroArg (opField w))

/-- The decoder (R106): the opcode selects the command (R103), then `ARG` is checked (R105). -/
def decode (w : Word) : Except BadCommand Instr :=
  match opField w with
  | 0x00 => withoutArg w .nop
  | 0x01 => withoutArg w .config
  | 0x02 => .ok (.spectrum (argField w))
  | 0x03 => withoutArg w .analyze
  | 0x04 => withoutArg w .onset
  | 0x05 => withoutArg w .tempo
  | 0x06 => withoutArg w .resample
  | 0x07 => withoutArg w .smooth
  | 0x08 => withoutArg w .normalize
  | 0x09 => withoutArg w .beat
  | 0x0A => withoutArg w .run
  | op => .error (.reservedOpcode op)

/-- The opcode of a command (R103). -/
def opcodeOf : Instr → Nat
  | .nop => 0x00
  | .config => 0x01
  | .spectrum _ => 0x02
  | .analyze => 0x03
  | .onset => 0x04
  | .tempo => 0x05
  | .resample => 0x06
  | .smooth => 0x07
  | .normalize => 0x08
  | .beat => 0x09
  | .run => 0x0A

/-- The argument of a command: SPECTRUM's hop index, 0 for every other command (R102, R105). -/
def argOf : Instr → Nat
  | .spectrum h => h
  | .nop | .config | .analyze | .onset | .tempo | .resample | .smooth | .normalize | .beat | .run => 0

/-- The encoder: `word = ARG·256 + OP` (R100). -/
def encode (i : Instr) : Word := BitVec.ofNat 32 (argOf i * 256 + opcodeOf i)

/-- The command word whose low `nbits` bits are those of `w`, every bit above them 0. -/
def tableWord (nbits w : Nat) : Word := BitVec.ofNat 32 (w % 2 ^ nbits)

/-- The command the decoder reads from a word given in the numbering of spec/opcode_table.json; a command is a single
32-bit word (R100), so no byte order comes in. -/
def decodeTableWord (nbits w : Nat) : Option Instr :=
  match decode (tableWord nbits w) with
  | .ok i => some i
  | .error _ => none

end Sys2Proof
end

