-- ==== Sys2Proof/Machine/State.lean ====
section
/-! DEFINITION. The state of SONICA-AE as plain data (10_state.md R20), the reasons a step can stop, and the state
after a hard reset (70_reset_and_hazards.md R270, R273). -/

namespace Sys2Proof.Machine

/-- The eight buffers (R50), in the order of their `BUF_SEL` values. -/
inductive BufId where
  | pcm | mag | wave | hopf | onset | acorr | frame | hann
  deriving DecidableEq, Repr

/-- Why the machine stops where the spec records a fault. -/
inductive Fault where
  /-- A host access that is not 32 bits wide at a multiple-of-4 offset (R71, R259, I2). Raised by a host access; safe:
  the spec says the model records a host-access fault and the engine's state does not change. -/
  | busError
  /-- A read of word `i` of buffer `b` while its written-mark is clear (R61, I1). Raised by a `BUF_DATA` read and by
  every command that reads a buffer; safe: the hardware returns some value, the model none. -/
  | unwritten (b : BufId) (i : Nat)
  /-- A NaN or an infinity met by a command (R16, I4). Raised by the commands that compute with binary32 words; safe. -/
  | notFinite
  /-- A pipeline command in a state the spec says never occurs: a nonzero `STAGE` without the configuration CONFIG
  checked (R249), or results that do not fit their stage (R55, R190). Raised by SPECTRUM and by the pipeline commands;
  safe: no run reaches it (logs 14 and 15). -/
  | inconsistent
  deriving DecidableEq, Repr

/-- Why an instruction has no meaning. -/
inductive Refusal where
  /-- The command has no meaning in this model. Raised by no arm of `exec`: every command is modelled; safe. -/
  | notModelled (mnemonic : String)
  deriving DecidableEq, Repr

/-- `STATUS.ERRCODE` 1 to 7 (60_exceptions.md R241). Code 0 is "no error"; codes 8 to 15 are never produced (I10). -/
inductive ErrCode where
  | badCmd | seq | param | empty | range | pcm | bufAcc
  deriving DecidableEq, Repr

/-- `STATUS.STAGE` (R29), by the spec's names for 0 to 8. Values 9 to 15 never occur (R29, I11). -/
inductive Stage where
  | invalid | configured | analyzed | onsets | tempo | resampled | smoothed | normalized | complete
  deriving DecidableEq, Repr

/-- What reaches the engine from outside, and the engine's own turn (R87, R121): the events a run is made of. -/
inductive Event where
  /-- the engine's turn: its step if a command is latched, nothing otherwise (R121, R258) -/
  | engine
  /-- a host read of `size` bytes at byte offset `off` of the register window (R70) -/
  | read (size : Nat) (off : BitVec 12)
  /-- a host write of `value` -/
  | write (size : Nat) (off : BitVec 12) (value : Word)
  /-- the platform's reset (R270) -/
  | hardReset
  deriving DecidableEq, Repr

/-- One word for each of the seven bands (R7). -/
structure Bands where
  b0 : Word
  b1 : Word
  b2 : Word
  b3 : Word
  b4 : Word
  b5 : Word
  b6 : Word
  deriving DecidableEq, Repr

/-- The written words of a buffer, by index: an index that is listed carries the written-mark, one that is not does
not (R61). -/
abbrev Buffer := List (Nat × Word)

/-- The seven stored buffers (R50). HANN is computed and has no contents (R58). -/
structure Memory where
  pcm : Buffer
  mag : Buffer
  wave : Buffer
  hopf : Buffer
  onset : Buffer
  acorr : Buffer
  frame : Buffer
  deriving DecidableEq, Repr

/-- The state of the machine (R20). The last three fields are the model's own (logs 1, 3 and 4). -/
structure State where
  /-- `CTRL.HANN_SYM` (R22) -/
  hannSym : Bool
  /-- `STATUS.DONE` (R25) -/
  done : Bool
  /-- `STATUS.ERR` and `STATUS.ERRCODE` (R26): none is ERR = 0 with code 0 -/
  error : Option ErrCode
  /-- `STATUS.REJ` (R27) -/
  rej : Bool
  /-- `STATUS.TEMPO_FOUND` (R28) -/
  tempoFound : Bool
  /-- `STATUS.STAGE` (R29) -/
  stage : Stage
  /-- `IRQ_EN.DONE_IE` (R31) -/
  doneIe : Bool
  /-- `IRQ_EN.ERR_IE` (R31) -/
  errIe : Bool
  /-- `IRQ_EN.REJ_IE` (R31) -/
  rejIe : Bool
  /-- `SR` (R33) -/
  sr : Word
  /-- `NSAMP` (R34) -/
  nsamp : Word
  /-- `FPS` (R35) -/
  fps : Word
  /-- `SMOOTH` (R36) -/
  smooth : Word
  /-- `NHOPS` (R37) -/
  nhops : Word
  /-- `NFRAMES` (R37) -/
  nframes : Word
  /-- `ONSET_COUNT` (R38) -/
  onsetCount : Word
  /-- `TEMPO_LAG` (R39) -/
  tempoLag : Word
  /-- `TEMPO_BPM` (R39) -/
  tempoBpm : Word
  /-- `PEAK_AMP` (R40) -/
  peakAmp : Word
  /-- `PEAK_RMS` (R40) -/
  peakRms : Word
  /-- `PEAK_FLUX` (R40) -/
  peakFlux : Word
  /-- `PEAK_BAND0` to `PEAK_BAND6` (R40) -/
  peakBands : Bands
  /-- `BUF_SEL[2:0]` (R41) -/
  bufSel : BitVec 3
  /-- `BUF_IDX` (R42) -/
  bufIdx : Word
  /-- the pending-command latch (R59), valid exactly while `STATUS.BUSY = 1` (R24) -/
  latch : Option Word
  /-- the buffers and their written-marks (R50, R61) -/
  mem : Memory
  /-- the events still to come, in order -/
  inputs : List Event
  /-- the word the last host read returned -/
  readData : Option Word
  /-- how many free values have been drawn -/
  freeCtr : Nat
  deriving DecidableEq, Repr

/-- The machine right after a hard reset (R270, R273): the register values of R273, no latch, every word unwritten, no
host access yet. -/
def State.reset : State where
  hannSym := false
  done := false
  error := none
  rej := false
  tempoFound := false
  stage := .invalid
  doneIe := false
  errIe := false
  rejIe := false
  sr := 0
  nsamp := 0
  fps := 0
  smooth := 0x3F59999A
  nhops := 0
  nframes := 0
  onsetCount := 0
  tempoLag := 0
  tempoBpm := 0
  peakAmp := 0
  peakRms := 0
  peakFlux := 0
  peakBands := ⟨0, 0, 0, 0, 0, 0, 0⟩
  bufSel := 0
  bufIdx := 0
  latch := none
  mem := ⟨[], [], [], [], [], [], []⟩
  inputs := []
  readData := none
  freeCtr := 0

end Sys2Proof.Machine
end

