-- ==== Sys2Proof/Machine/Flags.lean ====
section
/-! DEFINITION. The status register and the interrupt line: the fields of `STATUS` as a word (10_state.md R23), and
`irq` (60_exceptions.md R251). -/

namespace Sys2Proof.Machine

/-- `STATUS.BUSY` (R24): the latch is valid exactly while it is 1 (R59). -/
def State.busy (s : State) : Bool := s.latch.isSome

/-- `STATUS.ERR` (R26). -/
def State.err (s : State) : Bool := s.error.isSome

/-- The number of an error code (R241). -/
def errNumber : ErrCode → Nat
  | .badCmd => 1
  | .seq => 2
  | .param => 3
  | .empty => 4
  | .range => 5
  | .pcm => 6
  | .bufAcc => 7

/-- `STATUS.ERRCODE` (R26, R241): 0 whenever ERR = 0. -/
def State.errCode (s : State) : Nat :=
  match s.error with
  | none => 0
  | some e => errNumber e

/-- The number of a stage (R29). -/
def stageNumber : Stage → Nat
  | .invalid => 0
  | .configured => 1
  | .analyzed => 2
  | .onsets => 3
  | .tempo => 4
  | .resampled => 5
  | .smoothed => 6
  | .normalized => 7
  | .complete => 8

/-- The `STATUS` word (R23): BUSY 0, DONE 1, ERR 2, REJ 3, TEMPO_FOUND 4, ERRCODE 11:8, STAGE 15:12, all other bits 0. -/
def statusWord (s : State) : Word :=
  BitVec.ofNat 32 (s.busy.toNat + 2 * s.done.toNat + 4 * s.err.toNat + 8 * s.rej.toNat + 16 * s.tempoFound.toNat
    + 256 * s.errCode + 4096 * stageNumber s.stage)

/-- The bits of `STATUS` that are unspecified while a command runs: TEMPO_FOUND and STAGE (R73(b)). -/
def statusResultBits : Word := 0x0000F010

/-- What a read of `STATUS` returns while `BUSY = 1`: its TEMPO_FOUND and STAGE fields are those of a free word, the
other fields are their values (R73). -/
def busyStatusWord (s : State) (free : Word) : Word :=
  (statusWord s &&& ~~~statusResultBits) ||| (free &&& statusResultBits)

/-- `IRQ_EN` as a word (R31). -/
def irqEnWord (s : State) : Word := BitVec.ofNat 32 (s.doneIe.toNat + 2 * s.errIe.toNat + 4 * s.rejIe.toNat)

/-- The interrupt output (R251): level-sensitive, active high, no state of its own. -/
def State.irq (s : State) : Bool := (s.done && s.doneIe) || (s.err && s.errIe) || (s.rej && s.rejIe)

end Sys2Proof.Machine
end

