-- ==== Sys2Proof/Machine/Binary32.lean ====
section
/-! DEFINITION. The binary32 primitives of 00_scope.md R12: IEEE 754 operations rounded to nearest, ties to even, with
subnormals kept and no flags. A finite word is an exact integer number of UNITS of 2^-149, so every operation computes
exactly on integers and rounds once, in `roundMag`. -/

namespace Sys2Proof.Machine

/-- The sign, bit 31 (R107). -/
def signBit (w : Word) : Bool := w.getLsbD 31

/-- The exponent field, bits 30:23 (R107). -/
def expField (w : Word) : Nat := w.toNat / 2 ^ 23 % 2 ^ 8

/-- The fraction field, bits 22:0 (R107). -/
def fracField (w : Word) : Nat := w.toNat % 2 ^ 23

/-- Neither a NaN nor an infinity. -/
def isFinite (w : Word) : Bool := expField w != 255

/-- A NaN. -/
def isNaN (w : Word) : Bool := expField w == 255 && fracField w != 0

/-- An infinity of either sign. -/
def isInf (w : Word) : Bool := expField w == 255 && fracField w == 0

/-- `|w|` in units of 2^-149. An infinity reads as 2^128, above every finite word, so comparisons are right for it. -/
def magUnits (w : Word) : Nat :=
  if expField w = 0 then fracField w else (2 ^ 23 + fracField w) * 2 ^ (expField w - 1)

/-- The real value of a word in units of 2^-149. -/
def realUnits (w : Word) : Int := if signBit w then -(magUnits w : Int) else magUnits w

/-- +0.0 -/
def zero32 : Word := 0x00000000
/-- 1.0 -/
def one32 : Word := 0x3F800000
/-- 2.0 -/
def two32 : Word := 0x40000000
/-- 0.25 -/
def quarter32 : Word := 0x3E800000
/-- 2048.0 -/
def w2048 : Word := 0x45000000
/-- The largest binary32 below 1 (R215). -/
def belowOne32 : Word := 0x3F7FFFFF
/-- The one NaN pattern of the model: a result with no meaning, which no command stores (R16, log 9). -/
def nan32 : Word := 0x7FC00000

/-- Clears the sign bit (R152). -/
def abs32 (w : Word) : Word := w &&& 0x7FFFFFFF

/-- Flips the sign bit. -/
def neg32 (w : Word) : Word := w ^^^ 0x80000000

/-- A word from its sign and its low 31 bits. -/
def withSign (neg : Bool) (bits : Nat) : Word := BitVec.ofNat 32 (if neg then 2 ^ 31 + bits else bits)

/-- How many low bits of an integer magnitude of `q` units fall below a 24-bit significand. -/
def dropBits (q : Nat) : Nat := Nat.log2 q - 23

/-- `q + rem/den` rounded to an integer: nearest, ties to even. -/
def roundHalfEven (q rem den : Nat) : Nat :=
  if den < 2 * rem then q + 1 else if 2 * rem = den then q + q % 2 else q

/-- The low 31 bits of the binary32 word nearest to `n/d` units of 2^-149, ties to even; beyond the largest finite word
the infinity, as IEEE 754 rounds. The bit pattern of a magnitude is `k·2^23 + significand` for `k` dropped bits, for
subnormals, normals and a rounding that carries alike. -/
def roundMag (n d : Nat) : Nat :=
  let k := dropBits (n / d)
  let den := d * 2 ^ k
  min (k * 2 ^ 23 + roundHalfEven (n / den) (n % den) den) 0x7F800000

/-- `rne32` of the non-negative rational `n/d` (R12). -/
def rne32 (n d : Nat) : Word := withSign false (roundMag (n * 2 ^ 149) d)

/-- `add32` (R12). An exact zero sum is +0.0 unless both operands are negative, as IEEE 754 has it. -/
def add32 (a b : Word) : Word :=
  if isNaN a || isNaN b then nan32
  else if isInf a then (if isInf b && signBit a != signBit b then nan32 else a)
  else if isInf b then b
  else
    let v := realUnits a + realUnits b
    if v = 0 then withSign (signBit a && signBit b) 0 else withSign (v < 0) (roundMag v.natAbs 1)

/-- `sub32` (R12). -/
def sub32 (a b : Word) : Word := if isNaN a || isNaN b then nan32 else add32 a (neg32 b)

/-- `mul32` (R12). -/
def mul32 (a b : Word) : Word :=
  let neg := signBit a != signBit b
  if isNaN a || isNaN b then nan32
  else if isInf a || isInf b then
    (if magUnits a = 0 ∨ magUnits b = 0 then nan32 else withSign neg 0x7F800000)
  else withSign neg (roundMag (magUnits a * magUnits b) (2 ^ 149))

/-- `div32` (R12). -/
def div32 (a b : Word) : Word :=
  let neg := signBit a != signBit b
  if isNaN a || isNaN b then nan32
  else if isInf a then (if isInf b then nan32 else withSign neg 0x7F800000)
  else if isInf b then withSign neg 0
  else if magUnits b = 0 then (if magUnits a = 0 then nan32 else withSign neg 0x7F800000)
  else withSign neg (roundMag (magUnits a * 2 ^ 149) (magUnits b))

/-- The integer square root by binary digits, two bits of `n` a level; `fuel` levels are enough for `n < 4^fuel`. -/
def isqrt : Nat → Nat → Nat
  | 0, _ => 0
  | fuel + 1, n =>
    if n = 0 then 0
    else
      let r := 2 * isqrt fuel (n / 4)
      if (r + 1) * (r + 1) ≤ n then r + 1 else r

/-- `sqrt32` (R12). The square root of `m` units is `sqrt(m·2^149)` units; a half stands for the part below the integer
root, which is enough because every rounding boundary of a root is an integer number of units. -/
def sqrt32 (a : Word) : Word :=
  if isNaN a then nan32
  else if magUnits a = 0 then a
  else if signBit a then nan32
  else if isInf a then a
  else
    let n := magUnits a * 2 ^ 149
    let r := isqrt 256 n
    withSign false (roundMag (if r * r = n then 2 * r else 2 * r + 1) 2)

/-- `max` by exact comparison (R12): one of its operands, the free choice only between zeros of opposite sign (log 10).
A NaN operand stays a NaN. -/
def max32 (a b : Word) : Word :=
  if isNaN a || isNaN b then nan32
  else if realUnits a < realUnits b then b
  else if realUnits b < realUnits a then a
  else if a = b then a
  else if Config.zeroTie a b then b else a

/-- `min` by exact comparison (R12), as `max32`. -/
def min32 (a b : Word) : Word :=
  if isNaN a || isNaN b then nan32
  else if realUnits a < realUnits b then a
  else if realUnits b < realUnits a then b
  else if a = b then a
  else if Config.zeroTie a b then b else a

/-- A finite word whose real value is in [0, 1] (−0.0 counts as 0, R11). -/
def inUnit (w : Word) : Bool := isFinite w && decide (0 ≤ realUnits w) && decide (realUnits w ≤ 2 ^ 149)

/-- A finite word with sign bit 0, the form of every stored feature (R145, R180). -/
def isFeature (w : Word) : Bool := isFinite w && !signBit w

end Sys2Proof.Machine
end

