-- ==== Sys2Proof/Machine/Num.lean ====
section
/-! DEFINITION. The numerics parameter `NUM` (00_scope.md R14): the free functions of Config.lean, held to the
properties of R15 by construction. A raw value that has the property is used as it is, so every conforming `NUM` is
some choice of the raw functions (log 7). -/

namespace Sys2Proof.Machine

/-- `NUM.hann(sym, n)`, with HANN-RANGE (R15). -/
def hann (sym : Bool) (n : Nat) : Word :=
  let v := Config.hannRaw sym n
  if inUnit v then v else zero32

/-- Bin `k` of `NUM.fftmag(s)` on a window with two or more nonzero samples: any word with FFT-NONNEG (R15), however
large. A feature that overflows from it is the fault of R16 (log 8). -/
def fftBin (s : List Word) (k : Nat) : Word :=
  let v := Config.fftmagRaw s k
  if isFeature v then v else zero32

/-- `NUM.fftmag(s)`: the 1025 magnitudes (R14, R145), with FFT-ZERO and FFT-IMPULSE (R15) on the windows with no or one
nonzero sample. -/
def fftmag (s : List Word) : List Word :=
  match s.filter (fun v => magUnits v != 0) with
  | [] => List.replicate 1025 zero32
  | [v] => List.replicate 1025 (abs32 v)
  | _ => (List.range 1025).map (fftBin s)

/-- `NUM.exp(a)`, with EXP-RANGE (R15) where `a < 0`, and elsewhere any word but a NaN (R11). -/
def numExp (a : Word) : Word :=
  let v := Config.expRaw a
  if (if realUnits a < 0 then inUnit v else !isNaN v) then v else zero32

end Sys2Proof.Machine
end

