-- ==== Sys2Proof/Machine/Operands.lean ====
section
/-! DEFINITION. The operands of the commands: the registers they read as exact numbers, CONFIG's checks of them
(40_control.md R125 to R128), and the capacities of the buffers (10_state.md R50). -/

namespace Sys2Proof.Machine

/-- The capacity of a buffer in words (R50). -/
def capacity : BufId → Nat
  | .pcm => Config.pMax
  | .mag => 1025
  | .wave => 512
  | .hopf => 12 * Config.hopMax
  | .onset => Config.hopMax
  | .acorr => 256
  | .frame => 16 * Config.frameMax
  | .hann => 2048

/-- The buffer that `BUF_SEL[2:0]` selects (R41, R50). -/
def selectedBuffer (sel : BitVec 3) : BufId :=
  match sel.toNat with
  | 0 => .pcm
  | 1 => .mag
  | 2 => .wave
  | 3 => .hopf
  | 4 => .onset
  | 5 => .acorr
  | 6 => .frame
  | _ => .hann

/-- `valid_sr` (R126). -/
def validSr (sr : Word) : Bool := decide (1 ≤ sr.toNat) && decide (sr.toNat ≤ 192000)

/-- `valid_fps` (R126): finite and greater than 0. -/
def validFps (fps : Word) : Bool := isFinite fps && decide (0 < realUnits fps)

/-- `valid_smooth` (R126): not NaN and in [0, 1]; −0.0 is valid. -/
def validSmooth (smooth : Word) : Bool := inUnit smooth

/-- `n_hops(NSAMP) = ceil(NSAMP/1024)` (R127). -/
def nHops (nsamp : Nat) : Nat := (nsamp + 1023) / 1024

/-- `n_frames(NSAMP, FPS, SR) = floor(NSAMP·FPS/SR + 1/2)` (R128), with `FPS = fpsUnits/2^149`. -/
def nFrames (nsamp fpsUnits sr : Nat) : Nat :=
  (2 * nsamp * fpsUnits + 2 ^ 149 * sr) / (2 * (2 ^ 149 * sr))

/-- The exact value of `FPS` in units of 2^-149 (R35). -/
def State.fpsUnits (s : State) : Nat := magUnits s.fps

/-- CONFIG's checks in the order of R125 and R245, and the counts they yield: `NHOPS` and `NFRAMES`. -/
def configCounts (s : State) : Except ErrCode (Nat × Nat) :=
  if !validSr s.sr then .error .param
  else if !validFps s.fps then .error .param
  else if !validSmooth s.smooth then .error .param
  else if s.nsamp.toNat = 0 then .error .empty
  else if Config.pMax < s.nsamp.toNat then .error .range
  else if Config.frameMax < nFrames s.nsamp.toNat s.fpsUnits s.sr.toNat then .error .range
  else .ok (nHops s.nsamp.toNat, nFrames s.nsamp.toNat s.fpsUnits s.sr.toNat)

/-- The registers hold a configuration that passes CONFIG's checks, and its counts. R249: "A non-zero `STAGE` means that
a CONFIG succeeded on the current register values and that no configuration write has happened since". -/
def configHolds (s : State) : Bool :=
  match configCounts s with
  | .ok (nh, nf) => s.nhops.toNat == nh && s.nframes.toNat == nf
  | .error _ => false

/-- The peak of band `b` (R40); bands are numbered 0 to 6. -/
def Bands.get (p : Bands) : Nat → Word
  | 0 => p.b0
  | 1 => p.b1
  | 2 => p.b2
  | 3 => p.b3
  | 4 => p.b4
  | 5 => p.b5
  | _ => p.b6

/-- The seven words in band order. -/
def Bands.toList (p : Bands) : List Word := [p.b0, p.b1, p.b2, p.b3, p.b4, p.b5, p.b6]

/-- Seven words from a function of the band number. -/
def Bands.tabulate (f : Nat → Word) : Bands := ⟨f 0, f 1, f 2, f 3, f 4, f 5, f 6⟩

/-- All seven words +0.0. -/
def Bands.zeros : Bands := Bands.tabulate fun _ => zero32

end Sys2Proof.Machine
end

