-- ==== Sys2Proof/Machine/Ops.lean ====
section
/-! DEFINITION. The named operations over buffers and registers, and how a command ends. A command's meaning is a
`Cmd State`: the state with its effects, or why it stops: an error code, which is the error path of 60_exceptions.md
R243 (a next state), or a fault of the model. -/

namespace Sys2Proof.Machine

/-! ### Status changes: the error path and its acknowledgement, completion, rejection, acceptance -/

/-- `record_error(e)` (R247): the first error is kept. -/
def State.recordError (s : State) (e : ErrCode) : State := { s with error := some (s.error.getD e) }

/-- The error path (R243): a failing command records its code and ends; nothing else changes. -/
def State.fail (s : State) (e : ErrCode) : State := { s.recordError e with latch := none }

/-- The completion of a command (R121 step 4): DONE <- 1 and BUSY <- 0. -/
def State.complete (s : State) : State := { s with done := true, latch := none }

/-- A rejected access (R246): REJ <- 1 and no other effect. -/
def State.reject (s : State) : State := { s with rej := true }

/-- The W1C bits of a write to `STATUS` (R77, R249). -/
def State.ackStatus (s : State) (v : Word) : State :=
  { s with
    done := s.done && !v.getLsbD 1
    error := if v.getLsbD 2 then none else s.error
    rej := s.rej && !v.getLsbD 3 }

/-- What every configuration write does besides storing its value (R76): STAGE <- 0 and TEMPO_FOUND <- 0. -/
def State.invalidate (s : State) : State := { s with stage := .invalid, tempoFound := false }

/-- The acceptance of a command word (R120): the latch takes it, DONE <- 0, BUSY <- 1. -/
def State.accept (s : State) (v : Word) : State := { s with latch := some v, done := false }

/-! ### Buffers -/

/-- The word at an index, none if its written-mark is clear (R61). -/
def Buffer.read : Buffer → Nat → Option Word
  | [], _ => none
  | (j, v) :: rest, i => if i = j then some v else Buffer.read rest i

/-- Stores a word and sets its mark (R61), keeping the indices strictly rising. -/
def Buffer.write : Buffer → Nat → Word → Buffer
  | [], i, v => [(i, v)]
  | (j, u) :: rest, i, v =>
    if i < j then (i, v) :: (j, u) :: rest
    else if i = j then (i, v) :: rest
    else (j, u) :: Buffer.write rest i v

/-- Stores a list of words at their indices, in order. -/
def Buffer.writeCells (b : Buffer) : List (Nat × Word) → Buffer
  | [] => b
  | (i, v) :: rest => Buffer.writeCells (Buffer.write b i v) rest

/-- Clears the marks of the indices that satisfy `p` (R272). -/
def Buffer.clear (b : Buffer) (p : Nat → Bool) : Buffer := b.filter fun c => !p c.1

/-- The canonical form: indices strictly rising. No entry equals what an unlisted index reads as, since that is no
value. -/
def Buffer.wf (b : Buffer) : Bool := decide (b.Pairwise fun c d => c.1 < d.1)

/-- The written words of a stored buffer; HANN has no contents (R58). -/
def Memory.buffer (m : Memory) : BufId → Buffer
  | .pcm => m.pcm
  | .mag => m.mag
  | .wave => m.wave
  | .hopf => m.hopf
  | .onset => m.onset
  | .acorr => m.acorr
  | .frame => m.frame
  | .hann => []

/-- Replaces the contents of a stored buffer. -/
def Memory.setBuffer (m : Memory) (id : BufId) (b : Buffer) : Memory :=
  match id with
  | .pcm => { m with pcm := b }
  | .mag => { m with mag := b }
  | .wave => { m with wave := b }
  | .hopf => { m with hopf := b }
  | .onset => { m with onset := b }
  | .acorr => { m with acorr := b }
  | .frame => { m with frame := b }
  | .hann => m

/-- Word `i` of a stored buffer (R10), none if unwritten. -/
def Memory.read (m : Memory) (id : BufId) (i : Nat) : Option Word := Buffer.read (m.buffer id) i

/-- `buf[B][i] <- v` for each cell, in order (R10). -/
def Memory.writeCells (m : Memory) (id : BufId) (cells : List (Nat × Word)) : Memory :=
  m.setBuffer id (Buffer.writeCells (m.buffer id) cells)

/-- Clears marks of one buffer (R272). -/
def Memory.clear (m : Memory) (id : BufId) (p : Nat → Bool) : Memory := m.setBuffer id (Buffer.clear (m.buffer id) p)

/-- Every stored buffer is in its canonical form. -/
def Memory.wf (m : Memory) : Bool :=
  Buffer.wf m.pcm && Buffer.wf m.mag && Buffer.wf m.wave && Buffer.wf m.hopf && Buffer.wf m.onset && Buffer.wf m.acorr
    && Buffer.wf m.frame

/-- Word `i` of buffer `id` as the host and the commands read it: HANN is computed and always written (R58). -/
def State.bufWord (s : State) (id : BufId) (i : Nat) : Option Word :=
  match id with
  | .hann => some (hann s.hannSym i)
  | .pcm | .mag | .wave | .hopf | .onset | .acorr | .frame => s.mem.read id i

/-- Consecutive words as cells from an index on. -/
def cellsFrom : Nat → List Word → List (Nat × Word)
  | _, [] => []
  | i, v :: rest => (i, v) :: cellsFrom (i + 1) rest

/-- Stores cells into one buffer of the machine. -/
def State.putCells (s : State) (id : BufId) (cells : List (Nat × Word)) : State :=
  { s with mem := s.mem.writeCells id cells }

/-- A natural number as a register or buffer word; every number a command stores fits (R131). -/
def word (n : Nat) : Word := BitVec.ofNat 32 n

/-! ### Commands -/

/-- Why a command does not complete. -/
inductive Stop where
  /-- `raise Error(code)` (R10): the error path of R243 -/
  | error (e : ErrCode)
  /-- the model records a fault -/
  | fault (f : Fault)
  deriving DecidableEq, Repr

/-- A computation of a command. -/
abbrev Cmd := Except Stop

/-- A check that fails with an error code. -/
def check (ok : Bool) (e : ErrCode) : Cmd Unit := if ok then .ok () else .error (.error e)

/-- A property the spec guarantees; where it does not hold the model faults. -/
def assume (ok : Bool) (f : Fault) : Cmd Unit := if ok then .ok () else .error (.fault f)

/-- The precondition of R122 for a command that requires exactly one stage. -/
def requireStage (s : State) (st : Stage) : Cmd Unit := check (s.stage == st) .seq

/-- The configuration CONFIG checked still holds, as a nonzero STAGE says (R249, log 14). -/
def assumeConfig (s : State) : Cmd Unit := assume (configHolds s) .inconsistent

/-- The words a command is about to store are finite (R16). -/
def assumeFinite (ws : List Word) : Cmd Unit := assume (ws.all isFinite) .notFinite

/-- The stored features a command reads are finite and have sign bit 0 (R145, R180). -/
def assumeFeatures (ws : List Word) : Cmd Unit := assume (ws.all isFeature) .notFinite

/-- Reads words of a stored buffer, in order; an unwritten word is a model fault (R61). -/
def readWords (m : Memory) (id : BufId) : List Nat → Cmd (List Word)
  | [] => .ok []
  | i :: rest =>
    match m.read id i with
    | none => .error (.fault (.unwritten id i))
    | some v =>
      match readWords m id rest with
      | .error e => .error e
      | .ok vs => .ok (v :: vs)

/-- A legal PCM sample (R142): finite and `|v| ≤ 1`. -/
def legalSample (v : Word) : Bool := isFinite v && decide (magUnits v ≤ 2 ^ 149)

/-- Reads and checks PCM words, lowest first: an unwritten word is a model fault, an illegal one is `ERR_PCM` (R142). -/
def readPcm (m : Memory) : List Nat → Cmd (List Word)
  | [] => .ok []
  | n :: rest =>
    match m.read .pcm n with
    | none => .error (.fault (.unwritten .pcm n))
    | some v =>
      if legalSample v then
        match readPcm m rest with
        | .error e => .error e
        | .ok vs => .ok (v :: vs)
      else .error (.error .pcm)

/-- How a command ends (R121 steps 3 and 4): it completes, it takes the error path, or the model faults. -/
def finish (s : State) : Cmd State → Host.Outcome State Fault Refusal
  | .ok t => .next t.complete
  | .error (.error e) => .next (s.fail e)
  | .error (.fault f) => .fault f

/-- A sequence of commands run as one (R129, R130): each acts on the state its predecessor left; the first that fails
ends the sequence with its code, the effects of those before it kept; DONE and BUSY change once, at the end. -/
def runSequence : List (State → Cmd State) → State → Host.Outcome State Fault Refusal
  | [], s => .next s.complete
  | c :: rest, s =>
    match c s with
    | .ok t => runSequence rest t
    | .error (.error e) => .next (s.fail e)
    | .error (.fault f) => .fault f

/-! ### The latch -/

/-- The command word the engine's next step runs (R59, R121). -/
def State.fetch (s : State) : Option Word := s.latch

/-- The state with a command word accepted and no host access before the engine's turn. -/
def State.placeCommand (s : State) (w : Word) : State := { s.accept w with inputs := [] }

end Sys2Proof.Machine
end

