-- ==== Sys2Proof/Machine/Control.lean ====
section
/-! DEFINITION. NOP and CONFIG (40_control.md R124, R125). RUN is in Run.lean. -/

namespace Sys2Proof.Machine

/-- NOP has no effect (R124). -/
def nopBody (s : State) : Cmd State := .ok s

/-- NOP (R124). -/
def execNop (s : State) : Host.Outcome State Fault Refusal := finish s (nopBody s)

/-- The registers CONFIG writes once its checks pass (R125). -/
def State.configured (s : State) (nh nf : Nat) : State :=
  { s with
    nhops := word nh
    nframes := word nf
    onsetCount := 0
    tempoLag := 0
    tempoBpm := zero32
    peakAmp := zero32
    peakRms := zero32
    peakFlux := zero32
    peakBands := Bands.zeros
    tempoFound := false
    stage := .configured }

/-- CONFIG's checks and effects (R125). -/
def configBody (s : State) : Cmd State :=
  match configCounts s with
  | .error e => .error (.error e)
  | .ok (nh, nf) => .ok (s.configured nh nf)

/-- CONFIG (R125). -/
def execConfig (s : State) : Host.Outcome State Fault Refusal := finish s (configBody s)

end Sys2Proof.Machine
end

