-- ==== Sys2Proof/Machine/OnsetTempo.lean ====
section
/-! DEFINITION. The spectral-flux onset detector and the autocorrelation tempo estimator: ONSET and TEMPO
(42_onset_tempo.md). Exact integers on the stored flux values, in units of 2^-149. -/

namespace Sys2Proof.Machine

/-! ### Onset detection -/

/-- Inserts into an ascending list, repeats kept. -/
def insertSorted (v : Nat) : List Nat → List Nat
  | [] => [v]
  | u :: rest => if v ≤ u then v :: u :: rest else u :: insertSorted v rest

/-- The values in ascending order, repeats kept (R181). -/
def sortNat : List Nat → List Nat
  | [] => []
  | v :: rest => insertSorted v (sortNat rest)

/-- The flux values of the median window of hop `i`, truncated at the ends of the series (R181). -/
def medianWindow (F : List Nat) (i : Nat) : List Nat :=
  let lo := i - 20
  let hi := min (F.length - 1) (i + 20)
  (F.drop lo).take (hi - lo + 1)

/-- Twice the median of a window (R181): for an even count the two middle values' sum. -/
def twiceMedian (ws : List Nat) : Nat :=
  let v := sortNat ws
  let c := v.length
  if c % 2 = 1 then 2 * v.getD ((c - 1) / 2) 0 else v.getD (c / 2 - 1) 0 + v.getD (c / 2) 0

/-- Hop `i` is a beat candidate (R182): `F[i] > 8/5·med`, exactly. -/
def isCandidate (F : List Nat) (i : Nat) : Bool := 4 * twiceMedian (medianWindow F i) < 5 * F.getD i 0

/-- The threshold word of hop `i` (R183): `rne32(8·med/5)`. -/
def thresholdWord (F : List Nat) (i : Nat) : Word :=
  withSign false (roundMag (4 * twiceMedian (medianWindow F i)) 5)

/-- A candidate is far enough from the last kept onset (R184). -/
def farEnough (sr : Nat) (last : Option Nat) (i : Nat) : Bool :=
  match last with
  | none => true
  | some l => 3 * sr ≤ (i - l) * 20480

/-- Coalescing (R184): the candidates of increasing index that are kept as onsets. -/
def coalesce (sr : Nat) : Option Nat → List Nat → List Nat
  | _, [] => []
  | last, i :: rest => if farEnough sr last i then i :: coalesce sr (some i) rest else coalesce sr last rest

/-- The onsets of a flux series (R182, R184). -/
def onsetsOf (sr : Nat) (F : List Nat) : List Nat := coalesce sr none ((List.range F.length).filter (isCandidate F))

/-- What ONSET writes for a flux series (R185): threshold words, the onset list padded with 0, ONSET_COUNT, STAGE <- 3. -/
def State.withOnsets (s : State) (F : List Nat) : State :=
  let n := s.nhops.toNat
  let ons := onsetsOf s.sr.toNat F
  { (s.putCells .hopf ((List.range n).map fun i => (12 * i + 11, thresholdWord F i))).putCells .onset
      (cellsFrom 0 (ons.map word ++ List.replicate (n - ons.length) 0)) with
    onsetCount := word ons.length
    stage := .onsets }

/-- ONSET's checks and effects (R185). -/
def onsetBody (s : State) : Cmd State := do
  requireStage s .analyzed
  assumeConfig s
  let n := s.nhops.toNat
  let fs ← readWords s.mem .hopf ((List.range n).map fun i => 12 * i + 2)
  assumeFeatures fs
  let F := fs.map magUnits
  assumeFinite ((List.range n).map (thresholdWord F))
  .ok (s.withOnsets F)

/-- ONSET (R185). -/
def execOnset (s : State) : Host.Outcome State Fault Refusal := finish s (onsetBody s)

/-! ### Tempo estimation -/

/-- `L_min = ceil(3·SR/10240)` (R186). -/
def lagMin (sr : Nat) : Nat := (3 * sr + 10239) / 10240

/-- `L_max = floor(SR/1024)` (R186). -/
def lagMax (sr : Nat) : Nat := sr / 1024

/-- The lags in range, ascending (R186). -/
def lags (sr : Nat) : List Nat := List.range' (lagMin sr) (lagMax sr + 1 - lagMin sr)

/-- `R(L)`: the pairs of onsets exactly `L` hops apart among `n` hops (R187). -/
def autocorr (ons : List Nat) (n L : Nat) : Nat :=
  ((List.range (n - L)).filter fun i => ons.contains i && ons.contains (i + L)).length

/-- The smallest lag of a list with the largest `R` (R188), with that `R`, starting from a best so far. -/
def bestLag (R : Nat → Nat) : Nat → List Nat → Nat
  | best, [] => best
  | best, L :: rest => bestLag R (if R best < R L then L else best) rest

/-- The tempo's lag (R188): none when the range is empty or the best lag does not exceed 0.3 of the zero-lag energy. -/
def tempoLagOf (R : Nat → Nat) : List Nat → Option Nat
  | [] => none
  | L :: rest =>
    let best := bestLag R L rest
    if 3 * R 0 < 10 * R best then some best else none

/-- Word `L` of ACORR (R191). -/
def acorrWord (sr : Nat) (R : Nat → Nat) (L : Nat) : Word :=
  if L = 0 ∨ (lagMin sr ≤ L ∧ L ≤ lagMax sr) then word (R L) else 0

/-- All 256 words of ACORR (R191). -/
def acorrWords (sr : Nat) (R : Nat → Nat) : List Word := (List.range 256).map (acorrWord sr R)

/-- `bpm = rne32(60·SR/(1024·L))` (R189). -/
def bpmWord (sr lag : Nat) : Word := rne32 (60 * sr) (1024 * lag)

/-- What TEMPO writes for an onset list (R190, R191): ACORR, the tempo registers and TEMPO_FOUND, STAGE <- 4. -/
def State.withTempo (s : State) (ons : List Nat) : State :=
  let sr := s.sr.toNat
  let R := autocorr ons s.nhops.toNat
  let found := tempoLagOf R (lags sr)
  { s.putCells .acorr (cellsFrom 0 (acorrWords sr R)) with
    tempoLag := match found with | some lag => word lag | none => 0
    tempoBpm := match found with | some lag => bpmWord sr lag | none => zero32
    tempoFound := found.isSome
    stage := .tempo }

/-- The onset list the registers and buffer hold (R55): `ONSET[0 .. ONSET_COUNT − 1]`. -/
def readOnsets (s : State) : Cmd (List Nat) := do
  let ws ← readWords s.mem .onset (List.range s.onsetCount.toNat)
  .ok (ws.map BitVec.toNat)

/-- TEMPO's checks and effects (R190). -/
def tempoBody (s : State) : Cmd State := do
  requireStage s .onsets
  assumeConfig s
  let ons ← readOnsets s
  .ok (s.withTempo ons)

/-- TEMPO (R190). -/
def execTempo (s : State) : Host.Outcome State Fault Refusal := finish s (tempoBody s)

end Sys2Proof.Machine
end

