-- ==== Sys2Proof/Machine/Frames.lean ====
section
/-! DEFINITION. The frame resampler, the bidirectional EMA filter, the normaliser and the beat fields: RESAMPLE, SMOOTH,
NORMALIZE and BEAT (43_frames.md). `F` stands for `FPS` in units of 2^-149, so `FPS = F/2^149` exactly. -/

namespace Sys2Proof.Machine

/-! ### Series -/

/-- The hop-record word of series `i` (43_frames.md section 1): bands 0 to 6, rms, centroid, flux. -/
def seriesHopWord (i : Nat) : Nat := if i < 7 then 3 + i else i - 7

/-- The frame-record word of series `i` (43_frames.md section 1). -/
def seriesFrameWord (i : Nat) : Nat := 2 + i

/-- Word `j` of hop record `h` (R54); the commands check that it is written before they use it. -/
def State.hopWord (s : State) (h j : Nat) : Word := (s.mem.read .hopf (12 * h + j)).getD zero32

/-- Word `j` of frame record `k` (R57); the commands check that it is written before they use it. -/
def State.frameWord (s : State) (k j : Nat) : Word := (s.mem.read .frame (16 * k + j)).getD zero32

/-- The indices of the ten series words of every hop record (R205). -/
def hopSeriesIndices (n : Nat) : List Nat :=
  (List.range n).flatMap fun h => (List.range 10).map fun j => 12 * h + j

/-- The indices of the ten series words of every frame record (R208, R211). -/
def frameSeriesIndices (nf : Nat) : List Nat :=
  (List.range nf).flatMap fun k => (List.range 10).map fun i => 16 * k + seriesFrameWord i

/-- Cells for the ten series words of every frame record. -/
def frameSeriesCells (nf : Nat) (f : Nat → Nat → Word) : List (Nat × Word) :=
  (List.range nf).flatMap fun k => (List.range 10).map fun i => (16 * k + seriesFrameWord i, f k i)

/-! ### RESAMPLE -/

/-- The time of frame `k`, `rne32(k/FPS)` (R201). -/
def frameTime (F k : Nat) : Word := rne32 (k * 2 ^ 149) F

/-- `h0_k = floor(p_k)`, with `p_k = k·SR/(1024·FPS)` (R202). -/
def framePos (sr F k : Nat) : Nat := k * sr * 2 ^ 149 / (1024 * F)

/-- `rne32(φ_k)`, the rounded fraction of the position (R202, R203). -/
def frameFrac (sr F k : Nat) : Word := rne32 (k * sr * 2 ^ 149 % (1024 * F)) (1024 * F)

/-- Linear interpolation between two hop values (R203). -/
def interpolate (fr x0 x1 : Word) : Word := add32 (mul32 x0 (sub32 one32 fr)) (mul32 x1 fr)

/-- `V_i[k]`: the value of series `i` resampled to frame `k` (R203). -/
def resampledValue (s : State) (k i : Nat) : Word :=
  let n := s.nhops.toNat
  let h0 := framePos s.sr.toNat s.fpsUnits k
  if n - 1 ≤ h0 then s.hopWord (n - 1) (seriesHopWord i)
  else interpolate (frameFrac s.sr.toNat s.fpsUnits k) (s.hopWord h0 (seriesHopWord i))
    (s.hopWord (h0 + 1) (seriesHopWord i))

/-- The sixteen words of frame record `k` as RESAMPLE writes them (R205). -/
def frameRecord (s : State) (k : Nat) : List Word :=
  [frameTime s.fpsUnits k, word k] ++ (List.range 10).map (resampledValue s k) ++ [zero32, zero32, zero32]
    ++ [word (min (framePos s.sr.toNat s.fpsUnits k) (s.nhops.toNat - 1))]

/-- What RESAMPLE writes (R205): every word of every frame record, STAGE <- 5. -/
def State.resampled (s : State) : State :=
  { s.putCells .frame (cellsFrom 0 ((List.range s.nframes.toNat).flatMap (frameRecord s))) with stage := .resampled }

/-- RESAMPLE's checks and effects (R205). -/
def resampleBody (s : State) : Cmd State := do
  requireStage s .tempo
  assumeConfig s
  let hs ← readWords s.mem .hopf (hopSeriesIndices s.nhops.toNat)
  assumeFeatures hs
  assumeFinite ((List.range s.nframes.toNat).flatMap fun k =>
    frameTime s.fpsUnits k :: (List.range 10).map (resampledValue s k))
  .ok s.resampled

/-- RESAMPLE (R205). -/
def execResample (s : State) : Host.Outcome State Fault Refusal := finish s (resampleBody s)

/-! ### SMOOTH -/

/-- The recurrence of R206 after a previous value. -/
def emaFrom (lam c prev : Word) : List Word → List Word
  | [] => []
  | x :: rest =>
    let y := add32 (mul32 lam prev) (mul32 c x)
    y :: emaFrom lam c y rest

/-- The forward pass (R206): it starts from the first value. -/
def emaForward (lam c : Word) : List Word → List Word
  | [] => []
  | x :: rest => x :: emaFrom lam c x rest

/-- The backward pass (R207): the same recurrence from the last value down. -/
def emaBackward (lam c : Word) (y : List Word) : List Word := (emaForward lam c y.reverse).reverse

/-- The smoothed series (R206, R207), with `c = sub32(1.0, λ)`. -/
def smoothSeries (lam : Word) (x : List Word) : List Word :=
  let c := sub32 one32 lam
  emaBackward lam c (emaForward lam c x)

/-- Series `i` of the frame records (R208). -/
def frameSeries (s : State) (i : Nat) : List Word :=
  (List.range s.nframes.toNat).map fun k => s.frameWord k (seriesFrameWord i)

/-- The smoothed series, one list for each series (R208). -/
def smoothedTable (s : State) : List (List Word) :=
  (List.range 10).map fun i => smoothSeries s.smooth (frameSeries s i)

/-- What SMOOTH writes (R208): the ten series words of every frame record, STAGE <- 6. -/
def State.smoothed (s : State) : State :=
  let z := smoothedTable s
  { s.putCells .frame (frameSeriesCells s.nframes.toNat fun k i => (z.getD i []).getD k zero32) with
    stage := .smoothed }

/-- SMOOTH's checks and effects (R208). -/
def smoothBody (s : State) : Cmd State := do
  requireStage s .resampled
  assumeConfig s
  let xs ← readWords s.mem .frame (frameSeriesIndices s.nframes.toNat)
  assumeFeatures xs
  assumeFinite (smoothedTable s).flatten
  .ok s.smoothed

/-- SMOOTH (R208). -/
def execSmooth (s : State) : Host.Outcome State Fault Refusal := finish s (smoothBody s)

/-! ### NORMALIZE -/

/-- `P_i`, the peak of series `i` (R209): the centroid's is `rne32(SR/2)`. -/
def seriesPeak (s : State) (i : Nat) : Word :=
  if i < 7 then s.peakBands.get i else if i = 7 then s.peakRms else if i = 8 then rne32 s.sr.toNat 2 else s.peakFlux

/-- Normalising one value (R210). -/
def normalise (v p : Word) : Word :=
  if magUnits p = 0 then zero32 else min32 one32 (max32 zero32 (div32 v p))

/-- What NORMALIZE writes (R211): the ten series words of every frame record, STAGE <- 7. -/
def State.normalized (s : State) : State :=
  { s.putCells .frame (frameSeriesCells s.nframes.toNat fun k i =>
      normalise (s.frameWord k (seriesFrameWord i)) (seriesPeak s i)) with
    stage := .normalized }

/-- NORMALIZE's checks and effects (R211). -/
def normalizeBody (s : State) : Cmd State := do
  requireStage s .smoothed
  assumeConfig s
  let xs ← readWords s.mem .frame (frameSeriesIndices s.nframes.toNat)
  assumeFeatures xs
  assumeFeatures ((List.range 10).map (seriesPeak s))
  .ok s.normalized

/-- NORMALIZE (R211). -/
def execNormalize (s : State) : Host.Outcome State Fault Refusal := finish s (normalizeBody s)

/-! ### BEAT -/

/-- The frame of the onset at hop `o` (R212): `floor(o·1024·FPS/SR)`. -/
def onsetFrame (sr F o : Nat) : Nat := o * 1024 * F / (2 ^ 149 * sr)

/-- `t_k − o_j` as a numerator over `F·SR`, 0 if the onset is not before the frame's start (R214, R215). -/
def sinceOnset (sr F k o : Nat) : Nat := k * 2 ^ 149 * sr - o * 1024 * F

/-- The onset `jp` of R214, the last one whose frame is at most `k`, with the onset after it. -/
def beatAnchor (sr F k : Nat) : List Nat → Option (Nat × Option Nat)
  | [] => none
  | o :: rest =>
    match beatAnchor sr F k rest with
    | some a => some a
    | none => if onsetFrame sr F o ≤ k then some (o, rest.head?) else none

/-- is_beat of frame `k` (R213). -/
def isBeat (sr F : Nat) (ons : List Nat) (k : Nat) : Word :=
  if ons.any fun o => onsetFrame sr F o == k then one32 else zero32

/-- beat_intensity of frame `k` (R214). -/
def beatIntensity (sr F : Nat) (ons : List Nat) (k : Nat) : Word :=
  match beatAnchor sr F k ons with
  | none => zero32
  | some (o, _) =>
    if onsetFrame sr F o = k then one32
    else
      let a := neg32 (rne32 (20 * sinceOnset sr F k o) (3 * F * sr))
      min32 one32 (max32 zero32 (numExp a))

/-- The phase word of an exact ratio (R215): rounded, and kept below 1. -/
def phaseWord (num den : Nat) : Word :=
  let u := rne32 num den
  if realUnits u < 2 ^ 149 then u else belowOne32

/-- beat_phase of frame `k` (R215); `lag` is the tempo's lag if one was found. -/
def beatPhase (sr F : Nat) (lag : Option Nat) (ons : List Nat) (k : Nat) : Word :=
  match beatAnchor sr F k ons with
  | none => zero32
  | some (o, some next) => phaseWord (sinceOnset sr F k o) (F * 1024 * (next - o))
  | some (o, none) =>
    match lag with
    | none => zero32
    | some lag => phaseWord (sinceOnset sr F k o % (F * 1024 * lag)) (F * 1024 * lag)

/-- The tempo's lag, if `TEMPO_FOUND = 1` (R190). -/
def State.foundLag (s : State) : Option Nat := if s.tempoFound then some s.tempoLag.toNat else none

/-- The onset list is strictly increasing (R55) and a found tempo has a nonzero lag (R190), as the stage says (log 15). -/
def beatInputsHold (s : State) (ons : List Nat) : Bool :=
  decide (ons.Pairwise (· < ·)) && (!s.tempoFound || s.tempoLag.toNat != 0)

/-- The beat words of frame `k` as cells, in the order of R216. -/
def beatCells (s : State) (ons : List Nat) (k : Nat) : List (Nat × Word) :=
  let sr := s.sr.toNat
  let F := s.fpsUnits
  [(16 * k + 14, isBeat sr F ons k), (16 * k + 12, beatIntensity sr F ons k),
    (16 * k + 13, beatPhase sr F s.foundLag ons k)]

/-- What BEAT writes for an onset list (R216): the three beat words of every frame record, STAGE <- 8. -/
def State.withBeats (s : State) (ons : List Nat) : State :=
  { s.putCells .frame ((List.range s.nframes.toNat).flatMap (beatCells s ons)) with stage := .complete }

/-- BEAT's checks and effects (R216). -/
def beatBody (s : State) : Cmd State := do
  requireStage s .normalized
  assumeConfig s
  let ons ← readOnsets s
  assume (beatInputsHold s ons) .inconsistent
  .ok (s.withBeats ons)

/-- BEAT (R216). -/
def execBeat (s : State) : Host.Outcome State Fault Refusal := finish s (beatBody s)

end Sys2Proof.Machine
end

