-- ==== Sys2Proof/Machine/Spectral.lean ====
section
/-! DEFINITION. The windowed FFT engine, the per-hop features and the band aggregator: SPECTRUM and ANALYZE
(41_spectral.md). -/

namespace Sys2Proof.Machine

/-! ### Per-hop functions -/

/-- The raw window from the samples it covers: zero-padded at the tail to 2048 words (R140). -/
def padWindow (x : List Word) : List Word := x ++ List.replicate (2048 - x.length) zero32

/-- The raw window of hop `h` of a stream (R140). -/
def hopWindow (samples : List Word) (h : Nat) : List Word := padWindow ((samples.drop (h * 1024)).take 2048)

/-- The windowed samples `s[n] = mul32(x[n], w[n])` (R143, R144). -/
def windowed (sym : Bool) (x : List Word) : List Word := List.zipWith mul32 x ((List.range 2048).map (hann sym))

/-- The waveform: point `j` averages the windowed samples `4j` to `4j+3` (R153). -/
def waveform : List Word → List Word
  | a :: b :: c :: d :: rest => mul32 quarter32 (add32 (add32 (add32 a b) c) d) :: waveform rest
  | _ => []

/-- The weight of bin `k` in Parseval's sum (R146). -/
def parsevalWeight (k : Nat) : Word := if k = 0 ∨ k = 1024 then one32 else two32

/-- rms (R146). -/
def rmsOf (m : List Word) : Word :=
  let acc := m.zipIdx.foldl (fun acc c => add32 acc (mul32 (parsevalWeight c.2) (mul32 c.1 c.1))) zero32
  div32 (sqrt32 acc) w2048

/-- The centre frequency of bin `k` (R147). -/
def binFreq (sr k : Nat) : Word := rne32 (k * sr) 2048

/-- The spectral centroid (R148). -/
def centroidOf (sr : Nat) (m : List Word) : Word :=
  let num := m.zipIdx.foldl (fun num c => add32 num (mul32 (binFreq sr c.2) c.1)) zero32
  let den := m.foldl add32 zero32
  if magUnits den = 0 then zero32 else div32 num den

/-- The lower edge of a band in Hz (R7). -/
def bandLo : Nat → Nat
  | 0 => 20
  | 1 => 60
  | 2 => 250
  | 3 => 500
  | 4 => 2000
  | 5 => 4000
  | _ => 6000

/-- The upper edge of a band in Hz, outside the band (R7). -/
def bandHi : Nat → Nat
  | 0 => 60
  | 1 => 250
  | 2 => 500
  | 3 => 2000
  | 4 => 4000
  | 5 => 6000
  | _ => 20000

/-- Bin `k` belongs to band `b` (R149). -/
def inBand (sr b k : Nat) : Bool := decide (bandLo b * 2048 ≤ k * sr) && decide (k * sr < bandHi b * 2048)

/-- The magnitudes of the bins of a band, in increasing bin order (R149). -/
def bandBins (sr : Nat) (m : List Word) (b : Nat) : List Word :=
  (m.zipIdx.filter fun c => inBand sr b c.2).map Prod.fst

/-- A band mean (R150). -/
def bandMean (sr : Nat) (m : List Word) (b : Nat) : Word :=
  let bins := bandBins sr m b
  if bins.length = 0 then zero32 else div32 (bins.foldl add32 zero32) (rne32 bins.length 1)

/-- One term of the flux: a bin counts only if its magnitude rose (R151). -/
def fluxTerm (acc : Word) (c : Word × Word) : Word :=
  let d := sub32 c.1 c.2
  if isFinite d && decide (realUnits d ≤ 0) then acc else add32 acc (mul32 d d)

/-- The spectral flux of magnitudes `m` after magnitudes `p` (R151). -/
def fluxOf (m p : List Word) : Word := sqrt32 ((m.zip p).foldl fluxTerm zero32)

/-- The peak amplitude of a raw window (R152). -/
def peakOf (x : List Word) : Word := x.foldl (fun pk v => max32 pk (abs32 v)) zero32

/-- The features of one hop (R157). -/
structure HopRecord where
  rms : Word
  centroid : Word
  flux : Word
  bands : Bands
  peak : Word
  deriving DecidableEq, Repr

/-- The twelve words of a hop record as ANALYZE writes them; the threshold word is +0.0 (R157). -/
def HopRecord.words (r : HopRecord) : List Word :=
  [r.rms, r.centroid, r.flux] ++ r.bands.toList ++ [r.peak, zero32]

/-- The magnitudes of hop `h` of a stream (R143 to R145). -/
def hopMagnitudes (sym : Bool) (samples : List Word) (h : Nat) : List Word :=
  fftmag (windowed sym (hopWindow samples h))

/-- The magnitudes the flux of hop `h` compares with: those of hop `h − 1`, or all +0.0 for hop 0 (R151). -/
def previousMagnitudes (sym : Bool) (samples : List Word) : Nat → List Word
  | 0 => List.replicate 1025 zero32
  | h + 1 => hopMagnitudes sym samples h

/-- The features of hop `h` of a stream (R156). -/
def hopRecord (sr : Nat) (sym : Bool) (samples : List Word) (h : Nat) : HopRecord :=
  let m := hopMagnitudes sym samples h
  { rms := rmsOf m
    centroid := centroidOf sr m
    flux := fluxOf m (previousMagnitudes sym samples h)
    bands := Bands.tabulate (bandMean sr m)
    peak := peakOf (hopWindow samples h) }

/-- A global peak: the largest of a feature over the hops, from +0.0 (R154). -/
def globalPeak (f : HopRecord → Word) (rs : List HopRecord) : Word := rs.foldl (fun p r => max32 p (f r)) zero32

/-! ### SPECTRUM -/

/-- The PCM words of the window of hop `h` (R140, R155). -/
def windowIndices (nsamp h : Nat) : List Nat :=
  List.range' (h * 1024) (min nsamp (h * 1024 + 2048) - h * 1024)

/-- What SPECTRUM writes for the windowed samples `w` (R155, R158): MAG and WAVE. -/
def State.withSpectrum (s : State) (w : List Word) : State :=
  (s.putCells .mag (cellsFrom 0 (fftmag w))).putCells .wave (cellsFrom 0 (waveform w))

/-- SPECTRUM's checks and effects (R155). -/
def spectrumBody (h : Nat) (s : State) : Cmd State := do
  check (s.stage != .invalid) .seq
  assumeConfig s
  check (h < s.nhops.toNat) .range
  let x ← readPcm s.mem (windowIndices s.nsamp.toNat h)
  let w := windowed s.hannSym (padWindow x)
  assumeFinite (fftmag w ++ waveform w)
  .ok (s.withSpectrum w)

/-- SPECTRUM (R155). -/
def execSpectrum (h : Nat) (s : State) : Host.Outcome State Fault Refusal := finish s (spectrumBody h s)

/-! ### ANALYZE -/

/-- What ANALYZE writes for a checked stream (R156 to R158): all hop records, the last hop's magnitudes and waveform,
the global peaks, STAGE <- 2. -/
def State.analyzed (s : State) (samples : List Word) (rs : List HopRecord) : State :=
  let w := windowed s.hannSym (hopWindow samples (s.nhops.toNat - 1))
  { (s.putCells .hopf (cellsFrom 0 (rs.flatMap HopRecord.words))).withSpectrum w with
    peakAmp := globalPeak HopRecord.peak rs
    peakRms := globalPeak HopRecord.rms rs
    peakFlux := globalPeak HopRecord.flux rs
    peakBands := Bands.tabulate fun b => globalPeak (fun r => r.bands.get b) rs
    stage := .analyzed }

/-- The hop records of the whole stream (R156). -/
def hopRecords (s : State) (samples : List Word) : List HopRecord :=
  (List.range s.nhops.toNat).map (hopRecord s.sr.toNat s.hannSym samples)

/-- ANALYZE's checks and effects (R156). -/
def analyzeBody (s : State) : Cmd State := do
  requireStage s .configured
  assumeConfig s
  let samples ← readPcm s.mem (List.range s.nsamp.toNat)
  let rs := hopRecords s samples
  let w := windowed s.hannSym (hopWindow samples (s.nhops.toNat - 1))
  assumeFinite (rs.flatMap HopRecord.words ++ fftmag w ++ waveform w)
  .ok (s.analyzed samples rs)

/-- ANALYZE (R156). -/
def execAnalyze (s : State) : Host.Outcome State Fault Refusal := finish s (analyzeBody s)

end Sys2Proof.Machine
end

