-- ==== Sys2Proof/Machine/Run.lean ====
section
/-! DEFINITION. RUN, the whole pipeline as one command (40_control.md R129, R130). -/

namespace Sys2Proof.Machine

/-- The commands RUN performs, in order, each with its own stage check and checks (R129). -/
def runCommands : List (State → Cmd State) :=
  [configBody, analyzeBody, onsetBody, tempoBody, resampleBody, smoothBody, normalizeBody, beatBody]

/-- RUN (R129, R130). -/
def execRun (s : State) : Host.Outcome State Fault Refusal := runSequence runCommands s

end Sys2Proof.Machine
end

