-- ==== Sys2Proof/Machine/Dispatch.lean ====
section
/-! DEFINITION. One arm for each command of spec/opcode_table.json. -/

namespace Sys2Proof.Machine

def exec (i : Instr) (s : State) : Host.Outcome State Fault Refusal :=
  match i with
  | .nop => Sys2Proof.Machine.execNop s
  | .config => Sys2Proof.Machine.execConfig s
  | .spectrum h => Sys2Proof.Machine.execSpectrum h s
  | .analyze => Sys2Proof.Machine.execAnalyze s
  | .onset => Sys2Proof.Machine.execOnset s
  | .tempo => Sys2Proof.Machine.execTempo s
  | .resample => Sys2Proof.Machine.execResample s
  | .smooth => Sys2Proof.Machine.execSmooth s
  | .normalize => Sys2Proof.Machine.execNormalize s
  | .beat => Sys2Proof.Machine.execBeat s
  | .run => Sys2Proof.Machine.execRun s

end Sys2Proof.Machine
end

