-- ==== Sys2Proof/Machine/HostPort.lean ====
section
/-! DEFINITION. The host interface: the register map (10_state.md section 2), host reads and writes (20_memory.md R71 to
R82), acceptance of commands (40_control.md R120), and the resets (70_reset_and_hazards.md R270 to R272). -/

namespace Sys2Proof.Machine

/-- The registers of the register window (10_state.md register table). -/
inductive Reg where
  | id | ctrl | status | cmd | irqEn | paramPmax | paramFmax | sr | nsamp | fps | smooth | nhops | nframes | onsetCount
  | tempoLag | tempoBpm | peakAmp | peakRms | peakFlux | peakBand (b : Nat) | bufSel | bufIdx | bufData | bufCap
  deriving DecidableEq, Repr

/-- The register at a byte offset (10_state.md register table); none is reserved (R45). -/
def regAt (off : Nat) : Option Reg :=
  match off with
  | 0x000 => some .id
  | 0x004 => some .ctrl
  | 0x008 => some .status
  | 0x00C => some .cmd
  | 0x010 => some .irqEn
  | 0x014 => some .paramPmax
  | 0x018 => some .paramFmax
  | 0x020 => some .sr
  | 0x024 => some .nsamp
  | 0x028 => some .fps
  | 0x02C => some .smooth
  | 0x030 => some .nhops
  | 0x034 => some .nframes
  | 0x038 => some .onsetCount
  | 0x03C => some .tempoLag
  | 0x040 => some .tempoBpm
  | 0x044 => some .peakAmp
  | 0x048 => some .peakRms
  | 0x04C => some .peakFlux
  | 0x050 => some (.peakBand 0)
  | 0x054 => some (.peakBand 1)
  | 0x058 => some (.peakBand 2)
  | 0x05C => some (.peakBand 3)
  | 0x060 => some (.peakBand 4)
  | 0x064 => some (.peakBand 5)
  | 0x068 => some (.peakBand 6)
  | 0x080 => some .bufSel
  | 0x084 => some .bufIdx
  | 0x088 => some .bufData
  | 0x08C => some .bufCap
  | _ => none

/-- The value of `ID` (R2, R21). -/
def idWord : Word := 0x534F4E01

/-- What a register reads while no command runs (R73). `BUF_DATA` holds no value (R43): its reads are `portRead`. -/
def readReg (s : State) : Reg → Word
  | .id => idWord
  | .ctrl => word (2 * s.hannSym.toNat)
  | .status => statusWord s
  | .cmd => 0
  | .irqEn => irqEnWord s
  | .paramPmax => word Config.pMax
  | .paramFmax => word Config.frameMax
  | .sr => s.sr
  | .nsamp => s.nsamp
  | .fps => s.fps
  | .smooth => s.smooth
  | .nhops => s.nhops
  | .nframes => s.nframes
  | .onsetCount => s.onsetCount
  | .tempoLag => s.tempoLag
  | .tempoBpm => s.tempoBpm
  | .peakAmp => s.peakAmp
  | .peakRms => s.peakRms
  | .peakFlux => s.peakFlux
  | .peakBand b => s.peakBands.get b
  | .bufSel => s.bufSel.zeroExtend 32
  | .bufIdx => s.bufIdx
  | .bufData => 0
  | .bufCap => word (capacity (selectedBuffer s.bufSel))

/-- The result registers, which read unspecified values while a command runs (R73(b)). -/
def isResultReg : Reg → Bool
  | .nhops | .nframes | .onsetCount | .tempoLag | .tempoBpm | .peakAmp | .peakRms | .peakFlux | .peakBand _ => true
  | .id | .ctrl | .status | .cmd | .irqEn | .paramPmax | .paramFmax | .sr | .nsamp | .fps | .smooth | .bufSel | .bufIdx
  | .bufData | .bufCap => false

/-- The host access is 32 bits wide at a multiple-of-4 offset (R71). -/
def wellAligned (size : Nat) (off : BitVec 12) : Bool := size == 4 && off.toNat % 4 == 0

/-- A read returns `v` to the host. -/
def State.respond (s : State) (v : Word) : State := { s with readData := some v }

/-- The next free value (log 4). -/
def State.free (s : State) : Word := Config.freeWord s.freeCtr

/-- A read returns a value made of the next free one. -/
def State.respondFree (s : State) (f : Word → Word) : State :=
  { s with readData := some (f s.free), freeCtr := s.freeCtr + 1 }

/-- A read of `BUF_DATA` (R80). -/
def portRead (s : State) : Host.Outcome State Fault Refusal :=
  let b := selectedBuffer s.bufSel
  let i := s.bufIdx.toNat
  if s.busy then .next (s.reject.respondFree fun v => v)
  else if capacity b ≤ i then .next ((s.recordError .bufAcc).respond 0)
  else
    match s.bufWord b i with
    | none => .fault (.unwritten b i)
    | some v => .next { s.respond v with bufIdx := s.bufIdx + 1 }

/-- A host read (R71, R73, R80). -/
def hostRead (s : State) (size : Nat) (off : BitVec 12) : Host.Outcome State Fault Refusal :=
  if !wellAligned size off then .fault .busError
  else
    match regAt off.toNat with
    | none => .next (s.respond 0)
    | some .bufData => portRead s
    | some .status => .next (if s.busy then s.respondFree (busyStatusWord s) else s.respond (statusWord s))
    | some r => .next (if s.busy && isResultReg r then s.respondFree fun v => v else s.respond (readReg s r))

/-! ### Resets -/

/-- The buffer words an aborted command may write lose their marks (R272). `nh` and `nf` are the counts. -/
def abortRecords (m : Memory) (nh : Nat) : Memory :=
  ((m.clear .hopf fun i => decide (i < 12 * nh)).clear .mag fun i => decide (i < 1025)).clear .wave fun i => decide (i < 512)

/-- The ONSET row of R272. -/
def abortOnsets (m : Memory) (nh : Nat) : Memory :=
  (m.clear .hopf fun i => decide (i < 12 * nh) && i % 12 == 11).clear .onset fun i => decide (i < nh)

/-- The TEMPO row of R272. -/
def abortTempo (m : Memory) : Memory := m.clear .acorr fun i => decide (i < 256)

/-- The frame rows of R272. -/
def abortFrames (m : Memory) (nf : Nat) : Memory := m.clear .frame fun i => decide (i < 16 * nf)

/-- The memory after the running command is aborted, by the table of R272. -/
def abortCommand (s : State) (i : Instr) : Memory :=
  let nh := s.nhops.toNat
  let nf := s.nframes.toNat
  match i with
  | .nop | .config => s.mem
  | .spectrum _ => (s.mem.clear .mag fun i => decide (i < 1025)).clear .wave fun i => decide (i < 512)
  | .analyze => abortRecords s.mem nh
  | .onset => abortOnsets s.mem nh
  | .tempo => abortTempo s.mem
  | .resample | .smooth | .normalize | .beat => abortFrames s.mem nf
  | .run =>
    match configCounts s with
    | .error _ => s.mem
    | .ok (nh, nf) => abortFrames (abortTempo (abortOnsets (abortRecords s.mem nh) nh)) nf

/-- The memory a soft reset leaves (R271, R272): kept, less what an aborted command may write. A latched word that is no
command may write nothing (log 16). -/
def State.memAfterAbort (s : State) : Memory :=
  match s.fetch with
  | none => s.mem
  | some w =>
    match decode w with
    | .error _ => s.mem
    | .ok i => abortCommand s i

/-- Hard reset (R270): every register at its reset value, every word unwritten. The events to come and what the host has
read are not the engine's. -/
def State.hardReset (s : State) : State :=
  { State.reset with inputs := s.inputs, readData := s.readData, freeCtr := s.freeCtr }

/-- Soft reset (R271, R272): every register at its reset value, the buffers kept but for an aborted command's words. -/
def State.softReset (s : State) : State :=
  { State.reset with mem := s.memAfterAbort, inputs := s.inputs, readData := s.readData, freeCtr := s.freeCtr }

/-! ### Host writes -/

/-- A write of a configuration or port register: rejected while busy (R75), done otherwise. -/
def State.unlessBusy (s t : State) : State := if s.busy then s.reject else t

/-- A write to `CMD` (R79, R120). -/
def offerCommand (s : State) (v : Word) : State := if s.busy || s.err then s.reject else s.accept v

/-- A write to `BUF_DATA` (R81). -/
def portWrite (s : State) (v : Word) : State :=
  if s.busy then s.reject
  else if selectedBuffer s.bufSel ≠ .pcm then s.recordError .bufAcc
  else if Config.pMax ≤ s.bufIdx.toNat then s.recordError .bufAcc
  else { (s.putCells .pcm [(s.bufIdx.toNat, v)]).invalidate with bufIdx := s.bufIdx + 1 }

/-- A write of `v` to a register (R74 to R82). -/
def writeReg (s : State) (v : Word) : Reg → State
  | .ctrl =>
    if v.getLsbD 0 then s.softReset else s.unlessBusy { s with hannSym := v.getLsbD 1 }.invalidate
  | .status => s.ackStatus v
  | .cmd => offerCommand s v
  | .irqEn => { s with doneIe := v.getLsbD 0, errIe := v.getLsbD 1, rejIe := v.getLsbD 2 }
  | .sr => s.unlessBusy { s with sr := v }.invalidate
  | .nsamp => s.unlessBusy { s with nsamp := v }.invalidate
  | .fps => s.unlessBusy { s with fps := v }.invalidate
  | .smooth => s.unlessBusy { s with smooth := v }.invalidate
  | .bufSel => s.unlessBusy { s with bufSel := v.truncate 3 }
  | .bufIdx => s.unlessBusy { s with bufIdx := v }
  | .bufData => portWrite s v
  | .id | .paramPmax | .paramFmax | .nhops | .nframes | .onsetCount | .tempoLag | .tempoBpm | .peakAmp | .peakRms
  | .peakFlux | .peakBand _ | .bufCap => s

/-- A host write (R71, R74 to R82). -/
def hostWrite (s : State) (size : Nat) (off : BitVec 12) (v : Word) : Host.Outcome State Fault Refusal :=
  if !wellAligned size off then .fault .busError
  else
    match regAt off.toNat with
    | none => .next s
    | some r => .next (writeReg s v r)

end Sys2Proof.Machine
end

