-- ==== Sys2Proof/Machine/Engine.lean ====
section
/-! DEFINITION. The engine's turn (40_control.md R121) and what one event does. -/

namespace Sys2Proof.Machine

/-- The engine's turn: with a command latched, its whole step (R121), a word that is no command failing with
`ERR_BADCMD` (R104, R105); otherwise it is idle and keeps all state (R258). -/
def engineTurn (s : State) : Host.Outcome State Fault Refusal :=
  match s.fetch with
  | none => .next s
  | some w =>
    match decode w with
    | .ok i => exec i s
    | .error _ => .next (s.fail .badCmd)

/-- One event from outside, or the engine's turn (R87, R121). -/
def applyEvent (s : State) : Event → Host.Outcome State Fault Refusal
  | .engine => engineTurn s
  | .read size off => hostRead s size off
  | .write size off v => hostWrite s size off v
  | .hardReset => .next s.hardReset

end Sys2Proof.Machine
end

