-- ==== Sys2Proof/Machine/Step.lean ====
section
/-! DEFINITION. One step of the machine: the next event, or the engine's turn when no event is left (log 2). -/

namespace Sys2Proof.Machine

/-- One step (R87, R121): the first event of `inputs` takes effect and is gone; with none left the engine takes its turn,
so a latched command is always completed in the end (R284). -/
def step (s : State) : Host.Outcome State Fault Refusal :=
  match s.inputs with
  | [] => engineTurn s
  | e :: rest => applyEvent { s with inputs := rest } e

/-- The state whose next step runs the command word with the low `nbits` bits of `w`: the word accepted as R120 accepts
it, and no host access before the engine's turn (log 1). -/
def State.withFetchWord (s : State) (nbits w : Nat) : State := s.placeCommand (tableWord nbits w)

end Sys2Proof.Machine
end

