-- ==== Sys2Proof/Safety.lean ====
section
/-! DEFINITION. What claims about the machine speak of: the real value of a word and correct rounding, the reachable
states, the invariants that every step keeps, the buffers a command may write, and a pipeline issued command by command. -/

namespace Sys2Proof.Machine

/-! ### Numbers -/

/-- The real value of a finite word (R11). -/
def realValue (w : Word) : ℚ := (realUnits w : ℚ) / 2 ^ 149

/-- `w` is the binary32 value nearest `q`, ties to even (R12). -/
def IsNearest (w : Word) (q : ℚ) : Prop :=
  isFinite w = true ∧ ∀ v : Word, isFinite v = true →
    |realValue w - q| ≤ |realValue v - q| ∧
      (|realValue v - q| = |realValue w - q| → realValue v = realValue w ∨ w.getLsbD 0 = false)

/-- Below the halfway point above the largest finite word: such a number rounds to a finite word. -/
def InRange (q : ℚ) : Prop := |q| < 2 ^ 128 - 2 ^ 103

/-- A bound on the features that ANALYZE stores, 2^80, in units of 2^-149. It is the model's own number, deduced and not
assumed: rms and flux are finite where ANALYZE completes, and then no feature passes it (log 8). -/
def featureCap : Nat := 2 ^ (80 + 149)

/-- A word that is a feature (R145, R180) of at most `featureCap`. -/
def BoundedFeature (v : Word) : Prop := isFeature v = true ∧ magUnits v ≤ featureCap

/-! ### Runs -/

/-- The states of the runs of the machine: from reset, with any host accesses to come. -/
inductive Reachable : State → Prop where
  | start (inputs : List Event) : Reachable { State.reset with inputs := inputs }
  | next (s t : State) (before : Reachable s) (one : step s = .next t) : Reachable t

/-- The commands that RUN performs, in order (R129). -/
def pipeline : List Instr := [.config, .analyze, .onset, .tempo, .resample, .smooth, .normalize, .beat]

/-- Commands run one after another, each as a command of its own, until one records an error. -/
def runInTurn : List Instr → State → Host.Outcome State Fault Refusal
  | [], s => .next s
  | i :: rest, s =>
    match exec i s with
    | .next t => if t.err then .next t else runInTurn rest t
    | .fault f => .fault f
    | .refused r => .refused r

/-- The PCM stream (R51): words 0 to NSAMP − 1 of PCM, every one written. -/
def IsStream (s : State) (xs : List Word) : Prop :=
  xs.length = s.nsamp.toNat ∧ ∀ n v, xs[n]? = some v → s.mem.read .pcm n = some v

/-- The features of hop `h` of a stream that can overflow, with a `NUM` whose magnitudes are large enough, are finite
(R16, log 8). -/
def HopIsFinite (s : State) (xs : List Word) (h : Nat) : Prop :=
  isFinite (hopRecord s.sr.toNat s.hannSym xs h).rms = true ∧ isFinite (hopRecord s.sr.toNat s.hannSym xs h).flux = true

/-! ### Stages and buffers -/

/-- The required stage of a command (R122). -/
def stageAllows : Instr → Stage → Bool
  | .nop, _ | .config, _ | .run, _ => true
  | .spectrum _, st => st != .invalid
  | .analyze, st => st == .configured
  | .onset, st => st == .analyzed
  | .tempo, st => st == .onsets
  | .resample, st => st == .tempo
  | .smooth, st => st == .resampled
  | .normalize, st => st == .smoothed
  | .beat, st => st == .normalized

/-- The stage after a command succeeds (R122). -/
def stageAfter : Instr → Stage → Stage
  | .nop, st | .spectrum _, st => st
  | .config, _ => .configured
  | .analyze, _ => .analyzed
  | .onset, _ => .onsets
  | .tempo, _ => .tempo
  | .resample, _ => .resampled
  | .smooth, _ => .smoothed
  | .normalize, _ => .normalized
  | .beat, _ | .run, _ => .complete

/-- The buffers a command writes (R125, R155, R156, R185, R190, R205, R208, R211, R216, R129). -/
def writesBuffer : Instr → BufId → Bool
  | .nop, _ | .config, _ => false
  | .spectrum _, b => b == .mag || b == .wave
  | .analyze, b => b == .hopf || b == .mag || b == .wave
  | .onset, b => b == .hopf || b == .onset
  | .tempo, b => b == .acorr
  | .resample, b | .smooth, b | .normalize, b | .beat, b => b == .frame
  | .run, b => b != .pcm && b != .hann

/-- The words whose marks a soft reset clears when it aborts a command, by the table of R272, with the counts `nh` hop
records and `nf` frame records. -/
def abortedWord (nh nf : Nat) : Instr → BufId → Nat → Prop
  | .nop, _, _ | .config, _, _ => False
  | .spectrum _, b, k => (b = .mag ∧ k < 1025) ∨ (b = .wave ∧ k < 512)
  | .analyze, b, k => (b = .hopf ∧ k < 12 * nh) ∨ (b = .mag ∧ k < 1025) ∨ (b = .wave ∧ k < 512)
  | .onset, b, k => (b = .hopf ∧ ∃ h, h < nh ∧ k = 12 * h + 11) ∨ (b = .onset ∧ k < nh)
  | .tempo, b, k => b = .acorr ∧ k < 256
  | .resample, b, k | .smooth, b, k | .normalize, b, k | .beat, b, k => b = .frame ∧ k < 16 * nf
  | .run, b, k =>
    (b = .hopf ∧ k < 12 * nh) ∨ (b = .mag ∧ k < 1025) ∨ (b = .wave ∧ k < 512) ∨ (b = .onset ∧ k < nh) ∨
      (b = .acorr ∧ k < 256) ∨ (b = .frame ∧ k < 16 * nf)

/-! ### Invariants -/

/-- While a command is latched no error is recorded and DONE is 0 (R120, R250). -/
def BusyInv (s : State) : Prop := s.busy = true → s.err = false ∧ s.done = false

/-- The memory is in its canonical form and no index is beyond its buffer's capacity (R50). -/
def MemoryInv (s : State) : Prop :=
  s.mem.wf = true ∧ ∀ b k v, s.mem.read b k = some v → k < capacity b

/-- A nonzero STAGE says that the registers hold a configuration that passes CONFIG's checks, and its counts (R249). -/
def ConfigInv (s : State) : Prop := s.stage ≠ .invalid → configHolds s = true

/-- From stage 2 on every hop record is written, with bounded features, and so are the peaks; at stages 5 and 6 the
frame records' series are bounded features too. -/
def FeatureInv (s : State) : Prop :=
  (2 ≤ stageNumber s.stage →
    (∀ h j, h < s.nhops.toNat → j < 11 → ∃ v, s.mem.read .hopf (12 * h + j) = some v ∧ BoundedFeature v) ∧
      ∀ i, i < 10 → BoundedFeature (seriesPeak s i)) ∧
  ((s.stage = .resampled ∨ s.stage = .smoothed) →
    ∀ k i, k < s.nframes.toNat → i < 10 → ∃ v, s.mem.read .frame (16 * k + 2 + i) = some v ∧ BoundedFeature v)

/-- From stage 3 on the onset list holds ONSET_COUNT hop indices in strictly increasing order, at least 0.15 s apart
(R55, R184). -/
def OnsetInv (s : State) : Prop :=
  3 ≤ stageNumber s.stage → ∃ ons : List Nat,
    ons.length = s.onsetCount.toNat ∧ (∀ j o, ons[j]? = some o → s.mem.read .onset j = some (word o)) ∧
    ons.Pairwise (fun a b => a < b ∧ 3 * s.sr.toNat ≤ (b - a) * 20480) ∧ (∀ o ∈ ons, o < s.nhops.toNat) ∧
    s.onsetCount.toNat ≤ s.nhops.toNat

/-- A found tempo has a lag of 1 to 187 hops and a value in [60, 200]; from stage 4 on, no tempo means a lag of 0 and a
value of +0.0 (R39, R189, R190). -/
def TempoInv (s : State) : Prop :=
  (s.tempoFound = true → 1 ≤ s.tempoLag.toNat ∧ s.tempoLag.toNat ≤ 187 ∧ isFinite s.tempoBpm = true ∧
    60 ≤ realValue s.tempoBpm ∧ realValue s.tempoBpm ≤ 200) ∧
  (4 ≤ stageNumber s.stage → s.tempoFound = false → s.tempoLag = 0 ∧ s.tempoBpm = 0)

/-- What the pipeline commands rely on. -/
def PipelineInv (s : State) : Prop := ConfigInv s ∧ FeatureInv s ∧ OnsetInv s ∧ TempoInv s

/-- The frame records by stage (R201, R204, R211, R218). -/
def FrameInv (s : State) : Prop :=
  (5 ≤ stageNumber s.stage → ∀ k, k < s.nframes.toNat →
    s.mem.read .frame (16 * k) = some (frameTime s.fpsUnits k) ∧ s.mem.read .frame (16 * k + 1) = some (word k) ∧
      ∃ h, h < s.nhops.toNat ∧ s.mem.read .frame (16 * k + 15) = some (word h)) ∧
  (7 ≤ stageNumber s.stage → ∀ k i, k < s.nframes.toNat → i < 10 →
    ∃ v, s.mem.read .frame (16 * k + 2 + i) = some v ∧ inUnit v = true) ∧
  (s.stage = .complete → ∀ k, k < s.nframes.toNat →
    (∃ v, s.mem.read .frame (16 * k + 12) = some v ∧ inUnit v = true) ∧
    (∃ v, s.mem.read .frame (16 * k + 13) = some v ∧ inUnit v = true ∧ realValue v < 1) ∧
    (s.mem.read .frame (16 * k + 14) = some zero32 ∨ s.mem.read .frame (16 * k + 14) = some one32))

end Sys2Proof.Machine
end

