-- ==== Sys2Proof/Certificates/Slice0/Obligations.lean ====
section
/-! DEFINITION. The statements for the provers, in the order of the spec: encoding, steps, the host interface, reset,
errors, each command, the numerics and the detectors, and the invariants. -/

open Sys2Proof Sys2Proof.Machine

/-! ### Encoding (30_encoding.md) -/

/-- R100 to R103, R106: the word of a command decodes to that command, with its operand, and a word that decodes to a
command is that command's word. -/
def Obligations.DecodeAndEncodeAgree : Prop :=
  (∀ i : Instr, i.wellFormed = true → decode (encode i) = .ok i) ∧
  ∀ (w : Word) (i : Instr), decode w = .ok i → i.wellFormed = true ∧ encode i = w

/-- R106: which words are commands, and the mask/match form of each command. -/
def Obligations.DecodingByMaskAndMatch : Prop :=
  ∀ w : Word,
    ((∃ i, decode w = .ok i) ↔ (w &&& 0xFF).toNat ≤ 0x0A ∧ (w &&& 0xFF = 0x02 ∨ w >>> 8 = 0)) ∧
    ((∃ b, decode w = .error b) ↔ ¬((w &&& 0xFF).toNat ≤ 0x0A ∧ (w &&& 0xFF = 0x02 ∨ w >>> 8 = 0))) ∧
    (∀ i : Instr, (∀ h, i ≠ .spectrum h) → (decode w = .ok i ↔ (w &&& 0xFFFFFFFF).toNat = opcodeOf i)) ∧
    (∀ h, decode w = .ok (.spectrum h) ↔ w &&& 0x000000FF = 0x02 ∧ h = (w >>> 8).toNat)

/-- R103, R105: a word of each row of the opcode map, and words that are no command. -/
def Obligations.CommandWords : Prop :=
  decode 0x00000000 = .ok .nop ∧ decode 0x00000001 = .ok .config ∧ decode 0x00000002 = .ok (.spectrum 0) ∧
  decode 0x00000502 = .ok (.spectrum 5) ∧ decode 0xFFFFFF02 = .ok (.spectrum 0xFFFFFF) ∧
  decode 0x00000003 = .ok .analyze ∧ decode 0x00000004 = .ok .onset ∧ decode 0x00000005 = .ok .tempo ∧
  decode 0x00000006 = .ok .resample ∧ decode 0x00000007 = .ok .smooth ∧ decode 0x00000008 = .ok .normalize ∧
  decode 0x00000009 = .ok .beat ∧ decode 0x0000000A = .ok .run ∧
  decode 0x0000000B = .error (.reservedOpcode 0x0B) ∧ decode 0x000000FF = .error (.reservedOpcode 0xFF) ∧
  decode 0x00000103 = .error (.nonzeroArg 0x03)

/-! ### Steps (40_control.md R121, 20_memory.md R87) -/

/-- R121: the engine's step runs the command that the latched word decodes to, once no host access comes before it. -/
def Obligations.StepRunsTheDecodedCommand : Prop :=
  ∀ (s : State) (w : Word) (i : Instr), s.latch = some w → decode w = .ok i →
    (s.inputs = [] → step s = exec i s) ∧
    ∀ rest, s.inputs = .engine :: rest → step s = exec i { s with inputs := rest }

/-- R87, R258: host accesses take effect one at a time, in order, and the idle engine keeps all state. -/
def Obligations.StepTakesTheNextEvent : Prop :=
  ∀ (s : State) (rest : List Event),
    (∀ size off, s.inputs = .read size off :: rest → step s = hostRead { s with inputs := rest } size off) ∧
    (∀ size off v, s.inputs = .write size off v :: rest → step s = hostWrite { s with inputs := rest } size off v) ∧
    (s.latch = none → s.inputs = [] → step s = .next s) ∧
    (s.latch = none → s.inputs = .engine :: rest → step s = .next { s with inputs := rest })

/-- R104: an accepted word with a reserved opcode fails with ERR_BADCMD and has no other effect. -/
def Obligations.ReservedOpcodesFail : Prop :=
  ∀ (s : State) (w : Word), s.inputs = [] → s.latch = some w → s.error = none → 0x0B ≤ (w &&& 0xFF).toNat →
    step s = .next { s with error := some .badCmd, latch := none }

/-- R105: a nonzero ARG on another opcode than SPECTRUM's fails with ERR_BADCMD and has no other effect; every ARG of
SPECTRUM decodes, and one at or above NHOPS is the execution error ERR_RANGE. -/
def Obligations.ArgumentsAreChecked : Prop :=
  (∀ (s : State) (w : Word), s.inputs = [] → s.latch = some w → s.error = none → w &&& 0xFF ≠ 0x02 → w >>> 8 ≠ 0 →
    step s = .next { s with error := some .badCmd, latch := none }) ∧
  (∀ w : Word, w &&& 0xFF = 0x02 → decode w = .ok (.spectrum (w >>> 8).toNat)) ∧
  (∀ (s : State) (h : Nat), s.error = none → s.stage ≠ .invalid → configHolds s = true → s.nhops.toNat ≤ h →
    exec (.spectrum h) s = .next { s with error := some .range, latch := none })

/-- R24, R42, R51, R73, R75: whatever a command does, it ends with BUSY 0 and leaves the registers the host owns, the
rejection bit, the enables, the port and every PCM word as they were. -/
def Obligations.CommandsKeepTheHostsRegisters : Prop :=
  ∀ (i : Instr) (s t : State), exec i s = .next t →
    t.latch = none ∧ t.rej = s.rej ∧ t.hannSym = s.hannSym ∧ t.doneIe = s.doneIe ∧ t.errIe = s.errIe ∧
    t.rejIe = s.rejIe ∧ t.sr = s.sr ∧ t.nsamp = s.nsamp ∧ t.fps = s.fps ∧ t.smooth = s.smooth ∧
    t.bufSel = s.bufSel ∧ t.bufIdx = s.bufIdx ∧ t.inputs = s.inputs ∧ t.readData = s.readData ∧
    t.freeCtr = s.freeCtr ∧ ∀ k, t.mem.read .pcm k = s.mem.read .pcm k

/-- R10, R54 to R58, R158: a command changes words of the buffers its rule names and of no other buffer. -/
def Obligations.CommandsWriteOnlyTheirBuffers : Prop :=
  ∀ (i : Instr) (s t : State) (b : BufId), exec i s = .next t → writesBuffer i b = false →
    ∀ k, t.mem.read b k = s.mem.read b k

/-! ### The host interface (10_state.md, 20_memory.md) -/

/-- R79, R120: acceptance of a command word, or its rejection while busy or while an error stands. -/
def Obligations.CommandAcceptance : Prop :=
  ∀ (s : State) (v : Word), hostWrite s 4 0x00C v =
    .next (if s.latch.isSome = true ∨ s.error ≠ none then { s with rej := true }
      else { s with latch := some v, done := false })

/-- R45, R74: writes to read-only registers and to reserved offsets change nothing; reserved offsets read 0. -/
def Obligations.IgnoredWrites : Prop :=
  ∀ (s : State) (off : BitVec 12), off.toNat % 4 = 0 →
    (off ∈ ([0x000, 0x014, 0x018, 0x030, 0x034, 0x038, 0x03C, 0x040, 0x044, 0x048, 0x04C, 0x050, 0x054, 0x058, 0x05C,
        0x060, 0x064, 0x068, 0x08C] : List (BitVec 12)) → ∀ v, hostWrite s 4 off v = .next s) ∧
    (off ∉ ([0x000, 0x004, 0x008, 0x00C, 0x010, 0x014, 0x018, 0x020, 0x024, 0x028, 0x02C, 0x030, 0x034, 0x038, 0x03C,
        0x040, 0x044, 0x048, 0x04C, 0x050, 0x054, 0x058, 0x05C, 0x060, 0x064, 0x068, 0x080, 0x084, 0x088, 0x08C] :
        List (BitVec 12)) →
      (∀ v, hostWrite s 4 off v = .next s) ∧ hostRead s 4 off = .next { s with readData := some 0 })

/-- R71: an access of another size than 4 bytes or at an offset that is not a multiple of 4 is the host-access fault. -/
def Obligations.MalformedAccessIsABusError : Prop :=
  ∀ (s : State) (size : Nat) (off : BitVec 12) (v : Word), (size ≠ 4 ∨ off.toNat % 4 ≠ 0) →
    hostRead s size off = .fault .busError ∧ hostWrite s size off v = .fault .busError

/-- R77, R78: writes to STATUS and to CTRL, busy or not. -/
def Obligations.StatusAndControlWrites : Prop :=
  ∀ (s : State) (v : Word),
    hostWrite s 4 0x008 v = .next
      { s with
        done := if v.getLsbD 1 = true then false else s.done
        error := if v.getLsbD 2 = true then none else s.error
        rej := if v.getLsbD 3 = true then false else s.rej } ∧
    hostWrite s 4 0x004 v = .next
      (if v.getLsbD 0 = true then s.softReset
        else if s.latch.isSome = true then { s with rej := true }
        else { s with hannSym := v.getLsbD 1, stage := .invalid, tempoFound := false })

/-- R76: a configuration write stores its value and sets STAGE and TEMPO_FOUND to 0, and changes nothing else. -/
def Obligations.ConfigurationWrites : Prop :=
  ∀ (s : State) (v : Word), s.latch = none →
    hostWrite s 4 0x020 v = .next { s with sr := v, stage := .invalid, tempoFound := false } ∧
    hostWrite s 4 0x024 v = .next { s with nsamp := v, stage := .invalid, tempoFound := false } ∧
    hostWrite s 4 0x028 v = .next { s with fps := v, stage := .invalid, tempoFound := false } ∧
    hostWrite s 4 0x02C v = .next { s with smooth := v, stage := .invalid, tempoFound := false } ∧
    (v.getLsbD 0 = false →
      hostWrite s 4 0x004 v = .next { s with hannSym := v.getLsbD 1, stage := .invalid, tempoFound := false }) ∧
    (s.bufSel = 0 → s.bufIdx.toNat < Config.pMax → ∃ m,
      hostWrite s 4 0x088 v =
        .next { s with mem := m, bufIdx := s.bufIdx + 1, stage := .invalid, tempoFound := false } ∧
      ∀ b k, m.read b k = if b = .pcm ∧ k = s.bufIdx.toNat then some v else s.mem.read b k)

/-- R75, R246: what is rejected, and that a rejection sets REJ and has no other effect; IRQ_EN is written at any time. -/
def Obligations.Rejections : Prop :=
  ∀ (s : State) (v : Word),
    (s.latch.isSome = true ∨ s.error ≠ none → hostWrite s 4 0x00C v = .next { s with rej := true }) ∧
    (s.latch.isSome = true →
      (∀ off ∈ ([0x020, 0x024, 0x028, 0x02C, 0x080, 0x084, 0x088] : List (BitVec 12)),
        hostWrite s 4 off v = .next { s with rej := true }) ∧
      (v.getLsbD 0 = false → hostWrite s 4 0x004 v = .next { s with rej := true }) ∧
      ∃ d n, hostRead s 4 0x088 = .next { s with rej := true, readData := some d, freeCtr := n }) ∧
    hostWrite s 4 0x010 v =
      .next { s with doneIe := v.getLsbD 0, errIe := v.getLsbD 1, rejIe := v.getLsbD 2 }

/-- R80, R247: a read of BUF_DATA: rejected while busy; ERR_BUFACC and 0 past the capacity, the first error kept;
otherwise the word and BUF_IDX + 1; a word with a clear mark is the model's fault (R61, log 5). -/
def Obligations.PortReads : Prop :=
  ∀ s : State,
    (s.latch.isSome = true → hostRead s 4 0x088 =
      .next { s with rej := true, readData := some (Config.freeWord s.freeCtr), freeCtr := s.freeCtr + 1 }) ∧
    (s.latch = none → capacity (selectedBuffer s.bufSel) ≤ s.bufIdx.toNat → hostRead s 4 0x088 =
      .next { s with error := (match s.error with | none => some .bufAcc | some e => some e), readData := some 0 }) ∧
    (s.latch = none → s.bufIdx.toNat < capacity (selectedBuffer s.bufSel) →
      (∀ v, s.bufWord (selectedBuffer s.bufSel) s.bufIdx.toNat = some v → hostRead s 4 0x088 =
        .next { s with readData := some v, bufIdx := s.bufIdx + 1 }) ∧
      (s.bufWord (selectedBuffer s.bufSel) s.bufIdx.toNat = none → hostRead s 4 0x088 =
        .fault (.unwritten (selectedBuffer s.bufSel) s.bufIdx.toNat)) ∧
      (s.bufSel = 7 → hostRead s 4 0x088 =
        .next { s with readData := some (hann s.hannSym s.bufIdx.toNat), bufIdx := s.bufIdx + 1 }))

/-- R81, R247: a write of BUF_DATA: rejected while busy; ERR_BUFACC for another buffer than PCM or past P_MAX, the first
error kept; otherwise the PCM word, BUF_IDX + 1 and the invalidation of R76. -/
def Obligations.PortWrites : Prop :=
  ∀ (s : State) (v : Word),
    (s.latch.isSome = true → hostWrite s 4 0x088 v = .next { s with rej := true }) ∧
    (s.latch = none → (s.bufSel ≠ 0 ∨ Config.pMax ≤ s.bufIdx.toNat) → hostWrite s 4 0x088 v =
      .next { s with error := (match s.error with | none => some .bufAcc | some e => some e) }) ∧
    (s.latch = none → s.bufSel = 0 → s.bufIdx.toNat < Config.pMax → ∃ m,
      hostWrite s 4 0x088 v =
        .next { s with mem := m, bufIdx := s.bufIdx + 1, stage := .invalid, tempoFound := false } ∧
      ∀ b k, m.read b k = if b = .pcm ∧ k = s.bufIdx.toNat then some v else s.mem.read b k)

/-- R82: writes of BUF_SEL and BUF_IDX. -/
def Obligations.PortSelectionWrites : Prop :=
  ∀ (s : State) (v : Word),
    (s.latch = none →
      hostWrite s 4 0x080 v = .next { s with bufSel := v.extractLsb' 0 3 } ∧
      hostWrite s 4 0x084 v = .next { s with bufIdx := v }) ∧
    (s.latch.isSome = true →
      hostWrite s 4 0x080 v = .next { s with rej := true } ∧ hostWrite s 4 0x084 v = .next { s with rej := true })

/-- R31, R50, R73: what every register reads, at every time or, for the result registers, while no command runs, with the
bits of IRQ_EN and the capacities of the eight buffers written out; while a command runs a result register and the result
fields of STATUS read as a free value gives them (log 4). -/
def Obligations.RegisterReads : Prop :=
  ∀ s : State,
    let reads := fun (off : BitVec 12) (v : Word) => hostRead s 4 off = .next { s with readData := some v }
    let free := Config.freeWord s.freeCtr
    let readsFree := fun (off : BitVec 12) (v : Word) =>
      hostRead s 4 off = .next { s with readData := some v, freeCtr := s.freeCtr + 1 }
    let hopMax := (Config.pMax + 1023) / 1024
    let capacities := [Config.pMax, 1025, 512, 12 * hopMax, hopMax, 256, 16 * Config.frameMax, 2048]
    (1 ≤ Config.pMax ∧ Config.pMax ≤ 2 ^ 24 ∧ 1 ≤ Config.frameMax ∧ Config.frameMax ≤ 2 ^ 24) ∧
    selectedBuffer s.bufSel =
      [BufId.pcm, .mag, .wave, .hopf, .onset, .acorr, .frame, .hann].getD s.bufSel.toNat .pcm ∧
    capacity (selectedBuffer s.bufSel) = capacities.getD s.bufSel.toNat 0 ∧
    (reads 0x000 0x534F4E01 ∧ reads 0x004 (if s.hannSym = true then 2 else 0) ∧ reads 0x00C 0 ∧
      (∃ v : Word, reads 0x010 v ∧ v.getLsbD 0 = s.doneIe ∧ v.getLsbD 1 = s.errIe ∧ v.getLsbD 2 = s.rejIe ∧
        v.extractLsb' 3 29 = 0) ∧
      reads 0x014 (BitVec.ofNat 32 Config.pMax) ∧ reads 0x018 (BitVec.ofNat 32 Config.frameMax) ∧
      reads 0x020 s.sr ∧ reads 0x024 s.nsamp ∧ reads 0x028 s.fps ∧
      reads 0x02C s.smooth ∧ reads 0x080 (s.bufSel.zeroExtend 32) ∧ reads 0x084 s.bufIdx ∧
      reads 0x08C (BitVec.ofNat 32 (capacities.getD s.bufSel.toNat 0))) ∧
    (s.latch = none →
      reads 0x008 (statusWord s) ∧ reads 0x030 s.nhops ∧ reads 0x034 s.nframes ∧ reads 0x038 s.onsetCount ∧
      reads 0x03C s.tempoLag ∧ reads 0x040 s.tempoBpm ∧ reads 0x044 s.peakAmp ∧ reads 0x048 s.peakRms ∧
      reads 0x04C s.peakFlux ∧ reads 0x050 s.peakBands.b0 ∧ reads 0x054 s.peakBands.b1 ∧
      reads 0x058 s.peakBands.b2 ∧ reads 0x05C s.peakBands.b3 ∧ reads 0x060 s.peakBands.b4 ∧
      reads 0x064 s.peakBands.b5 ∧ reads 0x068 s.peakBands.b6) ∧
    (s.latch.isSome = true →
      (∀ off ∈ ([0x030, 0x034, 0x038, 0x03C, 0x040, 0x044, 0x048, 0x04C, 0x050, 0x054, 0x058, 0x05C, 0x060, 0x064,
          0x068] : List (BitVec 12)), readsFree off free) ∧
      ∃ v, readsFree 0x008 v ∧ v &&& 0xF010 = free &&& 0xF010 ∧ v &&& ~~~0xF010 = statusWord s &&& ~~~0xF010)

/-- R83: a read of any register but BUF_DATA has no side effect on the engine: only the answer to the host and the count
of free values can change. -/
def Obligations.ReadsHaveNoSideEffect : Prop :=
  ∀ (s t : State) (size : Nat) (off : BitVec 12), off ≠ 0x088 → hostRead s size off = .next t →
    t = { s with readData := t.readData, freeCtr := t.freeCtr }

/-- R23, R24, R26, R29, R241: the fields of STATUS stand at their bits and every other bit is 0. -/
def Obligations.StatusFields : Prop :=
  ∀ s : State,
    (statusWord s).getLsbD 0 = s.latch.isSome ∧ (statusWord s).getLsbD 1 = s.done ∧
    (statusWord s).getLsbD 2 = s.error.isSome ∧ (statusWord s).getLsbD 3 = s.rej ∧
    (statusWord s).getLsbD 4 = s.tempoFound ∧ (statusWord s).extractLsb' 5 3 = 0 ∧
    ((statusWord s).extractLsb' 8 4).toNat = (match s.error with
      | none => 0 | some .badCmd => 1 | some .seq => 2 | some .param => 3 | some .empty => 4 | some .range => 5
      | some .pcm => 6 | some .bufAcc => 7) ∧
    ((statusWord s).extractLsb' 12 4).toNat = (match s.stage with
      | .invalid => 0 | .configured => 1 | .analyzed => 2 | .onsets => 3 | .tempo => 4 | .resampled => 5
      | .smoothed => 6 | .normalized => 7 | .complete => 8) ∧
    (statusWord s).extractLsb' 16 16 = 0

/-- R251: the interrupt line is the OR of the enabled status bits, and it is low after every enabled bit is cleared. -/
def Obligations.InterruptLine : Prop :=
  ∀ s : State,
    (s.irq = true ↔
      ((statusWord s).getLsbD 1 = true ∧ (irqEnWord s).getLsbD 0 = true) ∨
      ((statusWord s).getLsbD 2 = true ∧ (irqEnWord s).getLsbD 1 = true) ∨
      ((statusWord s).getLsbD 3 = true ∧ (irqEnWord s).getLsbD 2 = true)) ∧
    (∀ t, hostWrite s 4 0x008 0x0000000E = .next t → t.irq = false) ∧
    (∀ t, hostWrite s 4 0x010 0x00000000 = .next t → t.irq = false) ∧
    (∀ t, hostWrite s 4 0x004 0x00000001 = .next t → t.irq = false) ∧ s.hardReset.irq = false

/-! ### Reset (70_reset_and_hazards.md) -/

/-- R270, R273, R274: a hard reset gives every register its reset value, makes the latch invalid and clears every mark;
the state after reset is the same. -/
def Obligations.HardReset : Prop :=
  ∀ (s : State) (rest : List Event), s.inputs = .hardReset :: rest →
    step s = .next { State.reset with inputs := rest, readData := s.readData, freeCtr := s.freeCtr } ∧
    (∀ t ∈ [State.reset, { State.reset with inputs := rest, readData := s.readData, freeCtr := s.freeCtr }],
      readReg t .ctrl = 0 ∧ statusWord t = 0 ∧ irqEnWord t = 0 ∧ t.sr = 0 ∧ t.nsamp = 0 ∧ t.fps = 0 ∧
      t.smooth = 0x3F59999A ∧ t.nhops = 0 ∧ t.nframes = 0 ∧ t.onsetCount = 0 ∧ t.tempoLag = 0 ∧ t.tempoBpm = 0 ∧
      t.peakAmp = 0 ∧ t.peakRms = 0 ∧ t.peakFlux = 0 ∧ (∀ b, t.peakBands.get b = 0) ∧ t.bufSel = 0 ∧ t.bufIdx = 0 ∧
      readReg t .bufCap = BitVec.ofNat 32 Config.pMax ∧ t.latch = none ∧ t.irq = false ∧
      (∀ b k, t.mem.read b k = none) ∧ ∀ k, t.bufWord .hann k = some (hann false k))

/-- R271: a soft reset while no command runs resets every register and keeps every buffer word and mark. -/
def Obligations.SoftResetKeepsTheBuffers : Prop :=
  ∀ (s : State) (v : Word), v.getLsbD 0 = true → s.latch = none →
    hostWrite s 4 0x004 v = .next
      { State.reset with mem := s.mem, inputs := s.inputs, readData := s.readData, freeCtr := s.freeCtr }

/-- R271, R272: a soft reset while a command runs resets every register and clears the marks of the words that the command
may write, and of no other word; a latched word that is no command may write none (log 16). -/
def Obligations.SoftResetAbortsTheCommand : Prop :=
  ∀ (s : State) (v w : Word), v.getLsbD 0 = true → s.latch = some w → ∃ m,
    hostWrite s 4 0x004 v = .next
      { State.reset with mem := m, inputs := s.inputs, readData := s.readData, freeCtr := s.freeCtr } ∧
    (∀ i, decode w = .ok i → i ≠ .run → ∀ b k,
      (abortedWord s.nhops.toNat s.nframes.toNat i b k → m.read b k = none) ∧
      (¬abortedWord s.nhops.toNat s.nframes.toNat i b k → m.read b k = s.mem.read b k)) ∧
    (decode w = .ok .run → ∀ b k,
      (∀ nh nf, configCounts s = .ok (nh, nf) →
        (abortedWord nh nf .run b k → m.read b k = none) ∧
        (¬abortedWord nh nf .run b k → m.read b k = s.mem.read b k)) ∧
      (∀ e, configCounts s = .error e → m.read b k = s.mem.read b k)) ∧
    (∀ e, decode w = .error e → ∀ b k, m.read b k = s.mem.read b k)

/-! ### Errors (40_control.md R122, R123; 60_exceptions.md) -/

/-- R122: a command whose required stage does not hold fails with ERR_SEQ; a command that completes leaves the stage of
the table. -/
def Obligations.StageDiscipline : Prop :=
  ∀ (i : Instr) (s : State), s.error = none →
    (stageAllows i s.stage = false → exec i s = .next { s with error := some .seq, latch := none }) ∧
    ∀ t, exec i s = .next t → t.error = none → t.stage = stageAfter i s.stage

/-- R25, R243, R244: a command other than RUN that fails has changed nothing but ERR, ERRCODE and BUSY; one that
completes records no error and sets DONE. -/
def Obligations.ErrorsArePrecise : Prop :=
  ∀ (i : Instr) (s t : State), i ≠ .run → s.error = none → exec i s = .next t →
    (∃ e, t = { s with error := some e, latch := none }) ∨ (t.error = none ∧ t.done = true ∧ t.latch = none)

/-- R125, R126, the count of R127, R128, and R245's row for CONFIG: a word with CONFIG's opcode and an `ARG` that is not 0
is no CONFIG; then CONFIG's checks in their order with their codes, a failing one keeping every register, and all that a
CONFIG that passes them writes. -/
def Obligations.ConfigChecksAndWrites : Prop :=
  ∀ s : State, s.error = none →
    let frames := (s.nsamp.toNat : ℚ) * realValue s.fps / s.sr.toNat + 1 / 2
    let fails := fun e : ErrCode => exec .config s = .next { s with error := some e, latch := none }
    let srOk := 1 ≤ s.sr.toNat ∧ s.sr.toNat ≤ 192000
    let fpsOk := isFinite s.fps = true ∧ 0 < realValue s.fps
    let smoothOk := isNaN s.smooth = false ∧ 0 ≤ realValue s.smooth ∧ realValue s.smooth ≤ 1
    (∀ w : Word, s.inputs = [] → s.latch = some w → w &&& 0xFF = 0x01 → w >>> 8 ≠ 0 →
      step s = .next { s with error := some .badCmd, latch := none }) ∧
    (¬(srOk ∧ fpsOk ∧ smoothOk) → fails .param) ∧
    (srOk ∧ fpsOk ∧ smoothOk →
      (s.nsamp.toNat = 0 → fails .empty) ∧
      (s.nsamp.toNat ≠ 0 → Config.pMax < s.nsamp.toNat → fails .range) ∧
      (s.nsamp.toNat ≠ 0 → s.nsamp.toNat ≤ Config.pMax → (Config.frameMax : ℤ) < ⌊frames⌋ → fails .range) ∧
      (s.nsamp.toNat ≠ 0 → s.nsamp.toNat ≤ Config.pMax → ⌊frames⌋ ≤ (Config.frameMax : ℤ) → ∃ nh nf : Word,
        exec .config s = .next
          { s with
            nhops := nh, nframes := nf, onsetCount := 0, tempoLag := 0, tempoBpm := 0, peakAmp := 0, peakRms := 0
            peakFlux := 0, peakBands := ⟨0, 0, 0, 0, 0, 0, 0⟩, tempoFound := false, stage := .configured
            done := true, latch := none } ∧
        (nh.toNat : ℤ) = ⌈(s.nsamp.toNat : ℚ) / 1024⌉ ∧ 1 ≤ nh.toNat ∧ nh.toNat ≤ Config.hopMax ∧
        (nf.toNat : ℤ) = ⌊frames⌋))

/-- R142, R155, R156, R245: SPECTRUM and ANALYZE fail with ERR_PCM on an illegal sample whose predecessors in the range
they check are legal, before they write anything. -/
def Obligations.IllegalSamplesFail : Prop :=
  ∀ (s : State) (n : Nat) (v : Word), s.error = none → configHolds s = true → s.mem.read .pcm n = some v →
    ¬(isFinite v = true ∧ |realValue v| ≤ 1) →
    (s.stage = .configured → n < s.nsamp.toNat →
      (∀ k, k < n → ∃ u, s.mem.read .pcm k = some u ∧ isFinite u = true ∧ |realValue u| ≤ 1) →
      exec .analyze s = .next { s with error := some .pcm, latch := none }) ∧
    ∀ h, s.stage ≠ .invalid → h < s.nhops.toNat → h * 1024 ≤ n → n < min s.nsamp.toNat (h * 1024 + 2048) →
      (∀ k, h * 1024 ≤ k → k < n → ∃ u, s.mem.read .pcm k = some u ∧ isFinite u = true ∧ |realValue u| ≤ 1) →
      exec (.spectrum h) s = .next { s with error := some .pcm, latch := none }

/-! ### The commands -/

/-- R124: NOP completes in every state and changes nothing but DONE and BUSY. -/
def Obligations.NopCompletes : Prop :=
  ∀ s : State, exec .nop s = .next { s with done := true, latch := none }

/-- R140, R143 to R145, R153, R155: SPECTRUM completes on legal samples; it writes MAG and WAVE and no other word, and
no register but STATUS. -/
def Obligations.SpectrumCompletes : Prop :=
  ∀ (s : State) (h : Nat) (xs : List Word), s.stage ≠ .invalid → configHolds s = true → h < s.nhops.toNat →
    xs.length = min s.nsamp.toNat (h * 1024 + 2048) - h * 1024 →
    (∀ j v, xs[j]? = some v → s.mem.read .pcm (h * 1024 + j) = some v ∧ legalSample v = true) →
    let x := fun n => xs.getD n zero32
    let samples := (List.range 2048).map fun n => mul32 (x n) (hann s.hannSym n)
    let at' := fun n => samples.getD n zero32
    ∃ m, exec (.spectrum h) s = .next { s with mem := m, done := true, latch := none } ∧
      (∀ k, k < 1025 → m.read .mag k = (fftmag samples)[k]? ∧ m.read .mag k ≠ none) ∧
      (∀ j, j < 512 → m.read .wave j = some (mul32 quarter32
        (add32 (add32 (add32 (at' (4 * j)) (at' (4 * j + 1))) (at' (4 * j + 2))) (at' (4 * j + 3))))) ∧
      ∀ b k, ¬(b = .mag ∧ k < 1025) → ¬(b = .wave ∧ k < 512) → m.read b k = s.mem.read b k

/-- R146 to R148, R150 to R152, R154, R156 to R158: the features of every hop, each loop written out; ANALYZE completes on
a legal stream, writing every hop record, the last hop's MAG and WAVE, the global peaks and STAGE 2, and no other word or
register. Should an rms or a flux overflow, which R15 does not rule out, ANALYZE is the fault of R16 and I4 (log 8). -/
def Obligations.AnalyzeCompletes : Prop :=
  ∀ (s : State) (xs : List Word), s.stage = .configured → configHolds s = true → xs.length = s.nsamp.toNat →
    (∀ n v, xs[n]? = some v → s.mem.read .pcm n = some v ∧ legalSample v = true) →
    let sr := s.sr.toNat
    let last := s.nhops.toNat - 1
    let x := fun h n => xs.getD (h * 1024 + n) zero32
    let sample := fun h n => mul32 (x h n) (hann s.hannSym n)
    let mags := fun h => fftmag ((List.range 2048).map (sample h))
    let m := fun h k => (mags h).getD k zero32
    let p := fun h k => if h = 0 then zero32 else m (h - 1) k
    let rms := fun h => div32 (sqrt32 ((List.range 1025).foldl (fun acc k => add32 acc
      (mul32 (if k = 0 ∨ k = 1024 then 0x3F800000 else 0x40000000) (mul32 (m h k) (m h k)))) zero32)) 0x45000000
    let num := fun h => (List.range 1025).foldl (fun acc k => add32 acc (mul32 (rne32 (k * sr) 2048) (m h k))) zero32
    let den := fun h => (List.range 1025).foldl (fun acc k => add32 acc (m h k)) zero32
    let centroid := fun h => if realValue (den h) = 0 then zero32 else div32 (num h) (den h)
    let flux := fun h => sqrt32 ((List.range 1025).foldl (fun acc k =>
      if 0 < realValue (sub32 (m h k) (p h k))
      then add32 acc (mul32 (sub32 (m h k) (p h k)) (sub32 (m h k) (p h k))) else acc) zero32)
    let edges := [20, 60, 250, 500, 2000, 4000, 6000, 20000]
    let bins := fun b => (List.range 1025).filter fun k =>
      decide (edges.getD b 0 * 2048 ≤ k * sr ∧ k * sr < edges.getD (b + 1) 0 * 2048)
    let band := fun b h => if (bins b).length = 0 then zero32
      else div32 ((bins b).foldl (fun acc k => add32 acc (m h k)) zero32) (rne32 (bins b).length 1)
    let peak := fun h => (List.range 2048).foldl (fun pk n => max32 pk (x h n &&& 0x7FFFFFFF)) zero32
    let best := fun feature => (List.range s.nhops.toNat).foldl (fun pk h => max32 pk (feature h)) zero32
    let finite := ∀ h, h < s.nhops.toNat → isFinite (rms h) = true ∧ isFinite (flux h) = true
    (∀ h, h < s.nhops.toNat → hopRecord sr s.hannSym xs h =
      ⟨rms h, centroid h, flux h, ⟨band 0 h, band 1 h, band 2 h, band 3 h, band 4 h, band 5 h, band 6 h⟩, peak h⟩) ∧
    (finite → ∃ mem, exec .analyze s = .next
        { s with
          mem := mem, peakAmp := best peak, peakRms := best rms, peakFlux := best flux
          peakBands := ⟨best (band 0), best (band 1), best (band 2), best (band 3), best (band 4), best (band 5),
            best (band 6)⟩
          stage := .analyzed, done := true, latch := none } ∧
      (∀ h, h < s.nhops.toNat →
        mem.read .hopf (12 * h) = some (rms h) ∧ mem.read .hopf (12 * h + 1) = some (centroid h) ∧
        mem.read .hopf (12 * h + 2) = some (flux h) ∧
        (∀ b, b < 7 → mem.read .hopf (12 * h + 3 + b) = some (band b h)) ∧
        mem.read .hopf (12 * h + 10) = some (peak h) ∧ mem.read .hopf (12 * h + 11) = some zero32) ∧
      (∀ k, k < 1025 → mem.read .mag k = some (m last k)) ∧
      (∀ j, j < 512 → mem.read .wave j = some (mul32 0x3E800000
        (add32 (add32 (add32 (sample last (4 * j)) (sample last (4 * j + 1))) (sample last (4 * j + 2)))
          (sample last (4 * j + 3))))) ∧
      ∀ b k, ¬(b = .hopf ∧ k < 12 * s.nhops.toNat) → ¬(b = .mag ∧ k < 1025) → ¬(b = .wave ∧ k < 512) →
        mem.read b k = s.mem.read b k) ∧
    (¬finite → exec .analyze s = .fault .notFinite)

/-- R180 to R185: ONSET completes on written fluxes within the feature bound of log 8; it writes the threshold words, the
onset list padded with 0, ONSET_COUNT and STAGE 3, and no other word or register. -/
def Obligations.OnsetCompletes : Prop :=
  ∀ (s : State) (fs : List Word), s.stage = .analyzed → configHolds s = true → fs.length = s.nhops.toNat →
    (∀ i v, fs[i]? = some v → s.mem.read .hopf (12 * i + 2) = some v ∧ BoundedFeature v) →
    let flux := fs.map magUnits
    let ons := onsetsOf s.sr.toNat flux
    ∃ m, exec .onset s = .next
        { s with mem := m, onsetCount := word ons.length, stage := .onsets, done := true, latch := none } ∧
      ons.length ≤ s.nhops.toNat ∧
      (∀ i, i < s.nhops.toNat → m.read .hopf (12 * i + 11) = some (thresholdWord flux i)) ∧
      (∀ j, j < s.nhops.toNat → m.read .onset j = some (word (ons.getD j 0))) ∧
      ∀ b k, ¬(b = .hopf ∧ k < 12 * s.nhops.toNat ∧ k % 12 = 11) → ¬(b = .onset ∧ k < s.nhops.toNat) →
        m.read b k = s.mem.read b k

/-- R186 to R191: TEMPO completes on a written onset list; it writes all of ACORR, the tempo registers and STAGE 4, and
no other word or register. -/
def Obligations.TempoCompletes : Prop :=
  ∀ (s : State) (ons : List Nat), s.stage = .onsets → configHolds s = true → ons.length = s.onsetCount.toNat →
    (∀ j o, ons[j]? = some o → s.mem.read .onset j = some (word o) ∧ o < 2 ^ 32) →
    let corr := autocorr ons s.nhops.toNat
    ∃ m, exec .tempo s = .next
        { s with
          mem := m
          tempoLag := match tempoLagOf corr (lags s.sr.toNat) with | some l => word l | none => 0
          tempoBpm := match tempoLagOf corr (lags s.sr.toNat) with
            | some l => rne32 (60 * s.sr.toNat) (1024 * l)
            | none => zero32
          tempoFound := (tempoLagOf corr (lags s.sr.toNat)).isSome
          stage := .tempo, done := true, latch := none } ∧
      (∀ l, l ≤ 255 → m.read .acorr l = some (if l = 0 ∨ l ∈ lags s.sr.toNat then word (corr l) else 0)) ∧
      ∀ b k, ¬(b = .acorr ∧ k ≤ 255) → m.read b k = s.mem.read b k

/-- R201 to R205 and the table of series of 43_frames.md section 1: RESAMPLE completes on written hop records within the
feature bound of log 8; it writes all sixteen words of every frame record, the series words held at and past the last hop
and interpolated before it, and STAGE 5, and no other word or register. -/
def Obligations.ResampleCompletes : Prop :=
  ∀ s : State, s.stage = .tempo → configHolds s = true →
    (∀ h j, h < s.nhops.toNat → j < 10 → ∃ v, s.mem.read .hopf (12 * h + j) = some v ∧ BoundedFeature v) →
    let n := s.nhops.toNat
    let hopWord := fun i => [3, 4, 5, 6, 7, 8, 9, 0, 1, 2].getD i 0
    let X := fun i h => (s.mem.read .hopf (12 * h + hopWord i)).getD zero32
    let h0 := fun k => framePos s.sr.toNat (magUnits s.fps) k
    let fr := fun k => frameFrac s.sr.toNat (magUnits s.fps) k
    ∃ m, exec .resample s = .next { s with mem := m, stage := .resampled, done := true, latch := none } ∧
      (∀ k, k < s.nframes.toNat →
        m.read .frame (16 * k) = some (frameTime (magUnits s.fps) k) ∧ m.read .frame (16 * k + 1) = some (word k) ∧
        (∀ i, i < 10 → m.read .frame (16 * k + 2 + i) = some (if n - 1 ≤ h0 k then X i (n - 1)
          else add32 (mul32 (X i (h0 k)) (sub32 0x3F800000 (fr k))) (mul32 (X i (h0 k + 1)) (fr k)))) ∧
        m.read .frame (16 * k + 12) = some zero32 ∧ m.read .frame (16 * k + 13) = some zero32 ∧
        m.read .frame (16 * k + 14) = some zero32 ∧
        m.read .frame (16 * k + 15) = some (word (min (h0 k) (n - 1)))) ∧
      ∀ b k, ¬(b = .frame ∧ k < 16 * s.nframes.toNat) → m.read b k = s.mem.read b k

/-- R206 to R208: SMOOTH completes on frame records within the feature bound of log 8; it rewrites the ten series words of
every frame record with the smoothed series and sets STAGE 6, and changes no other word or register. -/
def Obligations.SmoothCompletes : Prop :=
  ∀ (s : State) (series : Nat → List Word), s.stage = .resampled → configHolds s = true →
    (∀ i, i < 10 → (series i).length = s.nframes.toNat) →
    (∀ i k v, i < 10 → (series i)[k]? = some v → s.mem.read .frame (16 * k + 2 + i) = some v ∧ BoundedFeature v) →
    ∃ m, exec .smooth s = .next { s with mem := m, stage := .smoothed, done := true, latch := none } ∧
      (∀ i k, i < 10 → k < s.nframes.toNat →
        m.read .frame (16 * k + 2 + i) = (smoothSeries s.smooth (series i))[k]? ∧
        m.read .frame (16 * k + 2 + i) ≠ none) ∧
      ∀ b k, ¬(b = .frame ∧ k < 16 * s.nframes.toNat ∧ 2 ≤ k % 16 ∧ k % 16 ≤ 11) → m.read b k = s.mem.read b k

/-- R209 to R211: NORMALIZE completes on frame records that are features; it divides every series word by its peak and
sets STAGE 7, and changes no other word or register. -/
def Obligations.NormalizeCompletes : Prop :=
  ∀ (s : State) (value : Nat → Nat → Word), s.stage = .smoothed → configHolds s = true →
    (∀ k i, k < s.nframes.toNat → i < 10 →
      s.mem.read .frame (16 * k + 2 + i) = some (value k i) ∧ isFeature (value k i) = true) →
    (∀ b, b < 7 → isFeature (s.peakBands.get b) = true) → isFeature s.peakRms = true → isFeature s.peakFlux = true →
    let peak := fun i => if i < 7 then s.peakBands.get i else if i = 7 then s.peakRms
      else if i = 8 then rne32 s.sr.toNat 2 else s.peakFlux
    ∃ m, exec .normalize s = .next { s with mem := m, stage := .normalized, done := true, latch := none } ∧
      (∀ k i, k < s.nframes.toNat → i < 10 →
        (magUnits (peak i) = 0 → m.read .frame (16 * k + 2 + i) = some zero32) ∧
        (magUnits (peak i) ≠ 0 →
          m.read .frame (16 * k + 2 + i) = some (min32 one32 (max32 zero32 (div32 (value k i) (peak i))))) ∧
        ∃ u, m.read .frame (16 * k + 2 + i) = some u ∧ isFinite u = true ∧ 0 ≤ realValue u ∧ realValue u ≤ 1) ∧
      ∀ b k, ¬(b = .frame ∧ k < 16 * s.nframes.toNat ∧ 2 ≤ k % 16 ∧ k % 16 ≤ 11) → m.read b k = s.mem.read b k

/-- R212 to R216: BEAT completes on a strictly increasing onset list; it writes the three beat words of every frame
record and STAGE 8, and changes no other word or register. -/
def Obligations.BeatCompletes : Prop :=
  ∀ (s : State) (ons : List Nat), s.stage = .normalized → configHolds s = true →
    ons.length = s.onsetCount.toNat →
    (∀ j o, ons[j]? = some o → s.mem.read .onset j = some (word o) ∧ o < 2 ^ 32) →
    ons.Pairwise (· < ·) → (s.tempoFound = true → s.tempoLag ≠ 0) →
    let lag := if s.tempoFound = true then some s.tempoLag.toNat else none
    ∃ m, exec .beat s = .next { s with mem := m, stage := .complete, done := true, latch := none } ∧
      (∀ k, k < s.nframes.toNat →
        m.read .frame (16 * k + 12) = some (beatIntensity s.sr.toNat s.fpsUnits ons k) ∧
        m.read .frame (16 * k + 13) = some (beatPhase s.sr.toNat s.fpsUnits lag ons k) ∧
        m.read .frame (16 * k + 14) = some (isBeat s.sr.toNat s.fpsUnits ons k)) ∧
      ∀ b k, ¬(b = .frame ∧ k < 16 * s.nframes.toNat ∧ 12 ≤ k % 16 ∧ k % 16 ≤ 14) → m.read b k = s.mem.read b k

/-- R129, R16: RUN completes on every legal stream under every valid configuration, at stage 8 and with the counts of
R127 and R128, unless an rms or a flux of a hop overflows (log 8): no check of a later command fails and no other value
overflows. -/
def Obligations.RunCompletes : Prop :=
  ∀ (s : State) (xs : List Word) (nh nf : Nat), configCounts s = .ok (nh, nf) → xs.length = s.nsamp.toNat →
    (∀ n v, xs[n]? = some v → s.mem.read .pcm n = some v ∧ legalSample v = true) →
    (∀ h, h < nh → HopIsFinite s xs h) →
    ∃ t, exec .run s = .next t ∧ t.stage = .complete ∧ t.done = true ∧ t.latch = none ∧ t.error = s.error ∧
      t.nhops.toNat = nh ∧ t.nframes.toNat = nf ∧ t.onsetCount.toNat ≤ nh ∧
      ∀ k, k < 16 * nf → t.mem.read .frame k ≠ none

/-- R129, R130: RUN does what its eight commands do when they are issued one after another, and stops at the first that
fails, with its code and with the effects of those before it; only DONE, which changes once at the end, can differ. -/
def Obligations.RunIsThePipeline : Prop :=
  ∀ s : State, s.error = none → s.done = false →
    exec .run s = match runInTurn pipeline s with
      | .next t => .next { t with done := !t.err }
      | .fault f => .fault f
      | .refused r => .refused r

/-- R129's example, R148, R188, R211: on an all-zero stream RUN ends at stage 8 with no onset, no tempo, every peak 0 and
every frame record zero but for its time, its frame index and its hop_sel. -/
def Obligations.RunOnSilence : Prop :=
  ∀ (s : State) (nh nf : Nat), configCounts s = .ok (nh, nf) →
    (∀ n, n < s.nsamp.toNat → s.mem.read .pcm n = some 0) →
    ∃ t, exec .run s = .next t ∧ t.stage = .complete ∧ t.done = true ∧ t.onsetCount = 0 ∧ t.tempoFound = false ∧
      t.tempoLag = 0 ∧ t.tempoBpm = 0 ∧ t.peakAmp = 0 ∧ t.peakRms = 0 ∧ t.peakFlux = 0 ∧
      (∀ b, t.peakBands.get b = 0) ∧
      ∀ k j, k < nf → 2 ≤ j → j ≤ 14 → t.mem.read .frame (16 * k + j) = some 0

/-! ### Numerics (00_scope.md R12, R15) -/

/-- R12: `rne32` is the nearest binary32 word, ties to even. -/
def Obligations.RoundingToNearestEven : Prop :=
  ∀ n d : Nat, 0 < d → InRange ((n : ℚ) / d) → IsNearest (rne32 n d) ((n : ℚ) / d)

/-- R12: the binary32 operations are the exact operations, rounded once. -/
def Obligations.ArithmeticIsCorrectlyRounded : Prop :=
  ∀ a b : Word, isFinite a = true → isFinite b = true →
    (InRange (realValue a + realValue b) → IsNearest (add32 a b) (realValue a + realValue b)) ∧
    (InRange (realValue a - realValue b) → IsNearest (sub32 a b) (realValue a - realValue b)) ∧
    (InRange (realValue a * realValue b) → IsNearest (mul32 a b) (realValue a * realValue b)) ∧
    (realValue b ≠ 0 → InRange (realValue a / realValue b) → IsNearest (div32 a b) (realValue a / realValue b)) ∧
    (max32 a b = a ∨ max32 a b = b) ∧ realValue (max32 a b) = max (realValue a) (realValue b) ∧
    (min32 a b = a ∨ min32 a b = b) ∧ realValue (min32 a b) = min (realValue a) (realValue b)

/-- R12: the square root of a non-negative word is the nearest word to its real square root. -/
def Obligations.SquareRootIsNearest : Prop :=
  ∀ a v : Word, isFeature a = true → isFinite v = true →
    isFeature (sqrt32 a) = true ∧
      |((realValue (sqrt32 a) : ℚ) : ℝ) - Real.sqrt (realValue a : ℚ)| ≤
        |((realValue v : ℚ) : ℝ) - Real.sqrt (realValue a : ℚ)|

/-- R15: the named properties of NUM that a proof may assume, on the words the commands give it. -/
def Obligations.NumericsProperties : Prop :=
  (∀ sym n, isFinite (hann sym n) = true ∧ 0 ≤ realValue (hann sym n) ∧ realValue (hann sym n) ≤ 1) ∧
  (∀ a, realValue a < 0 → isFinite (numExp a) = true ∧ 0 ≤ realValue (numExp a) ∧ realValue (numExp a) ≤ 1) ∧
  ∀ s : List Word, (∀ v ∈ s, isFinite v = true ∧ |realValue v| ≤ 1) →
    (fftmag s).length = 1025 ∧ (∀ m ∈ fftmag s, isFinite m = true ∧ signBit m = false) ∧
    ((∀ v ∈ s, realValue v = 0) → ∀ m ∈ fftmag s, m = zero32) ∧
    ∀ before after v, s = before ++ v :: after → realValue v ≠ 0 → (∀ u ∈ before ++ after, realValue u = 0) →
      ∀ m ∈ fftmag s, signBit m = false ∧ realValue m = |realValue v|

/-! ### Detectors and frame fields -/

/-- R7, R149: the bins of the bands, for every legal sample rate, with the edges of R7 written out, and the table at
44100 Hz. -/
def Obligations.BandMembership : Prop :=
  let edges : List ℚ := [20, 60, 250, 500, 2000, 4000, 6000, 20000]
  (∀ sr b k, 1 ≤ sr → sr ≤ 192000 → b < 7 →
    (inBand sr b k = true ↔
      edges.getD b 0 ≤ (k : ℚ) * sr / 2048 ∧ (k : ℚ) * sr / 2048 < edges.getD (b + 1) 0) ∧
    (∀ b', b' < 7 → inBand sr b k = true → inBand sr b' k = true → b' = b) ∧
    (inBand sr b k = true → (20 : ℚ) ≤ (k : ℚ) * sr / 2048 ∧ (k : ℚ) * sr / 2048 < 20000)) ∧
  ∀ b k, b < 7 → k < 1025 → (inBand 44100 b k = true ↔
    [1, 3, 12, 24, 93, 186, 279].getD b 0 ≤ k ∧ k ≤ [2, 11, 23, 92, 185, 278, 928].getD b 0)

/-- R181 to R183: the median of the truncated window, the strict test against 8/5 of it, and the threshold word nearest
to 8/5 of it. -/
def Obligations.MedianThreshold : Prop :=
  ∀ (flux : List Nat) (i : Nat), i < flux.length →
    ∃ sorted : List Nat, sorted.Pairwise (· ≤ ·) ∧
      sorted.Perm ((List.range' (i - 20) (min (flux.length - 1) (i + 20) + 1 - (i - 20))).map fun j => flux.getD j 0) ∧
      let c := sorted.length
      let med : ℚ := if c % 2 = 1 then (sorted.getD ((c - 1) / 2) 0 : ℚ)
        else ((sorted.getD (c / 2 - 1) 0 : ℚ) + (sorted.getD (c / 2) 0 : ℚ)) / 2
      (isCandidate flux i = true ↔ med * (8 / 5) < (flux.getD i 0 : ℚ)) ∧
      (InRange (8 * med / 5 / 2 ^ 149) → IsNearest (thresholdWord flux i) (8 * med / 5 / 2 ^ 149))

/-- R184: the onsets are candidates in increasing order, at least 0.15 s apart; the first candidate is one; every dropped
candidate lies less than 0.15 s after the last onset kept before it. -/
def Obligations.CoalescingKeepsTheEarliest : Prop :=
  ∀ (sr : Nat) (flux : List Nat), 1 ≤ sr →
    let ons := onsetsOf sr flux
    (∀ o ∈ ons, o < flux.length ∧ isCandidate flux o = true) ∧
    ons.Pairwise (fun a b => a < b ∧ (3 : ℚ) / 20 ≤ ((b : ℚ) - a) * 1024 / sr) ∧
    ∀ i, i < flux.length → isCandidate flux i = true → i ∉ ons →
      ∃ o ∈ ons, o < i ∧ ((i : ℚ) - o) * 1024 / sr < 3 / 20 ∧ ∀ o' ∈ ons, o' < i → o' ≤ o

/-- R186 to R189: the lags in range are those of 60 to 200 BPM; the autocorrelation counts onset pairs; the tempo's lag is
the smallest lag of the largest count, found exactly when that count exceeds 0.3 of the zero-lag count; its value is the
word nearest to its BPM and lies in [60, 200]. -/
def Obligations.TempoSelection : Prop :=
  ∀ (sr n : Nat) (ons : List Nat), 1 ≤ sr → sr ≤ 192000 → ons.Pairwise (· < ·) → (∀ o ∈ ons, o < n) →
    let corr := autocorr ons n
    let bpm := fun l : Nat => (60 : ℚ) * sr / (1024 * l)
    (∀ l, l ∈ lags sr ↔ 1 ≤ l ∧ 60 ≤ bpm l ∧ bpm l ≤ 200) ∧
    corr 0 = ons.length ∧ (∀ l, corr l = (ons.filter fun o => decide (o + l ∈ ons)).length) ∧
    (∀ l, tempoLagOf corr (lags sr) = some l ↔
      l ∈ lags sr ∧ (∀ l' ∈ lags sr, corr l' ≤ corr l) ∧ (∀ l' ∈ lags sr, l' < l → corr l' < corr l) ∧
      (3 : ℚ) / 10 * corr 0 < corr l) ∧
    ∀ l ∈ lags sr, IsNearest (bpmWord sr l) (bpm l) ∧ 60 ≤ realValue (bpmWord sr l) ∧ realValue (bpmWord sr l) ≤ 200

/-- R200 to R203: the time and the hop position of a frame, and the interpolation between two hops with its two weights,
which stays between +0.0 and the feature bound of log 8 and gives either hop's value at its end. -/
def Obligations.FramePositionsAndInterpolation : Prop :=
  (∀ (sr k : Nat) (fps : Word), 0 < realValue fps → isFinite fps = true →
    let q : ℚ := (k : ℚ) * sr / (1024 * realValue fps)
    (InRange ((k : ℚ) / realValue fps) → IsNearest (frameTime (magUnits fps) k) ((k : ℚ) / realValue fps)) ∧
    (framePos sr (magUnits fps) k : ℤ) = ⌊q⌋ ∧ IsNearest (frameFrac sr (magUnits fps) k) (q - ⌊q⌋) ∧
    ∀ x0 x1, BoundedFeature x0 → BoundedFeature x1 →
      BoundedFeature (interpolate (frameFrac sr (magUnits fps) k) x0 x1)) ∧
  (∀ fr x0 x1, interpolate fr x0 x1 = add32 (mul32 x0 (sub32 0x3F800000 fr)) (mul32 x1 fr)) ∧
  ∀ x0 x1, isFeature x0 = true → isFeature x1 = true →
    interpolate zero32 x0 x1 = x0 ∧ interpolate one32 x0 x1 = x1

/-- R206, R207: both recurrences of the filter, and its ends: with factor 0 the series itself, with factor 1 its first
value everywhere. -/
def Obligations.SmoothingRecurrences : Prop :=
  ∀ (lam : Word) (xs : List Word), inUnit lam = true → (∀ v ∈ xs, isFeature v = true) →
    ∃ ys : List Word, ys.length = xs.length ∧ (smoothSeries lam xs).length = xs.length ∧
      let c := sub32 one32 lam
      let x := fun t => xs.getD t zero32
      let y := fun t => ys.getD t zero32
      let z := fun t => (smoothSeries lam xs).getD t zero32
      (0 < xs.length → y 0 = x 0 ∧ z (xs.length - 1) = y (xs.length - 1)) ∧
      (∀ t, t + 1 < xs.length → y (t + 1) = add32 (mul32 lam (y t)) (mul32 c (x (t + 1))) ∧
        z t = add32 (mul32 lam (z (t + 1))) (mul32 c (y t))) ∧
      (realValue lam = 0 → smoothSeries lam xs = xs) ∧
      (realValue lam = 1 → ∀ t, t < xs.length → z t = x 0)

/-- R212 to R215: in which frame an onset falls; the flag, the intensity and the phase of a frame: before the first onset,
in an onset's frame, and after it. -/
def Obligations.BeatFields : Prop :=
  ∀ (sr k : Nat) (fps : Word) (ons : List Nat) (lag : Option Nat), 1 ≤ sr → isFinite fps = true → 0 < realValue fps →
    ons.Pairwise (· < ·) → (∀ l, lag = some l → 1 ≤ l) →
    let F := magUnits fps
    let frame := fun o : Nat => ⌊(o : ℚ) * 1024 * realValue fps / sr⌋
    let d := fun o : Nat => max 0 ((k : ℚ) / realValue fps - (o : ℚ) * 1024 / sr)
    ((∃ o ∈ ons, frame o = k) → isBeat sr F ons k = one32 ∧ beatIntensity sr F ons k = one32) ∧
    ((¬∃ o ∈ ons, frame o = k) → isBeat sr F ons k = zero32) ∧
    ((∀ o ∈ ons, (k : ℤ) < frame o) →
      beatIntensity sr F ons k = zero32 ∧ beatPhase sr F lag ons k = zero32) ∧
    (∀ before o after, ons = before ++ o :: after → frame o ≤ k → (∀ o' ∈ after, (k : ℤ) < frame o') →
      (frame o < k → InRange (d o * 20 / 3) → ∃ a, IsNearest a (-(d o * 20 / 3)) ∧
        beatIntensity sr F ons k = min32 one32 (max32 zero32 (numExp a))) ∧
      (∀ next more, after = next :: more → ∃ u, IsNearest u (d o / (((next : ℚ) - o) * 1024 / sr)) ∧
        beatPhase sr F lag ons k = if realValue u < 1 then u else 0x3F7FFFFF) ∧
      (∀ l, after = [] → lag = some l →
        let q := d o / (1024 * (l : ℚ) / sr)
        ∃ u, IsNearest u (q - ⌊q⌋) ∧ beatPhase sr F lag ons k = if realValue u < 1 then u else 0x3F7FFFFF) ∧
      (after = [] → lag = none → beatPhase sr F lag ons k = zero32)) ∧
    inUnit (beatIntensity sr F ons k) = true ∧ inUnit (beatPhase sr F lag ons k) = true ∧
    realValue (beatPhase sr F lag ons k) < 1

/-- R152, R154: after ANALYZE completes, PEAK_AMP is the largest magnitude of the whole stream. -/
def Obligations.PeakAmplitudeOfTheStream : Prop :=
  ∀ (s t : State), s.error = none → exec .analyze s = .next t → t.error = none →
    (∀ n v, n < s.nsamp.toNat → s.mem.read .pcm n = some v → |realValue v| ≤ realValue t.peakAmp) ∧
    ∃ n v, n < s.nsamp.toNat ∧ s.mem.read .pcm n = some v ∧ realValue t.peakAmp = |realValue v|

/-- R159: what ANALYZE and SPECTRUM write depends only on the samples of the stream, SR, NSAMP and HANN_SYM: two states
that agree on these get the same words and the same peaks, whatever else they hold. -/
def Obligations.AnalysisIsDeterministic : Prop :=
  ∀ (s s' t t' : State), s.sr = s'.sr → s.nsamp = s'.nsamp → s.hannSym = s'.hannSym →
    (∀ n, n < s.nsamp.toNat → s.mem.read .pcm n = s'.mem.read .pcm n) → s.error = none → s'.error = none →
    (exec .analyze s = .next t → exec .analyze s' = .next t' → t.error = none → t'.error = none →
      t.peakAmp = t'.peakAmp ∧ t.peakRms = t'.peakRms ∧ t.peakFlux = t'.peakFlux ∧ t.peakBands = t'.peakBands ∧
      (∀ k, k < 12 * t.nhops.toNat → t.mem.read .hopf k = t'.mem.read .hopf k) ∧
      (∀ k, k < 1025 → t.mem.read .mag k = t'.mem.read .mag k) ∧
      ∀ k, k < 512 → t.mem.read .wave k = t'.mem.read .wave k) ∧
    ∀ h, exec (.spectrum h) s = .next t → exec (.spectrum h) s' = .next t' → t.error = none → t'.error = none →
      (∀ k, k < 1025 → t.mem.read .mag k = t'.mem.read .mag k) ∧
      ∀ k, k < 512 → t.mem.read .wave k = t'.mem.read .wave k

/-! ### Invariants -/

/-- The state after reset, with any host accesses to come, has every invariant. -/
def Obligations.ResetHasTheInvariants : Prop :=
  ∀ inputs : List Event,
    let s := { State.reset with inputs := inputs }
    BusyInv s ∧ MemoryInv s ∧ PipelineInv s ∧ FrameInv s

/-- R120, R250: every step keeps the rule that no error stands while a command runs, so errors do not nest. -/
def Obligations.StepKeepsBusyInv : Prop :=
  ∀ s t : State, BusyInv s → step s = .next t → BusyInv t

/-- Every step keeps every written index within its buffer's capacity (R50, R86), and keeps the canonical form of memory,
rising indices, which is the model's own choice and no rule of the spec (log 18). -/
def Obligations.StepKeepsMemoryInv : Prop :=
  ∀ s t : State, ConfigInv s → MemoryInv s → step s = .next t → ConfigInv t ∧ MemoryInv t

/-- R16, R55, R184, R189, R249: every step keeps what the pipeline commands rely on: a nonzero stage has a checked
configuration, bounded features, a spaced onset list and a tempo in range. -/
def Obligations.StepKeepsPipelineInv : Prop :=
  ∀ s t : State, PipelineInv s → step s = .next t → PipelineInv t

/-- R218: every step keeps the range invariant of the frame records, stage by stage. -/
def Obligations.StepKeepsFrameInv : Prop :=
  ∀ s t : State, FrameInv s → step s = .next t → FrameInv t

/-- R16, R61, R71: in a reachable state a step can stop only on a malformed host access, on a host read of an unwritten
word, on a command that reads an unwritten PCM word below NSAMP, or on an ANALYZE or RUN of a stream of which an rms or a
flux overflows (log 8): no command meets any other NaN or infinity, an unwritten result or an inconsistent state. -/
def Obligations.FaultsOfReachableStates : Prop :=
  ∀ (s : State) (f : Fault), Reachable s → step s = .fault f →
    f = .busError ∨
    (∃ size off rest, s.inputs = .read size off :: rest ∧
      f = .unwritten (selectedBuffer s.bufSel) s.bufIdx.toNat) ∨
    (s.latch ≠ none ∧ ∃ k, k < s.nsamp.toNat ∧ s.mem.read .pcm k = none ∧ f = .unwritten .pcm k) ∨
    (f = .notFinite ∧ (s.latch = some 0x03 ∨ s.latch = some 0x0A) ∧
      ∃ xs h, IsStream s xs ∧ h * 1024 < s.nsamp.toNat ∧ ¬HopIsFinite s xs h)
end

