-- ==== Sys2Proof/Laws/Binary32.lean ====
section
/-! SUPPORT. The laws of the binary32 primitives: how a word is read back from its bits, and rounding as a monotone
projection onto the representable magnitudes (`roundMag_le`, `le_roundMag`), from which bounds on every operation
follow. -/

namespace Sys2Proof.Machine

/-! ### Words and their magnitude bits -/

/-- The magnitude, in units of 2^-149, of the low 31 bits of a word. -/
def unitsOfBits (b : Nat) : Nat := if b / 2 ^ 23 = 0 then b % 2 ^ 23 else (2 ^ 23 + b % 2 ^ 23) * 2 ^ (b / 2 ^ 23 - 1)

/-- The low 31 bits of a word. -/
def magBits (w : Word) : Nat := w.toNat % 2 ^ 31

theorem magBits_lt (w : Word) : magBits w < 2 ^ 31 := Nat.mod_lt _ (by norm_num)

theorem expField_eq (w : Word) : expField w = magBits w / 2 ^ 23 := by
  unfold expField magBits
  omega

theorem fracField_eq (w : Word) : fracField w = magBits w % 2 ^ 23 := by
  unfold fracField magBits
  omega

theorem magUnits_eq (w : Word) : magUnits w = unitsOfBits (magBits w) := by
  rw [magUnits, expField_eq, fracField_eq, unitsOfBits]

theorem isFinite_iff (w : Word) : isFinite w = true ↔ magBits w < 0x7F800000 := by
  have := magBits_lt w
  rw [isFinite, expField_eq, bne_iff_ne]
  omega

theorem isNaN_iff (w : Word) : isNaN w = true ↔ 0x7F800000 < magBits w := by
  have := magBits_lt w
  simp only [isNaN, expField_eq, fracField_eq, Bool.and_eq_true, beq_iff_eq, bne_iff_ne]
  omega

theorem isInf_iff (w : Word) : isInf w = true ↔ magBits w = 0x7F800000 := by
  have := magBits_lt w
  simp only [isInf, expField_eq, fracField_eq, Bool.and_eq_true, beq_iff_eq]
  omega

theorem not_isNaN_of_finite {w : Word} (h : isFinite w = true) : isNaN w = false := by
  rw [isFinite_iff] at h
  rw [Bool.eq_false_iff, ne_eq, isNaN_iff]
  omega

theorem not_isInf_of_finite {w : Word} (h : isFinite w = true) : isInf w = false := by
  rw [isFinite_iff] at h
  rw [Bool.eq_false_iff, ne_eq, isInf_iff]
  omega

/-- A word that is neither a NaN nor an infinity is finite. -/
theorem isFinite_of_not {w : Word} (h1 : isNaN w = false) (h2 : isInf w = false) : isFinite w = true := by
  rw [Bool.eq_false_iff, ne_eq, isNaN_iff] at h1
  rw [Bool.eq_false_iff, ne_eq, isInf_iff] at h2
  rw [isFinite_iff]
  omega

theorem withSign_toNat (neg : Bool) {b : Nat} (h : b < 2 ^ 31) :
    (withSign neg b).toNat = (if neg then 2 ^ 31 + b else b) := by
  unfold withSign
  cases neg
  · simp; omega
  · simp; omega

theorem magBits_withSign (neg : Bool) {b : Nat} (h : b < 2 ^ 31) : magBits (withSign neg b) = b := by
  rw [magBits, withSign_toNat neg h]
  cases neg <;> simp <;> omega

theorem signBit_eq (w : Word) : signBit w = decide (2 ^ 31 ≤ w.toNat) := by
  have h := w.isLt
  rw [signBit, BitVec.getLsbD, Nat.testBit_eq_decide_div_mod_eq]
  congr 1
  apply propext
  omega

theorem signBit_withSign (neg : Bool) {b : Nat} (h : b < 2 ^ 31) : signBit (withSign neg b) = neg := by
  rw [signBit_eq, withSign_toNat neg h]
  cases neg <;> (simp; try omega)

theorem magUnits_withSign (neg : Bool) {b : Nat} (h : b < 2 ^ 31) : magUnits (withSign neg b) = unitsOfBits b := by
  rw [magUnits_eq, magBits_withSign neg h]

/-- A word is its sign and its low 31 bits. -/
theorem withSign_signBit_magBits (w : Word) : withSign (signBit w) (magBits w) = w := by
  apply BitVec.eq_of_toNat_eq
  rw [withSign_toNat _ (magBits_lt w), signBit_eq, magBits]
  have := w.isLt
  by_cases h : 2 ^ 31 ≤ w.toNat
  · rw [decide_eq_true h, if_pos rfl]; omega
  · rw [decide_eq_false h, if_neg (by simp)]; omega

theorem realUnits_of_pos {w : Word} (h : signBit w = false) : realUnits w = magUnits w := by simp [realUnits, h]

theorem natAbs_realUnits (w : Word) : (realUnits w).natAbs = magUnits w := by
  unfold realUnits
  split_ifs <;> simp

/-! ### The magnitudes in order -/

/-- The significand and the number of dropped bits of a bit pattern. -/
theorem unitsOfBits_decompose (b : Nat) : ∃ e sig, b = e * 2 ^ 23 + sig ∧ unitsOfBits b = sig * 2 ^ e ∧ sig < 2 ^ 24 ∧
    (e = 0 ∨ 2 ^ 23 ≤ sig) := by
  unfold unitsOfBits
  by_cases h : b / 2 ^ 23 = 0
  · exact ⟨0, b, by omega, by rw [if_pos h]; omega, by omega, .inl rfl⟩
  · refine ⟨b / 2 ^ 23 - 1, 2 ^ 23 + b % 2 ^ 23, ?_, by rw [if_neg h], by omega, .inr (by omega)⟩
    omega

/-- A significand of at most 24 bits times a power of two is a representable magnitude. -/
theorem unitsOfBits_normal (e sig : Nat) (h1 : sig < 2 ^ 24) (h2 : e = 0 ∨ 2 ^ 23 ≤ sig) :
    unitsOfBits (e * 2 ^ 23 + sig) = sig * 2 ^ e := by
  unfold unitsOfBits
  by_cases hs : sig < 2 ^ 23
  · have he : e = 0 := h2.resolve_right (by omega)
    subst he
    rw [if_pos (by omega)]
    omega
  · rw [if_neg (by omega), show (e * 2 ^ 23 + sig) / 2 ^ 23 - 1 = e by omega,
      show 2 ^ 23 + (e * 2 ^ 23 + sig) % 2 ^ 23 = sig by omega]

theorem unitsOfBits_zero : unitsOfBits 0 = 0 := by simp [unitsOfBits]

/-! ### Rounding -/

theorem le_roundHalfEven (q r d : Nat) : q ≤ roundHalfEven q r d := by
  unfold roundHalfEven
  split_ifs <;> omega

theorem roundHalfEven_le (q r d : Nat) : roundHalfEven q r d ≤ q + 1 := by
  unfold roundHalfEven
  split_ifs <;> omega

theorem roundHalfEven_exact (q d : Nat) (hd : 0 < d) : roundHalfEven q 0 d = q := by
  unfold roundHalfEven
  split_ifs <;> omega

/-- The kept digits of an integer magnitude: 24 of them, unless none is dropped. -/
theorem dropBits_spec (q : Nat) :
    q / 2 ^ dropBits q < 2 ^ 24 ∧ (dropBits q = 0 ∨ 2 ^ 23 ≤ q / 2 ^ dropBits q) := by
  unfold dropBits
  by_cases hq : q = 0
  · subst hq; simp
  have h1 : q < 2 ^ (Nat.log2 q + 1) := Nat.lt_log2_self
  have h2 : 2 ^ Nat.log2 q ≤ q := Nat.log2_self_le hq
  have hpos : 0 < 2 ^ (Nat.log2 q - 23) := Nat.two_pow_pos _
  by_cases hk : Nat.log2 q ≤ 23
  · have : Nat.log2 q - 23 = 0 := by omega
    rw [this]
    refine ⟨?_, .inl rfl⟩
    have : 2 ^ (Nat.log2 q + 1) ≤ 2 ^ 24 := Nat.pow_le_pow_right (by norm_num) (by omega)
    simpa using lt_of_lt_of_le h1 this
  · refine ⟨?_, .inr ?_⟩
    · rw [Nat.div_lt_iff_lt_mul hpos, ← pow_add]
      rwa [show 24 + (Nat.log2 q - 23) = Nat.log2 q + 1 by omega]
    · rw [Nat.le_div_iff_mul_le hpos, ← pow_add]
      rwa [show 23 + (Nat.log2 q - 23) = Nat.log2 q by omega]

theorem roundMag_le_inf (n d : Nat) : roundMag n d ≤ 0x7F800000 := Nat.min_le_right _ _

theorem roundMag_lt (n d : Nat) : roundMag n d < 2 ^ 31 := lt_of_le_of_lt (roundMag_le_inf n d) (by norm_num)

/-- Rounding does not pass a representable magnitude from below. -/
theorem roundMag_le {n d c : Nat} (hd : 0 < d) (h : n ≤ unitsOfBits c * d) : roundMag n d ≤ c := by
  obtain ⟨e, sig, hc, hu, hs, hse⟩ := unitsOfBits_decompose c
  obtain ⟨hq1, hq2⟩ := dropBits_spec (n / d)
  rw [Nat.div_div_eq_div_mul] at hq1 hq2
  refine le_trans (Nat.min_le_left _ _) ?_
  generalize dropBits (n / d) = k at hq1 hq2 ⊢
  have hden : 0 < d * 2 ^ k := Nat.mul_pos hd (Nat.two_pow_pos k)
  have hdm : d * 2 ^ k * (n / (d * 2 ^ k)) + n % (d * 2 ^ k) = n := Nat.div_add_mod _ _
  have hmod : n % (d * 2 ^ k) < d * 2 ^ k := Nat.mod_lt _ hden
  generalize hQ : n / (d * 2 ^ k) = Q at *
  generalize hR : n % (d * 2 ^ k) = R at *
  have hr1 := roundHalfEven_le Q R (d * 2 ^ k)
  rw [hu] at h
  rcases lt_trichotomy k e with hke | hke | hke
  · have hs23 : 2 ^ 23 ≤ sig := hse.resolve_left (by omega)
    have : (k + 1) * 2 ^ 23 ≤ e * 2 ^ 23 := Nat.mul_le_mul_right _ hke
    omega
  · subst hke
    have hle : Q ≤ sig := by
      by_contra hcon
      have : d * 2 ^ k * (sig + 1) ≤ d * 2 ^ k * Q := Nat.mul_le_mul_left _ (by omega)
      nlinarith
    rcases Nat.lt_or_ge Q sig with hlt | hge
    · omega
    · have hQs : Q = sig := le_antisymm hle hge
      have hR0 : R = 0 := by
        subst hQs
        nlinarith
      subst hR0
      rw [roundHalfEven_exact _ _ hden]
      omega
  · exfalso
    have hQ23 : 2 ^ 23 ≤ Q := hq2.resolve_left (by omega)
    have h2 : 2 ^ e * 2 ≤ 2 ^ k := by rw [← pow_succ]; exact Nat.pow_le_pow_right (by norm_num) hke
    have h3 : sig * 2 ^ e < 2 ^ 24 * 2 ^ e := Nat.mul_lt_mul_of_pos_right hs (Nat.two_pow_pos e)
    have h4 : 2 ^ 24 * 2 ^ e ≤ 2 ^ k * 2 ^ 23 := by nlinarith
    have h5 : sig * 2 ^ e * d < 2 ^ k * 2 ^ 23 * d := Nat.mul_lt_mul_of_pos_right (lt_of_lt_of_le h3 h4) hd
    have h6 : d * 2 ^ k * 2 ^ 23 ≤ d * 2 ^ k * Q := Nat.mul_le_mul_left _ hQ23
    nlinarith

/-- Rounding does not pass a representable magnitude from above. -/
theorem le_roundMag {n d c : Nat} (hd : 0 < d) (hc31 : c ≤ 0x7F800000) (h : unitsOfBits c * d ≤ n) :
    c ≤ roundMag n d := by
  obtain ⟨e, sig, hc, hu, hs, hse⟩ := unitsOfBits_decompose c
  obtain ⟨hq1, hq2⟩ := dropBits_spec (n / d)
  rw [Nat.div_div_eq_div_mul] at hq1 hq2
  refine le_min ?_ hc31
  generalize dropBits (n / d) = k at hq1 hq2 ⊢
  have hden : 0 < d * 2 ^ k := Nat.mul_pos hd (Nat.two_pow_pos k)
  have hdm : d * 2 ^ k * (n / (d * 2 ^ k)) + n % (d * 2 ^ k) = n := Nat.div_add_mod _ _
  have hmod : n % (d * 2 ^ k) < d * 2 ^ k := Nat.mod_lt _ hden
  generalize hQ : n / (d * 2 ^ k) = Q at *
  generalize hR : n % (d * 2 ^ k) = R at *
  have hr0 := le_roundHalfEven Q R (d * 2 ^ k)
  rw [hu] at h
  rcases lt_trichotomy k e with hke | hke | hke
  · exfalso
    have hs23 : 2 ^ 23 ≤ sig := hse.resolve_left (by omega)
    have h2 : 2 ^ k * 2 ≤ 2 ^ e := by rw [← pow_succ]; exact Nat.pow_le_pow_right (by norm_num) hke
    have h3 : 2 ^ k * 2 ^ 24 ≤ sig * 2 ^ e := by nlinarith
    have h4 : 2 ^ k * 2 ^ 24 * d ≤ sig * 2 ^ e * d := Nat.mul_le_mul_right _ h3
    have h5 : d * 2 ^ k * (Q + 1) ≤ d * 2 ^ k * 2 ^ 24 := Nat.mul_le_mul_left _ hq1
    nlinarith
  · subst hke
    have hle : sig ≤ Q := by
      by_contra hcon
      have : d * 2 ^ k * (Q + 1) ≤ d * 2 ^ k * sig := Nat.mul_le_mul_left _ (by omega)
      nlinarith
    omega
  · have hQ23 : 2 ^ 23 ≤ Q := hq2.resolve_left (by omega)
    have : (e + 1) * 2 ^ 23 ≤ k * 2 ^ 23 := Nat.mul_le_mul_right _ hke
    omega

/-- A representable magnitude is its own rounding. -/
theorem roundMag_exact {n d c : Nat} (hd : 0 < d) (hc : c ≤ 0x7F800000) (h : n = unitsOfBits c * d) :
    roundMag n d = c :=
  le_antisymm (roundMag_le hd h.le) (le_roundMag hd hc h.ge)

/-- The magnitude of a rounded value: its rounded significand, at its exponent. -/
theorem roundMag_units {n d : Nat} (hfin : roundMag n d < 0x7F800000) :
    unitsOfBits (roundMag n d) = roundHalfEven (n / (d * 2 ^ dropBits (n / d))) (n % (d * 2 ^ dropBits (n / d)))
      (d * 2 ^ dropBits (n / d)) * 2 ^ dropBits (n / d) := by
  obtain ⟨hq1, hq2⟩ := dropBits_spec (n / d)
  rw [Nat.div_div_eq_div_mul] at hq1 hq2
  unfold roundMag at hfin ⊢
  simp only at hfin ⊢
  generalize dropBits (n / d) = k at *
  have h1 := roundHalfEven_le (n / (d * 2 ^ k)) (n % (d * 2 ^ k)) (d * 2 ^ k)
  have h0 := le_roundHalfEven (n / (d * 2 ^ k)) (n % (d * 2 ^ k)) (d * 2 ^ k)
  generalize roundHalfEven (n / (d * 2 ^ k)) (n % (d * 2 ^ k)) (d * 2 ^ k) = R at *
  rw [Nat.min_eq_left (by omega)]
  rcases Nat.lt_or_ge R (2 ^ 24) with h | h
  · exact unitsOfBits_normal k R h (by omega)
  · have hR : R = 2 ^ 24 := by omega
    subst hR
    rw [show k * 2 ^ 23 + 2 ^ 24 = (k + 1) * 2 ^ 23 + 2 ^ 23 by ring, unitsOfBits_normal _ _ (by norm_num) (.inr le_rfl)]
    ring

/-- Rounding moves a value by at most half of the last place kept. -/
theorem roundMag_error {n d : Nat} (hd : 0 < d) (hfin : roundMag n d < 0x7F800000) :
    2 * (unitsOfBits (roundMag n d) * d) ≤ 2 * n + d * 2 ^ dropBits (n / d) ∧
      2 * n ≤ 2 * (unitsOfBits (roundMag n d) * d) + d * 2 ^ dropBits (n / d) := by
  rw [roundMag_units hfin]
  generalize dropBits (n / d) = k
  have hdm : d * 2 ^ k * (n / (d * 2 ^ k)) + n % (d * 2 ^ k) = n := Nat.div_add_mod _ _
  have hmod : n % (d * 2 ^ k) < d * 2 ^ k := Nat.mod_lt _ (Nat.mul_pos hd (Nat.two_pow_pos k))
  generalize n / (d * 2 ^ k) = Q at *
  generalize n % (d * 2 ^ k) = r at *
  have hmul : ∀ x : Nat, x * 2 ^ k * d = d * 2 ^ k * x := fun x => by ring
  rw [hmul]
  generalize d * 2 ^ k = D at *
  unfold roundHalfEven
  split_ifs with h1 h2
  · rw [Nat.mul_add, mul_one]; omega
  · rcases Nat.mod_two_eq_zero_or_one Q with h | h
    · rw [h, Nat.add_zero]; omega
    · rw [h, Nat.mul_add, mul_one]; omega
  · omega

/-- Rounding zero. -/
@[simp] theorem roundMag_zero (d : Nat) : roundMag 0 d = 0 := by
  simp [roundMag, dropBits, roundHalfEven]

/-- The magnitudes keep the order of their bit patterns. -/
theorem unitsOfBits_le_iff {b c : Nat} (hb : b ≤ 0x7F800000) : unitsOfBits b ≤ unitsOfBits c ↔ b ≤ c := by
  constructor
  · intro h
    have h1 : roundMag (unitsOfBits b) 1 ≤ c := roundMag_le one_pos (by omega)
    rwa [roundMag_exact one_pos hb (by omega)] at h1
  · intro h
    by_contra hcon
    rcases Nat.lt_or_ge 0x7F800000 c with hc | hc
    · obtain ⟨e, sig, hc', hu, hs, hse⟩ := unitsOfBits_decompose c
      obtain ⟨e', sig', hb', hu', hs', hse'⟩ := unitsOfBits_decompose b
      have he : e' ≤ e := by
        by_contra hlt
        have : (e + 1) * 2 ^ 23 ≤ e' * 2 ^ 23 := Nat.mul_le_mul_right _ (by omega)
        have := hse'.resolve_left (by omega)
        omega
      rcases Nat.eq_or_lt_of_le he with rfl | hlt
      · have : sig' ≤ sig := by omega
        exact hcon (by rw [hu, hu']; exact Nat.mul_le_mul_right _ this)
      · have h2 : 2 ^ e' * 2 ≤ 2 ^ e := by rw [← pow_succ]; exact Nat.pow_le_pow_right (by norm_num) hlt
        have := hse.resolve_left (by omega)
        apply hcon
        rw [hu, hu']
        calc sig' * 2 ^ e' ≤ 2 ^ 24 * 2 ^ e' := Nat.mul_le_mul_right _ hs'.le
          _ = 2 ^ 23 * (2 ^ e' * 2) := by ring
          _ ≤ sig * 2 ^ e := Nat.mul_le_mul this h2
    · have h1 : roundMag (unitsOfBits c) 1 ≤ b := roundMag_le one_pos (by omega)
      rw [roundMag_exact one_pos hc (by omega)] at h1
      have : b = c := le_antisymm h h1
      subst this
      exact hcon le_rfl

/-! ### Representable bounds -/

/-- A finite representable magnitude. -/
def Rep (u : Nat) : Prop := ∃ c, c < 0x7F800000 ∧ unitsOfBits c = u

theorem rep_zero : Rep 0 := ⟨0, by norm_num, unitsOfBits_zero⟩

/-- A number of at most 24 bits times a power of two up to 2^252. -/
theorem rep_mul_pow {m e : Nat} (hm : m ≤ 2 ^ 24) (he : e ≤ 252) : Rep (m * 2 ^ e) := by
  induction e generalizing m with
  | zero =>
    rcases Nat.eq_or_lt_of_le hm with rfl | h
    · refine ⟨1 * 2 ^ 23 + 2 ^ 23, by norm_num, ?_⟩
      rw [unitsOfBits_normal _ _ (by norm_num) (.inr le_rfl)]
      norm_num
    · exact ⟨0 * 2 ^ 23 + m, by omega, unitsOfBits_normal 0 m h (.inl rfl)⟩
  | succ e ih =>
    by_cases h23 : m ≤ 2 ^ 23
    · rw [pow_succ, mul_comm (2 ^ e) 2, ← mul_assoc]
      exact ih (by omega) (by omega)
    · rcases Nat.eq_or_lt_of_le hm with rfl | h
      · refine ⟨(e + 2) * 2 ^ 23 + 2 ^ 23, by omega, ?_⟩
        rw [unitsOfBits_normal _ _ (by norm_num) (.inr le_rfl)]
        ring
      · exact ⟨(e + 1) * 2 ^ 23 + m, by omega, unitsOfBits_normal _ _ h (.inr (by omega))⟩

theorem rep_pow {e : Nat} (he : e ≤ 276) : Rep (2 ^ e) := by
  rcases Nat.lt_or_ge e 24 with h | h
  · simpa using rep_mul_pow (m := 2 ^ e) (e := 0) (Nat.pow_le_pow_right (by norm_num) (by omega)) (by norm_num)
  · have := rep_mul_pow (m := 2 ^ 24) (e := e - 24) le_rfl (by omega)
    rwa [← pow_add, show 24 + (e - 24) = e by omega] at this

/-- A finite word's magnitude is below 2^128. -/
theorem magUnits_lt_of_finite {w : Word} (h : isFinite w = true) : magUnits w < 2 ^ 277 := by
  have hinf : unitsOfBits 0x7F800000 = 2 ^ 23 * 2 ^ 254 := by decide
  rw [← pow_add] at hinf
  rw [magUnits_eq, ← hinf, ← not_le, unitsOfBits_le_iff (by norm_num)]
  rw [isFinite_iff] at h
  omega

theorem rep_magUnits {w : Word} (h : isFinite w = true) : Rep (magUnits w) :=
  ⟨magBits w, (isFinite_iff w).mp h, (magUnits_eq w).symm⟩

/-- A rounded value under a representable bound is finite and under it. -/
theorem pack_le {n d u : Nat} (neg : Bool) (hd : 0 < d) (hu : Rep u) (h : n ≤ u * d) :
    isFinite (withSign neg (roundMag n d)) = true ∧ magUnits (withSign neg (roundMag n d)) ≤ u := by
  obtain ⟨c, hc, rfl⟩ := hu
  have h1 := roundMag_le hd h
  have h31 := roundMag_lt n d
  refine ⟨(isFinite_iff _).mpr (by rw [magBits_withSign _ h31]; omega), ?_⟩
  rw [magUnits_withSign _ h31]
  exact (unitsOfBits_le_iff (roundMag_le_inf n d)).mpr h1

/-- A rounded value over a representable bound is over it. -/
theorem le_pack {n d u : Nat} (neg : Bool) (hd : 0 < d) (hu : Rep u) (h : u * d ≤ n) :
    u ≤ magUnits (withSign neg (roundMag n d)) := by
  obtain ⟨c, hc, rfl⟩ := hu
  rw [magUnits_withSign _ (roundMag_lt n d)]
  exact (unitsOfBits_le_iff hc.le).mpr (le_roundMag hd hc.le h)

@[simp] theorem signBit_pack (neg : Bool) (n d : Nat) : signBit (withSign neg (roundMag n d)) = neg :=
  signBit_withSign neg (roundMag_lt n d)

end Sys2Proof.Machine
end

