-- ==== Sys2Proof/Laws/Arithmetic.lean ====
section
/-! SUPPORT. What each binary32 operation answers on finite words, and the bounds that keep its answer finite. -/

namespace Sys2Proof.Machine

theorem isFeature_iff (w : Word) : isFeature w = true ↔ isFinite w = true ∧ signBit w = false := by
  simp [isFeature]

theorem isFinite_of_feature {w : Word} (h : isFeature w = true) : isFinite w = true := ((isFeature_iff w).mp h).1

theorem signBit_of_feature {w : Word} (h : isFeature w = true) : signBit w = false := ((isFeature_iff w).mp h).2

@[simp] theorem isFeature_zero32 : isFeature zero32 = true := by decide
@[simp] theorem isFeature_one32 : isFeature one32 = true := by decide
@[simp] theorem isFinite_zero32 : isFinite zero32 = true := by decide
@[simp] theorem isFinite_one32 : isFinite one32 = true := by decide
@[simp] theorem magUnits_zero32 : magUnits zero32 = 0 := by decide
@[simp] theorem magUnits_one32 : magUnits one32 = 2 ^ 149 := by decide
@[simp] theorem magUnits_two32 : magUnits two32 = 2 ^ 150 := by decide
@[simp] theorem magUnits_quarter32 : magUnits quarter32 = 2 ^ 147 := by decide
@[simp] theorem magUnits_w2048 : magUnits w2048 = 2 ^ 160 := by decide

/-! ### Sign changes -/

theorem abs32_eq (w : Word) : abs32 w = withSign false (magBits w) := by
  apply BitVec.eq_of_toNat_eq
  rw [withSign_toNat _ (magBits_lt w), abs32, magBits, BitVec.toNat_and]
  exact Nat.and_two_pow_sub_one_eq_mod w.toNat 31

@[simp] theorem signBit_abs32 (w : Word) : signBit (abs32 w) = false := by
  rw [abs32_eq, signBit_withSign _ (magBits_lt w)]

@[simp] theorem magUnits_abs32 (w : Word) : magUnits (abs32 w) = magUnits w := by
  rw [abs32_eq, magUnits_withSign _ (magBits_lt w), magUnits_eq]

@[simp] theorem isFinite_abs32 (w : Word) : isFinite (abs32 w) = isFinite w := by
  rw [Bool.eq_iff_iff, isFinite_iff, isFinite_iff, abs32_eq, magBits_withSign _ (magBits_lt w)]

theorem neg32_eq (w : Word) : neg32 w = withSign (!signBit w) (magBits w) := by
  apply BitVec.eq_of_getLsbD_eq
  intro i hi
  rw [neg32, BitVec.getLsbD_xor]
  conv_rhs => rw [BitVec.getLsbD, withSign_toNat _ (magBits_lt w)]
  rw [show (0x80000000 : Word) = BitVec.ofNat 32 (2 ^ 31) from rfl, BitVec.getLsbD_ofNat, Nat.testBit_two_pow]
  have hs : signBit w = w.getLsbD 31 := rfl
  by_cases h31 : i = 31
  · subst h31
    simp only [Nat.lt_add_one, decide_true, Bool.true_and, Bool.xor_true, hs]
    cases h : w.getLsbD 31
    · simp only [Bool.not_false, if_true, Nat.testBit_eq_decide_div_mod_eq, magBits]
      exact (decide_eq_true (by omega)).symm
    · simp only [Bool.not_true, Bool.false_eq_true, if_false, Nat.testBit_eq_decide_div_mod_eq, magBits]
      exact (decide_eq_false (by omega)).symm
  · have hlt : i < 31 := by omega
    have h1 : decide (31 = i) = false := by simp; omega
    rw [h1, Bool.and_false, Bool.xor_false]
    have h2 : (magBits w).testBit i = w.getLsbD i := by
      rw [magBits, Nat.testBit_mod_two_pow, BitVec.getLsbD]; simp [hlt]
    cases signBit w
    · simp only [Bool.not_false, if_true]
      rw [Nat.testBit_two_pow_add_gt hlt, h2]
    · simpa using h2.symm

@[simp] theorem signBit_neg32 (w : Word) : signBit (neg32 w) = !signBit w := by
  rw [neg32_eq, signBit_withSign _ (magBits_lt w)]

@[simp] theorem magUnits_neg32 (w : Word) : magUnits (neg32 w) = magUnits w := by
  rw [neg32_eq, magUnits_withSign _ (magBits_lt w), magUnits_eq]

@[simp] theorem isFinite_neg32 (w : Word) : isFinite (neg32 w) = isFinite w := by
  rw [Bool.eq_iff_iff, isFinite_iff, isFinite_iff, neg32_eq, magBits_withSign _ (magBits_lt w)]

@[simp] theorem realUnits_neg32 (w : Word) : realUnits (neg32 w) = -realUnits w := by
  simp only [realUnits, signBit_neg32, magUnits_neg32]
  cases signBit w <;> simp

/-! ### Finite operands -/

theorem mul32_of_finite {a b : Word} (ha : isFinite a = true) (hb : isFinite b = true) :
    mul32 a b = withSign (signBit a != signBit b) (roundMag (magUnits a * magUnits b) (2 ^ 149)) := by
  simp [mul32, not_isNaN_of_finite ha, not_isNaN_of_finite hb, not_isInf_of_finite ha, not_isInf_of_finite hb]

theorem div32_of_finite {a b : Word} (ha : isFinite a = true) (hb : isFinite b = true) (h0 : magUnits b ≠ 0) :
    div32 a b = withSign (signBit a != signBit b) (roundMag (magUnits a * 2 ^ 149) (magUnits b)) := by
  simp [div32, not_isNaN_of_finite ha, not_isNaN_of_finite hb, not_isInf_of_finite ha, not_isInf_of_finite hb, h0]

theorem add32_of_finite {a b : Word} (ha : isFinite a = true) (hb : isFinite b = true) :
    add32 a b = if realUnits a + realUnits b = 0 then withSign (signBit a && signBit b) 0
      else withSign (decide (realUnits a + realUnits b < 0)) (roundMag (realUnits a + realUnits b).natAbs 1) := by
  simp [add32, not_isNaN_of_finite ha, not_isNaN_of_finite hb, not_isInf_of_finite ha, not_isInf_of_finite hb]

theorem sub32_of_finite {a b : Word} (ha : isFinite a = true) (hb : isFinite b = true) :
    sub32 a b = add32 a (neg32 b) := by
  simp [sub32, not_isNaN_of_finite ha, not_isNaN_of_finite hb]

/-- The sum of two features. -/
theorem add32_of_features {a b : Word} (ha : isFeature a = true) (hb : isFeature b = true) :
    add32 a b = withSign false (roundMag (magUnits a + magUnits b) 1) := by
  rw [add32_of_finite (isFinite_of_feature ha) (isFinite_of_feature hb),
    realUnits_of_pos (signBit_of_feature ha), realUnits_of_pos (signBit_of_feature hb), signBit_of_feature ha]
  split_ifs with h
  · have : magUnits a + magUnits b = 0 := by omega
    simp [this]
  · rw [show ((magUnits a : Int) + magUnits b).natAbs = magUnits a + magUnits b by omega]
    rw [decide_eq_false (by omega)]

/-! ### Bounds: the answer is finite and its magnitude at most a representable bound -/

theorem mul32_le {a b : Word} {u : Nat} (ha : isFinite a = true) (hb : isFinite b = true) (hu : Rep u)
    (h : magUnits a * magUnits b ≤ u * 2 ^ 149) : isFinite (mul32 a b) = true ∧ magUnits (mul32 a b) ≤ u := by
  rw [mul32_of_finite ha hb]
  exact pack_le _ (Nat.two_pow_pos _) hu h

theorem div32_le {a b : Word} {u : Nat} (ha : isFinite a = true) (hb : isFinite b = true) (h0 : magUnits b ≠ 0)
    (hu : Rep u) (h : magUnits a * 2 ^ 149 ≤ u * magUnits b) :
    isFinite (div32 a b) = true ∧ magUnits (div32 a b) ≤ u := by
  rw [div32_of_finite ha hb h0]
  exact pack_le _ (Nat.pos_of_ne_zero h0) hu h

theorem add32_le {a b : Word} {u : Nat} (ha : isFinite a = true) (hb : isFinite b = true) (hu : Rep u)
    (h : magUnits a + magUnits b ≤ u) : isFinite (add32 a b) = true ∧ magUnits (add32 a b) ≤ u := by
  have hn : (realUnits a + realUnits b).natAbs ≤ u := by
    have h1 := natAbs_realUnits a
    have h2 := natAbs_realUnits b
    omega
  rw [add32_of_finite ha hb]
  split_ifs with h0
  · have := pack_le (n := 0) (d := 1) (signBit a && signBit b) one_pos hu (by omega)
    rwa [roundMag_zero] at this
  · exact pack_le _ one_pos hu (by omega)

theorem sub32_le {a b : Word} {u : Nat} (ha : isFinite a = true) (hb : isFinite b = true) (hu : Rep u)
    (h : magUnits a + magUnits b ≤ u) : isFinite (sub32 a b) = true ∧ magUnits (sub32 a b) ≤ u := by
  rw [sub32_of_finite ha hb]
  exact add32_le ha (by simpa using hb) hu (by simpa using h)

/-- The difference of two features is at most the larger of them. -/
theorem sub32_features_le {a b : Word} {u : Nat} (ha : isFeature a = true) (hb : isFeature b = true) (hu : Rep u)
    (h1 : magUnits a ≤ u) (h2 : magUnits b ≤ u) : isFinite (sub32 a b) = true ∧ magUnits (sub32 a b) ≤ u := by
  have ha' := isFinite_of_feature ha
  have hb' := isFinite_of_feature hb
  have hn : (realUnits a + realUnits (neg32 b)).natAbs ≤ u := by
    rw [realUnits_neg32, realUnits_of_pos (signBit_of_feature ha), realUnits_of_pos (signBit_of_feature hb)]
    omega
  rw [sub32_of_finite ha' hb', add32_of_finite ha' (by simpa using hb')]
  split_ifs with h0
  · have := pack_le (n := 0) (d := 1) (signBit a && signBit (neg32 b)) one_pos hu (by omega)
    rwa [roundMag_zero] at this
  · exact pack_le _ one_pos hu (by omega)

/-- A sum of features is at least each of them. -/
theorem le_add32_right {a b : Word} (ha : isFeature a = true) (hb : isFeature b = true) :
    magUnits b ≤ magUnits (add32 a b) := by
  rw [add32_of_features ha hb]
  exact le_pack _ one_pos (rep_magUnits (isFinite_of_feature hb)) (by omega)

theorem le_add32_left {a b : Word} (ha : isFeature a = true) (hb : isFeature b = true) :
    magUnits a ≤ magUnits (add32 a b) := by
  rw [add32_of_features ha hb]
  exact le_pack _ one_pos (rep_magUnits (isFinite_of_feature ha)) (by omega)

/-! ### Features stay features -/

theorem signBit_mul32_of_features {a b : Word} (ha : isFeature a = true) (hb : isFeature b = true) :
    signBit (mul32 a b) = false := by
  rw [mul32_of_finite (isFinite_of_feature ha) (isFinite_of_feature hb), signBit_pack, signBit_of_feature ha,
    signBit_of_feature hb]
  rfl

theorem signBit_add32_of_features {a b : Word} (ha : isFeature a = true) (hb : isFeature b = true) :
    signBit (add32 a b) = false := by
  rw [add32_of_features ha hb, signBit_pack]

theorem signBit_div32_of_features {a b : Word} (ha : isFeature a = true) (hb : isFeature b = true)
    (h0 : magUnits b ≠ 0) : signBit (div32 a b) = false := by
  rw [div32_of_finite (isFinite_of_feature ha) (isFinite_of_feature hb) h0, signBit_pack, signBit_of_feature ha,
    signBit_of_feature hb]
  rfl

theorem mul32_feature_le {a b : Word} {u : Nat} (ha : isFeature a = true) (hb : isFeature b = true) (hu : Rep u)
    (h : magUnits a * magUnits b ≤ u * 2 ^ 149) : isFeature (mul32 a b) = true ∧ magUnits (mul32 a b) ≤ u := by
  obtain ⟨h1, h2⟩ := mul32_le (isFinite_of_feature ha) (isFinite_of_feature hb) hu h
  exact ⟨(isFeature_iff _).mpr ⟨h1, signBit_mul32_of_features ha hb⟩, h2⟩

theorem add32_feature_le {a b : Word} {u : Nat} (ha : isFeature a = true) (hb : isFeature b = true) (hu : Rep u)
    (h : magUnits a + magUnits b ≤ u) : isFeature (add32 a b) = true ∧ magUnits (add32 a b) ≤ u := by
  obtain ⟨h1, h2⟩ := add32_le (isFinite_of_feature ha) (isFinite_of_feature hb) hu h
  exact ⟨(isFeature_iff _).mpr ⟨h1, signBit_add32_of_features ha hb⟩, h2⟩

theorem div32_feature_le {a b : Word} {u : Nat} (ha : isFeature a = true) (hb : isFeature b = true)
    (h0 : magUnits b ≠ 0) (hu : Rep u) (h : magUnits a * 2 ^ 149 ≤ u * magUnits b) :
    isFeature (div32 a b) = true ∧ magUnits (div32 a b) ≤ u := by
  obtain ⟨h1, h2⟩ := div32_le (isFinite_of_feature ha) (isFinite_of_feature hb) h0 hu h
  exact ⟨(isFeature_iff _).mpr ⟨h1, signBit_div32_of_features ha hb h0⟩, h2⟩

/-- `rne32` of a rational under a representable bound is a feature under it. -/
theorem rne32_feature_le {n d u : Nat} (hd : 0 < d) (hu : Rep u) (h : n * 2 ^ 149 ≤ u * d) :
    isFeature (rne32 n d) = true ∧ magUnits (rne32 n d) ≤ u := by
  obtain ⟨h1, h2⟩ := pack_le false hd hu h
  exact ⟨(isFeature_iff _).mpr ⟨h1, signBit_pack _ _ _⟩, h2⟩

/-! ### A finite answer has finite operands (R16): infinities and NaNs do not go away -/

theorem finite_of_add32 {a b : Word} (h : isFinite (add32 a b) = true) : isFinite a = true ∧ isFinite b = true := by
  unfold add32 at h
  split_ifs at h with h1 h2 h3 h4
  · exact absurd h (by decide)
  · exact absurd h (by decide)
  · rw [not_isInf_of_finite h] at h2; cases h2
  · rw [not_isInf_of_finite h] at h4; cases h4
  all_goals
    simp only [Bool.or_eq_true, not_or, Bool.not_eq_true] at h1 h2 h4
    exact ⟨isFinite_of_not h1.1 h2, isFinite_of_not h1.2 h4⟩

theorem finite_of_mul32 {a b : Word} (h : isFinite (mul32 a b) = true) : isFinite a = true ∧ isFinite b = true := by
  unfold mul32 at h
  simp only at h
  split_ifs at h with h1 h2 h3
  · exact absurd h (by decide)
  · exact absurd h (by decide)
  · rw [isFinite_iff, magBits_withSign _ (by norm_num)] at h
    exact absurd h (by norm_num)
  · simp only [Bool.or_eq_true, not_or, Bool.not_eq_true] at h1 h2
    exact ⟨isFinite_of_not h1.1 h2.1, isFinite_of_not h1.2 h2.2⟩

theorem finite_of_div32 {a b : Word} (h : isFinite (div32 a b) = true) : isFinite a = true := by
  unfold div32 at h
  simp only at h
  split_ifs at h with h1 h2 h3
  · exact absurd h (by decide)
  · exact absurd h (by decide)
  · rw [isFinite_iff, magBits_withSign _ (by norm_num)] at h
    exact absurd h (by norm_num)
  all_goals
    simp only [Bool.or_eq_true, not_or, Bool.not_eq_true] at h1 h2
    exact isFinite_of_not h1.1 h2

theorem finite_of_sqrt32 {a : Word} (h : isFinite (sqrt32 a) = true) : isFinite a = true := by
  unfold sqrt32 at h
  split_ifs at h with h1 h2 h3 h4
  · exact absurd h (by decide)
  · exact h
  · exact absurd h (by decide)
  · exact h
  all_goals
    simp only [Bool.not_eq_true] at h1 h4
    exact isFinite_of_not h1 h4

/-! ### The square root -/

/-- The integer square root. -/
theorem isqrt_spec (fuel n : Nat) (h : n < 4 ^ fuel) :
    isqrt fuel n * isqrt fuel n ≤ n ∧ n < (isqrt fuel n + 1) * (isqrt fuel n + 1) := by
  induction fuel generalizing n with
  | zero => simp at h; subst h; simp [isqrt]
  | succ f ih =>
    unfold isqrt
    by_cases h0 : n = 0
    · subst h0; simp
    · rw [if_neg h0]
      obtain ⟨h1, h2⟩ := ih (n / 4) (by rw [pow_succ] at h; omega)
      generalize isqrt f (n / 4) = r at h1 h2
      have hm : 4 * (n / 4) ≤ n ∧ n < 4 * (n / 4) + 4 := by omega
      simp only
      split_ifs with hc
      · refine ⟨hc, ?_⟩
        nlinarith
      · refine ⟨?_, by omega⟩
        nlinarith

/-- The square root of a feature is a feature, under a representable bound whose square is not passed. -/
theorem sqrt32_feature_le {a : Word} {u : Nat} (ha : isFeature a = true) (hu : Rep u)
    (h : magUnits a * 2 ^ 149 ≤ u * u) : isFeature (sqrt32 a) = true ∧ magUnits (sqrt32 a) ≤ u := by
  have hf := isFinite_of_feature ha
  have hs := signBit_of_feature ha
  unfold sqrt32
  by_cases h0 : magUnits a = 0
  · simp [not_isNaN_of_finite hf, h0, ha]
  · simp only [not_isNaN_of_finite hf, h0, hs, not_isInf_of_finite hf, if_false, Bool.false_eq_true]
    have hlt : magUnits a * 2 ^ 149 < 4 ^ 256 := by
      obtain ⟨c, hc, hcu⟩ := rep_magUnits hf
      have : magUnits a ≤ unitsOfBits 0x7F800000 := by
        rw [← hcu]; exact (unitsOfBits_le_iff hc.le).mpr hc.le
      calc magUnits a * 2 ^ 149 ≤ unitsOfBits 0x7F800000 * 2 ^ 149 := Nat.mul_le_mul_right _ this
        _ < 4 ^ 256 := by decide
    obtain ⟨h1, _⟩ := isqrt_spec 256 _ hlt
    generalize isqrt 256 (magUnits a * 2 ^ 149) = r at h1
    have hb : (if r * r = magUnits a * 2 ^ 149 then 2 * r else 2 * r + 1) ≤ u * 2 := by
      split_ifs with he
      · have : r ≤ u := Nat.mul_self_le_mul_self_iff.mp (by omega)
        omega
      · have : r < u := Nat.mul_self_lt_mul_self_iff.mp (by omega)
        omega
    obtain ⟨h3, h4⟩ := pack_le false two_pos hu hb
    exact ⟨(isFeature_iff _).mpr ⟨h3, signBit_pack _ _ _⟩, h4⟩

/-! ### Maximum and minimum -/

/-- `max32` of words that are no NaN answers one of them, and not the smaller. -/
theorem max32_spec {a b : Word} (ha : isNaN a = false) (hb : isNaN b = false) :
    (max32 a b = a ∨ max32 a b = b) ∧ realUnits a ≤ realUnits (max32 a b) ∧ realUnits b ≤ realUnits (max32 a b) := by
  unfold max32
  simp only [ha, hb, Bool.or_self, Bool.false_eq_true, if_false]
  split_ifs with h1 h2 h3 h4
  · exact ⟨.inr rfl, h1.le, le_rfl⟩
  · exact ⟨.inl rfl, le_rfl, h2.le⟩
  · exact ⟨.inl rfl, le_rfl, not_lt.mp h1⟩
  · exact ⟨.inr rfl, not_lt.mp h2, le_rfl⟩
  · exact ⟨.inl rfl, le_rfl, not_lt.mp h1⟩

/-- `min32` of words that are no NaN answers one of them, and not the larger. -/
theorem min32_spec {a b : Word} (ha : isNaN a = false) (hb : isNaN b = false) :
    (min32 a b = a ∨ min32 a b = b) ∧ realUnits (min32 a b) ≤ realUnits a ∧ realUnits (min32 a b) ≤ realUnits b := by
  unfold min32
  simp only [ha, hb, Bool.or_self, Bool.false_eq_true, if_false]
  split_ifs with h1 h2 h3 h4
  · exact ⟨.inl rfl, le_rfl, h1.le⟩
  · exact ⟨.inr rfl, h2.le, le_rfl⟩
  · exact ⟨.inl rfl, le_rfl, not_lt.mp h2⟩
  · exact ⟨.inr rfl, not_lt.mp h1, le_rfl⟩
  · exact ⟨.inl rfl, le_rfl, not_lt.mp h2⟩

/-- The larger of two features is a feature under every bound of both. -/
theorem max32_feature_le {a b : Word} {u : Nat} (ha : isFeature a = true) (hb : isFeature b = true)
    (h1 : magUnits a ≤ u) (h2 : magUnits b ≤ u) : isFeature (max32 a b) = true ∧ magUnits (max32 a b) ≤ u := by
  obtain ⟨h | h, _⟩ := max32_spec (not_isNaN_of_finite (isFinite_of_feature ha))
    (not_isNaN_of_finite (isFinite_of_feature hb))
  · rw [h]; exact ⟨ha, h1⟩
  · rw [h]; exact ⟨hb, h2⟩

end Sys2Proof.Machine
end

