-- ==== Sys2Proof/Laws/Memory.lean ====
section
/-! SUPPORT. The laws of the buffers: a read after a write, and the canonical form kept by every operation. -/

namespace Sys2Proof.Machine

@[simp] theorem Buffer.read_nil (i : Nat) : Buffer.read [] i = none := rfl

theorem Buffer.read_cons (j : Nat) (v : Word) (b : Buffer) (i : Nat) :
    Buffer.read ((j, v) :: b) i = if i = j then some v else Buffer.read b i := rfl

/-- A read after a write: the word written at its index, every other index as before. -/
theorem Buffer.read_write (b : Buffer) (i j : Nat) (v : Word) :
    Buffer.read (Buffer.write b i v) j = if j = i then some v else Buffer.read b j := by
  induction b with
  | nil => simp [Buffer.write, Buffer.read]
  | cons c rest ih =>
    obtain ⟨k, u⟩ := c
    rw [Buffer.write]
    by_cases h1 : i < k
    · rw [if_pos h1, Buffer.read_cons]
    · rw [if_neg h1]
      by_cases h2 : i = k
      · subst h2
        rw [if_pos rfl, Buffer.read_cons, Buffer.read_cons]
        split_ifs <;> rfl
      · rw [if_neg h2, Buffer.read_cons, Buffer.read_cons, ih]
        split_ifs <;> first | rfl | omega

@[simp] theorem Buffer.writeCells_nil (b : Buffer) : Buffer.writeCells b [] = b := rfl

@[simp] theorem Buffer.writeCells_cons (b : Buffer) (c : Nat × Word) (cs : List (Nat × Word)) :
    Buffer.writeCells b (c :: cs) = Buffer.writeCells (Buffer.write b c.1 c.2) cs := rfl

theorem Buffer.writeCells_append (b : Buffer) (cs ds : List (Nat × Word)) :
    Buffer.writeCells b (cs ++ ds) = Buffer.writeCells (Buffer.writeCells b cs) ds := by
  induction cs generalizing b with
  | nil => rfl
  | cons c cs ih => simp [ih]

/-- Storing cells leaves every index that none of them has as it was. -/
theorem Buffer.read_writeCells_of_not_mem (b : Buffer) (cs : List (Nat × Word)) (i : Nat)
    (h : ∀ c ∈ cs, c.1 ≠ i) : Buffer.read (Buffer.writeCells b cs) i = Buffer.read b i := by
  induction cs generalizing b with
  | nil => rfl
  | cons c cs ih =>
    rw [Buffer.writeCells_cons, ih _ fun d hd => h d (List.mem_cons_of_mem _ hd), Buffer.read_write,
      if_neg fun e => h c List.mem_cons_self e.symm]

/-- Storing cells of different indices leaves each cell's word at its index. -/
theorem Buffer.read_writeCells_of_mem (b : Buffer) (cs : List (Nat × Word))
    (hnd : (cs.map Prod.fst).Nodup) {i : Nat} {v : Word} (h : (i, v) ∈ cs) :
    Buffer.read (Buffer.writeCells b cs) i = some v := by
  induction cs generalizing b with
  | nil => simp at h
  | cons c cs ih =>
    rw [List.map_cons, List.nodup_cons] at hnd
    rw [Buffer.writeCells_cons]
    rcases List.mem_cons.mp h with rfl | h'
    · rw [Buffer.read_writeCells_of_not_mem, Buffer.read_write, if_pos rfl]
      rintro d hd rfl
      exact hnd.1 (List.mem_map.mpr ⟨d, hd, rfl⟩)
    · exact ih _ hnd.2 h'

/-- After storing cells a written index is one of a cell or was written before. -/
theorem Buffer.read_writeCells_cases (b : Buffer) (cs : List (Nat × Word)) {i : Nat} {v : Word}
    (h : Buffer.read (Buffer.writeCells b cs) i = some v) :
    (i, v) ∈ cs ∨ ((∀ c ∈ cs, c.1 ≠ i) ∧ Buffer.read b i = some v) := by
  induction cs generalizing b with
  | nil => exact .inr ⟨by simp, h⟩
  | cons c cs ih =>
    rw [Buffer.writeCells_cons] at h
    rcases ih _ h with h1 | ⟨h1, h2⟩
    · exact .inl (List.mem_cons_of_mem _ h1)
    · rw [Buffer.read_write] at h2
      split_ifs at h2 with e
      · left
        cases h2
        subst e
        exact List.mem_cons_self
      · refine .inr ⟨fun d hd => ?_, h2⟩
        rcases List.mem_cons.mp hd with rfl | hd'
        · exact fun e' => e e'.symm
        · exact h1 d hd'

/-- Clearing marks: the indices that satisfy `p` read as unwritten, the others as before. -/
theorem Buffer.read_clear (b : Buffer) (p : Nat → Bool) (i : Nat) :
    Buffer.read (Buffer.clear b p) i = if p i then none else Buffer.read b i := by
  induction b with
  | nil => simp [Buffer.clear]
  | cons c rest ih =>
    obtain ⟨j, v⟩ := c
    by_cases hj : p j = true
    · rw [show Buffer.clear ((j, v) :: rest) p = Buffer.clear rest p by simp [Buffer.clear, hj], ih, Buffer.read_cons]
      by_cases e : i = j
      · subst e; simp [hj]
      · simp [e]
    · rw [show Buffer.clear ((j, v) :: rest) p = (j, v) :: Buffer.clear rest p by simp [Buffer.clear, hj],
        Buffer.read_cons, ih, Buffer.read_cons]
      by_cases e : i = j
      · subst e; simp [hj]
      · simp [e]

/-! ### The canonical form -/

theorem Buffer.wf_iff (b : Buffer) : Buffer.wf b = true ↔ b.Pairwise fun c d => c.1 < d.1 := by
  simp [Buffer.wf]

theorem Buffer.mem_write {b : Buffer} {i : Nat} {v : Word} {c : Nat × Word} (h : c ∈ Buffer.write b i v) :
    c = (i, v) ∨ c ∈ b := by
  induction b with
  | nil => simpa [Buffer.write] using h
  | cons d rest ih =>
    obtain ⟨k, u⟩ := d
    unfold Buffer.write at h
    split_ifs at h with h1 h2
    · simpa using h
    · rcases List.mem_cons.mp h with h | h
      · exact .inl h
      · exact .inr (List.mem_cons_of_mem _ h)
    · rcases List.mem_cons.mp h with h | h
      · exact .inr (h ▸ List.mem_cons_self)
      · exact (ih h).imp id (List.mem_cons_of_mem _)

theorem Buffer.wf_write {b : Buffer} (h : Buffer.wf b = true) (i : Nat) (v : Word) :
    Buffer.wf (Buffer.write b i v) = true := by
  rw [Buffer.wf_iff] at *
  induction b with
  | nil => simp [Buffer.write]
  | cons d rest ih =>
    obtain ⟨k, u⟩ := d
    rw [List.pairwise_cons] at h
    unfold Buffer.write
    split_ifs with h1 h2
    · refine List.pairwise_cons.mpr ⟨fun c hc => ?_, List.pairwise_cons.mpr h⟩
      rcases List.mem_cons.mp hc with rfl | hc
      · exact h1
      · exact lt_trans h1 (h.1 c hc)
    · subst h2
      exact List.pairwise_cons.mpr h
    · refine List.pairwise_cons.mpr ⟨fun c hc => ?_, ih h.2⟩
      rcases Buffer.mem_write hc with rfl | hc
      · show k < i
        omega
      · exact h.1 c hc

theorem Buffer.wf_writeCells {b : Buffer} (h : Buffer.wf b = true) (cs : List (Nat × Word)) :
    Buffer.wf (Buffer.writeCells b cs) = true := by
  induction cs generalizing b with
  | nil => exact h
  | cons c cs ih => exact ih (Buffer.wf_write h c.1 c.2)

theorem Buffer.wf_clear {b : Buffer} (h : Buffer.wf b = true) (p : Nat → Bool) : Buffer.wf (Buffer.clear b p) = true := by
  rw [Buffer.wf_iff] at *
  exact h.filter _

/-! ### The memory -/

@[simp] theorem Memory.buffer_setBuffer_same (m : Memory) (id : BufId) (b : Buffer) (h : id ≠ .hann) :
    (m.setBuffer id b).buffer id = b := by
  cases id <;> first | rfl | exact absurd rfl h

@[simp] theorem Memory.buffer_setBuffer_ne (m : Memory) {id id' : BufId} (b : Buffer) (h : id' ≠ id) :
    (m.setBuffer id b).buffer id' = m.buffer id' := by
  cases id <;> cases id' <;> first | rfl | exact absurd rfl h

theorem Memory.read_writeCells_ne (m : Memory) {id id' : BufId} (cs : List (Nat × Word)) (i : Nat) (h : id' ≠ id) :
    (m.writeCells id cs).read id' i = m.read id' i := by
  simp [Memory.read, Memory.writeCells, h]

theorem Memory.read_writeCells_of_not_mem (m : Memory) (id : BufId) (cs : List (Nat × Word)) (i : Nat)
    (h : ∀ c ∈ cs, c.1 ≠ i) : (m.writeCells id cs).read id i = m.read id i := by
  by_cases hid : id = .hann
  · subst hid; rfl
  · simp [Memory.read, Memory.writeCells, hid, Buffer.read_writeCells_of_not_mem _ _ _ h]

theorem Memory.read_writeCells_of_mem (m : Memory) {id : BufId} (hid : id ≠ .hann) (cs : List (Nat × Word))
    (hnd : (cs.map Prod.fst).Nodup) {i : Nat} {v : Word} (h : (i, v) ∈ cs) :
    (m.writeCells id cs).read id i = some v := by
  simp [Memory.read, Memory.writeCells, hid, Buffer.read_writeCells_of_mem _ _ hnd h]

/-- After storing cells a written word is a cell's or was there before. -/
theorem Memory.read_writeCells_cases (m : Memory) {id id' : BufId} {cs : List (Nat × Word)} {i : Nat} {v : Word}
    (h : (m.writeCells id cs).read id' i = some v) : (id' = id ∧ (i, v) ∈ cs) ∨ m.read id' i = some v := by
  by_cases e : id' = id
  · subst e
    by_cases hid : id' = .hann
    · subst hid; exact .inr h
    · simp only [Memory.read, Memory.writeCells, Memory.buffer_setBuffer_same _ _ _ hid] at h
      exact (Buffer.read_writeCells_cases _ _ h).imp (fun h => ⟨rfl, h⟩) (fun h => h.2)
  · rw [Memory.read_writeCells_ne _ _ _ e] at h
    exact .inr h

theorem Memory.read_clear (m : Memory) (id id' : BufId) (p : Nat → Bool) (i : Nat) :
    (m.clear id p).read id' i = if id' = id ∧ p i then none else m.read id' i := by
  by_cases e : id' = id
  · subst e
    by_cases hid : id' = .hann
    · subst hid; simp [Memory.read, Memory.buffer]
    · simp [Memory.read, Memory.clear, hid, Buffer.read_clear]
  · simp [Memory.read, Memory.clear, e]

theorem Memory.wf_iff (m : Memory) : m.wf = true ↔ ∀ id, Buffer.wf (m.buffer id) = true := by
  constructor
  · intro h id
    simp only [Memory.wf, Bool.and_eq_true] at h
    cases id <;> first | rfl | (simp only [Memory.buffer]; tauto)
  · intro h
    simp only [Memory.wf, Bool.and_eq_true]
    exact ⟨⟨⟨⟨⟨⟨h .pcm, h .mag⟩, h .wave⟩, h .hopf⟩, h .onset⟩, h .acorr⟩, h .frame⟩

theorem Memory.wf_setBuffer {m : Memory} (h : m.wf = true) (id : BufId) {b : Buffer} (hb : Buffer.wf b = true) :
    (m.setBuffer id b).wf = true := by
  rw [Memory.wf_iff] at *
  intro id'
  by_cases e : id' = id
  · subst e
    by_cases hid : id' = .hann
    · subst hid; rfl
    · rw [Memory.buffer_setBuffer_same _ _ _ hid]; exact hb
  · rw [Memory.buffer_setBuffer_ne _ _ e]; exact h id'

/-- Storing cells keeps the canonical form. -/
theorem Memory.wf_writeCells {m : Memory} (h : m.wf = true) (id : BufId) (cs : List (Nat × Word)) :
    (m.writeCells id cs).wf = true :=
  Memory.wf_setBuffer h id (Buffer.wf_writeCells ((Memory.wf_iff m).mp h id) cs)

/-- Clearing marks keeps the canonical form. -/
theorem Memory.wf_clear {m : Memory} (h : m.wf = true) (id : BufId) (p : Nat → Bool) : (m.clear id p).wf = true :=
  Memory.wf_setBuffer h id (Buffer.wf_clear ((Memory.wf_iff m).mp h id) p)

/-! ### Cells of consecutive indices -/

@[simp] theorem cellsFrom_nil (i : Nat) : cellsFrom i [] = [] := rfl

@[simp] theorem cellsFrom_cons (i : Nat) (v : Word) (vs : List Word) :
    cellsFrom i (v :: vs) = (i, v) :: cellsFrom (i + 1) vs := rfl

/-- The cells of a list from index `i` on: position `j` of the list at index `i + j`. -/
theorem mem_cellsFrom {i k : Nat} {v : Word} {vs : List Word} :
    (k, v) ∈ cellsFrom i vs ↔ ∃ j, k = i + j ∧ vs[j]? = some v := by
  induction vs generalizing i with
  | nil => simp
  | cons u us ih =>
    rw [cellsFrom_cons, List.mem_cons, ih]
    constructor
    · rintro (h | ⟨j, rfl, hj⟩)
      · cases h; exact ⟨0, rfl, rfl⟩
      · exact ⟨j + 1, by omega, by simpa using hj⟩
    · rintro ⟨j, rfl, hj⟩
      cases j with
      | zero => left; simp at hj; simp [hj]
      | succ j => exact .inr ⟨j, by omega, by simpa using hj⟩

theorem map_fst_cellsFrom (i : Nat) (vs : List Word) : (cellsFrom i vs).map Prod.fst = List.range' i vs.length := by
  induction vs generalizing i with
  | nil => rfl
  | cons v vs ih => simp [ih, List.range'_succ]

theorem nodup_cellsFrom (i : Nat) (vs : List Word) : ((cellsFrom i vs).map Prod.fst).Nodup := by
  rw [map_fst_cellsFrom]
  exact List.nodup_range'

/-- Storing a list from index `start` on: its words inside, every other index as before. -/
theorem Memory.read_writeCells_cellsFrom (m : Memory) {id : BufId} (hid : id ≠ .hann) (start : Nat) (vs : List Word)
    (i : Nat) : (m.writeCells id (cellsFrom start vs)).read id i =
      if h : start ≤ i ∧ i - start < vs.length then some (vs[i - start]'h.2) else m.read id i := by
  split_ifs with h
  · refine Memory.read_writeCells_of_mem m hid _ (nodup_cellsFrom _ _) (mem_cellsFrom.mpr ⟨i - start, by omega, ?_⟩)
    simp [h.2]
  · refine Memory.read_writeCells_of_not_mem m id _ i ?_
    rintro ⟨k, v⟩ hc e
    obtain ⟨j, rfl, hj⟩ := mem_cellsFrom.mp hc
    have := (List.getElem?_eq_some_iff.mp hj).1
    apply h
    simp only at e
    omega

end Sys2Proof.Machine
end

