-- ==== Sys2Proof/Laws/State.lean ====
section
/-! SUPPORT. What each named update of the state leaves in each field: one lemma per field per update. -/

namespace Sys2Proof.Machine

/-! ### `State.complete` -/

@[simp] theorem State.complete_hannSym (s : State) : (s.complete).hannSym = s.hannSym := rfl
@[simp] theorem State.complete_done (s : State) : (s.complete).done = true := rfl
@[simp] theorem State.complete_error (s : State) : (s.complete).error = s.error := rfl
@[simp] theorem State.complete_rej (s : State) : (s.complete).rej = s.rej := rfl
@[simp] theorem State.complete_tempoFound (s : State) : (s.complete).tempoFound = s.tempoFound := rfl
@[simp] theorem State.complete_stage (s : State) : (s.complete).stage = s.stage := rfl
@[simp] theorem State.complete_doneIe (s : State) : (s.complete).doneIe = s.doneIe := rfl
@[simp] theorem State.complete_errIe (s : State) : (s.complete).errIe = s.errIe := rfl
@[simp] theorem State.complete_rejIe (s : State) : (s.complete).rejIe = s.rejIe := rfl
@[simp] theorem State.complete_sr (s : State) : (s.complete).sr = s.sr := rfl
@[simp] theorem State.complete_nsamp (s : State) : (s.complete).nsamp = s.nsamp := rfl
@[simp] theorem State.complete_fps (s : State) : (s.complete).fps = s.fps := rfl
@[simp] theorem State.complete_smooth (s : State) : (s.complete).smooth = s.smooth := rfl
@[simp] theorem State.complete_nhops (s : State) : (s.complete).nhops = s.nhops := rfl
@[simp] theorem State.complete_nframes (s : State) : (s.complete).nframes = s.nframes := rfl
@[simp] theorem State.complete_onsetCount (s : State) : (s.complete).onsetCount = s.onsetCount := rfl
@[simp] theorem State.complete_tempoLag (s : State) : (s.complete).tempoLag = s.tempoLag := rfl
@[simp] theorem State.complete_tempoBpm (s : State) : (s.complete).tempoBpm = s.tempoBpm := rfl
@[simp] theorem State.complete_peakAmp (s : State) : (s.complete).peakAmp = s.peakAmp := rfl
@[simp] theorem State.complete_peakRms (s : State) : (s.complete).peakRms = s.peakRms := rfl
@[simp] theorem State.complete_peakFlux (s : State) : (s.complete).peakFlux = s.peakFlux := rfl
@[simp] theorem State.complete_peakBands (s : State) : (s.complete).peakBands = s.peakBands := rfl
@[simp] theorem State.complete_bufSel (s : State) : (s.complete).bufSel = s.bufSel := rfl
@[simp] theorem State.complete_bufIdx (s : State) : (s.complete).bufIdx = s.bufIdx := rfl
@[simp] theorem State.complete_latch (s : State) : (s.complete).latch = none := rfl
@[simp] theorem State.complete_mem (s : State) : (s.complete).mem = s.mem := rfl
@[simp] theorem State.complete_inputs (s : State) : (s.complete).inputs = s.inputs := rfl
@[simp] theorem State.complete_readData (s : State) : (s.complete).readData = s.readData := rfl
@[simp] theorem State.complete_freeCtr (s : State) : (s.complete).freeCtr = s.freeCtr := rfl

/-! ### `State.recordError` -/

@[simp] theorem State.recordError_hannSym (s : State) (e : ErrCode) : (s.recordError e).hannSym = s.hannSym := rfl
@[simp] theorem State.recordError_done (s : State) (e : ErrCode) : (s.recordError e).done = s.done := rfl
@[simp] theorem State.recordError_error (s : State) (e : ErrCode) :
    (s.recordError e).error = some (s.error.getD e) := rfl
@[simp] theorem State.recordError_rej (s : State) (e : ErrCode) : (s.recordError e).rej = s.rej := rfl
@[simp] theorem State.recordError_tempoFound (s : State) (e : ErrCode) :
    (s.recordError e).tempoFound = s.tempoFound := rfl
@[simp] theorem State.recordError_stage (s : State) (e : ErrCode) : (s.recordError e).stage = s.stage := rfl
@[simp] theorem State.recordError_doneIe (s : State) (e : ErrCode) : (s.recordError e).doneIe = s.doneIe := rfl
@[simp] theorem State.recordError_errIe (s : State) (e : ErrCode) : (s.recordError e).errIe = s.errIe := rfl
@[simp] theorem State.recordError_rejIe (s : State) (e : ErrCode) : (s.recordError e).rejIe = s.rejIe := rfl
@[simp] theorem State.recordError_sr (s : State) (e : ErrCode) : (s.recordError e).sr = s.sr := rfl
@[simp] theorem State.recordError_nsamp (s : State) (e : ErrCode) : (s.recordError e).nsamp = s.nsamp := rfl
@[simp] theorem State.recordError_fps (s : State) (e : ErrCode) : (s.recordError e).fps = s.fps := rfl
@[simp] theorem State.recordError_smooth (s : State) (e : ErrCode) : (s.recordError e).smooth = s.smooth := rfl
@[simp] theorem State.recordError_nhops (s : State) (e : ErrCode) : (s.recordError e).nhops = s.nhops := rfl
@[simp] theorem State.recordError_nframes (s : State) (e : ErrCode) : (s.recordError e).nframes = s.nframes := rfl
@[simp] theorem State.recordError_onsetCount (s : State) (e : ErrCode) :
    (s.recordError e).onsetCount = s.onsetCount := rfl
@[simp] theorem State.recordError_tempoLag (s : State) (e : ErrCode) : (s.recordError e).tempoLag = s.tempoLag := rfl
@[simp] theorem State.recordError_tempoBpm (s : State) (e : ErrCode) : (s.recordError e).tempoBpm = s.tempoBpm := rfl
@[simp] theorem State.recordError_peakAmp (s : State) (e : ErrCode) : (s.recordError e).peakAmp = s.peakAmp := rfl
@[simp] theorem State.recordError_peakRms (s : State) (e : ErrCode) : (s.recordError e).peakRms = s.peakRms := rfl
@[simp] theorem State.recordError_peakFlux (s : State) (e : ErrCode) : (s.recordError e).peakFlux = s.peakFlux := rfl
@[simp] theorem State.recordError_peakBands (s : State) (e : ErrCode) :
    (s.recordError e).peakBands = s.peakBands := rfl
@[simp] theorem State.recordError_bufSel (s : State) (e : ErrCode) : (s.recordError e).bufSel = s.bufSel := rfl
@[simp] theorem State.recordError_bufIdx (s : State) (e : ErrCode) : (s.recordError e).bufIdx = s.bufIdx := rfl
@[simp] theorem State.recordError_latch (s : State) (e : ErrCode) : (s.recordError e).latch = s.latch := rfl
@[simp] theorem State.recordError_mem (s : State) (e : ErrCode) : (s.recordError e).mem = s.mem := rfl
@[simp] theorem State.recordError_inputs (s : State) (e : ErrCode) : (s.recordError e).inputs = s.inputs := rfl
@[simp] theorem State.recordError_readData (s : State) (e : ErrCode) : (s.recordError e).readData = s.readData := rfl
@[simp] theorem State.recordError_freeCtr (s : State) (e : ErrCode) : (s.recordError e).freeCtr = s.freeCtr := rfl

/-! ### `State.fail` -/

@[simp] theorem State.fail_hannSym (s : State) (e : ErrCode) : (s.fail e).hannSym = s.hannSym := rfl
@[simp] theorem State.fail_done (s : State) (e : ErrCode) : (s.fail e).done = s.done := rfl
@[simp] theorem State.fail_error (s : State) (e : ErrCode) : (s.fail e).error = some (s.error.getD e) := rfl
@[simp] theorem State.fail_rej (s : State) (e : ErrCode) : (s.fail e).rej = s.rej := rfl
@[simp] theorem State.fail_tempoFound (s : State) (e : ErrCode) : (s.fail e).tempoFound = s.tempoFound := rfl
@[simp] theorem State.fail_stage (s : State) (e : ErrCode) : (s.fail e).stage = s.stage := rfl
@[simp] theorem State.fail_doneIe (s : State) (e : ErrCode) : (s.fail e).doneIe = s.doneIe := rfl
@[simp] theorem State.fail_errIe (s : State) (e : ErrCode) : (s.fail e).errIe = s.errIe := rfl
@[simp] theorem State.fail_rejIe (s : State) (e : ErrCode) : (s.fail e).rejIe = s.rejIe := rfl
@[simp] theorem State.fail_sr (s : State) (e : ErrCode) : (s.fail e).sr = s.sr := rfl
@[simp] theorem State.fail_nsamp (s : State) (e : ErrCode) : (s.fail e).nsamp = s.nsamp := rfl
@[simp] theorem State.fail_fps (s : State) (e : ErrCode) : (s.fail e).fps = s.fps := rfl
@[simp] theorem State.fail_smooth (s : State) (e : ErrCode) : (s.fail e).smooth = s.smooth := rfl
@[simp] theorem State.fail_nhops (s : State) (e : ErrCode) : (s.fail e).nhops = s.nhops := rfl
@[simp] theorem State.fail_nframes (s : State) (e : ErrCode) : (s.fail e).nframes = s.nframes := rfl
@[simp] theorem State.fail_onsetCount (s : State) (e : ErrCode) : (s.fail e).onsetCount = s.onsetCount := rfl
@[simp] theorem State.fail_tempoLag (s : State) (e : ErrCode) : (s.fail e).tempoLag = s.tempoLag := rfl
@[simp] theorem State.fail_tempoBpm (s : State) (e : ErrCode) : (s.fail e).tempoBpm = s.tempoBpm := rfl
@[simp] theorem State.fail_peakAmp (s : State) (e : ErrCode) : (s.fail e).peakAmp = s.peakAmp := rfl
@[simp] theorem State.fail_peakRms (s : State) (e : ErrCode) : (s.fail e).peakRms = s.peakRms := rfl
@[simp] theorem State.fail_peakFlux (s : State) (e : ErrCode) : (s.fail e).peakFlux = s.peakFlux := rfl
@[simp] theorem State.fail_peakBands (s : State) (e : ErrCode) : (s.fail e).peakBands = s.peakBands := rfl
@[simp] theorem State.fail_bufSel (s : State) (e : ErrCode) : (s.fail e).bufSel = s.bufSel := rfl
@[simp] theorem State.fail_bufIdx (s : State) (e : ErrCode) : (s.fail e).bufIdx = s.bufIdx := rfl
@[simp] theorem State.fail_latch (s : State) (e : ErrCode) : (s.fail e).latch = none := rfl
@[simp] theorem State.fail_mem (s : State) (e : ErrCode) : (s.fail e).mem = s.mem := rfl
@[simp] theorem State.fail_inputs (s : State) (e : ErrCode) : (s.fail e).inputs = s.inputs := rfl
@[simp] theorem State.fail_readData (s : State) (e : ErrCode) : (s.fail e).readData = s.readData := rfl
@[simp] theorem State.fail_freeCtr (s : State) (e : ErrCode) : (s.fail e).freeCtr = s.freeCtr := rfl

/-! ### `State.reject` -/

@[simp] theorem State.reject_hannSym (s : State) : (s.reject).hannSym = s.hannSym := rfl
@[simp] theorem State.reject_done (s : State) : (s.reject).done = s.done := rfl
@[simp] theorem State.reject_error (s : State) : (s.reject).error = s.error := rfl
@[simp] theorem State.reject_rej (s : State) : (s.reject).rej = true := rfl
@[simp] theorem State.reject_tempoFound (s : State) : (s.reject).tempoFound = s.tempoFound := rfl
@[simp] theorem State.reject_stage (s : State) : (s.reject).stage = s.stage := rfl
@[simp] theorem State.reject_doneIe (s : State) : (s.reject).doneIe = s.doneIe := rfl
@[simp] theorem State.reject_errIe (s : State) : (s.reject).errIe = s.errIe := rfl
@[simp] theorem State.reject_rejIe (s : State) : (s.reject).rejIe = s.rejIe := rfl
@[simp] theorem State.reject_sr (s : State) : (s.reject).sr = s.sr := rfl
@[simp] theorem State.reject_nsamp (s : State) : (s.reject).nsamp = s.nsamp := rfl
@[simp] theorem State.reject_fps (s : State) : (s.reject).fps = s.fps := rfl
@[simp] theorem State.reject_smooth (s : State) : (s.reject).smooth = s.smooth := rfl
@[simp] theorem State.reject_nhops (s : State) : (s.reject).nhops = s.nhops := rfl
@[simp] theorem State.reject_nframes (s : State) : (s.reject).nframes = s.nframes := rfl
@[simp] theorem State.reject_onsetCount (s : State) : (s.reject).onsetCount = s.onsetCount := rfl
@[simp] theorem State.reject_tempoLag (s : State) : (s.reject).tempoLag = s.tempoLag := rfl
@[simp] theorem State.reject_tempoBpm (s : State) : (s.reject).tempoBpm = s.tempoBpm := rfl
@[simp] theorem State.reject_peakAmp (s : State) : (s.reject).peakAmp = s.peakAmp := rfl
@[simp] theorem State.reject_peakRms (s : State) : (s.reject).peakRms = s.peakRms := rfl
@[simp] theorem State.reject_peakFlux (s : State) : (s.reject).peakFlux = s.peakFlux := rfl
@[simp] theorem State.reject_peakBands (s : State) : (s.reject).peakBands = s.peakBands := rfl
@[simp] theorem State.reject_bufSel (s : State) : (s.reject).bufSel = s.bufSel := rfl
@[simp] theorem State.reject_bufIdx (s : State) : (s.reject).bufIdx = s.bufIdx := rfl
@[simp] theorem State.reject_latch (s : State) : (s.reject).latch = s.latch := rfl
@[simp] theorem State.reject_mem (s : State) : (s.reject).mem = s.mem := rfl
@[simp] theorem State.reject_inputs (s : State) : (s.reject).inputs = s.inputs := rfl
@[simp] theorem State.reject_readData (s : State) : (s.reject).readData = s.readData := rfl
@[simp] theorem State.reject_freeCtr (s : State) : (s.reject).freeCtr = s.freeCtr := rfl

/-! ### `State.ackStatus` -/

@[simp] theorem State.ackStatus_hannSym (s : State) (v : Word) : (s.ackStatus v).hannSym = s.hannSym := rfl
@[simp] theorem State.ackStatus_done (s : State) (v : Word) : (s.ackStatus v).done = (s.done && !v.getLsbD 1) := rfl
@[simp] theorem State.ackStatus_error (s : State) (v : Word) :
    (s.ackStatus v).error = if v.getLsbD 2 then none else s.error := rfl
@[simp] theorem State.ackStatus_rej (s : State) (v : Word) : (s.ackStatus v).rej = (s.rej && !v.getLsbD 3) := rfl
@[simp] theorem State.ackStatus_tempoFound (s : State) (v : Word) : (s.ackStatus v).tempoFound = s.tempoFound := rfl
@[simp] theorem State.ackStatus_stage (s : State) (v : Word) : (s.ackStatus v).stage = s.stage := rfl
@[simp] theorem State.ackStatus_doneIe (s : State) (v : Word) : (s.ackStatus v).doneIe = s.doneIe := rfl
@[simp] theorem State.ackStatus_errIe (s : State) (v : Word) : (s.ackStatus v).errIe = s.errIe := rfl
@[simp] theorem State.ackStatus_rejIe (s : State) (v : Word) : (s.ackStatus v).rejIe = s.rejIe := rfl
@[simp] theorem State.ackStatus_sr (s : State) (v : Word) : (s.ackStatus v).sr = s.sr := rfl
@[simp] theorem State.ackStatus_nsamp (s : State) (v : Word) : (s.ackStatus v).nsamp = s.nsamp := rfl
@[simp] theorem State.ackStatus_fps (s : State) (v : Word) : (s.ackStatus v).fps = s.fps := rfl
@[simp] theorem State.ackStatus_smooth (s : State) (v : Word) : (s.ackStatus v).smooth = s.smooth := rfl
@[simp] theorem State.ackStatus_nhops (s : State) (v : Word) : (s.ackStatus v).nhops = s.nhops := rfl
@[simp] theorem State.ackStatus_nframes (s : State) (v : Word) : (s.ackStatus v).nframes = s.nframes := rfl
@[simp] theorem State.ackStatus_onsetCount (s : State) (v : Word) : (s.ackStatus v).onsetCount = s.onsetCount := rfl
@[simp] theorem State.ackStatus_tempoLag (s : State) (v : Word) : (s.ackStatus v).tempoLag = s.tempoLag := rfl
@[simp] theorem State.ackStatus_tempoBpm (s : State) (v : Word) : (s.ackStatus v).tempoBpm = s.tempoBpm := rfl
@[simp] theorem State.ackStatus_peakAmp (s : State) (v : Word) : (s.ackStatus v).peakAmp = s.peakAmp := rfl
@[simp] theorem State.ackStatus_peakRms (s : State) (v : Word) : (s.ackStatus v).peakRms = s.peakRms := rfl
@[simp] theorem State.ackStatus_peakFlux (s : State) (v : Word) : (s.ackStatus v).peakFlux = s.peakFlux := rfl
@[simp] theorem State.ackStatus_peakBands (s : State) (v : Word) : (s.ackStatus v).peakBands = s.peakBands := rfl
@[simp] theorem State.ackStatus_bufSel (s : State) (v : Word) : (s.ackStatus v).bufSel = s.bufSel := rfl
@[simp] theorem State.ackStatus_bufIdx (s : State) (v : Word) : (s.ackStatus v).bufIdx = s.bufIdx := rfl
@[simp] theorem State.ackStatus_latch (s : State) (v : Word) : (s.ackStatus v).latch = s.latch := rfl
@[simp] theorem State.ackStatus_mem (s : State) (v : Word) : (s.ackStatus v).mem = s.mem := rfl
@[simp] theorem State.ackStatus_inputs (s : State) (v : Word) : (s.ackStatus v).inputs = s.inputs := rfl
@[simp] theorem State.ackStatus_readData (s : State) (v : Word) : (s.ackStatus v).readData = s.readData := rfl
@[simp] theorem State.ackStatus_freeCtr (s : State) (v : Word) : (s.ackStatus v).freeCtr = s.freeCtr := rfl

/-! ### `State.invalidate` -/

@[simp] theorem State.invalidate_hannSym (s : State) : (s.invalidate).hannSym = s.hannSym := rfl
@[simp] theorem State.invalidate_done (s : State) : (s.invalidate).done = s.done := rfl
@[simp] theorem State.invalidate_error (s : State) : (s.invalidate).error = s.error := rfl
@[simp] theorem State.invalidate_rej (s : State) : (s.invalidate).rej = s.rej := rfl
@[simp] theorem State.invalidate_tempoFound (s : State) : (s.invalidate).tempoFound = false := rfl
@[simp] theorem State.invalidate_stage (s : State) : (s.invalidate).stage = .invalid := rfl
@[simp] theorem State.invalidate_doneIe (s : State) : (s.invalidate).doneIe = s.doneIe := rfl
@[simp] theorem State.invalidate_errIe (s : State) : (s.invalidate).errIe = s.errIe := rfl
@[simp] theorem State.invalidate_rejIe (s : State) : (s.invalidate).rejIe = s.rejIe := rfl
@[simp] theorem State.invalidate_sr (s : State) : (s.invalidate).sr = s.sr := rfl
@[simp] theorem State.invalidate_nsamp (s : State) : (s.invalidate).nsamp = s.nsamp := rfl
@[simp] theorem State.invalidate_fps (s : State) : (s.invalidate).fps = s.fps := rfl
@[simp] theorem State.invalidate_smooth (s : State) : (s.invalidate).smooth = s.smooth := rfl
@[simp] theorem State.invalidate_nhops (s : State) : (s.invalidate).nhops = s.nhops := rfl
@[simp] theorem State.invalidate_nframes (s : State) : (s.invalidate).nframes = s.nframes := rfl
@[simp] theorem State.invalidate_onsetCount (s : State) : (s.invalidate).onsetCount = s.onsetCount := rfl
@[simp] theorem State.invalidate_tempoLag (s : State) : (s.invalidate).tempoLag = s.tempoLag := rfl
@[simp] theorem State.invalidate_tempoBpm (s : State) : (s.invalidate).tempoBpm = s.tempoBpm := rfl
@[simp] theorem State.invalidate_peakAmp (s : State) : (s.invalidate).peakAmp = s.peakAmp := rfl
@[simp] theorem State.invalidate_peakRms (s : State) : (s.invalidate).peakRms = s.peakRms := rfl
@[simp] theorem State.invalidate_peakFlux (s : State) : (s.invalidate).peakFlux = s.peakFlux := rfl
@[simp] theorem State.invalidate_peakBands (s : State) : (s.invalidate).peakBands = s.peakBands := rfl
@[simp] theorem State.invalidate_bufSel (s : State) : (s.invalidate).bufSel = s.bufSel := rfl
@[simp] theorem State.invalidate_bufIdx (s : State) : (s.invalidate).bufIdx = s.bufIdx := rfl
@[simp] theorem State.invalidate_latch (s : State) : (s.invalidate).latch = s.latch := rfl
@[simp] theorem State.invalidate_mem (s : State) : (s.invalidate).mem = s.mem := rfl
@[simp] theorem State.invalidate_inputs (s : State) : (s.invalidate).inputs = s.inputs := rfl
@[simp] theorem State.invalidate_readData (s : State) : (s.invalidate).readData = s.readData := rfl
@[simp] theorem State.invalidate_freeCtr (s : State) : (s.invalidate).freeCtr = s.freeCtr := rfl

/-! ### `State.accept` -/

@[simp] theorem State.accept_hannSym (s : State) (v : Word) : (s.accept v).hannSym = s.hannSym := rfl
@[simp] theorem State.accept_done (s : State) (v : Word) : (s.accept v).done = false := rfl
@[simp] theorem State.accept_error (s : State) (v : Word) : (s.accept v).error = s.error := rfl
@[simp] theorem State.accept_rej (s : State) (v : Word) : (s.accept v).rej = s.rej := rfl
@[simp] theorem State.accept_tempoFound (s : State) (v : Word) : (s.accept v).tempoFound = s.tempoFound := rfl
@[simp] theorem State.accept_stage (s : State) (v : Word) : (s.accept v).stage = s.stage := rfl
@[simp] theorem State.accept_doneIe (s : State) (v : Word) : (s.accept v).doneIe = s.doneIe := rfl
@[simp] theorem State.accept_errIe (s : State) (v : Word) : (s.accept v).errIe = s.errIe := rfl
@[simp] theorem State.accept_rejIe (s : State) (v : Word) : (s.accept v).rejIe = s.rejIe := rfl
@[simp] theorem State.accept_sr (s : State) (v : Word) : (s.accept v).sr = s.sr := rfl
@[simp] theorem State.accept_nsamp (s : State) (v : Word) : (s.accept v).nsamp = s.nsamp := rfl
@[simp] theorem State.accept_fps (s : State) (v : Word) : (s.accept v).fps = s.fps := rfl
@[simp] theorem State.accept_smooth (s : State) (v : Word) : (s.accept v).smooth = s.smooth := rfl
@[simp] theorem State.accept_nhops (s : State) (v : Word) : (s.accept v).nhops = s.nhops := rfl
@[simp] theorem State.accept_nframes (s : State) (v : Word) : (s.accept v).nframes = s.nframes := rfl
@[simp] theorem State.accept_onsetCount (s : State) (v : Word) : (s.accept v).onsetCount = s.onsetCount := rfl
@[simp] theorem State.accept_tempoLag (s : State) (v : Word) : (s.accept v).tempoLag = s.tempoLag := rfl
@[simp] theorem State.accept_tempoBpm (s : State) (v : Word) : (s.accept v).tempoBpm = s.tempoBpm := rfl
@[simp] theorem State.accept_peakAmp (s : State) (v : Word) : (s.accept v).peakAmp = s.peakAmp := rfl
@[simp] theorem State.accept_peakRms (s : State) (v : Word) : (s.accept v).peakRms = s.peakRms := rfl
@[simp] theorem State.accept_peakFlux (s : State) (v : Word) : (s.accept v).peakFlux = s.peakFlux := rfl
@[simp] theorem State.accept_peakBands (s : State) (v : Word) : (s.accept v).peakBands = s.peakBands := rfl
@[simp] theorem State.accept_bufSel (s : State) (v : Word) : (s.accept v).bufSel = s.bufSel := rfl
@[simp] theorem State.accept_bufIdx (s : State) (v : Word) : (s.accept v).bufIdx = s.bufIdx := rfl
@[simp] theorem State.accept_latch (s : State) (v : Word) : (s.accept v).latch = some v := rfl
@[simp] theorem State.accept_mem (s : State) (v : Word) : (s.accept v).mem = s.mem := rfl
@[simp] theorem State.accept_inputs (s : State) (v : Word) : (s.accept v).inputs = s.inputs := rfl
@[simp] theorem State.accept_readData (s : State) (v : Word) : (s.accept v).readData = s.readData := rfl
@[simp] theorem State.accept_freeCtr (s : State) (v : Word) : (s.accept v).freeCtr = s.freeCtr := rfl

/-! ### `State.placeCommand` -/

@[simp] theorem State.placeCommand_hannSym (s : State) (v : Word) : (s.placeCommand v).hannSym = s.hannSym := rfl
@[simp] theorem State.placeCommand_done (s : State) (v : Word) : (s.placeCommand v).done = false := rfl
@[simp] theorem State.placeCommand_error (s : State) (v : Word) : (s.placeCommand v).error = s.error := rfl
@[simp] theorem State.placeCommand_rej (s : State) (v : Word) : (s.placeCommand v).rej = s.rej := rfl
@[simp] theorem State.placeCommand_tempoFound (s : State) (v : Word) :
    (s.placeCommand v).tempoFound = s.tempoFound := rfl
@[simp] theorem State.placeCommand_stage (s : State) (v : Word) : (s.placeCommand v).stage = s.stage := rfl
@[simp] theorem State.placeCommand_doneIe (s : State) (v : Word) : (s.placeCommand v).doneIe = s.doneIe := rfl
@[simp] theorem State.placeCommand_errIe (s : State) (v : Word) : (s.placeCommand v).errIe = s.errIe := rfl
@[simp] theorem State.placeCommand_rejIe (s : State) (v : Word) : (s.placeCommand v).rejIe = s.rejIe := rfl
@[simp] theorem State.placeCommand_sr (s : State) (v : Word) : (s.placeCommand v).sr = s.sr := rfl
@[simp] theorem State.placeCommand_nsamp (s : State) (v : Word) : (s.placeCommand v).nsamp = s.nsamp := rfl
@[simp] theorem State.placeCommand_fps (s : State) (v : Word) : (s.placeCommand v).fps = s.fps := rfl
@[simp] theorem State.placeCommand_smooth (s : State) (v : Word) : (s.placeCommand v).smooth = s.smooth := rfl
@[simp] theorem State.placeCommand_nhops (s : State) (v : Word) : (s.placeCommand v).nhops = s.nhops := rfl
@[simp] theorem State.placeCommand_nframes (s : State) (v : Word) : (s.placeCommand v).nframes = s.nframes := rfl
@[simp] theorem State.placeCommand_onsetCount (s : State) (v : Word) :
    (s.placeCommand v).onsetCount = s.onsetCount := rfl
@[simp] theorem State.placeCommand_tempoLag (s : State) (v : Word) : (s.placeCommand v).tempoLag = s.tempoLag := rfl
@[simp] theorem State.placeCommand_tempoBpm (s : State) (v : Word) : (s.placeCommand v).tempoBpm = s.tempoBpm := rfl
@[simp] theorem State.placeCommand_peakAmp (s : State) (v : Word) : (s.placeCommand v).peakAmp = s.peakAmp := rfl
@[simp] theorem State.placeCommand_peakRms (s : State) (v : Word) : (s.placeCommand v).peakRms = s.peakRms := rfl
@[simp] theorem State.placeCommand_peakFlux (s : State) (v : Word) : (s.placeCommand v).peakFlux = s.peakFlux := rfl
@[simp] theorem State.placeCommand_peakBands (s : State) (v : Word) :
    (s.placeCommand v).peakBands = s.peakBands := rfl
@[simp] theorem State.placeCommand_bufSel (s : State) (v : Word) : (s.placeCommand v).bufSel = s.bufSel := rfl
@[simp] theorem State.placeCommand_bufIdx (s : State) (v : Word) : (s.placeCommand v).bufIdx = s.bufIdx := rfl
@[simp] theorem State.placeCommand_latch (s : State) (v : Word) : (s.placeCommand v).latch = some v := rfl
@[simp] theorem State.placeCommand_mem (s : State) (v : Word) : (s.placeCommand v).mem = s.mem := rfl
@[simp] theorem State.placeCommand_inputs (s : State) (v : Word) : (s.placeCommand v).inputs = [] := rfl
@[simp] theorem State.placeCommand_readData (s : State) (v : Word) : (s.placeCommand v).readData = s.readData := rfl
@[simp] theorem State.placeCommand_freeCtr (s : State) (v : Word) : (s.placeCommand v).freeCtr = s.freeCtr := rfl

/-! ### `State.putCells` -/

@[simp] theorem State.putCells_hannSym (s : State) (id : BufId) (cs : List (Nat × Word)) :
    (s.putCells id cs).hannSym = s.hannSym := rfl
@[simp] theorem State.putCells_done (s : State) (id : BufId) (cs : List (Nat × Word)) :
    (s.putCells id cs).done = s.done := rfl
@[simp] theorem State.putCells_error (s : State) (id : BufId) (cs : List (Nat × Word)) :
    (s.putCells id cs).error = s.error := rfl
@[simp] theorem State.putCells_rej (s : State) (id : BufId) (cs : List (Nat × Word)) :
    (s.putCells id cs).rej = s.rej := rfl
@[simp] theorem State.putCells_tempoFound (s : State) (id : BufId) (cs : List (Nat × Word)) :
    (s.putCells id cs).tempoFound = s.tempoFound := rfl
@[simp] theorem State.putCells_stage (s : State) (id : BufId) (cs : List (Nat × Word)) :
    (s.putCells id cs).stage = s.stage := rfl
@[simp] theorem State.putCells_doneIe (s : State) (id : BufId) (cs : List (Nat × Word)) :
    (s.putCells id cs).doneIe = s.doneIe := rfl
@[simp] theorem State.putCells_errIe (s : State) (id : BufId) (cs : List (Nat × Word)) :
    (s.putCells id cs).errIe = s.errIe := rfl
@[simp] theorem State.putCells_rejIe (s : State) (id : BufId) (cs : List (Nat × Word)) :
    (s.putCells id cs).rejIe = s.rejIe := rfl
@[simp] theorem State.putCells_sr (s : State) (id : BufId) (cs : List (Nat × Word)) :
    (s.putCells id cs).sr = s.sr := rfl
@[simp] theorem State.putCells_nsamp (s : State) (id : BufId) (cs : List (Nat × Word)) :
    (s.putCells id cs).nsamp = s.nsamp := rfl
@[simp] theorem State.putCells_fps (s : State) (id : BufId) (cs : List (Nat × Word)) :
    (s.putCells id cs).fps = s.fps := rfl
@[simp] theorem State.putCells_smooth (s : State) (id : BufId) (cs : List (Nat × Word)) :
    (s.putCells id cs).smooth = s.smooth := rfl
@[simp] theorem State.putCells_nhops (s : State) (id : BufId) (cs : List (Nat × Word)) :
    (s.putCells id cs).nhops = s.nhops := rfl
@[simp] theorem State.putCells_nframes (s : State) (id : BufId) (cs : List (Nat × Word)) :
    (s.putCells id cs).nframes = s.nframes := rfl
@[simp] theorem State.putCells_onsetCount (s : State) (id : BufId) (cs : List (Nat × Word)) :
    (s.putCells id cs).onsetCount = s.onsetCount := rfl
@[simp] theorem State.putCells_tempoLag (s : State) (id : BufId) (cs : List (Nat × Word)) :
    (s.putCells id cs).tempoLag = s.tempoLag := rfl
@[simp] theorem State.putCells_tempoBpm (s : State) (id : BufId) (cs : List (Nat × Word)) :
    (s.putCells id cs).tempoBpm = s.tempoBpm := rfl
@[simp] theorem State.putCells_peakAmp (s : State) (id : BufId) (cs : List (Nat × Word)) :
    (s.putCells id cs).peakAmp = s.peakAmp := rfl
@[simp] theorem State.putCells_peakRms (s : State) (id : BufId) (cs : List (Nat × Word)) :
    (s.putCells id cs).peakRms = s.peakRms := rfl
@[simp] theorem State.putCells_peakFlux (s : State) (id : BufId) (cs : List (Nat × Word)) :
    (s.putCells id cs).peakFlux = s.peakFlux := rfl
@[simp] theorem State.putCells_peakBands (s : State) (id : BufId) (cs : List (Nat × Word)) :
    (s.putCells id cs).peakBands = s.peakBands := rfl
@[simp] theorem State.putCells_bufSel (s : State) (id : BufId) (cs : List (Nat × Word)) :
    (s.putCells id cs).bufSel = s.bufSel := rfl
@[simp] theorem State.putCells_bufIdx (s : State) (id : BufId) (cs : List (Nat × Word)) :
    (s.putCells id cs).bufIdx = s.bufIdx := rfl
@[simp] theorem State.putCells_latch (s : State) (id : BufId) (cs : List (Nat × Word)) :
    (s.putCells id cs).latch = s.latch := rfl
@[simp] theorem State.putCells_mem (s : State) (id : BufId) (cs : List (Nat × Word)) :
    (s.putCells id cs).mem = s.mem.writeCells id cs := rfl
@[simp] theorem State.putCells_inputs (s : State) (id : BufId) (cs : List (Nat × Word)) :
    (s.putCells id cs).inputs = s.inputs := rfl
@[simp] theorem State.putCells_readData (s : State) (id : BufId) (cs : List (Nat × Word)) :
    (s.putCells id cs).readData = s.readData := rfl
@[simp] theorem State.putCells_freeCtr (s : State) (id : BufId) (cs : List (Nat × Word)) :
    (s.putCells id cs).freeCtr = s.freeCtr := rfl

/-! ### `State.respond` -/

@[simp] theorem State.respond_hannSym (s : State) (v : Word) : (s.respond v).hannSym = s.hannSym := rfl
@[simp] theorem State.respond_done (s : State) (v : Word) : (s.respond v).done = s.done := rfl
@[simp] theorem State.respond_error (s : State) (v : Word) : (s.respond v).error = s.error := rfl
@[simp] theorem State.respond_rej (s : State) (v : Word) : (s.respond v).rej = s.rej := rfl
@[simp] theorem State.respond_tempoFound (s : State) (v : Word) : (s.respond v).tempoFound = s.tempoFound := rfl
@[simp] theorem State.respond_stage (s : State) (v : Word) : (s.respond v).stage = s.stage := rfl
@[simp] theorem State.respond_doneIe (s : State) (v : Word) : (s.respond v).doneIe = s.doneIe := rfl
@[simp] theorem State.respond_errIe (s : State) (v : Word) : (s.respond v).errIe = s.errIe := rfl
@[simp] theorem State.respond_rejIe (s : State) (v : Word) : (s.respond v).rejIe = s.rejIe := rfl
@[simp] theorem State.respond_sr (s : State) (v : Word) : (s.respond v).sr = s.sr := rfl
@[simp] theorem State.respond_nsamp (s : State) (v : Word) : (s.respond v).nsamp = s.nsamp := rfl
@[simp] theorem State.respond_fps (s : State) (v : Word) : (s.respond v).fps = s.fps := rfl
@[simp] theorem State.respond_smooth (s : State) (v : Word) : (s.respond v).smooth = s.smooth := rfl
@[simp] theorem State.respond_nhops (s : State) (v : Word) : (s.respond v).nhops = s.nhops := rfl
@[simp] theorem State.respond_nframes (s : State) (v : Word) : (s.respond v).nframes = s.nframes := rfl
@[simp] theorem State.respond_onsetCount (s : State) (v : Word) : (s.respond v).onsetCount = s.onsetCount := rfl
@[simp] theorem State.respond_tempoLag (s : State) (v : Word) : (s.respond v).tempoLag = s.tempoLag := rfl
@[simp] theorem State.respond_tempoBpm (s : State) (v : Word) : (s.respond v).tempoBpm = s.tempoBpm := rfl
@[simp] theorem State.respond_peakAmp (s : State) (v : Word) : (s.respond v).peakAmp = s.peakAmp := rfl
@[simp] theorem State.respond_peakRms (s : State) (v : Word) : (s.respond v).peakRms = s.peakRms := rfl
@[simp] theorem State.respond_peakFlux (s : State) (v : Word) : (s.respond v).peakFlux = s.peakFlux := rfl
@[simp] theorem State.respond_peakBands (s : State) (v : Word) : (s.respond v).peakBands = s.peakBands := rfl
@[simp] theorem State.respond_bufSel (s : State) (v : Word) : (s.respond v).bufSel = s.bufSel := rfl
@[simp] theorem State.respond_bufIdx (s : State) (v : Word) : (s.respond v).bufIdx = s.bufIdx := rfl
@[simp] theorem State.respond_latch (s : State) (v : Word) : (s.respond v).latch = s.latch := rfl
@[simp] theorem State.respond_mem (s : State) (v : Word) : (s.respond v).mem = s.mem := rfl
@[simp] theorem State.respond_inputs (s : State) (v : Word) : (s.respond v).inputs = s.inputs := rfl
@[simp] theorem State.respond_readData (s : State) (v : Word) : (s.respond v).readData = some v := rfl
@[simp] theorem State.respond_freeCtr (s : State) (v : Word) : (s.respond v).freeCtr = s.freeCtr := rfl

/-! ### `State.respondFree` -/

@[simp] theorem State.respondFree_hannSym (s : State) (f : Word → Word) : (s.respondFree f).hannSym = s.hannSym := rfl
@[simp] theorem State.respondFree_done (s : State) (f : Word → Word) : (s.respondFree f).done = s.done := rfl
@[simp] theorem State.respondFree_error (s : State) (f : Word → Word) : (s.respondFree f).error = s.error := rfl
@[simp] theorem State.respondFree_rej (s : State) (f : Word → Word) : (s.respondFree f).rej = s.rej := rfl
@[simp] theorem State.respondFree_tempoFound (s : State) (f : Word → Word) :
    (s.respondFree f).tempoFound = s.tempoFound := rfl
@[simp] theorem State.respondFree_stage (s : State) (f : Word → Word) : (s.respondFree f).stage = s.stage := rfl
@[simp] theorem State.respondFree_doneIe (s : State) (f : Word → Word) : (s.respondFree f).doneIe = s.doneIe := rfl
@[simp] theorem State.respondFree_errIe (s : State) (f : Word → Word) : (s.respondFree f).errIe = s.errIe := rfl
@[simp] theorem State.respondFree_rejIe (s : State) (f : Word → Word) : (s.respondFree f).rejIe = s.rejIe := rfl
@[simp] theorem State.respondFree_sr (s : State) (f : Word → Word) : (s.respondFree f).sr = s.sr := rfl
@[simp] theorem State.respondFree_nsamp (s : State) (f : Word → Word) : (s.respondFree f).nsamp = s.nsamp := rfl
@[simp] theorem State.respondFree_fps (s : State) (f : Word → Word) : (s.respondFree f).fps = s.fps := rfl
@[simp] theorem State.respondFree_smooth (s : State) (f : Word → Word) : (s.respondFree f).smooth = s.smooth := rfl
@[simp] theorem State.respondFree_nhops (s : State) (f : Word → Word) : (s.respondFree f).nhops = s.nhops := rfl
@[simp] theorem State.respondFree_nframes (s : State) (f : Word → Word) : (s.respondFree f).nframes = s.nframes := rfl
@[simp] theorem State.respondFree_onsetCount (s : State) (f : Word → Word) :
    (s.respondFree f).onsetCount = s.onsetCount := rfl
@[simp] theorem State.respondFree_tempoLag (s : State) (f : Word → Word) :
    (s.respondFree f).tempoLag = s.tempoLag := rfl
@[simp] theorem State.respondFree_tempoBpm (s : State) (f : Word → Word) :
    (s.respondFree f).tempoBpm = s.tempoBpm := rfl
@[simp] theorem State.respondFree_peakAmp (s : State) (f : Word → Word) : (s.respondFree f).peakAmp = s.peakAmp := rfl
@[simp] theorem State.respondFree_peakRms (s : State) (f : Word → Word) : (s.respondFree f).peakRms = s.peakRms := rfl
@[simp] theorem State.respondFree_peakFlux (s : State) (f : Word → Word) :
    (s.respondFree f).peakFlux = s.peakFlux := rfl
@[simp] theorem State.respondFree_peakBands (s : State) (f : Word → Word) :
    (s.respondFree f).peakBands = s.peakBands := rfl
@[simp] theorem State.respondFree_bufSel (s : State) (f : Word → Word) : (s.respondFree f).bufSel = s.bufSel := rfl
@[simp] theorem State.respondFree_bufIdx (s : State) (f : Word → Word) : (s.respondFree f).bufIdx = s.bufIdx := rfl
@[simp] theorem State.respondFree_latch (s : State) (f : Word → Word) : (s.respondFree f).latch = s.latch := rfl
@[simp] theorem State.respondFree_mem (s : State) (f : Word → Word) : (s.respondFree f).mem = s.mem := rfl
@[simp] theorem State.respondFree_inputs (s : State) (f : Word → Word) : (s.respondFree f).inputs = s.inputs := rfl
@[simp] theorem State.respondFree_readData (s : State) (f : Word → Word) :
    (s.respondFree f).readData = some (f s.free) := rfl
@[simp] theorem State.respondFree_freeCtr (s : State) (f : Word → Word) :
    (s.respondFree f).freeCtr = s.freeCtr + 1 := rfl

/-! ### `State.configured` -/

@[simp] theorem State.configured_hannSym (s : State) (nh nf : Nat) : (s.configured nh nf).hannSym = s.hannSym := rfl
@[simp] theorem State.configured_done (s : State) (nh nf : Nat) : (s.configured nh nf).done = s.done := rfl
@[simp] theorem State.configured_error (s : State) (nh nf : Nat) : (s.configured nh nf).error = s.error := rfl
@[simp] theorem State.configured_rej (s : State) (nh nf : Nat) : (s.configured nh nf).rej = s.rej := rfl
@[simp] theorem State.configured_tempoFound (s : State) (nh nf : Nat) : (s.configured nh nf).tempoFound = false := rfl
@[simp] theorem State.configured_stage (s : State) (nh nf : Nat) : (s.configured nh nf).stage = .configured := rfl
@[simp] theorem State.configured_doneIe (s : State) (nh nf : Nat) : (s.configured nh nf).doneIe = s.doneIe := rfl
@[simp] theorem State.configured_errIe (s : State) (nh nf : Nat) : (s.configured nh nf).errIe = s.errIe := rfl
@[simp] theorem State.configured_rejIe (s : State) (nh nf : Nat) : (s.configured nh nf).rejIe = s.rejIe := rfl
@[simp] theorem State.configured_sr (s : State) (nh nf : Nat) : (s.configured nh nf).sr = s.sr := rfl
@[simp] theorem State.configured_nsamp (s : State) (nh nf : Nat) : (s.configured nh nf).nsamp = s.nsamp := rfl
@[simp] theorem State.configured_fps (s : State) (nh nf : Nat) : (s.configured nh nf).fps = s.fps := rfl
@[simp] theorem State.configured_smooth (s : State) (nh nf : Nat) : (s.configured nh nf).smooth = s.smooth := rfl
@[simp] theorem State.configured_nhops (s : State) (nh nf : Nat) : (s.configured nh nf).nhops = word nh := rfl
@[simp] theorem State.configured_nframes (s : State) (nh nf : Nat) : (s.configured nh nf).nframes = word nf := rfl
@[simp] theorem State.configured_onsetCount (s : State) (nh nf : Nat) : (s.configured nh nf).onsetCount = 0 := rfl
@[simp] theorem State.configured_tempoLag (s : State) (nh nf : Nat) : (s.configured nh nf).tempoLag = 0 := rfl
@[simp] theorem State.configured_tempoBpm (s : State) (nh nf : Nat) : (s.configured nh nf).tempoBpm = zero32 := rfl
@[simp] theorem State.configured_peakAmp (s : State) (nh nf : Nat) : (s.configured nh nf).peakAmp = zero32 := rfl
@[simp] theorem State.configured_peakRms (s : State) (nh nf : Nat) : (s.configured nh nf).peakRms = zero32 := rfl
@[simp] theorem State.configured_peakFlux (s : State) (nh nf : Nat) : (s.configured nh nf).peakFlux = zero32 := rfl
@[simp] theorem State.configured_peakBands (s : State) (nh nf : Nat) :
    (s.configured nh nf).peakBands = Bands.zeros := rfl
@[simp] theorem State.configured_bufSel (s : State) (nh nf : Nat) : (s.configured nh nf).bufSel = s.bufSel := rfl
@[simp] theorem State.configured_bufIdx (s : State) (nh nf : Nat) : (s.configured nh nf).bufIdx = s.bufIdx := rfl
@[simp] theorem State.configured_latch (s : State) (nh nf : Nat) : (s.configured nh nf).latch = s.latch := rfl
@[simp] theorem State.configured_mem (s : State) (nh nf : Nat) : (s.configured nh nf).mem = s.mem := rfl
@[simp] theorem State.configured_inputs (s : State) (nh nf : Nat) : (s.configured nh nf).inputs = s.inputs := rfl
@[simp] theorem State.configured_readData (s : State) (nh nf : Nat) :
    (s.configured nh nf).readData = s.readData := rfl
@[simp] theorem State.configured_freeCtr (s : State) (nh nf : Nat) : (s.configured nh nf).freeCtr = s.freeCtr := rfl

/-! ### `State.withSpectrum` -/

@[simp] theorem State.withSpectrum_hannSym (s : State) (w : List Word) :
    (s.withSpectrum w).hannSym = s.hannSym := by cases s; rfl
@[simp] theorem State.withSpectrum_done (s : State) (w : List Word) :
    (s.withSpectrum w).done = s.done := by cases s; rfl
@[simp] theorem State.withSpectrum_error (s : State) (w : List Word) :
    (s.withSpectrum w).error = s.error := by cases s; rfl
@[simp] theorem State.withSpectrum_rej (s : State) (w : List Word) : (s.withSpectrum w).rej = s.rej := by cases s; rfl
@[simp] theorem State.withSpectrum_tempoFound (s : State) (w : List Word) :
    (s.withSpectrum w).tempoFound = s.tempoFound := by cases s; rfl
@[simp] theorem State.withSpectrum_stage (s : State) (w : List Word) :
    (s.withSpectrum w).stage = s.stage := by cases s; rfl
@[simp] theorem State.withSpectrum_doneIe (s : State) (w : List Word) :
    (s.withSpectrum w).doneIe = s.doneIe := by cases s; rfl
@[simp] theorem State.withSpectrum_errIe (s : State) (w : List Word) :
    (s.withSpectrum w).errIe = s.errIe := by cases s; rfl
@[simp] theorem State.withSpectrum_rejIe (s : State) (w : List Word) :
    (s.withSpectrum w).rejIe = s.rejIe := by cases s; rfl
@[simp] theorem State.withSpectrum_sr (s : State) (w : List Word) : (s.withSpectrum w).sr = s.sr := by cases s; rfl
@[simp] theorem State.withSpectrum_nsamp (s : State) (w : List Word) :
    (s.withSpectrum w).nsamp = s.nsamp := by cases s; rfl
@[simp] theorem State.withSpectrum_fps (s : State) (w : List Word) : (s.withSpectrum w).fps = s.fps := by cases s; rfl
@[simp] theorem State.withSpectrum_smooth (s : State) (w : List Word) :
    (s.withSpectrum w).smooth = s.smooth := by cases s; rfl
@[simp] theorem State.withSpectrum_nhops (s : State) (w : List Word) :
    (s.withSpectrum w).nhops = s.nhops := by cases s; rfl
@[simp] theorem State.withSpectrum_nframes (s : State) (w : List Word) :
    (s.withSpectrum w).nframes = s.nframes := by cases s; rfl
@[simp] theorem State.withSpectrum_onsetCount (s : State) (w : List Word) :
    (s.withSpectrum w).onsetCount = s.onsetCount := by cases s; rfl
@[simp] theorem State.withSpectrum_tempoLag (s : State) (w : List Word) :
    (s.withSpectrum w).tempoLag = s.tempoLag := by cases s; rfl
@[simp] theorem State.withSpectrum_tempoBpm (s : State) (w : List Word) :
    (s.withSpectrum w).tempoBpm = s.tempoBpm := by cases s; rfl
@[simp] theorem State.withSpectrum_peakAmp (s : State) (w : List Word) :
    (s.withSpectrum w).peakAmp = s.peakAmp := by cases s; rfl
@[simp] theorem State.withSpectrum_peakRms (s : State) (w : List Word) :
    (s.withSpectrum w).peakRms = s.peakRms := by cases s; rfl
@[simp] theorem State.withSpectrum_peakFlux (s : State) (w : List Word) :
    (s.withSpectrum w).peakFlux = s.peakFlux := by cases s; rfl
@[simp] theorem State.withSpectrum_peakBands (s : State) (w : List Word) :
    (s.withSpectrum w).peakBands = s.peakBands := by cases s; rfl
@[simp] theorem State.withSpectrum_bufSel (s : State) (w : List Word) :
    (s.withSpectrum w).bufSel = s.bufSel := by cases s; rfl
@[simp] theorem State.withSpectrum_bufIdx (s : State) (w : List Word) :
    (s.withSpectrum w).bufIdx = s.bufIdx := by cases s; rfl
@[simp] theorem State.withSpectrum_latch (s : State) (w : List Word) :
    (s.withSpectrum w).latch = s.latch := by cases s; rfl
@[simp] theorem State.withSpectrum_mem (s : State) (w : List Word) :
    (s.withSpectrum w).mem = (s.mem.writeCells .mag (cellsFrom 0 (fftmag w))).writeCells .wave (cellsFrom 0 (waveform w)) := by cases s; rfl
@[simp] theorem State.withSpectrum_inputs (s : State) (w : List Word) :
    (s.withSpectrum w).inputs = s.inputs := by cases s; rfl
@[simp] theorem State.withSpectrum_readData (s : State) (w : List Word) :
    (s.withSpectrum w).readData = s.readData := by cases s; rfl
@[simp] theorem State.withSpectrum_freeCtr (s : State) (w : List Word) :
    (s.withSpectrum w).freeCtr = s.freeCtr := by cases s; rfl

/-! ### `State.analyzed` -/

@[simp] theorem State.analyzed_hannSym (s : State) (xs : List Word) (rs : List HopRecord) :
    (s.analyzed xs rs).hannSym = s.hannSym := by cases s; rfl
@[simp] theorem State.analyzed_done (s : State) (xs : List Word) (rs : List HopRecord) :
    (s.analyzed xs rs).done = s.done := by cases s; rfl
@[simp] theorem State.analyzed_error (s : State) (xs : List Word) (rs : List HopRecord) :
    (s.analyzed xs rs).error = s.error := by cases s; rfl
@[simp] theorem State.analyzed_rej (s : State) (xs : List Word) (rs : List HopRecord) :
    (s.analyzed xs rs).rej = s.rej := by cases s; rfl
@[simp] theorem State.analyzed_tempoFound (s : State) (xs : List Word) (rs : List HopRecord) :
    (s.analyzed xs rs).tempoFound = s.tempoFound := by cases s; rfl
@[simp] theorem State.analyzed_stage (s : State) (xs : List Word) (rs : List HopRecord) :
    (s.analyzed xs rs).stage = .analyzed := by cases s; rfl
@[simp] theorem State.analyzed_doneIe (s : State) (xs : List Word) (rs : List HopRecord) :
    (s.analyzed xs rs).doneIe = s.doneIe := by cases s; rfl
@[simp] theorem State.analyzed_errIe (s : State) (xs : List Word) (rs : List HopRecord) :
    (s.analyzed xs rs).errIe = s.errIe := by cases s; rfl
@[simp] theorem State.analyzed_rejIe (s : State) (xs : List Word) (rs : List HopRecord) :
    (s.analyzed xs rs).rejIe = s.rejIe := by cases s; rfl
@[simp] theorem State.analyzed_sr (s : State) (xs : List Word) (rs : List HopRecord) :
    (s.analyzed xs rs).sr = s.sr := by cases s; rfl
@[simp] theorem State.analyzed_nsamp (s : State) (xs : List Word) (rs : List HopRecord) :
    (s.analyzed xs rs).nsamp = s.nsamp := by cases s; rfl
@[simp] theorem State.analyzed_fps (s : State) (xs : List Word) (rs : List HopRecord) :
    (s.analyzed xs rs).fps = s.fps := by cases s; rfl
@[simp] theorem State.analyzed_smooth (s : State) (xs : List Word) (rs : List HopRecord) :
    (s.analyzed xs rs).smooth = s.smooth := by cases s; rfl
@[simp] theorem State.analyzed_nhops (s : State) (xs : List Word) (rs : List HopRecord) :
    (s.analyzed xs rs).nhops = s.nhops := by cases s; rfl
@[simp] theorem State.analyzed_nframes (s : State) (xs : List Word) (rs : List HopRecord) :
    (s.analyzed xs rs).nframes = s.nframes := by cases s; rfl
@[simp] theorem State.analyzed_onsetCount (s : State) (xs : List Word) (rs : List HopRecord) :
    (s.analyzed xs rs).onsetCount = s.onsetCount := by cases s; rfl
@[simp] theorem State.analyzed_tempoLag (s : State) (xs : List Word) (rs : List HopRecord) :
    (s.analyzed xs rs).tempoLag = s.tempoLag := by cases s; rfl
@[simp] theorem State.analyzed_tempoBpm (s : State) (xs : List Word) (rs : List HopRecord) :
    (s.analyzed xs rs).tempoBpm = s.tempoBpm := by cases s; rfl
@[simp] theorem State.analyzed_peakAmp (s : State) (xs : List Word) (rs : List HopRecord) :
    (s.analyzed xs rs).peakAmp = globalPeak HopRecord.peak rs := by cases s; rfl
@[simp] theorem State.analyzed_peakRms (s : State) (xs : List Word) (rs : List HopRecord) :
    (s.analyzed xs rs).peakRms = globalPeak HopRecord.rms rs := by cases s; rfl
@[simp] theorem State.analyzed_peakFlux (s : State) (xs : List Word) (rs : List HopRecord) :
    (s.analyzed xs rs).peakFlux = globalPeak HopRecord.flux rs := by cases s; rfl
@[simp] theorem State.analyzed_peakBands (s : State) (xs : List Word) (rs : List HopRecord) :
    (s.analyzed xs rs).peakBands = Bands.tabulate fun b => globalPeak (fun r => r.bands.get b) rs := by cases s; rfl
@[simp] theorem State.analyzed_bufSel (s : State) (xs : List Word) (rs : List HopRecord) :
    (s.analyzed xs rs).bufSel = s.bufSel := by cases s; rfl
@[simp] theorem State.analyzed_bufIdx (s : State) (xs : List Word) (rs : List HopRecord) :
    (s.analyzed xs rs).bufIdx = s.bufIdx := by cases s; rfl
@[simp] theorem State.analyzed_latch (s : State) (xs : List Word) (rs : List HopRecord) :
    (s.analyzed xs rs).latch = s.latch := by cases s; rfl
@[simp] theorem State.analyzed_inputs (s : State) (xs : List Word) (rs : List HopRecord) :
    (s.analyzed xs rs).inputs = s.inputs := by cases s; rfl
@[simp] theorem State.analyzed_readData (s : State) (xs : List Word) (rs : List HopRecord) :
    (s.analyzed xs rs).readData = s.readData := by cases s; rfl
@[simp] theorem State.analyzed_freeCtr (s : State) (xs : List Word) (rs : List HopRecord) :
    (s.analyzed xs rs).freeCtr = s.freeCtr := by cases s; rfl

/-! ### `State.withOnsets` -/

@[simp] theorem State.withOnsets_hannSym (s : State) (F : List Nat) :
    (s.withOnsets F).hannSym = s.hannSym := by cases s; rfl
@[simp] theorem State.withOnsets_done (s : State) (F : List Nat) : (s.withOnsets F).done = s.done := by cases s; rfl
@[simp] theorem State.withOnsets_error (s : State) (F : List Nat) :
    (s.withOnsets F).error = s.error := by cases s; rfl
@[simp] theorem State.withOnsets_rej (s : State) (F : List Nat) : (s.withOnsets F).rej = s.rej := by cases s; rfl
@[simp] theorem State.withOnsets_tempoFound (s : State) (F : List Nat) :
    (s.withOnsets F).tempoFound = s.tempoFound := by cases s; rfl
@[simp] theorem State.withOnsets_stage (s : State) (F : List Nat) :
    (s.withOnsets F).stage = .onsets := by cases s; rfl
@[simp] theorem State.withOnsets_doneIe (s : State) (F : List Nat) :
    (s.withOnsets F).doneIe = s.doneIe := by cases s; rfl
@[simp] theorem State.withOnsets_errIe (s : State) (F : List Nat) :
    (s.withOnsets F).errIe = s.errIe := by cases s; rfl
@[simp] theorem State.withOnsets_rejIe (s : State) (F : List Nat) :
    (s.withOnsets F).rejIe = s.rejIe := by cases s; rfl
@[simp] theorem State.withOnsets_sr (s : State) (F : List Nat) : (s.withOnsets F).sr = s.sr := by cases s; rfl
@[simp] theorem State.withOnsets_nsamp (s : State) (F : List Nat) :
    (s.withOnsets F).nsamp = s.nsamp := by cases s; rfl
@[simp] theorem State.withOnsets_fps (s : State) (F : List Nat) : (s.withOnsets F).fps = s.fps := by cases s; rfl
@[simp] theorem State.withOnsets_smooth (s : State) (F : List Nat) :
    (s.withOnsets F).smooth = s.smooth := by cases s; rfl
@[simp] theorem State.withOnsets_nhops (s : State) (F : List Nat) :
    (s.withOnsets F).nhops = s.nhops := by cases s; rfl
@[simp] theorem State.withOnsets_nframes (s : State) (F : List Nat) :
    (s.withOnsets F).nframes = s.nframes := by cases s; rfl
@[simp] theorem State.withOnsets_onsetCount (s : State) (F : List Nat) :
    (s.withOnsets F).onsetCount = word (onsetsOf s.sr.toNat F).length := by cases s; rfl
@[simp] theorem State.withOnsets_tempoLag (s : State) (F : List Nat) :
    (s.withOnsets F).tempoLag = s.tempoLag := by cases s; rfl
@[simp] theorem State.withOnsets_tempoBpm (s : State) (F : List Nat) :
    (s.withOnsets F).tempoBpm = s.tempoBpm := by cases s; rfl
@[simp] theorem State.withOnsets_peakAmp (s : State) (F : List Nat) :
    (s.withOnsets F).peakAmp = s.peakAmp := by cases s; rfl
@[simp] theorem State.withOnsets_peakRms (s : State) (F : List Nat) :
    (s.withOnsets F).peakRms = s.peakRms := by cases s; rfl
@[simp] theorem State.withOnsets_peakFlux (s : State) (F : List Nat) :
    (s.withOnsets F).peakFlux = s.peakFlux := by cases s; rfl
@[simp] theorem State.withOnsets_peakBands (s : State) (F : List Nat) :
    (s.withOnsets F).peakBands = s.peakBands := by cases s; rfl
@[simp] theorem State.withOnsets_bufSel (s : State) (F : List Nat) :
    (s.withOnsets F).bufSel = s.bufSel := by cases s; rfl
@[simp] theorem State.withOnsets_bufIdx (s : State) (F : List Nat) :
    (s.withOnsets F).bufIdx = s.bufIdx := by cases s; rfl
@[simp] theorem State.withOnsets_latch (s : State) (F : List Nat) :
    (s.withOnsets F).latch = s.latch := by cases s; rfl
@[simp] theorem State.withOnsets_inputs (s : State) (F : List Nat) :
    (s.withOnsets F).inputs = s.inputs := by cases s; rfl
@[simp] theorem State.withOnsets_readData (s : State) (F : List Nat) :
    (s.withOnsets F).readData = s.readData := by cases s; rfl
@[simp] theorem State.withOnsets_freeCtr (s : State) (F : List Nat) :
    (s.withOnsets F).freeCtr = s.freeCtr := by cases s; rfl

/-! ### `State.withTempo` -/

@[simp] theorem State.withTempo_hannSym (s : State) (ons : List Nat) :
    (s.withTempo ons).hannSym = s.hannSym := by cases s; rfl
@[simp] theorem State.withTempo_done (s : State) (ons : List Nat) : (s.withTempo ons).done = s.done := by cases s; rfl
@[simp] theorem State.withTempo_error (s : State) (ons : List Nat) :
    (s.withTempo ons).error = s.error := by cases s; rfl
@[simp] theorem State.withTempo_rej (s : State) (ons : List Nat) : (s.withTempo ons).rej = s.rej := by cases s; rfl
@[simp] theorem State.withTempo_tempoFound (s : State) (ons : List Nat) :
    (s.withTempo ons).tempoFound = (tempoLagOf (autocorr ons s.nhops.toNat) (lags s.sr.toNat)).isSome := by cases s; rfl
@[simp] theorem State.withTempo_stage (s : State) (ons : List Nat) :
    (s.withTempo ons).stage = .tempo := by cases s; rfl
@[simp] theorem State.withTempo_doneIe (s : State) (ons : List Nat) :
    (s.withTempo ons).doneIe = s.doneIe := by cases s; rfl
@[simp] theorem State.withTempo_errIe (s : State) (ons : List Nat) :
    (s.withTempo ons).errIe = s.errIe := by cases s; rfl
@[simp] theorem State.withTempo_rejIe (s : State) (ons : List Nat) :
    (s.withTempo ons).rejIe = s.rejIe := by cases s; rfl
@[simp] theorem State.withTempo_sr (s : State) (ons : List Nat) : (s.withTempo ons).sr = s.sr := by cases s; rfl
@[simp] theorem State.withTempo_nsamp (s : State) (ons : List Nat) :
    (s.withTempo ons).nsamp = s.nsamp := by cases s; rfl
@[simp] theorem State.withTempo_fps (s : State) (ons : List Nat) : (s.withTempo ons).fps = s.fps := by cases s; rfl
@[simp] theorem State.withTempo_smooth (s : State) (ons : List Nat) :
    (s.withTempo ons).smooth = s.smooth := by cases s; rfl
@[simp] theorem State.withTempo_nhops (s : State) (ons : List Nat) :
    (s.withTempo ons).nhops = s.nhops := by cases s; rfl
@[simp] theorem State.withTempo_nframes (s : State) (ons : List Nat) :
    (s.withTempo ons).nframes = s.nframes := by cases s; rfl
@[simp] theorem State.withTempo_onsetCount (s : State) (ons : List Nat) :
    (s.withTempo ons).onsetCount = s.onsetCount := by cases s; rfl
@[simp] theorem State.withTempo_peakAmp (s : State) (ons : List Nat) :
    (s.withTempo ons).peakAmp = s.peakAmp := by cases s; rfl
@[simp] theorem State.withTempo_peakRms (s : State) (ons : List Nat) :
    (s.withTempo ons).peakRms = s.peakRms := by cases s; rfl
@[simp] theorem State.withTempo_peakFlux (s : State) (ons : List Nat) :
    (s.withTempo ons).peakFlux = s.peakFlux := by cases s; rfl
@[simp] theorem State.withTempo_peakBands (s : State) (ons : List Nat) :
    (s.withTempo ons).peakBands = s.peakBands := by cases s; rfl
@[simp] theorem State.withTempo_bufSel (s : State) (ons : List Nat) :
    (s.withTempo ons).bufSel = s.bufSel := by cases s; rfl
@[simp] theorem State.withTempo_bufIdx (s : State) (ons : List Nat) :
    (s.withTempo ons).bufIdx = s.bufIdx := by cases s; rfl
@[simp] theorem State.withTempo_latch (s : State) (ons : List Nat) :
    (s.withTempo ons).latch = s.latch := by cases s; rfl
@[simp] theorem State.withTempo_mem (s : State) (ons : List Nat) : (s.withTempo ons).mem = s.mem.writeCells .acorr
      (cellsFrom 0 (acorrWords s.sr.toNat (autocorr ons s.nhops.toNat))) := by cases s; rfl
@[simp] theorem State.withTempo_inputs (s : State) (ons : List Nat) :
    (s.withTempo ons).inputs = s.inputs := by cases s; rfl
@[simp] theorem State.withTempo_readData (s : State) (ons : List Nat) :
    (s.withTempo ons).readData = s.readData := by cases s; rfl
@[simp] theorem State.withTempo_freeCtr (s : State) (ons : List Nat) :
    (s.withTempo ons).freeCtr = s.freeCtr := by cases s; rfl

/-! ### `State.resampled` -/

@[simp] theorem State.resampled_hannSym (s : State) : (s.resampled).hannSym = s.hannSym := by cases s; rfl
@[simp] theorem State.resampled_done (s : State) : (s.resampled).done = s.done := by cases s; rfl
@[simp] theorem State.resampled_error (s : State) : (s.resampled).error = s.error := by cases s; rfl
@[simp] theorem State.resampled_rej (s : State) : (s.resampled).rej = s.rej := by cases s; rfl
@[simp] theorem State.resampled_tempoFound (s : State) : (s.resampled).tempoFound = s.tempoFound := by cases s; rfl
@[simp] theorem State.resampled_stage (s : State) : (s.resampled).stage = .resampled := by cases s; rfl
@[simp] theorem State.resampled_doneIe (s : State) : (s.resampled).doneIe = s.doneIe := by cases s; rfl
@[simp] theorem State.resampled_errIe (s : State) : (s.resampled).errIe = s.errIe := by cases s; rfl
@[simp] theorem State.resampled_rejIe (s : State) : (s.resampled).rejIe = s.rejIe := by cases s; rfl
@[simp] theorem State.resampled_sr (s : State) : (s.resampled).sr = s.sr := by cases s; rfl
@[simp] theorem State.resampled_nsamp (s : State) : (s.resampled).nsamp = s.nsamp := by cases s; rfl
@[simp] theorem State.resampled_fps (s : State) : (s.resampled).fps = s.fps := by cases s; rfl
@[simp] theorem State.resampled_smooth (s : State) : (s.resampled).smooth = s.smooth := by cases s; rfl
@[simp] theorem State.resampled_nhops (s : State) : (s.resampled).nhops = s.nhops := by cases s; rfl
@[simp] theorem State.resampled_nframes (s : State) : (s.resampled).nframes = s.nframes := by cases s; rfl
@[simp] theorem State.resampled_onsetCount (s : State) : (s.resampled).onsetCount = s.onsetCount := by cases s; rfl
@[simp] theorem State.resampled_tempoLag (s : State) : (s.resampled).tempoLag = s.tempoLag := by cases s; rfl
@[simp] theorem State.resampled_tempoBpm (s : State) : (s.resampled).tempoBpm = s.tempoBpm := by cases s; rfl
@[simp] theorem State.resampled_peakAmp (s : State) : (s.resampled).peakAmp = s.peakAmp := by cases s; rfl
@[simp] theorem State.resampled_peakRms (s : State) : (s.resampled).peakRms = s.peakRms := by cases s; rfl
@[simp] theorem State.resampled_peakFlux (s : State) : (s.resampled).peakFlux = s.peakFlux := by cases s; rfl
@[simp] theorem State.resampled_peakBands (s : State) : (s.resampled).peakBands = s.peakBands := by cases s; rfl
@[simp] theorem State.resampled_bufSel (s : State) : (s.resampled).bufSel = s.bufSel := by cases s; rfl
@[simp] theorem State.resampled_bufIdx (s : State) : (s.resampled).bufIdx = s.bufIdx := by cases s; rfl
@[simp] theorem State.resampled_latch (s : State) : (s.resampled).latch = s.latch := by cases s; rfl
@[simp] theorem State.resampled_mem (s : State) :
    (s.resampled).mem = s.mem.writeCells .frame (cellsFrom 0 ((List.range s.nframes.toNat).flatMap (frameRecord s))) := by cases s; rfl
@[simp] theorem State.resampled_inputs (s : State) : (s.resampled).inputs = s.inputs := by cases s; rfl
@[simp] theorem State.resampled_readData (s : State) : (s.resampled).readData = s.readData := by cases s; rfl
@[simp] theorem State.resampled_freeCtr (s : State) : (s.resampled).freeCtr = s.freeCtr := by cases s; rfl

/-! ### `State.smoothed` -/

@[simp] theorem State.smoothed_hannSym (s : State) : (s.smoothed).hannSym = s.hannSym := by cases s; rfl
@[simp] theorem State.smoothed_done (s : State) : (s.smoothed).done = s.done := by cases s; rfl
@[simp] theorem State.smoothed_error (s : State) : (s.smoothed).error = s.error := by cases s; rfl
@[simp] theorem State.smoothed_rej (s : State) : (s.smoothed).rej = s.rej := by cases s; rfl
@[simp] theorem State.smoothed_tempoFound (s : State) : (s.smoothed).tempoFound = s.tempoFound := by cases s; rfl
@[simp] theorem State.smoothed_stage (s : State) : (s.smoothed).stage = .smoothed := by cases s; rfl
@[simp] theorem State.smoothed_doneIe (s : State) : (s.smoothed).doneIe = s.doneIe := by cases s; rfl
@[simp] theorem State.smoothed_errIe (s : State) : (s.smoothed).errIe = s.errIe := by cases s; rfl
@[simp] theorem State.smoothed_rejIe (s : State) : (s.smoothed).rejIe = s.rejIe := by cases s; rfl
@[simp] theorem State.smoothed_sr (s : State) : (s.smoothed).sr = s.sr := by cases s; rfl
@[simp] theorem State.smoothed_nsamp (s : State) : (s.smoothed).nsamp = s.nsamp := by cases s; rfl
@[simp] theorem State.smoothed_fps (s : State) : (s.smoothed).fps = s.fps := by cases s; rfl
@[simp] theorem State.smoothed_smooth (s : State) : (s.smoothed).smooth = s.smooth := by cases s; rfl
@[simp] theorem State.smoothed_nhops (s : State) : (s.smoothed).nhops = s.nhops := by cases s; rfl
@[simp] theorem State.smoothed_nframes (s : State) : (s.smoothed).nframes = s.nframes := by cases s; rfl
@[simp] theorem State.smoothed_onsetCount (s : State) : (s.smoothed).onsetCount = s.onsetCount := by cases s; rfl
@[simp] theorem State.smoothed_tempoLag (s : State) : (s.smoothed).tempoLag = s.tempoLag := by cases s; rfl
@[simp] theorem State.smoothed_tempoBpm (s : State) : (s.smoothed).tempoBpm = s.tempoBpm := by cases s; rfl
@[simp] theorem State.smoothed_peakAmp (s : State) : (s.smoothed).peakAmp = s.peakAmp := by cases s; rfl
@[simp] theorem State.smoothed_peakRms (s : State) : (s.smoothed).peakRms = s.peakRms := by cases s; rfl
@[simp] theorem State.smoothed_peakFlux (s : State) : (s.smoothed).peakFlux = s.peakFlux := by cases s; rfl
@[simp] theorem State.smoothed_peakBands (s : State) : (s.smoothed).peakBands = s.peakBands := by cases s; rfl
@[simp] theorem State.smoothed_bufSel (s : State) : (s.smoothed).bufSel = s.bufSel := by cases s; rfl
@[simp] theorem State.smoothed_bufIdx (s : State) : (s.smoothed).bufIdx = s.bufIdx := by cases s; rfl
@[simp] theorem State.smoothed_latch (s : State) : (s.smoothed).latch = s.latch := by cases s; rfl
@[simp] theorem State.smoothed_inputs (s : State) : (s.smoothed).inputs = s.inputs := by cases s; rfl
@[simp] theorem State.smoothed_readData (s : State) : (s.smoothed).readData = s.readData := by cases s; rfl
@[simp] theorem State.smoothed_freeCtr (s : State) : (s.smoothed).freeCtr = s.freeCtr := by cases s; rfl

/-! ### `State.normalized` -/

@[simp] theorem State.normalized_hannSym (s : State) : (s.normalized).hannSym = s.hannSym := by cases s; rfl
@[simp] theorem State.normalized_done (s : State) : (s.normalized).done = s.done := by cases s; rfl
@[simp] theorem State.normalized_error (s : State) : (s.normalized).error = s.error := by cases s; rfl
@[simp] theorem State.normalized_rej (s : State) : (s.normalized).rej = s.rej := by cases s; rfl
@[simp] theorem State.normalized_tempoFound (s : State) : (s.normalized).tempoFound = s.tempoFound := by cases s; rfl
@[simp] theorem State.normalized_stage (s : State) : (s.normalized).stage = .normalized := by cases s; rfl
@[simp] theorem State.normalized_doneIe (s : State) : (s.normalized).doneIe = s.doneIe := by cases s; rfl
@[simp] theorem State.normalized_errIe (s : State) : (s.normalized).errIe = s.errIe := by cases s; rfl
@[simp] theorem State.normalized_rejIe (s : State) : (s.normalized).rejIe = s.rejIe := by cases s; rfl
@[simp] theorem State.normalized_sr (s : State) : (s.normalized).sr = s.sr := by cases s; rfl
@[simp] theorem State.normalized_nsamp (s : State) : (s.normalized).nsamp = s.nsamp := by cases s; rfl
@[simp] theorem State.normalized_fps (s : State) : (s.normalized).fps = s.fps := by cases s; rfl
@[simp] theorem State.normalized_smooth (s : State) : (s.normalized).smooth = s.smooth := by cases s; rfl
@[simp] theorem State.normalized_nhops (s : State) : (s.normalized).nhops = s.nhops := by cases s; rfl
@[simp] theorem State.normalized_nframes (s : State) : (s.normalized).nframes = s.nframes := by cases s; rfl
@[simp] theorem State.normalized_onsetCount (s : State) : (s.normalized).onsetCount = s.onsetCount := by cases s; rfl
@[simp] theorem State.normalized_tempoLag (s : State) : (s.normalized).tempoLag = s.tempoLag := by cases s; rfl
@[simp] theorem State.normalized_tempoBpm (s : State) : (s.normalized).tempoBpm = s.tempoBpm := by cases s; rfl
@[simp] theorem State.normalized_peakAmp (s : State) : (s.normalized).peakAmp = s.peakAmp := by cases s; rfl
@[simp] theorem State.normalized_peakRms (s : State) : (s.normalized).peakRms = s.peakRms := by cases s; rfl
@[simp] theorem State.normalized_peakFlux (s : State) : (s.normalized).peakFlux = s.peakFlux := by cases s; rfl
@[simp] theorem State.normalized_peakBands (s : State) : (s.normalized).peakBands = s.peakBands := by cases s; rfl
@[simp] theorem State.normalized_bufSel (s : State) : (s.normalized).bufSel = s.bufSel := by cases s; rfl
@[simp] theorem State.normalized_bufIdx (s : State) : (s.normalized).bufIdx = s.bufIdx := by cases s; rfl
@[simp] theorem State.normalized_latch (s : State) : (s.normalized).latch = s.latch := by cases s; rfl
@[simp] theorem State.normalized_inputs (s : State) : (s.normalized).inputs = s.inputs := by cases s; rfl
@[simp] theorem State.normalized_readData (s : State) : (s.normalized).readData = s.readData := by cases s; rfl
@[simp] theorem State.normalized_freeCtr (s : State) : (s.normalized).freeCtr = s.freeCtr := by cases s; rfl

/-! ### `State.withBeats` -/

@[simp] theorem State.withBeats_hannSym (s : State) (ons : List Nat) :
    (s.withBeats ons).hannSym = s.hannSym := by cases s; rfl
@[simp] theorem State.withBeats_done (s : State) (ons : List Nat) : (s.withBeats ons).done = s.done := by cases s; rfl
@[simp] theorem State.withBeats_error (s : State) (ons : List Nat) :
    (s.withBeats ons).error = s.error := by cases s; rfl
@[simp] theorem State.withBeats_rej (s : State) (ons : List Nat) : (s.withBeats ons).rej = s.rej := by cases s; rfl
@[simp] theorem State.withBeats_tempoFound (s : State) (ons : List Nat) :
    (s.withBeats ons).tempoFound = s.tempoFound := by cases s; rfl
@[simp] theorem State.withBeats_stage (s : State) (ons : List Nat) :
    (s.withBeats ons).stage = .complete := by cases s; rfl
@[simp] theorem State.withBeats_doneIe (s : State) (ons : List Nat) :
    (s.withBeats ons).doneIe = s.doneIe := by cases s; rfl
@[simp] theorem State.withBeats_errIe (s : State) (ons : List Nat) :
    (s.withBeats ons).errIe = s.errIe := by cases s; rfl
@[simp] theorem State.withBeats_rejIe (s : State) (ons : List Nat) :
    (s.withBeats ons).rejIe = s.rejIe := by cases s; rfl
@[simp] theorem State.withBeats_sr (s : State) (ons : List Nat) : (s.withBeats ons).sr = s.sr := by cases s; rfl
@[simp] theorem State.withBeats_nsamp (s : State) (ons : List Nat) :
    (s.withBeats ons).nsamp = s.nsamp := by cases s; rfl
@[simp] theorem State.withBeats_fps (s : State) (ons : List Nat) : (s.withBeats ons).fps = s.fps := by cases s; rfl
@[simp] theorem State.withBeats_smooth (s : State) (ons : List Nat) :
    (s.withBeats ons).smooth = s.smooth := by cases s; rfl
@[simp] theorem State.withBeats_nhops (s : State) (ons : List Nat) :
    (s.withBeats ons).nhops = s.nhops := by cases s; rfl
@[simp] theorem State.withBeats_nframes (s : State) (ons : List Nat) :
    (s.withBeats ons).nframes = s.nframes := by cases s; rfl
@[simp] theorem State.withBeats_onsetCount (s : State) (ons : List Nat) :
    (s.withBeats ons).onsetCount = s.onsetCount := by cases s; rfl
@[simp] theorem State.withBeats_tempoLag (s : State) (ons : List Nat) :
    (s.withBeats ons).tempoLag = s.tempoLag := by cases s; rfl
@[simp] theorem State.withBeats_tempoBpm (s : State) (ons : List Nat) :
    (s.withBeats ons).tempoBpm = s.tempoBpm := by cases s; rfl
@[simp] theorem State.withBeats_peakAmp (s : State) (ons : List Nat) :
    (s.withBeats ons).peakAmp = s.peakAmp := by cases s; rfl
@[simp] theorem State.withBeats_peakRms (s : State) (ons : List Nat) :
    (s.withBeats ons).peakRms = s.peakRms := by cases s; rfl
@[simp] theorem State.withBeats_peakFlux (s : State) (ons : List Nat) :
    (s.withBeats ons).peakFlux = s.peakFlux := by cases s; rfl
@[simp] theorem State.withBeats_peakBands (s : State) (ons : List Nat) :
    (s.withBeats ons).peakBands = s.peakBands := by cases s; rfl
@[simp] theorem State.withBeats_bufSel (s : State) (ons : List Nat) :
    (s.withBeats ons).bufSel = s.bufSel := by cases s; rfl
@[simp] theorem State.withBeats_bufIdx (s : State) (ons : List Nat) :
    (s.withBeats ons).bufIdx = s.bufIdx := by cases s; rfl
@[simp] theorem State.withBeats_latch (s : State) (ons : List Nat) :
    (s.withBeats ons).latch = s.latch := by cases s; rfl
@[simp] theorem State.withBeats_mem (s : State) (ons : List Nat) :
    (s.withBeats ons).mem = s.mem.writeCells .frame ((List.range s.nframes.toNat).flatMap (beatCells s ons)) := by cases s; rfl
@[simp] theorem State.withBeats_inputs (s : State) (ons : List Nat) :
    (s.withBeats ons).inputs = s.inputs := by cases s; rfl
@[simp] theorem State.withBeats_readData (s : State) (ons : List Nat) :
    (s.withBeats ons).readData = s.readData := by cases s; rfl
@[simp] theorem State.withBeats_freeCtr (s : State) (ons : List Nat) :
    (s.withBeats ons).freeCtr = s.freeCtr := by cases s; rfl

/-! ### `State.softReset` -/

@[simp] theorem State.softReset_hannSym (s : State) : (s.softReset).hannSym = State.reset.hannSym := rfl
@[simp] theorem State.softReset_done (s : State) : (s.softReset).done = State.reset.done := rfl
@[simp] theorem State.softReset_error (s : State) : (s.softReset).error = State.reset.error := rfl
@[simp] theorem State.softReset_rej (s : State) : (s.softReset).rej = State.reset.rej := rfl
@[simp] theorem State.softReset_tempoFound (s : State) : (s.softReset).tempoFound = State.reset.tempoFound := rfl
@[simp] theorem State.softReset_stage (s : State) : (s.softReset).stage = State.reset.stage := rfl
@[simp] theorem State.softReset_doneIe (s : State) : (s.softReset).doneIe = State.reset.doneIe := rfl
@[simp] theorem State.softReset_errIe (s : State) : (s.softReset).errIe = State.reset.errIe := rfl
@[simp] theorem State.softReset_rejIe (s : State) : (s.softReset).rejIe = State.reset.rejIe := rfl
@[simp] theorem State.softReset_sr (s : State) : (s.softReset).sr = State.reset.sr := rfl
@[simp] theorem State.softReset_nsamp (s : State) : (s.softReset).nsamp = State.reset.nsamp := rfl
@[simp] theorem State.softReset_fps (s : State) : (s.softReset).fps = State.reset.fps := rfl
@[simp] theorem State.softReset_smooth (s : State) : (s.softReset).smooth = State.reset.smooth := rfl
@[simp] theorem State.softReset_nhops (s : State) : (s.softReset).nhops = State.reset.nhops := rfl
@[simp] theorem State.softReset_nframes (s : State) : (s.softReset).nframes = State.reset.nframes := rfl
@[simp] theorem State.softReset_onsetCount (s : State) : (s.softReset).onsetCount = State.reset.onsetCount := rfl
@[simp] theorem State.softReset_tempoLag (s : State) : (s.softReset).tempoLag = State.reset.tempoLag := rfl
@[simp] theorem State.softReset_tempoBpm (s : State) : (s.softReset).tempoBpm = State.reset.tempoBpm := rfl
@[simp] theorem State.softReset_peakAmp (s : State) : (s.softReset).peakAmp = State.reset.peakAmp := rfl
@[simp] theorem State.softReset_peakRms (s : State) : (s.softReset).peakRms = State.reset.peakRms := rfl
@[simp] theorem State.softReset_peakFlux (s : State) : (s.softReset).peakFlux = State.reset.peakFlux := rfl
@[simp] theorem State.softReset_peakBands (s : State) : (s.softReset).peakBands = State.reset.peakBands := rfl
@[simp] theorem State.softReset_bufSel (s : State) : (s.softReset).bufSel = State.reset.bufSel := rfl
@[simp] theorem State.softReset_bufIdx (s : State) : (s.softReset).bufIdx = State.reset.bufIdx := rfl
@[simp] theorem State.softReset_latch (s : State) : (s.softReset).latch = State.reset.latch := rfl
@[simp] theorem State.softReset_mem (s : State) : (s.softReset).mem = s.memAfterAbort := rfl
@[simp] theorem State.softReset_inputs (s : State) : (s.softReset).inputs = s.inputs := rfl
@[simp] theorem State.softReset_readData (s : State) : (s.softReset).readData = s.readData := rfl
@[simp] theorem State.softReset_freeCtr (s : State) : (s.softReset).freeCtr = s.freeCtr := rfl

/-! ### `State.hardReset` -/

@[simp] theorem State.hardReset_hannSym (s : State) : (s.hardReset).hannSym = State.reset.hannSym := rfl
@[simp] theorem State.hardReset_done (s : State) : (s.hardReset).done = State.reset.done := rfl
@[simp] theorem State.hardReset_error (s : State) : (s.hardReset).error = State.reset.error := rfl
@[simp] theorem State.hardReset_rej (s : State) : (s.hardReset).rej = State.reset.rej := rfl
@[simp] theorem State.hardReset_tempoFound (s : State) : (s.hardReset).tempoFound = State.reset.tempoFound := rfl
@[simp] theorem State.hardReset_stage (s : State) : (s.hardReset).stage = State.reset.stage := rfl
@[simp] theorem State.hardReset_doneIe (s : State) : (s.hardReset).doneIe = State.reset.doneIe := rfl
@[simp] theorem State.hardReset_errIe (s : State) : (s.hardReset).errIe = State.reset.errIe := rfl
@[simp] theorem State.hardReset_rejIe (s : State) : (s.hardReset).rejIe = State.reset.rejIe := rfl
@[simp] theorem State.hardReset_sr (s : State) : (s.hardReset).sr = State.reset.sr := rfl
@[simp] theorem State.hardReset_nsamp (s : State) : (s.hardReset).nsamp = State.reset.nsamp := rfl
@[simp] theorem State.hardReset_fps (s : State) : (s.hardReset).fps = State.reset.fps := rfl
@[simp] theorem State.hardReset_smooth (s : State) : (s.hardReset).smooth = State.reset.smooth := rfl
@[simp] theorem State.hardReset_nhops (s : State) : (s.hardReset).nhops = State.reset.nhops := rfl
@[simp] theorem State.hardReset_nframes (s : State) : (s.hardReset).nframes = State.reset.nframes := rfl
@[simp] theorem State.hardReset_onsetCount (s : State) : (s.hardReset).onsetCount = State.reset.onsetCount := rfl
@[simp] theorem State.hardReset_tempoLag (s : State) : (s.hardReset).tempoLag = State.reset.tempoLag := rfl
@[simp] theorem State.hardReset_tempoBpm (s : State) : (s.hardReset).tempoBpm = State.reset.tempoBpm := rfl
@[simp] theorem State.hardReset_peakAmp (s : State) : (s.hardReset).peakAmp = State.reset.peakAmp := rfl
@[simp] theorem State.hardReset_peakRms (s : State) : (s.hardReset).peakRms = State.reset.peakRms := rfl
@[simp] theorem State.hardReset_peakFlux (s : State) : (s.hardReset).peakFlux = State.reset.peakFlux := rfl
@[simp] theorem State.hardReset_peakBands (s : State) : (s.hardReset).peakBands = State.reset.peakBands := rfl
@[simp] theorem State.hardReset_bufSel (s : State) : (s.hardReset).bufSel = State.reset.bufSel := rfl
@[simp] theorem State.hardReset_bufIdx (s : State) : (s.hardReset).bufIdx = State.reset.bufIdx := rfl
@[simp] theorem State.hardReset_latch (s : State) : (s.hardReset).latch = State.reset.latch := rfl
@[simp] theorem State.hardReset_mem (s : State) : (s.hardReset).mem = State.reset.mem := rfl
@[simp] theorem State.hardReset_inputs (s : State) : (s.hardReset).inputs = s.inputs := rfl
@[simp] theorem State.hardReset_readData (s : State) : (s.hardReset).readData = s.readData := rfl
@[simp] theorem State.hardReset_freeCtr (s : State) : (s.hardReset).freeCtr = s.freeCtr := rfl

end Sys2Proof.Machine
end

