-- ==== Sys2Proof/Laws/Commands.lean ====
section
/-! SUPPORT. What the shared operations of the commands answer, said once, and from these what each command's body
answers: when it completes and with which state, and how it can stop. -/

namespace Sys2Proof.Machine

/-! ### Computations -/

theorem Cmd.bind_eq_ok {α β : Type} {a : Cmd α} {f : α → Cmd β} {t : β} :
    (a >>= f) = .ok t ↔ ∃ x, a = .ok x ∧ f x = .ok t := by
  cases a <;> simp [bind, Except.bind]

theorem Cmd.bind_eq_error {α β : Type} {a : Cmd α} {f : α → Cmd β} {e : Stop} :
    (a >>= f) = .error e ↔ a = .error e ∨ ∃ x, a = .ok x ∧ f x = .error e := by
  cases a <;> simp [bind, Except.bind]

theorem check_eq_ok {b : Bool} {e : ErrCode} {u : Unit} : check b e = .ok u ↔ b = true := by
  cases b <;> simp [check]

theorem check_eq_error {b : Bool} {e : ErrCode} {x : Stop} : check b e = .error x ↔ b = false ∧ x = .error e := by
  cases b <;> simp [check, eq_comm]

theorem assume_eq_ok {b : Bool} {f : Fault} {u : Unit} : assume b f = .ok u ↔ b = true := by
  cases b <;> simp [assume]

theorem assume_eq_error {b : Bool} {f : Fault} {x : Stop} : assume b f = .error x ↔ b = false ∧ x = .fault f := by
  cases b <;> simp [assume, eq_comm]

/-- Reading words succeeds with the words that stand there, all of them written. -/
theorem readWords_eq_ok {m : Memory} {id : BufId} {is : List Nat} {vs : List Word} :
    readWords m id is = .ok vs ↔ is.map (m.read id) = vs.map some := by
  induction is generalizing vs with
  | nil => cases vs <;> simp [readWords]
  | cons i is ih =>
    rw [readWords]
    constructor
    · intro h
      split at h
      · cases h
      · rename_i v hv
        split at h
        · cases h
        · rename_i us hus
          cases h
          simp [hv, ih.mp hus]
    · intro h
      cases vs with
      | nil => simp at h
      | cons v vs =>
        simp only [List.map_cons, List.cons.injEq] at h
        simp [h.1, ih.mpr h.2]

/-- Reading words stops only on an unwritten word. -/
theorem readWords_eq_error {m : Memory} {id : BufId} {is : List Nat} {e : Stop} (h : readWords m id is = .error e) :
    ∃ i ∈ is, m.read id i = none ∧ e = .fault (.unwritten id i) := by
  induction is with
  | nil => simp [readWords] at h
  | cons i is ih =>
    rw [readWords] at h
    split at h
    · rename_i hn
      exact ⟨i, by simp, hn, by simpa [eq_comm] using h⟩
    · split at h
      · rename_i e' he
        cases h
        obtain ⟨j, hj, hr⟩ := ih he
        exact ⟨j, List.mem_cons_of_mem _ hj, hr⟩
      · cases h

/-- Reading PCM words succeeds with the words that stand there, all of them written and legal. -/
theorem readPcm_eq_ok {m : Memory} {is : List Nat} {vs : List Word} :
    readPcm m is = .ok vs ↔ is.map (m.read .pcm) = vs.map some ∧ ∀ v ∈ vs, legalSample v = true := by
  induction is generalizing vs with
  | nil => cases vs <;> simp [readPcm]
  | cons i is ih =>
    rw [readPcm]
    constructor
    · intro h
      split at h
      · cases h
      · rename_i v hv
        split at h
        · rename_i hl
          split at h
          · cases h
          · rename_i us hus
            cases h
            obtain ⟨h1, h2⟩ := ih.mp hus
            exact ⟨by simp [hv, h1], by simpa [hl] using h2⟩
        · cases h
    · rintro ⟨h, hl⟩
      cases vs with
      | nil => simp at h
      | cons v vs =>
        simp only [List.map_cons, List.cons.injEq] at h
        simp [h.1, hl v (by simp), ih.mpr ⟨h.2, fun u hu => hl u (List.mem_cons_of_mem _ hu)⟩]

/-- Reading PCM words stops with `ERR_PCM` or on an unwritten word. -/
theorem readPcm_eq_error {m : Memory} {is : List Nat} {e : Stop} (h : readPcm m is = .error e) :
    e = .error .pcm ∨ ∃ i ∈ is, m.read .pcm i = none ∧ e = .fault (.unwritten .pcm i) := by
  induction is with
  | nil => simp [readPcm] at h
  | cons i is ih =>
    rw [readPcm] at h
    split at h
    · rename_i hn
      exact .inr ⟨i, by simp, hn, by simpa [eq_comm] using h⟩
    · split at h
      · split at h
        · rename_i e' he
          cases h
          rcases ih he with h1 | ⟨j, hj, hr⟩
          · exact .inl h1
          · exact .inr ⟨j, List.mem_cons_of_mem _ hj, hr⟩
        · cases h
      · exact .inl (by simpa [eq_comm] using h)

/-- Reading PCM words meets an illegal word whose predecessors are legal. -/
theorem readPcm_of_illegal {m : Memory} {before after : List Nat} {n : Nat} {v : Word}
    (hb : ∀ k ∈ before, ∃ u, m.read .pcm k = some u ∧ legalSample u = true) (hn : m.read .pcm n = some v)
    (hv : legalSample v = false) : readPcm m (before ++ n :: after) = .error (.error .pcm) := by
  induction before with
  | nil => simp [readPcm, hn, hv]
  | cons i is ih =>
    obtain ⟨u, hu, hl⟩ := hb i (by simp)
    rw [List.cons_append, readPcm, hu]
    simp only [hl, if_true]
    rw [ih fun k hk => hb k (List.mem_cons_of_mem _ hk)]

/-- How a command that is not RUN ends (R121, R243). -/
theorem finish_eq_next {s t : State} {c : Cmd State} :
    finish s c = .next t ↔ (∃ u, c = .ok u ∧ t = u.complete) ∨ ∃ e, c = .error (.error e) ∧ t = s.fail e := by
  rcases c with (_ | _) | _ <;> simp [finish, eq_comm]

theorem finish_eq_fault {s : State} {c : Cmd State} {f : Fault} : finish s c = .fault f ↔ c = .error (.fault f) := by
  rcases c with (_ | _) | _ <;> simp [finish]

@[simp] theorem finish_ok (s t : State) : finish s (.ok t) = .next t.complete := rfl
@[simp] theorem finish_error (s : State) (e : ErrCode) : finish s (.error (.error e)) = .next (s.fail e) := rfl
@[simp] theorem finish_fault (s : State) (f : Fault) : finish s (.error (.fault f)) = .fault f := rfl

@[simp] theorem runSequence_nil (s : State) : runSequence [] s = .next s.complete := rfl

theorem runSequence_cons_ok {c : State → Cmd State} {rest : List (State → Cmd State)} {s t : State} (h : c s = .ok t) :
    runSequence (c :: rest) s = runSequence rest t := by
  simp [runSequence, h]

theorem runSequence_cons_error {c : State → Cmd State} {rest : List (State → Cmd State)} {s : State} {e : ErrCode}
    (h : c s = .error (.error e)) : runSequence (c :: rest) s = .next (s.fail e) := by
  simp [runSequence, h]

theorem runSequence_cons_fault {c : State → Cmd State} {rest : List (State → Cmd State)} {s : State} {f : Fault}
    (h : c s = .error (.fault f)) : runSequence (c :: rest) s = .fault f := by
  simp [runSequence, h]

/-- A property that every command of a sequence keeps holds where the sequence ends, if its end keeps it too. -/
theorem runSequence_induction {P : State → Prop} {cs : List (State → Cmd State)}
    (hc : ∀ c ∈ cs, ∀ u v, P u → c u = .ok v → P v) (hend : ∀ u, P u → P u.complete)
    (hfail : ∀ u e, P u → P (u.fail e)) {s t : State} (hs : P s) (h : runSequence cs s = .next t) : P t := by
  induction cs generalizing s with
  | nil =>
    cases h
    exact hend s hs
  | cons c cs ih =>
    rcases hcs : c s with (e | f) | u
    · rw [runSequence_cons_error hcs] at h
      cases h
      exact hfail s e hs
    · rw [runSequence_cons_fault hcs] at h
      cases h
    · rw [runSequence_cons_ok hcs] at h
      exact ih (fun c' h' => hc c' (List.mem_cons_of_mem _ h')) (hc c (by simp) s u hs hcs) h

/-! ### The configuration -/

/-- CONFIG's checks pass exactly on a valid configuration that fits the buffers (R125, R126). -/
theorem configCounts_eq_ok {s : State} {nh nf : Nat} : configCounts s = .ok (nh, nf) ↔
    validSr s.sr = true ∧ validFps s.fps = true ∧ validSmooth s.smooth = true ∧ s.nsamp.toNat ≠ 0 ∧
      s.nsamp.toNat ≤ Config.pMax ∧ nFrames s.nsamp.toNat s.fpsUnits s.sr.toNat ≤ Config.frameMax ∧
      nh = nHops s.nsamp.toNat ∧ nf = nFrames s.nsamp.toNat s.fpsUnits s.sr.toNat := by
  unfold configCounts
  constructor
  · intro h
    split_ifs at h with h1 h2 h3 h4 h5 h6
    cases h
    simp only [Bool.not_eq_true', Bool.not_eq_false] at h1 h2 h3
    exact ⟨h1, h2, h3, h4, by omega, by omega, rfl, rfl⟩
  · rintro ⟨h1, h2, h3, h4, h5, h6, rfl, rfl⟩
    rw [if_neg (by simp [h1]), if_neg (by simp [h2]), if_neg (by simp [h3]), if_neg h4, if_neg (by omega),
      if_neg (by omega)]

/-- A configuration holds when CONFIG's checks pass with the counts the registers have (R249). -/
theorem configHolds_iff {s : State} :
    configHolds s = true ↔ configCounts s = .ok (s.nhops.toNat, s.nframes.toNat) := by
  unfold configHolds
  split
  · rename_i nh nf h
    simp only [h, Bool.and_eq_true, beq_iff_eq, Except.ok.injEq, Prod.mk.injEq]
    exact ⟨fun h => ⟨h.1.symm, h.2.symm⟩, fun h => ⟨h.1.symm, h.2.symm⟩⟩
  · rename_i e h
    simp [h]

theorem pMax_pos : 1 ≤ Config.pMax := by
  unfold Config.pMax
  omega

theorem pMax_le : Config.pMax ≤ 2 ^ 24 := by
  have := Nat.mod_lt Config.pMaxChoice (show 0 < 2 ^ 24 by norm_num)
  unfold Config.pMax
  omega

theorem frameMax_pos : 1 ≤ Config.frameMax := by
  unfold Config.frameMax
  omega

theorem frameMax_le : Config.frameMax ≤ 2 ^ 24 := by
  have := Nat.mod_lt Config.frameMaxChoice (show 0 < 2 ^ 24 by norm_num)
  unfold Config.frameMax
  omega

theorem hopMax_le : Config.hopMax ≤ 2 ^ 14 := by
  have h : Config.pMax + 1023 ≤ 1024 * 2 ^ 14 + 1023 := Nat.add_le_add_right pMax_le _
  exact le_trans (Nat.div_le_div_right h) (by norm_num)

/-- What a configuration that holds says of the registers (R126 to R128, R131). -/
structure ConfigFacts (s : State) : Prop where
  srPos : 1 ≤ s.sr.toNat
  srLe : s.sr.toNat ≤ 192000
  fpsFinite : isFinite s.fps = true
  fpsPos : 0 < s.fpsUnits
  smoothUnit : inUnit s.smooth = true
  nsampPos : 1 ≤ s.nsamp.toNat
  nsampLe : s.nsamp.toNat ≤ Config.pMax
  nhops : s.nhops.toNat = nHops s.nsamp.toNat
  nframes : s.nframes.toNat = nFrames s.nsamp.toNat s.fpsUnits s.sr.toNat
  nhopsPos : 1 ≤ s.nhops.toNat
  nhopsLe : s.nhops.toNat ≤ Config.hopMax
  nframesLe : s.nframes.toNat ≤ Config.frameMax

theorem configFacts {s : State} (h : configHolds s = true) : ConfigFacts s := by
  obtain ⟨h1, h2, h3, h4, h5, h6, h7, h8⟩ := configCounts_eq_ok.mp (configHolds_iff.mp h)
  simp only [validSr, Bool.and_eq_true, decide_eq_true_eq] at h1
  simp only [validFps, Bool.and_eq_true, decide_eq_true_eq] at h2
  have hpos : 0 < s.fpsUnits := by
    have := natAbs_realUnits s.fps
    unfold State.fpsUnits
    omega
  refine ⟨h1.1, h1.2, h2.1, hpos, h3, by omega, h5, h7, h8, ?_, ?_, by omega⟩
  · rw [h7, nHops]; omega
  · rw [h7]
    exact Nat.div_le_div_right (Nat.add_le_add_right h5 _)

theorem word_toNat {n : Nat} (h : n < 2 ^ 32) : (word n).toNat = n := by
  rw [word, BitVec.toNat_ofNat]
  exact Nat.mod_eq_of_lt h

/-- After CONFIG the configuration holds. -/
theorem configHolds_configured {s : State} {nh nf : Nat} (h : configCounts s = .ok (nh, nf)) :
    configHolds (s.configured nh nf) = true := by
  have hc : configCounts (s.configured nh nf) = configCounts s := rfl
  have h14 := hopMax_le
  have h24 := frameMax_le
  have h' := configCounts_eq_ok.mp h
  have hnh : nh < 2 ^ 32 := by
    have := pMax_le
    rw [h'.2.2.2.2.2.2.1, nHops]
    omega
  rw [configHolds_iff, hc, h]
  simp only [State.configured_nhops, State.configured_nframes]
  rw [word_toNat hnh, word_toNat (by omega)]

/-! ### The bodies -/

theorem configBody_eq_ok {s t : State} :
    configBody s = .ok t ↔ ∃ nh nf, configCounts s = .ok (nh, nf) ∧ t = s.configured nh nf := by
  unfold configBody
  split
  · rename_i e h; simp [h]
  · rename_i nh nf h
    simp only [h, Except.ok.injEq, Prod.mk.injEq]
    constructor
    · rintro rfl; exact ⟨nh, nf, ⟨rfl, rfl⟩, rfl⟩
    · rintro ⟨_, _, ⟨rfl, rfl⟩, rfl⟩; rfl

theorem configBody_eq_error {s : State} {x : Stop} :
    configBody s = .error x ↔ ∃ e, configCounts s = .error e ∧ x = .error e := by
  unfold configBody
  split
  · rename_i e h; simp [h, eq_comm]
  · rename_i nh nf h; simp [h]

theorem spectrumBody_eq_ok {h : Nat} {s t : State} : spectrumBody h s = .ok t ↔
    s.stage ≠ .invalid ∧ configHolds s = true ∧ h < s.nhops.toNat ∧
      ∃ xs, readPcm s.mem (windowIndices s.nsamp.toNat h) = .ok xs ∧
        (∀ v ∈ fftmag (windowed s.hannSym (padWindow xs)) ++ waveform (windowed s.hannSym (padWindow xs)),
          isFinite v = true) ∧ t = s.withSpectrum (windowed s.hannSym (padWindow xs)) := by
  simp only [spectrumBody, Cmd.bind_eq_ok, check_eq_ok, assumeConfig, assumeFinite, assume_eq_ok, bne_iff_ne, ne_eq,
    decide_eq_true_eq, List.all_eq_true, Except.ok.injEq, exists_const, eq_comm (a := t)]

theorem analyzeBody_eq_ok {s t : State} : analyzeBody s = .ok t ↔
    s.stage = .configured ∧ configHolds s = true ∧ ∃ xs, readPcm s.mem (List.range s.nsamp.toNat) = .ok xs ∧
      (∀ v ∈ (hopRecords s xs).flatMap HopRecord.words ++
          fftmag (windowed s.hannSym (hopWindow xs (s.nhops.toNat - 1))) ++
          waveform (windowed s.hannSym (hopWindow xs (s.nhops.toNat - 1))), isFinite v = true) ∧
      t = s.analyzed xs (hopRecords s xs) := by
  simp only [analyzeBody, Cmd.bind_eq_ok, requireStage, check_eq_ok, assumeConfig, assumeFinite, assume_eq_ok,
    beq_iff_eq, List.all_eq_true, Except.ok.injEq, exists_const, eq_comm (a := t)]

theorem onsetBody_eq_ok {s t : State} : onsetBody s = .ok t ↔
    s.stage = .analyzed ∧ configHolds s = true ∧ ∃ fs,
      readWords s.mem .hopf ((List.range s.nhops.toNat).map fun i => 12 * i + 2) = .ok fs ∧
      (∀ v ∈ fs, isFeature v = true) ∧
      (∀ v ∈ (List.range s.nhops.toNat).map (thresholdWord (fs.map magUnits)), isFinite v = true) ∧
      t = s.withOnsets (fs.map magUnits) := by
  simp only [onsetBody, Cmd.bind_eq_ok, requireStage, check_eq_ok, assumeConfig, assumeFinite, assumeFeatures,
    assume_eq_ok, beq_iff_eq, List.all_eq_true, Except.ok.injEq, exists_const, eq_comm (a := t)]

theorem readOnsets_eq_ok {s : State} {ons : List Nat} : readOnsets s = .ok ons ↔
    ∃ ws, readWords s.mem .onset (List.range s.onsetCount.toNat) = .ok ws ∧ ons = ws.map BitVec.toNat := by
  simp only [readOnsets, Cmd.bind_eq_ok, Except.ok.injEq, eq_comm (a := ons)]

theorem tempoBody_eq_ok {s t : State} : tempoBody s = .ok t ↔
    s.stage = .onsets ∧ configHolds s = true ∧ ∃ ons, readOnsets s = .ok ons ∧ t = s.withTempo ons := by
  simp only [tempoBody, Cmd.bind_eq_ok, requireStage, check_eq_ok, assumeConfig, assume_eq_ok, beq_iff_eq,
    Except.ok.injEq, exists_const, eq_comm (a := t)]

theorem resampleBody_eq_ok {s t : State} : resampleBody s = .ok t ↔
    s.stage = .tempo ∧ configHolds s = true ∧
      (∃ hs, readWords s.mem .hopf (hopSeriesIndices s.nhops.toNat) = .ok hs ∧ ∀ v ∈ hs, isFeature v = true) ∧
      (∀ v ∈ (List.range s.nframes.toNat).flatMap fun k =>
        frameTime s.fpsUnits k :: (List.range 10).map (resampledValue s k), isFinite v = true) ∧ t = s.resampled := by
  simp only [resampleBody, Cmd.bind_eq_ok, requireStage, check_eq_ok, assumeConfig, assumeFinite, assumeFeatures,
    assume_eq_ok, beq_iff_eq, List.all_eq_true, Except.ok.injEq, exists_const, eq_comm (a := t)]
  constructor
  · rintro ⟨h1, h2, hs, h3, h4, h5, h6⟩; exact ⟨h1, h2, ⟨hs, h3, h4⟩, h5, h6⟩
  · rintro ⟨h1, h2, ⟨hs, h3, h4⟩, h5, h6⟩; exact ⟨h1, h2, hs, h3, h4, h5, h6⟩

theorem smoothBody_eq_ok {s t : State} : smoothBody s = .ok t ↔
    s.stage = .resampled ∧ configHolds s = true ∧
      (∃ xs, readWords s.mem .frame (frameSeriesIndices s.nframes.toNat) = .ok xs ∧ ∀ v ∈ xs, isFeature v = true) ∧
      (∀ v ∈ (smoothedTable s).flatten, isFinite v = true) ∧ t = s.smoothed := by
  simp only [smoothBody, Cmd.bind_eq_ok, requireStage, check_eq_ok, assumeConfig, assumeFinite, assumeFeatures,
    assume_eq_ok, beq_iff_eq, List.all_eq_true, Except.ok.injEq, exists_const, eq_comm (a := t)]
  constructor
  · rintro ⟨h1, h2, hs, h3, h4, h5, h6⟩; exact ⟨h1, h2, ⟨hs, h3, h4⟩, h5, h6⟩
  · rintro ⟨h1, h2, ⟨hs, h3, h4⟩, h5, h6⟩; exact ⟨h1, h2, hs, h3, h4, h5, h6⟩

theorem normalizeBody_eq_ok {s t : State} : normalizeBody s = .ok t ↔
    s.stage = .smoothed ∧ configHolds s = true ∧
      (∃ xs, readWords s.mem .frame (frameSeriesIndices s.nframes.toNat) = .ok xs ∧ ∀ v ∈ xs, isFeature v = true) ∧
      (∀ v ∈ (List.range 10).map (seriesPeak s), isFeature v = true) ∧ t = s.normalized := by
  simp only [normalizeBody, Cmd.bind_eq_ok, requireStage, check_eq_ok, assumeConfig, assumeFeatures,
    assume_eq_ok, beq_iff_eq, List.all_eq_true, Except.ok.injEq, exists_const, eq_comm (a := t)]
  constructor
  · rintro ⟨h1, h2, hs, h3, h4, h5, h6⟩; exact ⟨h1, h2, ⟨hs, h3, h4⟩, h5, h6⟩
  · rintro ⟨h1, h2, ⟨hs, h3, h4⟩, h5, h6⟩; exact ⟨h1, h2, hs, h3, h4, h5, h6⟩

theorem beatBody_eq_ok {s t : State} : beatBody s = .ok t ↔
    s.stage = .normalized ∧ configHolds s = true ∧
      ∃ ons, readOnsets s = .ok ons ∧ beatInputsHold s ons = true ∧ t = s.withBeats ons := by
  simp only [beatBody, Cmd.bind_eq_ok, requireStage, check_eq_ok, assumeConfig, assume_eq_ok, beq_iff_eq,
    Except.ok.injEq, exists_const, eq_comm (a := t)]

end Sys2Proof.Machine
end

