-- ==== Sys2Proof/Laws/Spectral.lean ====
section
/-! SUPPORT. The per-hop functions on legal samples. R15 bounds no magnitude, so rms and flux can overflow; where both are
finite, every feature has sign bit 0 and stays under a bound that leaves the later commands room (00_scope.md R16,
log 8). -/

namespace Sys2Proof.Machine

/-! ### The numerics parameter -/

theorem inUnit_iff (w : Word) :
    inUnit w = true ↔ isFinite w = true ∧ 0 ≤ realUnits w ∧ realUnits w ≤ 2 ^ 149 := by
  simp [inUnit, and_assoc]

theorem magUnits_le_of_inUnit {w : Word} (h : inUnit w = true) : magUnits w ≤ 2 ^ 149 := by
  obtain ⟨_, h1, h2⟩ := (inUnit_iff w).mp h
  have := natAbs_realUnits w
  omega

theorem hann_inUnit (sym : Bool) (n : Nat) : inUnit (hann sym n) = true := by
  unfold hann
  simp only
  split_ifs with h
  · exact h
  · decide

/-- EXP-RANGE (R15). -/
theorem numExp_inUnit {a : Word} (ha : realUnits a < 0) : inUnit (numExp a) = true := by
  unfold numExp
  simp only [if_pos ha]
  split_ifs with h
  · exact h
  · decide

theorem numExp_not_isNaN (a : Word) : isNaN (numExp a) = false := by
  by_cases ha : realUnits a < 0
  · exact not_isNaN_of_finite ((inUnit_iff _).mp (numExp_inUnit ha)).1
  · unfold numExp
    simp only [if_neg ha]
    split_ifs with h
    · simpa using h
    · decide

theorem fftBin_feature (s : List Word) (k : Nat) : isFeature (fftBin s k) = true := by
  unfold fftBin
  simp only
  split_ifs with h
  · exact h
  · exact isFeature_zero32

theorem fftmag_length (s : List Word) : (fftmag s).length = 1025 := by
  unfold fftmag
  split
  · exact List.length_replicate
  · exact List.length_replicate
  · rw [List.length_map, List.length_range]

/-- FFT-ZERO (R15): a window of zeros has magnitudes +0.0. -/
theorem fftmag_of_zeros {s : List Word} (h : ∀ v ∈ s, magUnits v = 0) : fftmag s = List.replicate 1025 zero32 := by
  have : s.filter (fun v => magUnits v != 0) = [] := by
    rw [List.filter_eq_nil_iff]
    intro v hv
    simp [h v hv]
  simp [fftmag, this]

/-- FFT-NONNEG (R15): every magnitude of a window of finite words is a feature. -/
theorem fftmag_feature {s : List Word} (hs : ∀ v ∈ s, isFinite v = true) : ∀ m ∈ fftmag s, isFeature m = true := by
  intro m hm
  unfold fftmag at hm
  split at hm
  · rw [List.eq_of_mem_replicate hm]
    exact isFeature_zero32
  · rename_i v hv
    rw [List.eq_of_mem_replicate hm]
    have hmem : v ∈ s.filter (fun v => magUnits v != 0) := by rw [hv]; exact List.mem_singleton_self v
    exact (isFeature_iff _).mpr ⟨by simpa using hs v (List.mem_filter.mp hmem).1, by simp⟩
  · obtain ⟨k, _, rfl⟩ := List.mem_map.mp hm
    exact fftBin_feature s k

/-- FFT-ZERO and FFT-IMPULSE (R15): with zeros after its first word, a window's magnitudes are at most that word's. -/
theorem fftmag_le_of_impulse {v : Word} {rest : List Word} (h : ∀ u ∈ rest, magUnits u = 0) :
    ∀ m ∈ fftmag (v :: rest), magUnits m ≤ magUnits v := by
  have hf : rest.filter (fun v => magUnits v != 0) = [] := by
    rw [List.filter_eq_nil_iff]
    intro u hu
    simp [h u hu]
  intro m hm
  by_cases h0 : magUnits v = 0
  · rw [fftmag_of_zeros (by simpa [h0] using h)] at hm
    rw [List.eq_of_mem_replicate hm, magUnits_zero32]
    exact Nat.zero_le _
  · rw [fftmag, List.filter_cons_of_pos (by simpa using h0), hf] at hm
    rw [List.eq_of_mem_replicate hm, magUnits_abs32]

/-! ### Windows -/

/-- A window's words are samples of the stream or the padding. -/
theorem mem_hopWindow {samples : List Word} {h : Nat} {v : Word} (hv : v ∈ hopWindow samples h) :
    v ∈ samples ∨ v = zero32 := by
  unfold hopWindow padWindow at hv
  rcases List.mem_append.mp hv with hv | hv
  · exact .inl (List.mem_of_mem_drop (List.mem_of_mem_take hv))
  · exact .inr (List.eq_of_mem_replicate hv)

theorem padWindow_length {x : List Word} (h : x.length ≤ 2048) : (padWindow x).length = 2048 := by
  simp [padWindow]
  omega

theorem hopWindow_length (samples : List Word) (h : Nat) : (hopWindow samples h).length = 2048 :=
  padWindow_length (by simp)

theorem legalSample_iff (v : Word) : legalSample v = true ↔ isFinite v = true ∧ magUnits v ≤ 2 ^ 149 := by
  simp [legalSample]

/-- The windowed samples of legal samples are finite and at most 1 in magnitude. -/
theorem windowed_spec {sym : Bool} {x : List Word} (hx : ∀ v ∈ x, isFinite v = true ∧ magUnits v ≤ 2 ^ 149) :
    ∀ v ∈ windowed sym x, isFinite v = true ∧ magUnits v ≤ 2 ^ 149 := by
  intro v hv
  unfold windowed at hv
  rw [← List.map_uncurry_zip_eq_zipWith] at hv
  obtain ⟨⟨a, w⟩, haw, rfl⟩ := List.mem_map.mp hv
  obtain ⟨h1, h2⟩ := hx a (List.of_mem_zip haw).1
  obtain ⟨n, _, hn⟩ := List.mem_map.mp (List.of_mem_zip haw).2
  have hw : inUnit w = true := hn ▸ hann_inUnit sym n
  refine mul32_le h1 ((inUnit_iff w).mp hw).1 (rep_pow (by norm_num)) ?_
  exact Nat.mul_le_mul h2 (magUnits_le_of_inUnit hw)

/-- The windowed samples of a silent window are zeros. -/
theorem windowed_of_zeros {sym : Bool} {x : List Word} (hx : ∀ v ∈ x, magUnits v = 0) :
    ∀ v ∈ windowed sym x, isFinite v = true ∧ magUnits v = 0 := by
  intro v hv
  unfold windowed at hv
  rw [← List.map_uncurry_zip_eq_zipWith] at hv
  obtain ⟨⟨a, w⟩, haw, rfl⟩ := List.mem_map.mp hv
  have h0 := hx a (List.of_mem_zip haw).1
  obtain ⟨n, _, hn⟩ := List.mem_map.mp (List.of_mem_zip haw).2
  have hw : inUnit w = true := hn ▸ hann_inUnit sym n
  have hfa : isFinite a = true := by
    rw [isFinite_iff]
    by_contra hcon
    have hle : unitsOfBits 1 ≤ unitsOfBits (magBits a) := (unitsOfBits_le_iff (by norm_num)).mpr (by omega)
    rw [← magUnits_eq, h0] at hle
    exact absurd hle (by decide)
  have := mul32_le (u := 0) hfa ((inUnit_iff w).mp hw).1 rep_zero (by simp [h0])
  exact ⟨this.1, by simpa using this.2⟩

/-- Every point of the waveform of words in [-1, 1] is finite. -/
theorem waveform_finite {s : List Word} (hs : ∀ v ∈ s, isFinite v = true ∧ magUnits v ≤ 2 ^ 149) :
    ∀ v ∈ waveform s, isFinite v = true := by
  induction s using waveform.induct with
  | case1 a b c d rest ih =>
    intro v hv
    rw [waveform] at hv
    obtain ⟨ha, ha'⟩ := hs a (by simp)
    obtain ⟨hb, hb'⟩ := hs b (by simp)
    obtain ⟨hc, hc'⟩ := hs c (by simp)
    obtain ⟨hd, hd'⟩ := hs d (by simp)
    rcases List.mem_cons.mp hv with rfl | hv
    · obtain ⟨h1, h1'⟩ := add32_le (u := 2 ^ 150) ha hb (rep_pow (by norm_num)) (by omega)
      obtain ⟨h2, h2'⟩ := add32_le (u := 2 ^ 151) h1 hc (rep_pow (by norm_num)) (by omega)
      obtain ⟨h3, h3'⟩ := add32_le (u := 2 ^ 152) h2 hd (rep_pow (by norm_num)) (by omega)
      exact (mul32_le (u := 2 ^ 152) (by decide) h3 (rep_pow (by norm_num))
        (by rw [magUnits_quarter32]; omega)).1
    · exact ih (fun u hu => hs u (by simp [hu])) v hv
  | case2 s h =>
    intro v hv
    unfold waveform at hv
    split at hv
    · rename_i a b c d rest
      exact absurd rfl (h a b c d rest)
    · simp at hv

theorem waveform_length (s : List Word) : (waveform s).length = s.length / 4 := by
  induction s using waveform.induct with
  | case1 a b c d rest ih =>
    rw [waveform]
    simp only [List.length_cons, ih]
    omega
  | case2 s h =>
    unfold waveform
    split
    · rename_i a b c d rest
      exact absurd rfl (h a b c d rest)
    · match s, h with
      | [], _ => rfl
      | [_], _ => simp
      | [_, _], _ => simp
      | [_, _, _], _ => simp
      | a :: b :: c :: d :: rest, h => exact absurd rfl (h a b c d rest)

/-! ### Sums of features -/

/-- A sum of features of at most `2^e` each is a feature, and at most their number times `2^e`. -/
theorem foldl_add32_le (e : Nat) (he : e ≤ 252) (ts : List Word) (acc : Word) (k : Nat)
    (hacc : isFeature acc = true ∧ magUnits acc ≤ k * 2 ^ e) (hk : k + ts.length ≤ 2 ^ 24)
    (hts : ∀ t ∈ ts, isFeature t = true ∧ magUnits t ≤ 2 ^ e) :
    isFeature (ts.foldl add32 acc) = true ∧ magUnits (ts.foldl add32 acc) ≤ (k + ts.length) * 2 ^ e := by
  induction ts generalizing acc k with
  | nil => simpa using hacc
  | cons t ts ih =>
    simp only [List.length_cons] at hk
    obtain ⟨h1, h2⟩ := hts t (by simp)
    have := ih (add32 acc t) (k + 1)
      (add32_feature_le hacc.1 h1 (rep_mul_pow (by omega) he) (by rw [Nat.add_mul, one_mul]; omega))
      (by omega) (fun u hu => hts u (by simp [hu]))
    simpa [Nat.add_assoc, Nat.add_comm 1] using this

/-- A sum of features is at least its start and each of them. -/
theorem le_foldl_add32 (e : Nat) (he : e ≤ 252) (ts : List Word) (acc : Word) (k : Nat)
    (hacc : isFeature acc = true ∧ magUnits acc ≤ k * 2 ^ e) (hk : k + ts.length ≤ 2 ^ 24)
    (hts : ∀ t ∈ ts, isFeature t = true ∧ magUnits t ≤ 2 ^ e) :
    magUnits acc ≤ magUnits (ts.foldl add32 acc) ∧ ∀ t ∈ ts, magUnits t ≤ magUnits (ts.foldl add32 acc) := by
  induction ts generalizing acc k with
  | nil => simp
  | cons t ts ih =>
    simp only [List.length_cons] at hk
    obtain ⟨h1, h2⟩ := hts t (by simp)
    have hadd := add32_feature_le hacc.1 h1 (rep_mul_pow (m := k + 1) (by omega) he)
      (by rw [Nat.add_mul, one_mul]; omega)
    obtain ⟨i1, i2⟩ := ih (add32 acc t) (k + 1) hadd (by omega) (fun u hu => hts u (by simp [hu]))
    rw [List.foldl_cons]
    refine ⟨le_trans (le_add32_left hacc.1 h1) i1, fun u hu => ?_⟩
    rcases List.mem_cons.mp hu with rfl | hu
    · exact le_trans (le_add32_right hacc.1 h1) i1
    · exact i2 u hu

/-- A finite sum of features is a feature, and each partial sum is finite too. -/
theorem foldl_add32_feature (ts : List Word) (acc : Word) (hacc : isFeature acc = true)
    (hts : ∀ t ∈ ts, isFinite t = true → isFeature t = true) (h : isFinite (ts.foldl add32 acc) = true) :
    isFeature (ts.foldl add32 acc) = true ∧ ∀ t ∈ ts, isFinite t = true := by
  induction ts generalizing acc with
  | nil => exact ⟨hacc, by simp⟩
  | cons t ts ih =>
    have hstart : ∀ (us : List Word) (a : Word), isFinite (us.foldl add32 a) = true → isFinite a = true := by
      intro us
      induction us with
      | nil => exact fun _ h => h
      | cons u us ih => exact fun a h => (finite_of_add32 (ih _ h)).1
    have hstep := hstart ts _ h
    have ht := (finite_of_add32 hstep).2
    have hft := hts t (by simp) ht
    obtain ⟨i1, i2⟩ := ih (add32 acc t) ((isFeature_iff _).mpr ⟨hstep, signBit_add32_of_features hacc hft⟩)
      (fun u hu => hts u (by simp [hu])) h
    exact ⟨i1, fun u hu => (List.mem_cons.mp hu).elim (fun e => e ▸ ht) (i2 u)⟩

/-! ### The features of a hop -/

/-- Magnitudes as R145 gives them, of at most `2^e` units. -/
def Magnitudes (e : Nat) (m : List Word) : Prop :=
  m.length = 1025 ∧ ∀ v ∈ m, isFeature v = true ∧ magUnits v ≤ 2 ^ e

theorem fst_mem_of_mem_zipIdx {m : List Word} {c : Word × Nat} (h : c ∈ m.zipIdx) : c.1 ∈ m ∧ c.2 < m.length := by
  obtain ⟨v, k⟩ := c
  rw [List.mem_zipIdx_iff_getElem?] at h
  obtain ⟨hk, hv⟩ := List.getElem?_eq_some_iff.mp h
  exact ⟨hv ▸ List.getElem_mem hk, hk⟩

/-- A fold that adds a term for each element is the sum of the terms. -/
theorem foldl_add32_map {α : Type} (f : α → Word) (l : List α) (acc : Word) :
    l.foldl (fun acc c => add32 acc (f c)) acc = (l.map f).foldl add32 acc := by
  rw [List.foldl_map]

theorem parsevalWeight_spec (k : Nat) :
    isFeature (parsevalWeight k) = true ∧ magUnits (parsevalWeight k) ≤ 2 ^ 150 := by
  unfold parsevalWeight
  split_ifs
  · exact ⟨by decide, by rw [magUnits_one32]; exact Nat.pow_le_pow_right (by norm_num) (by norm_num)⟩
  · exact ⟨by decide, by rw [magUnits_two32]⟩

/-- The square of a word of at most 2^50 is at most 2^100. -/
theorem square_spec {v : Word} (h1 : isFeature v = true) (h2 : magUnits v ≤ 2 ^ 199) :
    isFeature (mul32 v v) = true ∧ magUnits (mul32 v v) ≤ 2 ^ 249 := by
  refine mul32_feature_le h1 h1 (rep_pow (by norm_num)) (le_trans (Nat.mul_le_mul h2 h2) ?_)
  rw [← pow_add, ← pow_add]

/-- A feature whose square is finite is below 2^64. -/
theorem magUnits_lt_of_square {v : Word} (h1 : isFeature v = true) (h2 : isFinite (mul32 v v) = true) :
    magUnits v < 2 ^ 213 := by
  by_contra hcon
  have hle : (2 : Nat) ^ 213 ≤ magUnits v := by omega
  rw [mul32_of_finite (isFinite_of_feature h1) (isFinite_of_feature h1), isFinite_iff,
    magBits_withSign _ (roundMag_lt _ _)] at h2
  have hinf : unitsOfBits 0x7F800000 = 2 ^ 23 * 2 ^ 254 := by decide
  have := le_roundMag (n := magUnits v * magUnits v) (d := 2 ^ 149) (c := 0x7F800000) (by positivity) le_rfl (by
    refine le_trans (le_of_eq ?_) (Nat.mul_le_mul hle hle)
    rw [hinf, ← pow_add, ← pow_add, ← pow_add])
  omega

/-- rms (R146) of magnitudes of at most 2^50: a feature of at most 2^80. -/
theorem rmsOf_spec {m : List Word} (hm : Magnitudes 199 m) : isFeature (rmsOf m) = true ∧ magUnits (rmsOf m) ≤ 2 ^ 229 := by
  unfold rmsOf
  simp only
  rw [foldl_add32_map fun c : Word × Nat => mul32 (parsevalWeight c.2) (mul32 c.1 c.1)]
  obtain ⟨h1, h2⟩ := foldl_add32_le 250 (by norm_num)
    (m.zipIdx.map fun c => mul32 (parsevalWeight c.2) (mul32 c.1 c.1)) zero32 0 (by simp) (by simp [hm.1]) (by
      intro t ht
      obtain ⟨c, hc, rfl⟩ := List.mem_map.mp ht
      obtain ⟨g1, g2⟩ := hm.2 c.1 (fst_mem_of_mem_zipIdx hc).1
      obtain ⟨q1, q2⟩ := square_spec g1 g2
      obtain ⟨w1, w2⟩ := parsevalWeight_spec c.2
      refine mul32_feature_le w1 q1 (rep_pow (by norm_num)) (le_trans (Nat.mul_le_mul w2 q2) ?_)
      rw [← pow_add, ← pow_add])
  rw [List.length_map, List.length_zipIdx, hm.1, Nat.zero_add] at h2
  have h3 : magUnits ((m.zipIdx.map fun c => mul32 (parsevalWeight c.2) (mul32 c.1 c.1)).foldl add32 zero32) ≤ 2 ^ 261 :=
    le_trans h2 (by
      rw [show (261 : ℕ) = 11 + 250 by norm_num, pow_add]
      exact Nat.mul_le_mul_right _ (by norm_num))
  obtain ⟨s1, s2⟩ := sqrt32_feature_le (u := 2 ^ 205) h1 (rep_pow (by norm_num))
    (le_trans (Nat.mul_le_mul_right _ h3) (by rw [← pow_add, ← pow_add]))
  refine div32_feature_le s1 (by decide) (by decide) (rep_pow (by norm_num)) ?_
  rw [magUnits_w2048]
  exact le_trans (Nat.mul_le_mul_right _ s2) (by norm_num)

/-- The root of a feature is a feature of at most 2^64. -/
theorem sqrt32_feature {a : Word} (ha : isFeature a = true) :
    isFeature (sqrt32 a) = true ∧ magUnits (sqrt32 a) ≤ 2 ^ 213 := by
  refine sqrt32_feature_le ha (rep_pow (by norm_num)) ?_
  have := (magUnits_lt_of_finite (isFinite_of_feature ha)).le
  refine le_trans (Nat.mul_le_mul_right _ this) (le_of_eq ?_)
  rw [← pow_add, ← pow_add]

/-- Where rms (R146) is finite it is a feature of at most 2^80, and every magnitude is at most 2^64. -/
theorem rmsOf_of_finite {m : List Word} (hl : m.length = 1025) (hm : ∀ v ∈ m, isFeature v = true)
    (h : isFinite (rmsOf m) = true) :
    (isFeature (rmsOf m) = true ∧ magUnits (rmsOf m) ≤ 2 ^ 229) ∧ Magnitudes 213 m := by
  unfold rmsOf at h ⊢
  simp only at h ⊢
  rw [foldl_add32_map fun c : Word × Nat => mul32 (parsevalWeight c.2) (mul32 c.1 c.1)] at h ⊢
  have hacc := finite_of_sqrt32 (finite_of_div32 h)
  obtain ⟨h1, h2⟩ := foldl_add32_feature _ _ isFeature_zero32 (fun t ht hfin => by
      obtain ⟨c, hc, rfl⟩ := List.mem_map.mp ht
      have g1 := hm c.1 (fst_mem_of_mem_zipIdx hc).1
      have q := (finite_of_mul32 hfin).2
      exact (isFeature_iff _).mpr ⟨hfin, signBit_mul32_of_features (parsevalWeight_spec c.2).1
        ((isFeature_iff _).mpr ⟨q, signBit_mul32_of_features g1 g1⟩)⟩)
    hacc
  obtain ⟨s1, s2⟩ := sqrt32_feature h1
  refine ⟨div32_feature_le s1 (by decide) (by decide) (rep_pow (by norm_num)) ?_, hl, fun v hv => ⟨hm v hv, ?_⟩⟩
  · rw [magUnits_w2048]
    exact le_trans (Nat.mul_le_mul_right _ s2) (by norm_num)
  · obtain ⟨k, hk, rfl⟩ := List.getElem_of_mem hv
    have hc : (m[k], k) ∈ m.zipIdx := List.mem_zipIdx_iff_getElem?.mpr (by simp [hk])
    exact (magUnits_lt_of_square (hm _ hv) (finite_of_mul32 (h2 _ (List.mem_map_of_mem hc))).2).le

/-- Bin frequencies (R147) at a legal sample rate: features of at most 2^17 Hz. -/
theorem binFreq_spec {sr k : Nat} (hsr : sr ≤ 192000) (hk : k < 1025) :
    isFeature (binFreq sr k) = true ∧ magUnits (binFreq sr k) ≤ 2 ^ 166 := by
  refine rne32_feature_le (by norm_num) (rep_pow (by norm_num)) ?_
  have : k * sr ≤ 1024 * 192000 := Nat.mul_le_mul (by omega) hsr
  calc k * sr * 2 ^ 149 ≤ 1024 * 192000 * 2 ^ 149 := Nat.mul_le_mul_right _ this
    _ ≤ 2 ^ 166 * 2048 := by norm_num

/-- The least power of two that is at least a positive number. -/
theorem exists_pow_ge (n : Nat) (h : 0 < n) : ∃ j, n ≤ 2 ^ j ∧ 2 ^ j < 2 * n := by
  refine ⟨Nat.clog 2 n, Nat.le_pow_clog (by norm_num) n, ?_⟩
  rcases Nat.lt_or_ge 1 n with h1 | h1
  · have := Nat.pow_pred_clog_lt_self (b := 2) (by norm_num) h1
    have hc : 0 < Nat.clog 2 n := Nat.clog_pos (by norm_num) h1
    have : 2 ^ Nat.clog 2 n = 2 * 2 ^ (Nat.clog 2 n - 1) := by
      rw [← pow_succ']
      congr 1
      omega
    simp only [Nat.pred_eq_sub_one] at *
    omega
  · have : n = 1 := by omega
    subst this
    simp

/-- The centroid (R148) of magnitudes: a feature of at most 2^30 Hz. The numerator's terms are at most `f·m` and the
denominator is at least every `m`, so the quotient cannot overflow however small the magnitudes are. -/
theorem centroidOf_spec {sr : Nat} {m : List Word} (hsr : sr ≤ 192000) (hm : Magnitudes 213 m) :
    isFeature (centroidOf sr m) = true ∧ magUnits (centroidOf sr m) ≤ 2 ^ 179 := by
  unfold centroidOf
  simp only
  have hden := foldl_add32_le 213 (by norm_num) m zero32 0 (by simp) (by rw [hm.1]; norm_num) hm.2
  have hge := le_foldl_add32 213 (by norm_num) m zero32 0 (by simp) (by rw [hm.1]; norm_num) hm.2
  split_ifs with h0
  · simp
  · obtain ⟨j, hj1, hj2⟩ := exists_pow_ge _ (Nat.pos_of_ne_zero h0)
    have hj : j ≤ 224 := by
      rw [hm.1, Nat.zero_add] at hden
      have : 2 ^ j < 2 ^ 225 := lt_of_lt_of_le hj2 (le_trans (Nat.mul_le_mul_left 2 hden.2) (by norm_num))
      have := (Nat.pow_lt_pow_iff_right (by norm_num : 1 < 2)).mp this
      omega
    rw [foldl_add32_map fun c : Word × Nat => mul32 (binFreq sr c.2) c.1]
    obtain ⟨n1, n2⟩ := foldl_add32_le (17 + j) (by omega) (m.zipIdx.map fun c => mul32 (binFreq sr c.2) c.1) zero32 0
      (by simp) (by simp [hm.1]) (by
        intro t ht
        obtain ⟨c, hc, rfl⟩ := List.mem_map.mp ht
        obtain ⟨c1, c2⟩ := fst_mem_of_mem_zipIdx hc
        obtain ⟨f1, f2⟩ := binFreq_spec (k := c.2) hsr (by rw [hm.1] at c2; exact c2)
        refine mul32_feature_le f1 (hm.2 _ c1).1 (rep_pow (by omega)) ?_
        calc magUnits (binFreq sr c.2) * magUnits c.1 ≤ 2 ^ 166 * 2 ^ j :=
              Nat.mul_le_mul f2 (le_trans (hge.2 _ c1) hj1)
          _ = 2 ^ (17 + j) * 2 ^ 149 := by rw [← pow_add, ← pow_add]; congr 1; omega)
    refine div32_feature_le n1 hden.1 h0 (rep_pow (by norm_num)) ?_
    rw [List.length_map, List.length_zipIdx, hm.1, Nat.zero_add] at n2
    generalize magUnits (m.foldl add32 zero32) = D at *
    calc magUnits _ * 2 ^ 149 ≤ 1025 * 2 ^ (17 + j) * 2 ^ 149 := Nat.mul_le_mul_right _ n2
      _ = (1025 * 2 ^ 166) * 2 ^ j := by rw [pow_add]; ring
      _ ≤ (1025 * 2 ^ 166) * (2 * D) := Nat.mul_le_mul_left _ hj2.le
      _ ≤ 2 ^ 179 * D := by
        rw [← mul_assoc]
        exact Nat.mul_le_mul_right _ (by norm_num)

theorem bandBins_spec {sr b : Nat} {m : List Word} (hm : Magnitudes 213 m) :
    (bandBins sr m b).length ≤ 1025 ∧ ∀ v ∈ bandBins sr m b, isFeature v = true ∧ magUnits v ≤ 2 ^ 213 := by
  unfold bandBins
  constructor
  · rw [List.length_map]
    exact le_trans (List.length_filter_le _ _) (by simp [hm.1])
  · intro v hv
    obtain ⟨c, hc, rfl⟩ := List.mem_map.mp hv
    exact hm.2 _ (fst_mem_of_mem_zipIdx (List.mem_filter.mp hc).1).1

/-- A count of at most 2^24 is exact in binary32. -/
theorem magUnits_rne32_nat {n : Nat} (h : n ≤ 2 ^ 24) :
    isFeature (rne32 n 1) = true ∧ magUnits (rne32 n 1) = n * 2 ^ 149 := by
  have hr : Rep (n * 2 ^ 149) := rep_mul_pow h (by norm_num)
  obtain ⟨h1, h2⟩ := rne32_feature_le (n := n) one_pos hr (by omega)
  exact ⟨h1, le_antisymm h2 (le_pack false one_pos hr (by omega))⟩

/-- Band means (R150): features of at most 2^75. -/
theorem bandMean_spec {sr b : Nat} {m : List Word} (hm : Magnitudes 213 m) :
    isFeature (bandMean sr m b) = true ∧ magUnits (bandMean sr m b) ≤ 2 ^ 224 := by
  unfold bandMean
  simp only
  obtain ⟨hl, hb⟩ := bandBins_spec (sr := sr) (b := b) hm
  split_ifs with h0
  · simp
  · obtain ⟨s1, s2⟩ := foldl_add32_le 213 (by norm_num) (bandBins sr m b) zero32 0 (by simp) (by omega) hb
    obtain ⟨c1, c2⟩ := magUnits_rne32_nat (n := (bandBins sr m b).length) (by omega)
    have hpos : 0 < (bandBins sr m b).length := Nat.pos_of_ne_zero h0
    refine div32_feature_le s1 c1 (by rw [c2]; positivity) (rep_pow (by norm_num)) ?_
    rw [c2]
    generalize (bandBins sr m b).length = n at *
    calc magUnits _ * 2 ^ 149 ≤ (0 + n) * 2 ^ 213 * 2 ^ 149 := Nat.mul_le_mul_right _ s2
      _ ≤ 2 ^ 224 * (n * 2 ^ 149) := by
        rw [Nat.zero_add, mul_assoc, mul_comm (2 ^ 224), mul_assoc]
        exact Nat.mul_le_mul_left _ (by norm_num)

theorem fluxFold_spec (cs : List (Word × Word)) (acc : Word) (k : Nat)
    (hacc : isFeature acc = true ∧ magUnits acc ≤ k * 2 ^ 249) (hk : k + cs.length ≤ 2 ^ 24)
    (hcs : ∀ c ∈ cs, (isFeature c.1 = true ∧ magUnits c.1 ≤ 2 ^ 199) ∧ (isFeature c.2 = true ∧ magUnits c.2 ≤ 2 ^ 199)) :
    isFeature (cs.foldl fluxTerm acc) = true ∧ magUnits (cs.foldl fluxTerm acc) ≤ (k + cs.length) * 2 ^ 249 := by
  induction cs generalizing acc k with
  | nil => simpa using hacc
  | cons c cs ih =>
    simp only [List.length_cons] at hk
    obtain ⟨⟨a1, a2⟩, b1, b2⟩ := hcs c (by simp)
    have hcap : Rep (2 ^ 199) := rep_pow (by norm_num)
    obtain ⟨d1, d2⟩ := sub32_features_le a1 b1 hcap a2 b2
    have hstep : isFeature (fluxTerm acc c) = true ∧ magUnits (fluxTerm acc c) ≤ (k + 1) * 2 ^ 249 := by
      unfold fluxTerm
      simp only [d1, Bool.true_and, decide_eq_true_eq]
      split_ifs with hd
      · exact ⟨hacc.1, le_trans hacc.2 (Nat.mul_le_mul_right _ (by omega))⟩
      · have hs : signBit (sub32 c.1 c.2) = false := by
          by_contra hcon
          have : realUnits (sub32 c.1 c.2) ≤ 0 := by
            rw [realUnits, if_pos (by simpa using hcon)]
            omega
          exact hd this
        obtain ⟨q1, q2⟩ := square_spec ((isFeature_iff _).mpr ⟨d1, hs⟩) d2
        exact add32_feature_le hacc.1 q1 (rep_mul_pow (by omega) (by norm_num)) (by rw [Nat.add_mul, one_mul]; omega)
    have := ih (fluxTerm acc c) (k + 1) hstep (by omega) (fun u hu => hcs u (by simp [hu]))
    simpa [Nat.add_assoc, Nat.add_comm 1] using this

/-- The flux (R151) of magnitudes of at most 2^50: a feature of at most 2^56. -/
theorem fluxOf_spec {m p : List Word} (hm : Magnitudes 199 m) (hp : Magnitudes 199 p) :
    isFeature (fluxOf m p) = true ∧ magUnits (fluxOf m p) ≤ 2 ^ 205 := by
  unfold fluxOf
  obtain ⟨h1, h2⟩ := fluxFold_spec (m.zip p) zero32 0 (by simp) (by simp [hm.1, hp.1])
    (fun c hc => ⟨hm.2 _ (List.of_mem_zip (a := c.1) (b := c.2) hc).1, hp.2 _ (List.of_mem_zip (a := c.1) (b := c.2) hc).2⟩)
  refine sqrt32_feature_le h1 (rep_pow (by norm_num)) ?_
  have hl : (m.zip p).length = 1025 := by simp [hm.1, hp.1]
  rw [hl] at h2
  exact le_trans (Nat.mul_le_mul_right _ h2) (by norm_num)

/-- A finite fold of flux terms over features is a feature. -/
theorem fluxFold_of_finite (cs : List (Word × Word)) (acc : Word) (hacc : isFeature acc = true)
    (hcs : ∀ c ∈ cs, isFeature c.1 = true ∧ isFeature c.2 = true) (h : isFinite (cs.foldl fluxTerm acc) = true) :
    isFeature (cs.foldl fluxTerm acc) = true := by
  induction cs generalizing acc with
  | nil => exact hacc
  | cons c cs ih =>
    have hstart : ∀ (us : List (Word × Word)) (a : Word), isFinite (us.foldl fluxTerm a) = true → isFinite a = true := by
      intro us
      induction us with
      | nil => exact fun _ h => h
      | cons u us ih =>
        intro a h
        have := ih _ h
        unfold fluxTerm at this
        simp only at this
        split_ifs at this
        · exact this
        · exact (finite_of_add32 this).1
    have hstep := hstart cs _ h
    refine ih (fluxTerm acc c) ?_ (fun u hu => hcs u (by simp [hu])) h
    obtain ⟨a1, b1⟩ := hcs c (by simp)
    have hu : Rep (max (magUnits c.1) (magUnits c.2)) := by
      rcases max_choice (magUnits c.1) (magUnits c.2) with e | e <;> rw [e]
      · exact rep_magUnits (isFinite_of_feature a1)
      · exact rep_magUnits (isFinite_of_feature b1)
    obtain ⟨d1, _⟩ := sub32_features_le a1 b1 hu (le_max_left _ _) (le_max_right _ _)
    unfold fluxTerm at hstep ⊢
    simp only [d1, Bool.true_and, decide_eq_true_eq] at hstep ⊢
    split_ifs at hstep ⊢ with hd
    · exact hacc
    · have hs : signBit (sub32 c.1 c.2) = false := by
        by_contra hcon
        have : realUnits (sub32 c.1 c.2) ≤ 0 := by
          rw [realUnits, if_pos (by simpa using hcon)]
          omega
        exact hd this
      have hf : isFeature (sub32 c.1 c.2) = true := (isFeature_iff _).mpr ⟨d1, hs⟩
      have hq : isFeature (mul32 (sub32 c.1 c.2) (sub32 c.1 c.2)) = true :=
        (isFeature_iff _).mpr ⟨(finite_of_add32 hstep).2, signBit_mul32_of_features hf hf⟩
      exact (isFeature_iff _).mpr ⟨hstep, signBit_add32_of_features hacc hq⟩

/-- Where the flux (R151) is finite it is a feature of at most 2^64. -/
theorem fluxOf_of_finite {m p : List Word} (hm : ∀ v ∈ m, isFeature v = true) (hp : ∀ v ∈ p, isFeature v = true)
    (h : isFinite (fluxOf m p) = true) : isFeature (fluxOf m p) = true ∧ magUnits (fluxOf m p) ≤ 2 ^ 213 := by
  unfold fluxOf at h ⊢
  exact sqrt32_feature (fluxFold_of_finite _ _ isFeature_zero32
    (fun c hc => ⟨hm _ (List.of_mem_zip (a := c.1) (b := c.2) hc).1, hp _ (List.of_mem_zip (a := c.1) (b := c.2) hc).2⟩)
    (finite_of_sqrt32 h))

/-- The peak amplitude (R152) of samples in [-1, 1]: a feature of at most 1. -/
theorem peakOf_spec {x : List Word} (hx : ∀ v ∈ x, isFinite v = true ∧ magUnits v ≤ 2 ^ 149) :
    isFeature (peakOf x) = true ∧ magUnits (peakOf x) ≤ 2 ^ 149 := by
  unfold peakOf
  suffices h : ∀ acc, isFeature acc = true ∧ magUnits acc ≤ 2 ^ 149 →
      isFeature (x.foldl (fun pk v => max32 pk (abs32 v)) acc) = true ∧
        magUnits (x.foldl (fun pk v => max32 pk (abs32 v)) acc) ≤ 2 ^ 149 from h _ ⟨isFeature_zero32, by rw [magUnits_zero32]; exact Nat.zero_le _⟩
  induction x with
  | nil => exact fun acc h => h
  | cons v vs ih =>
    intro acc hacc
    obtain ⟨h1, h2⟩ := hx v (by simp)
    refine ih (fun u hu => hx u (by simp [hu])) _ ?_
    exact max32_feature_le hacc.1 ((isFeature_iff _).mpr ⟨by simpa using h1, by simp⟩) hacc.2 (by simpa using h2)

/-- The window of a hop of a legal stream. -/
theorem hopWindow_legal {samples : List Word} (hs : ∀ v ∈ samples, legalSample v = true) (h : Nat) :
    ∀ v ∈ hopWindow samples h, isFinite v = true ∧ magUnits v ≤ 2 ^ 149 := by
  intro v hv
  rcases mem_hopWindow hv with hv | rfl
  · exact (legalSample_iff v).mp (hs v hv)
  · simp

/-- The magnitudes of a hop of a legal stream are features (R145). -/
theorem hopMagnitudes_feature {sym : Bool} {samples : List Word} (hs : ∀ v ∈ samples, legalSample v = true) (h : Nat) :
    ∀ v ∈ hopMagnitudes sym samples h, isFeature v = true :=
  fftmag_feature fun v hv => (windowed_spec (hopWindow_legal hs h) v hv).1

theorem previousMagnitudes_feature {sym : Bool} {samples : List Word} (hs : ∀ v ∈ samples, legalSample v = true)
    (h : Nat) : ∀ v ∈ previousMagnitudes sym samples h, isFeature v = true := by
  cases h with
  | zero =>
    intro v hv
    rw [List.eq_of_mem_replicate hv]
    exact isFeature_zero32
  | succ h => exact hopMagnitudes_feature hs h

/-- Every word of a hop record of a legal stream is a feature of at most 2^80, once rms and flux are finite: so these two
alone can be the NaN or infinity of R16. -/
theorem hopRecord_words_spec {sr : Nat} {sym : Bool} {samples : List Word} (hsr : sr ≤ 192000)
    (hs : ∀ v ∈ samples, legalSample v = true) {h : Nat} (hrms : isFinite (hopRecord sr sym samples h).rms = true)
    (hflux : isFinite (hopRecord sr sym samples h).flux = true) :
    ∀ w ∈ (hopRecord sr sym samples h).words, isFeature w = true ∧ magUnits w ≤ 2 ^ 229 := by
  have hf := hopMagnitudes_feature (sym := sym) hs h
  obtain ⟨hr, hm⟩ := rmsOf_of_finite (fftmag_length _) hf hrms
  have hfl := fluxOf_of_finite hf (previousMagnitudes_feature hs h) hflux
  have hpk := peakOf_spec (hopWindow_legal hs h)
  have hle : ∀ {n a : Nat}, n ≤ 2 ^ a → a ≤ 229 → n ≤ 2 ^ 229 :=
    fun h1 h2 => le_trans h1 (Nat.pow_le_pow_right (by norm_num) h2)
  intro w hw
  simp only [HopRecord.words, hopRecord, Bands.toList, Bands.tabulate, List.mem_append, List.mem_cons,
    List.not_mem_nil, or_false] at hw
  rcases hw with ((rfl | rfl | rfl) | rfl | rfl | rfl | rfl | rfl | rfl | rfl) | rfl | rfl
  · exact hr
  · exact (centroidOf_spec hsr hm).imp id fun h => hle h (by norm_num)
  · exact hfl.imp id fun h => hle h (by norm_num)
  · exact (bandMean_spec hm).imp id fun h => hle h (by norm_num)
  · exact (bandMean_spec hm).imp id fun h => hle h (by norm_num)
  · exact (bandMean_spec hm).imp id fun h => hle h (by norm_num)
  · exact (bandMean_spec hm).imp id fun h => hle h (by norm_num)
  · exact (bandMean_spec hm).imp id fun h => hle h (by norm_num)
  · exact (bandMean_spec hm).imp id fun h => hle h (by norm_num)
  · exact (bandMean_spec hm).imp id fun h => hle h (by norm_num)
  · exact hpk.imp id fun h => hle h (by norm_num)
  · rw [magUnits_zero32]
    exact ⟨isFeature_zero32, Nat.zero_le _⟩

/-- A stream whose magnitudes are all at most 2^50 has finite rms and flux at every hop. -/
theorem hopRecord_finite_of_bounded {sr : Nat} {sym : Bool} {samples : List Word}
    (hs : ∀ v ∈ samples, legalSample v = true) (hb : ∀ h, ∀ v ∈ hopMagnitudes sym samples h, magUnits v ≤ 2 ^ 199)
    (h : Nat) : isFinite (hopRecord sr sym samples h).rms = true ∧ isFinite (hopRecord sr sym samples h).flux = true := by
  have hm : ∀ h, Magnitudes 199 (hopMagnitudes sym samples h) := fun h =>
    ⟨fftmag_length _, fun v hv => ⟨hopMagnitudes_feature hs h v hv, hb h v hv⟩⟩
  have hp : Magnitudes 199 (previousMagnitudes sym samples h) := by
    cases h with
    | zero =>
      refine ⟨List.length_replicate, fun v hv => ?_⟩
      rw [List.eq_of_mem_replicate hv, magUnits_zero32]
      exact ⟨isFeature_zero32, Nat.zero_le _⟩
    | succ h => exact hm h
  exact ⟨isFinite_of_feature (rmsOf_spec (hm h)).1, isFinite_of_feature (fluxOf_spec (hm h) hp).1⟩

end Sys2Proof.Machine
end

