-- ==== Sys2Proof/Laws/Frames.lean ====
section
/-! SUPPORT. The frame functions on features: a weighted mean of two features with weights that add up to 1 does not pass
a power of two that both keep under, so interpolation and both passes of the filter keep every bound of that form. -/

namespace Sys2Proof.Machine

theorem mul32_comm {a b : Word} (ha : isFinite a = true) (hb : isFinite b = true) : mul32 a b = mul32 b a := by
  rw [mul32_of_finite ha hb, mul32_of_finite hb ha, Nat.mul_comm, bne_comm]

theorem realUnits_of_inUnit {w : Word} (h : inUnit w = true) : realUnits w = magUnits w := by
  obtain ⟨_, h1, _⟩ := (inUnit_iff w).mp h
  have := natAbs_realUnits w
  omega

theorem isFinite_of_inUnit {w : Word} (h : inUnit w = true) : isFinite w = true := ((inUnit_iff w).mp h).1

/-- The complement of a weight: a feature of at most 1, and the two weights add up to at most 1 + 2^-25. -/
theorem complement_spec {w : Word} (h : inUnit w = true) :
    isFeature (sub32 one32 w) = true ∧ magUnits (sub32 one32 w) ≤ 2 ^ 149 ∧
      magUnits w + magUnits (sub32 one32 w) ≤ 2 ^ 149 + 2 ^ 124 := by
  have hf := isFinite_of_inUnit h
  have hw := magUnits_le_of_inUnit h
  rw [sub32_of_finite isFinite_one32 hf, add32_of_finite isFinite_one32 (by simpa using hf), realUnits_neg32,
    realUnits_of_inUnit h, realUnits_of_pos (signBit_of_feature isFeature_one32), magUnits_one32]
  generalize magUnits w = L at *
  have hb : signBit one32 = false := signBit_of_feature isFeature_one32
  split_ifs with h0
  · rw [hb, Bool.false_and]
    refine ⟨by decide, ?_, ?_⟩
    · rw [show withSign false 0 = zero32 from rfl, magUnits_zero32]; exact Nat.zero_le _
    · rw [show withSign false 0 = zero32 from rfl, magUnits_zero32]; omega
  · have hv : ((2 ^ 149 : ℕ) : ℤ) + -(L : ℤ) = ((2 ^ 149 - L : ℕ) : ℤ) := by omega
    rw [hv, Int.natAbs_natCast, decide_eq_false (by omega)]
    obtain ⟨p1, p2⟩ := pack_le (n := 2 ^ 149 - L) (d := 1) (u := 2 ^ 149) false one_pos (rep_pow (by norm_num)) (by omega)
    refine ⟨(isFeature_iff _).mpr ⟨p1, signBit_pack _ _ _⟩, p2, ?_⟩
    rcases Nat.eq_zero_or_pos L with hL | hL
    · omega
    · have hfin : roundMag (2 ^ 149 - L) 1 < 0x7F800000 := by
        have := (isFinite_iff _).mp p1
        rwa [magBits_withSign _ (roundMag_lt _ _)] at this
      have he := (roundMag_error one_pos hfin).1
      rw [magUnits_withSign _ (roundMag_lt _ _)]
      have hk : dropBits ((2 ^ 149 - L) / 1) ≤ 125 := by
        unfold dropBits
        rw [Nat.div_one]
        have : Nat.log2 (2 ^ 149 - L) < 149 := (Nat.log2_lt (by omega)).mpr (by omega)
        omega
      have hp : 2 ^ dropBits ((2 ^ 149 - L) / 1) ≤ 2 ^ 125 := Nat.pow_le_pow_right (by norm_num) hk
      generalize unitsOfBits (roundMag (2 ^ 149 - L) 1) = U at *
      generalize 2 ^ dropBits ((2 ^ 149 - L) / 1) = K at *
      omega

/-- A weight of at most 1 times a feature of at most `2^e` is at most its share of `2^e`. -/
theorem weighted_le {a x : Word} {e : Nat} (he1 : 149 ≤ e) (he2 : e ≤ 276) (ha : inUnit a = true)
    (hx : isFeature x = true) (hxe : magUnits x ≤ 2 ^ e) :
    isFinite (mul32 a x) = true ∧ 0 ≤ realUnits (mul32 a x) ∧ magUnits (mul32 a x) ≤ magUnits a * 2 ^ (e - 149) := by
  have hf := isFinite_of_inUnit ha
  have hr : Rep (magUnits a * 2 ^ (e - 149)) := by
    obtain ⟨c, hc, hu⟩ := rep_magUnits hf
    obtain ⟨k, sig, hb, hs, h24, hse⟩ := unitsOfBits_decompose c
    have h1 := magUnits_le_of_inUnit ha
    rw [← hu, hs, mul_assoc, ← pow_add]
    rcases Nat.eq_zero_or_pos sig with h0 | h0
    · subst h0
      rw [Nat.zero_mul]
      exact rep_zero
    · by_cases hk : k + (e - 149) ≤ 252
      · exact rep_mul_pow h24.le hk
      · have hlog : sig * 2 ^ k ≤ 2 ^ 149 := by rw [← hs, hu]; exact h1
        refine ⟨(k + (e - 149)) * 2 ^ 23 + sig, ?_, unitsOfBits_normal _ _ h24 (.inr ?_)⟩
        · by_contra hcon
          have hk2 : 253 ≤ k + (e - 149) := by omega
          have hk3 : 126 ≤ k := by omega
          have h23 : 2 ^ 23 ≤ sig := hse.resolve_left (by omega)
          have h5 : 2 ^ 23 * 2 ^ 126 ≤ sig * 2 ^ k :=
            Nat.mul_le_mul h23 (Nat.pow_le_pow_right (by norm_num) hk3)
          rcases Nat.eq_or_lt_of_le hk3 with h6 | h6
          · rw [← h6] at hlog
            have : sig ≤ 2 ^ 23 := by
              by_contra h7
              have h8 : (2 ^ 23 + 1) * 2 ^ 126 ≤ sig * 2 ^ 126 := Nat.mul_le_mul_right _ (by omega)
              have h9 : (2 ^ 149 : ℕ) < (2 ^ 23 + 1) * 2 ^ 126 := by norm_num
              omega
            omega
          · have h7 : 2 ^ 23 * 2 ^ 127 ≤ sig * 2 ^ k :=
              Nat.mul_le_mul h23 (Nat.pow_le_pow_right (by norm_num) h6)
            have h8 : (2 ^ 149 : ℕ) < 2 ^ 23 * 2 ^ 127 := by norm_num
            omega
        · exact hse.resolve_left (by omega)
  have hm : magUnits a * magUnits x ≤ magUnits a * 2 ^ (e - 149) * 2 ^ 149 := by
    rw [mul_assoc, ← pow_add, show e - 149 + 149 = e by omega]
    exact Nat.mul_le_mul_left _ hxe
  obtain ⟨h1, h2⟩ := mul32_le hf (isFinite_of_feature hx) hr hm
  refine ⟨h1, ?_, h2⟩
  rw [realUnits, mul32_of_finite hf (isFinite_of_feature hx), signBit_pack, signBit_of_feature hx]
  cases hs : signBit a
  · simp
  · have h0 : magUnits a = 0 := by
      have := realUnits_of_inUnit ha
      rw [realUnits, if_pos hs] at this
      omega
    rw [h0, Nat.zero_mul, roundMag_zero, magUnits_withSign _ (by norm_num), unitsOfBits_zero]
    simp

/-- The weighted mean of two features of at most `2^e`, in the form of R203, R206 and R207, is a feature of at most
`2^e`: rounding cannot pass the power of two. -/
theorem blend_spec {a b x y : Word} {e : Nat} (he1 : 149 ≤ e) (he2 : e ≤ 252) (ha : inUnit a = true)
    (hb : isFeature b = true) (hb1 : magUnits b ≤ 2 ^ 149) (hab : magUnits a + magUnits b ≤ 2 ^ 149 + 2 ^ 124)
    (hx : isFeature x = true ∧ magUnits x ≤ 2 ^ e) (hy : isFeature y = true ∧ magUnits y ≤ 2 ^ e) :
    isFeature (add32 (mul32 a x) (mul32 b y)) = true ∧ magUnits (add32 (mul32 a x) (mul32 b y)) ≤ 2 ^ e := by
  have hbu : inUnit b = true := (inUnit_iff b).mpr ⟨isFinite_of_feature hb, by
    rw [realUnits_of_pos (signBit_of_feature hb)]
    omega⟩
  obtain ⟨p1, p2, p3⟩ := weighted_le he1 (by omega) ha hx.1 hx.2
  obtain ⟨q1, q2, q3⟩ := weighted_le he1 (by omega) hbu hy.1 hy.2
  have hq : signBit (mul32 b y) = false := signBit_mul32_of_features hb hy.1
  have hsum : magUnits (mul32 a x) + magUnits (mul32 b y) ≤ 2 ^ e + 2 ^ (e - 25) := by
    calc _ ≤ magUnits a * 2 ^ (e - 149) + magUnits b * 2 ^ (e - 149) := Nat.add_le_add p3 q3
      _ = (magUnits a + magUnits b) * 2 ^ (e - 149) := by ring
      _ ≤ (2 ^ 149 + 2 ^ 124) * 2 ^ (e - 149) := Nat.mul_le_mul_right _ hab
      _ = 2 ^ e + 2 ^ (e - 25) := by
        rw [Nat.add_mul, ← pow_add, ← pow_add, show 149 + (e - 149) = e by omega,
          show 124 + (e - 149) = e - 25 by omega]
  rw [add32_of_finite p1 q1]
  have e1 := natAbs_realUnits (mul32 a x)
  have e2 := natAbs_realUnits (mul32 b y)
  generalize realUnits (mul32 a x) = r1 at *
  generalize realUnits (mul32 b y) = r2 at *
  split_ifs with h0
  · rw [hq, Bool.and_false]
    exact ⟨by decide, by rw [show withSign false 0 = zero32 from rfl, magUnits_zero32]; exact Nat.zero_le _⟩
  · rw [decide_eq_false (by omega)]
    have hV : (r1 + r2).natAbs ≤ 2 ^ e + 2 ^ (e - 25) := by omega
    generalize (r1 + r2).natAbs = V at *
    have hrep : Rep (2 ^ e) := rep_pow (by omega)
    rcases Nat.lt_or_ge (2 ^ e) V with hgt | hle
    · have hpe : 2 ^ (e - 25) * 2 ^ 25 = 2 ^ e := by rw [← pow_add]; congr 1; omega
      obtain ⟨f1, _⟩ := pack_le (n := V) (d := 1) (u := 2 ^ (e + 1)) false one_pos (rep_pow (by omega))
        (by rw [pow_succ]; omega)
      have hfin : roundMag V 1 < 0x7F800000 := by
        have := (isFinite_iff _).mp f1
        rwa [magBits_withSign _ (roundMag_lt _ _)] at this
      refine ⟨(isFeature_iff _).mpr ⟨f1, signBit_pack _ _ _⟩, ?_⟩
      rw [magUnits_withSign _ (roundMag_lt _ _)]
      have hk : dropBits (V / 1) = e - 23 := by
        unfold dropBits
        rw [Nat.div_one]
        have h1 : Nat.log2 V < e + 1 := (Nat.log2_lt (by omega)).mpr (by rw [pow_succ]; omega)
        have h2 : e ≤ Nat.log2 V := (Nat.le_log2 (by omega)).mpr hgt.le
        omega
      have herr := (roundMag_error one_pos hfin).1
      have hu := roundMag_units hfin
      rw [hk, Nat.mul_one, Nat.one_mul] at herr
      rw [hk] at hu
      generalize unitsOfBits (roundMag V 1) = U at *
      rw [hu] at herr ⊢
      generalize roundHalfEven (V / (1 * 2 ^ (e - 23))) (V % (1 * 2 ^ (e - 23))) (1 * 2 ^ (e - 23)) = R at *
      have h23 : 2 ^ e = 2 ^ 23 * 2 ^ (e - 23) := by rw [← pow_add]; congr 1; omega
      have h25 : 2 ^ (e - 23) = 4 * 2 ^ (e - 25) := by
        rw [show e - 23 = 2 + (e - 25) by omega, pow_add]
        norm_num
      rw [h23]
      refine Nat.mul_le_mul_right _ ?_
      by_contra hcon
      have : (2 ^ 23 + 1) * 2 ^ (e - 23) ≤ R * 2 ^ (e - 23) := Nat.mul_le_mul_right _ (by omega)
      omega
    · obtain ⟨f1, f2⟩ := pack_le (n := V) (d := 1) false one_pos hrep (by omega)
      exact ⟨(isFeature_iff _).mpr ⟨f1, signBit_pack _ _ _⟩, f2⟩

/-! ### Interpolation and the filter -/

/-- The fraction of a frame's position is a weight (R203). -/
theorem frameFrac_inUnit {sr F k : Nat} (hF : 0 < F) :
    isFeature (frameFrac sr F k) = true ∧ magUnits (frameFrac sr F k) ≤ 2 ^ 149 := by
  refine rne32_feature_le (by omega) (rep_pow (by norm_num)) ?_
  rw [Nat.mul_comm (2 ^ 149)]
  exact Nat.mul_le_mul_right _ (Nat.mod_lt _ (by omega)).le

theorem inUnit_of_feature {w : Word} (h : isFeature w = true) (h1 : magUnits w ≤ 2 ^ 149) : inUnit w = true :=
  (inUnit_iff w).mpr ⟨isFinite_of_feature h, by
    rw [realUnits_of_pos (signBit_of_feature h)]
    omega⟩

/-- Interpolation keeps a bound `2^e` (R203). -/
theorem interpolate_spec {fr x0 x1 : Word} {e : Nat} (he1 : 149 ≤ e) (he2 : e ≤ 252)
    (hf : isFeature fr = true ∧ magUnits fr ≤ 2 ^ 149) (h0 : isFeature x0 = true ∧ magUnits x0 ≤ 2 ^ e)
    (h1 : isFeature x1 = true ∧ magUnits x1 ≤ 2 ^ e) :
    isFeature (interpolate fr x0 x1) = true ∧ magUnits (interpolate fr x0 x1) ≤ 2 ^ e := by
  obtain ⟨c1, c2, c3⟩ := complement_spec (inUnit_of_feature hf.1 hf.2)
  unfold interpolate
  rw [mul32_comm (isFinite_of_feature h0.1) (isFinite_of_feature c1),
    mul32_comm (isFinite_of_feature h1.1) (isFinite_of_feature hf.1)]
  exact blend_spec he1 he2 (inUnit_of_feature c1 c2) hf.1 hf.2 (by omega) h0 h1

/-- One pass of the filter keeps a bound `2^e` (R206). -/
theorem emaFrom_spec {lam : Word} {e : Nat} (he1 : 149 ≤ e) (he2 : e ≤ 252) (hl : inUnit lam = true) (xs : List Word)
    (prev : Word) (hp : isFeature prev = true ∧ magUnits prev ≤ 2 ^ e)
    (hx : ∀ v ∈ xs, isFeature v = true ∧ magUnits v ≤ 2 ^ e) :
    ∀ v ∈ emaFrom lam (sub32 one32 lam) prev xs, isFeature v = true ∧ magUnits v ≤ 2 ^ e := by
  obtain ⟨c1, c2, c3⟩ := complement_spec hl
  induction xs generalizing prev with
  | nil => simp [emaFrom]
  | cons x xs ih =>
    have hy := blend_spec he1 he2 hl c1 c2 c3 hp (hx x (by simp))
    intro v hv
    rw [emaFrom] at hv
    rcases List.mem_cons.mp hv with rfl | hv
    · exact hy
    · exact ih _ hy (fun u hu => hx u (by simp [hu])) v hv

theorem emaForward_spec {lam : Word} {e : Nat} (he1 : 149 ≤ e) (he2 : e ≤ 252) (hl : inUnit lam = true) (xs : List Word)
    (hx : ∀ v ∈ xs, isFeature v = true ∧ magUnits v ≤ 2 ^ e) :
    ∀ v ∈ emaForward lam (sub32 one32 lam) xs, isFeature v = true ∧ magUnits v ≤ 2 ^ e := by
  cases xs with
  | nil => simp [emaForward]
  | cons x xs =>
    intro v hv
    rw [emaForward] at hv
    rcases List.mem_cons.mp hv with rfl | hv
    · exact hx v (by simp)
    · exact emaFrom_spec he1 he2 hl xs x (hx x (by simp)) (fun u hu => hx u (by simp [hu])) v hv

/-- The filter keeps a bound `2^e` (R206, R207). -/
theorem smoothSeries_spec {lam : Word} {e : Nat} (he1 : 149 ≤ e) (he2 : e ≤ 252) (hl : inUnit lam = true)
    (xs : List Word) (hx : ∀ v ∈ xs, isFeature v = true ∧ magUnits v ≤ 2 ^ e) :
    ∀ v ∈ smoothSeries lam xs, isFeature v = true ∧ magUnits v ≤ 2 ^ e := by
  intro v hv
  unfold smoothSeries emaBackward at hv
  rw [List.mem_reverse] at hv
  refine emaForward_spec he1 he2 hl _ (fun u hu => ?_) v hv
  exact emaForward_spec he1 he2 hl xs hx u (List.mem_reverse.mp hu)

@[simp] theorem emaFrom_length (lam c prev : Word) (xs : List Word) : (emaFrom lam c prev xs).length = xs.length := by
  induction xs generalizing prev with
  | nil => rfl
  | cons x xs ih => simp [emaFrom, ih]

@[simp] theorem emaForward_length (lam c : Word) (xs : List Word) : (emaForward lam c xs).length = xs.length := by
  cases xs <;> simp [emaForward]

@[simp] theorem smoothSeries_length (lam : Word) (xs : List Word) : (smoothSeries lam xs).length = xs.length := by
  simp [smoothSeries, emaBackward]

/-- The start time of a frame of a configured stream (R201): a feature of at most 2^25 seconds. -/
theorem frameTime_spec {nsamp F sr k : Nat} (hF : 0 < F) (hsr : 1 ≤ sr) (hn : nsamp ≤ 2 ^ 24)
    (hk : k < nFrames nsamp F sr) : isFeature (frameTime F k) = true ∧ magUnits (frameTime F k) ≤ 2 ^ 174 := by
  refine rne32_feature_le hF (rep_pow (by norm_num)) ?_
  have h1 : (k + 1) * (2 * (2 ^ 149 * sr)) ≤ 2 * nsamp * F + 2 ^ 149 * sr := by
    have : k + 1 ≤ nFrames nsamp F sr := hk
    rwa [nFrames, Nat.le_div_iff_mul_le (by positivity)] at this
  have h2 : k * (2 ^ 149 * sr) ≤ nsamp * F := by nlinarith
  calc k * 2 ^ 149 * 2 ^ 149 ≤ k * (2 ^ 149 * sr) * 2 ^ 149 := by
        refine Nat.mul_le_mul_right _ (Nat.mul_le_mul_left _ ?_)
        exact Nat.le_mul_of_pos_right _ hsr
    _ ≤ nsamp * F * 2 ^ 149 := Nat.mul_le_mul_right _ h2
    _ ≤ 2 ^ 24 * F * 2 ^ 149 := Nat.mul_le_mul_right _ (Nat.mul_le_mul_right _ hn)
    _ ≤ 2 ^ 174 * F := by
      rw [mul_right_comm, ← pow_add]
      exact Nat.mul_le_mul_right _ (Nat.pow_le_pow_right (by norm_num) (by norm_num))

/-! ### Normalisation and the beat words -/

/-- The clamp of R210 and R214: whatever is no NaN comes out in [0, 1]. -/
theorem clamp_inUnit {v : Word} (hv : isNaN v = false) : inUnit (min32 one32 (max32 zero32 v)) = true := by
  obtain ⟨hm, h0, -⟩ := max32_spec (a := zero32) (by decide) hv
  have hn : isNaN (max32 zero32 v) = false := by
    rcases hm with h | h <;> rw [h]
    · decide
    · exact hv
  obtain ⟨hr, h1, -⟩ := min32_spec (a := one32) (by decide) hn
  rcases hr with h | h
  · rw [h]; decide
  · rw [h] at h1 ⊢
    have hz : realUnits zero32 = 0 := by decide
    have ho : realUnits one32 = 2 ^ 149 := by decide
    rw [hz] at h0
    rw [ho] at h1
    refine (inUnit_iff _).mpr ⟨isFinite_of_not hn ?_, h0, h1⟩
    rw [Bool.eq_false_iff, ne_eq, isInf_iff]
    intro hinf
    have := natAbs_realUnits (max32 zero32 v)
    rw [magUnits_eq, hinf, show unitsOfBits 0x7F800000 = 2 ^ 23 * 2 ^ 254 by decide] at this
    have hbig : (2 : Nat) ^ 149 < 2 ^ 23 * 2 ^ 254 := by norm_num
    generalize (2 : Nat) ^ 23 * 2 ^ 254 = B at *
    have h149 : ((2 ^ 149 : Nat) : Int) = 2 ^ 149 := by norm_num
    omega

/-- A normalised feature is in [0, 1] (R210). -/
theorem normalise_inUnit {v p : Word} (hv : isFeature v = true) (hp : isFeature p = true) :
    inUnit (normalise v p) = true := by
  unfold normalise
  split_ifs with h0
  · decide
  · refine clamp_inUnit ?_
    rw [div32_of_finite (isFinite_of_feature hv) (isFinite_of_feature hp) h0, Bool.eq_false_iff, ne_eq, isNaN_iff,
      magBits_withSign _ (roundMag_lt _ _)]
    exact not_lt.mpr (roundMag_le_inf _ _)

end Sys2Proof.Machine
end

