-- ==== Sys2Proof/Laws/OnsetTempo.lean ====
section
/-! SUPPORT. The detectors' functions: sorting, the median's bound and the threshold word, coalescing, and the choice of
the tempo's lag. -/

namespace Sys2Proof.Machine

/-! ### The median -/

theorem insertSorted_perm (v : Nat) (us : List Nat) : (insertSorted v us).Perm (v :: us) := by
  induction us with
  | nil => exact List.Perm.refl _
  | cons u us ih =>
    rw [insertSorted]
    split_ifs
    · exact List.Perm.refl _
    · exact (ih.cons u).trans (List.Perm.swap v u us)

theorem sortNat_perm (vs : List Nat) : (sortNat vs).Perm vs := by
  induction vs with
  | nil => exact List.Perm.refl _
  | cons v vs ih => exact (insertSorted_perm v _).trans (ih.cons v)

theorem insertSorted_pairwise (v : Nat) {us : List Nat} (h : us.Pairwise (· ≤ ·)) :
    (insertSorted v us).Pairwise (· ≤ ·) := by
  induction us with
  | nil => simp [insertSorted]
  | cons u us ih =>
    rw [List.pairwise_cons] at h
    rw [insertSorted]
    split_ifs with hvu
    · refine List.pairwise_cons.mpr ⟨fun w hw => ?_, List.pairwise_cons.mpr h⟩
      rcases List.mem_cons.mp hw with rfl | hw
      · exact hvu
      · exact le_trans hvu (h.1 w hw)
    · refine List.pairwise_cons.mpr ⟨fun w hw => ?_, ih h.2⟩
      rcases List.mem_cons.mp ((insertSorted_perm v us).mem_iff.mp hw) with rfl | hw
      · omega
      · exact h.1 w hw

theorem sortNat_pairwise (vs : List Nat) : (sortNat vs).Pairwise (· ≤ ·) := by
  induction vs with
  | nil => exact List.Pairwise.nil
  | cons v vs ih => exact insertSorted_pairwise v ih

theorem getD_le {vs : List Nat} {b : Nat} (h : ∀ v ∈ vs, v ≤ b) (i : Nat) : vs.getD i 0 ≤ b := by
  rcases Nat.lt_or_ge i vs.length with hi | hi
  · rw [List.getD_eq_getElem _ _ hi]
    exact h _ (List.getElem_mem hi)
  · rw [List.getD_eq_default _ _ hi]
    exact Nat.zero_le b

/-- Twice a median is at most twice a bound of the values. -/
theorem twiceMedian_le {ws : List Nat} {b : Nat} (h : ∀ w ∈ ws, w ≤ b) : twiceMedian ws ≤ 2 * b := by
  have h' : ∀ w ∈ sortNat ws, w ≤ b := fun w hw => h w ((sortNat_perm ws).mem_iff.mp hw)
  unfold twiceMedian
  simp only
  split_ifs
  · exact Nat.mul_le_mul_left 2 (getD_le h' _)
  · have h1 := getD_le h' ((sortNat ws).length / 2 - 1)
    have h2 := getD_le h' ((sortNat ws).length / 2)
    omega

theorem mem_of_mem_medianWindow {flux : List Nat} {i w : Nat} (h : w ∈ medianWindow flux i) : w ∈ flux :=
  List.mem_of_mem_drop (List.mem_of_mem_take h)

/-- The threshold word of bounded fluxes (R183) is a feature of at most twice the bound. -/
theorem thresholdWord_spec {flux : List Nat} {e : Nat} (he : e ≤ 275) (h : ∀ f ∈ flux, f ≤ 2 ^ e) (i : Nat) :
    isFeature (thresholdWord flux i) = true ∧ magUnits (thresholdWord flux i) ≤ 2 ^ (e + 1) := by
  have hm : twiceMedian (medianWindow flux i) ≤ 2 * 2 ^ e :=
    twiceMedian_le fun w hw => h w (mem_of_mem_medianWindow hw)
  obtain ⟨h1, h2⟩ := pack_le (n := 4 * twiceMedian (medianWindow flux i)) (d := 5) (u := 2 ^ (e + 1)) false
    (by norm_num) (rep_pow (by omega)) (by rw [pow_succ]; omega)
  exact ⟨(isFeature_iff _).mpr ⟨h1, signBit_pack _ _ _⟩, h2⟩

/-! ### Coalescing -/

theorem coalesce_sublist (sr : Nat) (last : Option Nat) (cs : List Nat) : (coalesce sr last cs).Sublist cs := by
  induction cs generalizing last with
  | nil => exact List.Sublist.refl _
  | cons c cs ih =>
    rw [coalesce]
    split_ifs
    · exact (ih _).cons_cons c
    · exact (ih _).cons c

/-- Kept onsets are far enough from the last onset kept before them and from each other (R184). -/
theorem coalesce_spaced (sr : Nat) (last : Option Nat) (cs : List Nat) (hc : cs.Pairwise (· < ·))
    (hl : ∀ l, last = some l → ∀ c ∈ cs, l < c) :
    (∀ l, last = some l → ∀ o ∈ coalesce sr last cs, 3 * sr ≤ (o - l) * 20480) ∧
      (coalesce sr last cs).Pairwise fun a b => 3 * sr ≤ (b - a) * 20480 := by
  induction cs generalizing last with
  | nil => simp [coalesce]
  | cons c cs ih =>
    rw [List.pairwise_cons] at hc
    rw [coalesce]
    split_ifs with hf
    · obtain ⟨h1, h2⟩ := ih (some c) hc.2 (fun l hl' d hd => by cases hl'; exact hc.1 d hd)
      refine ⟨fun l hlast o ho => ?_, List.pairwise_cons.mpr ⟨h1 c rfl, h2⟩⟩
      subst hlast
      have hfar : 3 * sr ≤ (c - l) * 20480 := by simpa [farEnough] using hf
      rcases List.mem_cons.mp ho with rfl | ho
      · exact hfar
      · have hco : c < o := hc.1 o ((coalesce_sublist sr (some c) cs).subset ho)
        have : c - l ≤ o - l := by omega
        nlinarith
    · exact ih last hc.2 (fun l hl' d hd => hl l hl' d (List.mem_cons_of_mem _ hd))

theorem onsetsOf_sublist (sr : Nat) (flux : List Nat) : (onsetsOf sr flux).Sublist (List.range flux.length) :=
  (coalesce_sublist sr none _).trans List.filter_sublist

theorem onsetsOf_length_le (sr : Nat) (flux : List Nat) : (onsetsOf sr flux).length ≤ flux.length := by
  simpa using (onsetsOf_sublist sr flux).length_le

theorem onsetsOf_lt {sr : Nat} {flux : List Nat} {o : Nat} (h : o ∈ onsetsOf sr flux) : o < flux.length :=
  List.mem_range.mp ((onsetsOf_sublist sr flux).subset h)

theorem onsetsOf_pairwise (sr : Nat) (flux : List Nat) : (onsetsOf sr flux).Pairwise (· < ·) :=
  List.pairwise_lt_range.sublist (onsetsOf_sublist sr flux)

/-! ### The tempo's lag -/

theorem mem_lags {sr l : Nat} : l ∈ lags sr ↔ lagMin sr ≤ l ∧ l ≤ lagMax sr := by
  unfold lags
  rw [List.mem_range'_1]
  omega

theorem bestLag_mem (R : Nat → Nat) (best : Nat) (ls : List Nat) : bestLag R best ls ∈ best :: ls := by
  induction ls generalizing best with
  | nil => simp [bestLag]
  | cons l ls ih =>
    rw [bestLag]
    have := ih (if R best < R l then l else best)
    split_ifs at this ⊢ <;> simp only [List.mem_cons] at * <;> tauto

theorem tempoLagOf_mem {R : Nat → Nat} {ls : List Nat} {l : Nat} (h : tempoLagOf R ls = some l) : l ∈ ls := by
  cases ls with
  | nil => simp [tempoLagOf] at h
  | cons a as =>
    simp only [tempoLagOf] at h
    split_ifs at h
    cases h
    exact bestLag_mem R a as

/-- A found lag is positive and fits ACORR (R186, R190). -/
theorem tempoLagOf_bounds {R : Nat → Nat} {sr l : Nat} (h1 : 1 ≤ sr) (h2 : sr ≤ 192000)
    (h : tempoLagOf R (lags sr) = some l) : 1 ≤ l ∧ l ≤ 187 := by
  obtain ⟨h3, h4⟩ := mem_lags.mp (tempoLagOf_mem h)
  unfold lagMin at h3
  unfold lagMax at h4
  omega

end Sys2Proof.Machine
end

