-- ==== Sys2Proof/Laws/PerInstr.lean ====
section
/-! SUPPORT. The opcode field of every command's word, one lemma for each command (30_encoding.md R101, R103). -/

namespace Sys2Proof.Laws.OpcodeField

/-- The `OP` field of the command's word is the command's opcode, whatever its operand. -/
def Statement (i : Instr) : Prop := opField (encode i) = opcodeOf i

theorem nop : Statement .nop := rfl
theorem config : Statement .config := rfl

theorem spectrum (h : Nat) : Statement (.spectrum h) := by
  show ((BitVec.ofNat 32 (h * 256 + 2)).extractLsb' 0 8).toNat = 2
  rw [BitVec.extractLsb'_toNat, BitVec.toNat_ofNat, Nat.shiftRight_zero]
  omega

theorem analyze : Statement .analyze := rfl
theorem onset : Statement .onset := rfl
theorem tempo : Statement .tempo := rfl
theorem resample : Statement .resample := rfl
theorem smooth : Statement .smooth := rfl
theorem normalize : Statement .normalize := rfl
theorem beat : Statement .beat := rfl
theorem run : Statement .run := rfl

end Sys2Proof.Laws.OpcodeField
end

