-- ==== Sys2Proof/Laws/Records.lean ====
section
/-! SUPPORT. What stands in the buffers after each command's writes, read word by word: inside the records the command's
words, everywhere else what stood there before. -/

namespace Sys2Proof.Machine

/-! ### Records of equal length -/

theorem flatMap_range_length {α : Type} {f : Nat → List α} {l : Nat} (n : Nat) (hf : ∀ k, (f k).length = l) :
    ((List.range n).flatMap f).length = l * n := by
  induction n with
  | zero => simp
  | succ n ih => rw [List.range_succ, List.flatMap_append, List.length_append, ih, List.flatMap_singleton, hf, Nat.mul_succ]

theorem flatMap_range_getElem? {α : Type} {f : Nat → List α} {l : Nat} {n k j : Nat} (hf : ∀ k, (f k).length = l)
    (hk : k < n) (hj : j < l) : ((List.range n).flatMap f)[l * k + j]? = (f k)[j]? := by
  induction n with
  | zero => omega
  | succ n ih =>
    rw [List.range_succ, List.flatMap_append, List.flatMap_singleton]
    have hlen := flatMap_range_length (α := α) n hf
    rcases Nat.lt_or_ge k n with h | h
    · have hlt : l * k + j < l * n := by
        have : l * (k + 1) ≤ l * n := Nat.mul_le_mul_left l h
        rw [Nat.mul_succ] at this
        omega
      rw [List.getElem?_append_left (by omega), ih h]
    · have hkn : k = n := by omega
      subst hkn
      rw [List.getElem?_append_right (by omega), hlen, Nat.add_sub_cancel_left]

/-- Storing the records `f 0` to `f (n − 1)`, each of `l` words, from index 0 on: their words inside, every other index as
before. -/
theorem Memory.read_records (m : Memory) {id : BufId} (hid : id ≠ .hann) {f : Nat → List Word} {l n : Nat}
    (hf : ∀ k, (f k).length = l) (i : Nat) :
    (∀ k j, i = l * k + j → k < n → j < l →
      (m.writeCells id (cellsFrom 0 ((List.range n).flatMap f))).read id i = (f k)[j]?) ∧
    (l * n ≤ i → (m.writeCells id (cellsFrom 0 ((List.range n).flatMap f))).read id i = m.read id i) := by
  have hlen := flatMap_range_length (α := Word) n hf
  constructor
  · rintro k j rfl hk hj
    have hlt : l * k + j < ((List.range n).flatMap f).length := by
      rw [hlen]
      have : l * (k + 1) ≤ l * n := Nat.mul_le_mul_left l hk
      rw [Nat.mul_succ] at this
      omega
    rw [Memory.read_writeCells_cellsFrom m hid, dif_pos ⟨Nat.zero_le _, by simpa using hlt⟩,
      ← flatMap_range_getElem? hf hk hj, List.getElem?_eq_getElem hlt]
    simp
  · intro hi
    rw [Memory.read_writeCells_cellsFrom m hid, dif_neg]
    rw [hlen]
    omega

/-- Storing a list from index 0 on, as reads. -/
theorem Memory.read_list (m : Memory) {id : BufId} (hid : id ≠ .hann) (vs : List Word) (i : Nat) :
    (m.writeCells id (cellsFrom 0 vs)).read id i = if i < vs.length then vs[i]? else m.read id i := by
  rw [Memory.read_writeCells_cellsFrom m hid]
  by_cases h : i < vs.length
  · rw [dif_pos ⟨Nat.zero_le _, by simpa using h⟩, if_pos h, List.getElem?_eq_getElem h]
    simp
  · rw [dif_neg (by omega), if_neg h]

/-! ### SPECTRUM and ANALYZE -/

theorem windowed_length {sym : Bool} {x : List Word} (h : x.length = 2048) : (windowed sym x).length = 2048 := by
  rw [windowed, List.length_zipWith, List.length_map, List.length_range, h, Nat.min_self]

/-- The words SPECTRUM leaves (R155): MAG and WAVE of its window. -/
theorem State.withSpectrum_read (s : State) {w : List Word} (hw : w.length = 2048) (b : BufId) (i : Nat) :
    (s.withSpectrum w).mem.read b i =
      if b = .mag ∧ i < 1025 then (fftmag w)[i]?
      else if b = .wave ∧ i < 512 then (waveform w)[i]? else s.mem.read b i := by
  have h1 := fftmag_length w
  have h2 : (waveform w).length = 512 := by rw [waveform_length, hw]
  rw [State.withSpectrum_mem]
  by_cases hb : b = .wave
  · subst hb
    rw [Memory.read_list _ (by decide), h2, Memory.read_writeCells_ne _ _ _ (by decide)]
    simp
  · rw [Memory.read_writeCells_ne _ _ _ hb]
    by_cases hm : b = .mag
    · subst hm
      rw [Memory.read_list _ (by decide), h1]
      simp
    · rw [Memory.read_writeCells_ne _ _ _ hm]
      simp [hb, hm]

theorem HopRecord.words_length (r : HopRecord) : r.words.length = 12 := rfl

/-- The words ANALYZE leaves in HOPF (R157). -/
theorem State.analyzed_hopf (s : State) (xs : List Word) (f : Nat → HopRecord) (n i : Nat) :
    (∀ h j, i = 12 * h + j → h < n → j < 12 →
      (s.analyzed xs ((List.range n).map f)).mem.read .hopf i = (f h).words[j]?) ∧
    (12 * n ≤ i → (s.analyzed xs ((List.range n).map f)).mem.read .hopf i = s.mem.read .hopf i) := by
  have hm : (s.analyzed xs ((List.range n).map f)).mem.read .hopf i =
      (s.mem.writeCells .hopf (cellsFrom 0 ((List.range n).flatMap fun h => (f h).words))).read .hopf i := by
    rw [show (s.analyzed xs ((List.range n).map f)).mem =
      ((s.putCells .hopf (cellsFrom 0 (((List.range n).map f).flatMap HopRecord.words))).withSpectrum
        (windowed s.hannSym (hopWindow xs (s.nhops.toNat - 1)))).mem by cases s; rfl,
      State.withSpectrum_read _ (windowed_length (hopWindow_length _ _)), if_neg (by simp), if_neg (by simp),
      State.putCells_mem, List.flatMap_map]
  rw [hm]
  exact Memory.read_records s.mem (by decide) (fun h => HopRecord.words_length (f h)) i

/-- The words ANALYZE leaves in every other buffer (R158). -/
theorem State.analyzed_read (s : State) (xs : List Word) (rs : List HopRecord) {b : BufId} (hb : b ≠ .hopf) (i : Nat) :
    (s.analyzed xs rs).mem.read b i =
      if b = .mag ∧ i < 1025 then (fftmag (windowed s.hannSym (hopWindow xs (s.nhops.toNat - 1))))[i]?
      else if b = .wave ∧ i < 512 then (waveform (windowed s.hannSym (hopWindow xs (s.nhops.toNat - 1))))[i]?
      else s.mem.read b i := by
  rw [show (s.analyzed xs rs).mem =
    ((s.putCells .hopf (cellsFrom 0 (rs.flatMap HopRecord.words))).withSpectrum
      (windowed s.hannSym (hopWindow xs (s.nhops.toNat - 1)))).mem by cases s; rfl,
    State.withSpectrum_read _ (windowed_length (hopWindow_length _ _)), State.putCells_mem,
    Memory.read_writeCells_ne _ _ _ hb]

/-! ### ONSET and TEMPO -/

theorem nodup_strided {l j n : Nat} (hl : 0 < l) (f : Nat → Word) :
    ((((List.range n).map fun i => (l * i + j, f i)) : List (Nat × Word)).map Prod.fst).Nodup := by
  rw [List.map_map]
  refine (List.nodup_range).map fun a b h => ?_
  simp only [Function.comp_apply] at h
  exact Nat.eq_of_mul_eq_mul_left hl (by omega)

/-- The words ONSET leaves (R185). -/
theorem State.withOnsets_read (s : State) {flux : List Nat} (hf : flux.length = s.nhops.toNat) (b : BufId) (i : Nat) :
    (∀ h, b = .hopf → i = 12 * h + 11 → h < s.nhops.toNat →
      (s.withOnsets flux).mem.read b i = some (thresholdWord flux h)) ∧
    (b = .onset → i < s.nhops.toNat →
      (s.withOnsets flux).mem.read b i = some (word ((onsetsOf s.sr.toNat flux).getD i 0))) ∧
    (¬(b = .hopf ∧ i < 12 * s.nhops.toNat ∧ i % 12 = 11) → ¬(b = .onset ∧ i < s.nhops.toNat) →
      (s.withOnsets flux).mem.read b i = s.mem.read b i) := by
  have hm : (s.withOnsets flux).mem =
      (s.mem.writeCells .hopf ((List.range s.nhops.toNat).map fun h => (12 * h + 11, thresholdWord flux h))).writeCells
        .onset (cellsFrom 0 ((onsetsOf s.sr.toNat flux).map word ++
          List.replicate (s.nhops.toNat - (onsetsOf s.sr.toNat flux).length) 0)) := by cases s; rfl
  have hle : (onsetsOf s.sr.toNat flux).length ≤ s.nhops.toNat := hf ▸ onsetsOf_length_le _ _
  generalize hn : s.nhops.toNat = n at *
  generalize onsetsOf s.sr.toNat flux = ons at *
  have hlen : (ons.map word ++ List.replicate (n - ons.length) (0 : Word)).length = n := by
    simp
    omega
  rw [hm]
  refine ⟨?_, ?_, ?_⟩
  · rintro h rfl rfl hh
    rw [Memory.read_writeCells_ne _ _ _ (by decide)]
    exact Memory.read_writeCells_of_mem _ (by decide) _ (nodup_strided (by norm_num) _)
      (List.mem_map.mpr ⟨h, List.mem_range.mpr hh, rfl⟩)
  · rintro rfl hi
    rw [Memory.read_list _ (by decide), hlen, if_pos hi]
    rcases Nat.lt_or_ge i ons.length with h | h
    · rw [List.getElem?_append_left (by simpa using h), List.getElem?_map, List.getElem?_eq_getElem h,
        List.getD_eq_getElem _ _ h]
      rfl
    · rw [List.getElem?_append_right (by simpa using h), List.getElem?_replicate, if_pos (by simp; omega),
        List.getD_eq_default _ _ h]
      rfl
  · intro h1 h2
    by_cases hb : b = .onset
    · subst hb
      rw [Memory.read_list _ (by decide), hlen, if_neg (fun h => h2 ⟨rfl, h⟩), Memory.read_writeCells_ne _ _ _ (by decide)]
    · rw [Memory.read_writeCells_ne _ _ _ hb]
      by_cases hh : b = .hopf
      · subst hh
        refine Memory.read_writeCells_of_not_mem _ _ _ _ fun c hc e => ?_
        obtain ⟨h, hr, rfl⟩ := List.mem_map.mp hc
        have := List.mem_range.mp hr
        simp only at e
        exact h1 ⟨rfl, by omega, by omega⟩
      · rw [Memory.read_writeCells_ne _ _ _ hh]

/-- The words TEMPO leaves (R191). -/
theorem State.withTempo_read (s : State) (ons : List Nat) (b : BufId) (i : Nat) :
    (s.withTempo ons).mem.read b i = if b = .acorr ∧ i < 256
      then some (acorrWord s.sr.toNat (autocorr ons s.nhops.toNat) i) else s.mem.read b i := by
  rw [State.withTempo_mem]
  by_cases hb : b = .acorr
  · subst hb
    have hlen : (acorrWords s.sr.toNat (autocorr ons s.nhops.toNat)).length = 256 := by
      rw [acorrWords, List.length_map, List.length_range]
    rw [Memory.read_list _ (by decide), hlen]
    by_cases hi : i < 256
    · rw [if_pos hi, if_pos ⟨rfl, hi⟩, acorrWords, List.getElem?_map, List.getElem?_range hi]
      rfl
    · rw [if_neg hi, if_neg (fun h => hi h.2)]
  · rw [Memory.read_writeCells_ne _ _ _ hb, if_neg (fun h => hb h.1)]

/-! ### The frame commands -/

theorem frameRecord_length (s : State) (k : Nat) : (frameRecord s k).length = 16 := by
  simp [frameRecord]

/-- The words RESAMPLE leaves (R205). -/
theorem State.resampled_read (s : State) (b : BufId) (i : Nat) :
    (∀ k j, b = .frame → i = 16 * k + j → k < s.nframes.toNat → j < 16 →
      s.resampled.mem.read b i = (frameRecord s k)[j]?) ∧
    (¬(b = .frame ∧ i < 16 * s.nframes.toNat) → s.resampled.mem.read b i = s.mem.read b i) := by
  rw [State.resampled_mem]
  constructor
  · rintro k j rfl hi hk hj
    exact (Memory.read_records s.mem (by decide) (frameRecord_length s) i).1 k j hi hk hj
  · intro h
    by_cases hb : b = .frame
    · subst hb
      exact (Memory.read_records s.mem (by decide) (frameRecord_length s) i).2 (by
        by_contra hlt
        exact h ⟨rfl, by omega⟩)
    · rw [Memory.read_writeCells_ne _ _ _ hb]

theorem mem_frameSeriesCells {nf : Nat} {f : Nat → Nat → Word} {c : Nat × Word} :
    c ∈ frameSeriesCells nf f ↔ ∃ k i, k < nf ∧ i < 10 ∧ c = (16 * k + 2 + i, f k i) := by
  simp only [frameSeriesCells, List.mem_flatMap, List.mem_range, List.mem_map, seriesFrameWord]
  constructor
  · rintro ⟨k, hk, i, hi, rfl⟩
    exact ⟨k, i, hk, hi, by rw [Nat.add_assoc]⟩
  · rintro ⟨k, i, hk, hi, rfl⟩
    exact ⟨k, hk, i, hi, by rw [Nat.add_assoc]⟩

/-- Cells of records of distinct indices have distinct indices. -/
theorem nodup_flatMap_records {n : Nat} {f : Nat → List (Nat × Word)} (h1 : ∀ k, ((f k).map Prod.fst).Nodup)
    (h2 : ∀ k, ∀ c ∈ f k, 16 * k ≤ c.1 ∧ c.1 < 16 * k + 16) : (((List.range n).flatMap f).map Prod.fst).Nodup := by
  induction n with
  | zero => simp
  | succ n ih =>
    rw [List.range_succ, List.flatMap_append, List.flatMap_singleton, List.map_append, List.nodup_append]
    refine ⟨ih, h1 n, fun a ha b hb e => ?_⟩
    obtain ⟨c, hc, rfl⟩ := List.mem_map.mp ha
    obtain ⟨d, hd, rfl⟩ := List.mem_map.mp hb
    obtain ⟨k, hk, hck⟩ := List.mem_flatMap.mp hc
    have hk' := List.mem_range.mp hk
    have := h2 k c hck
    have := h2 n d hd
    omega

theorem nodup_frameSeriesCells (nf : Nat) (f : Nat → Nat → Word) :
    ((frameSeriesCells nf f).map Prod.fst).Nodup := by
  refine nodup_flatMap_records (fun k => ?_) (fun k c hc => ?_)
  · rw [List.map_map]
    refine (List.nodup_range).map fun a b h => ?_
    simp only [Function.comp_apply, seriesFrameWord] at h
    omega
  · obtain ⟨i, hi, rfl⟩ := List.mem_map.mp hc
    have := List.mem_range.mp hi
    simp only [seriesFrameWord]
    omega

/-- Storing the ten series words of every frame record: those words inside, every other word as before (R208, R211). -/
theorem Memory.read_frameSeries (m : Memory) (nf : Nat) (f : Nat → Nat → Word) (b : BufId) (j : Nat) :
    (∀ k i, b = .frame → j = 16 * k + 2 + i → k < nf → i < 10 →
      (m.writeCells .frame (frameSeriesCells nf f)).read b j = some (f k i)) ∧
    (¬(b = .frame ∧ j < 16 * nf ∧ 2 ≤ j % 16 ∧ j % 16 ≤ 11) →
      (m.writeCells .frame (frameSeriesCells nf f)).read b j = m.read b j) := by
  constructor
  · rintro k i rfl rfl hk hi
    exact Memory.read_writeCells_of_mem m (by decide) _ (nodup_frameSeriesCells nf f)
      (mem_frameSeriesCells.mpr ⟨k, i, hk, hi, rfl⟩)
  · intro h
    by_cases hb : b = .frame
    · subst hb
      refine Memory.read_writeCells_of_not_mem m _ _ _ fun c hc e => ?_
      obtain ⟨k, i, hk, hi, rfl⟩ := mem_frameSeriesCells.mp hc
      simp only at e
      exact h ⟨rfl, by omega, by omega, by omega⟩
    · rw [Memory.read_writeCells_ne _ _ _ hb]

/-- The words BEAT leaves (R216). -/
theorem State.withBeats_read (s : State) (ons : List Nat) (b : BufId) (j : Nat) :
    (∀ k, b = .frame → k < s.nframes.toNat →
      (j = 16 * k + 12 → (s.withBeats ons).mem.read b j = some (beatIntensity s.sr.toNat s.fpsUnits ons k)) ∧
      (j = 16 * k + 13 → (s.withBeats ons).mem.read b j = some (beatPhase s.sr.toNat s.fpsUnits s.foundLag ons k)) ∧
      (j = 16 * k + 14 → (s.withBeats ons).mem.read b j = some (isBeat s.sr.toNat s.fpsUnits ons k))) ∧
    (¬(b = .frame ∧ j < 16 * s.nframes.toNat ∧ 12 ≤ j % 16 ∧ j % 16 ≤ 14) →
      (s.withBeats ons).mem.read b j = s.mem.read b j) := by
  rw [State.withBeats_mem]
  have hnd : (((List.range s.nframes.toNat).flatMap (beatCells s ons)).map Prod.fst).Nodup := by
    refine nodup_flatMap_records (fun k => ?_) (fun k c hc => ?_)
    · simp [beatCells]
    · simp only [beatCells, List.mem_cons, List.not_mem_nil, or_false] at hc
      rcases hc with rfl | rfl | rfl <;> simp
  constructor
  · rintro k rfl hk
    have hmem : ∀ c ∈ beatCells s ons k, c ∈ (List.range s.nframes.toNat).flatMap (beatCells s ons) :=
      fun c hc => List.mem_flatMap.mpr ⟨k, List.mem_range.mpr hk, hc⟩
    refine ⟨?_, ?_, ?_⟩ <;> rintro rfl <;>
      exact Memory.read_writeCells_of_mem _ (by decide) _ hnd (hmem _ (by simp [beatCells]))
  · intro h
    by_cases hb : b = .frame
    · subst hb
      refine Memory.read_writeCells_of_not_mem _ _ _ _ fun c hc e => ?_
      obtain ⟨k, hk, hck⟩ := List.mem_flatMap.mp hc
      have hk' := List.mem_range.mp hk
      simp only [beatCells, List.mem_cons, List.not_mem_nil, or_false] at hck
      apply h
      rcases hck with rfl | rfl | rfl <;> simp only at e <;> exact ⟨rfl, by omega, by omega, by omega⟩
    · rw [Memory.read_writeCells_ne _ _ _ hb]

end Sys2Proof.Machine
end

