-- ==== Sys2Proof/Machine/HostProgram.lean ====
section
/-! DEFINITION. Host programs as event lists: the statements and pseudo-instructions of 30_encoding.md R108 to R110. The
text itself (decimal and hexadecimal literals, comments) is the assembler's and has no meaning for the engine. -/

namespace Sys2Proof.Machine

/-- The byte offset of a register (10_state.md register table). -/
def offsetOf : Reg → Nat
  | .id => 0x000
  | .ctrl => 0x004
  | .status => 0x008
  | .cmd => 0x00C
  | .irqEn => 0x010
  | .paramPmax => 0x014
  | .paramFmax => 0x018
  | .sr => 0x020
  | .nsamp => 0x024
  | .fps => 0x028
  | .smooth => 0x02C
  | .nhops => 0x030
  | .nframes => 0x034
  | .onsetCount => 0x038
  | .tempoLag => 0x03C
  | .tempoBpm => 0x040
  | .peakAmp => 0x044
  | .peakRms => 0x048
  | .peakFlux => 0x04C
  | .peakBand b => 0x050 + 4 * b
  | .bufSel => 0x080
  | .bufIdx => 0x084
  | .bufData => 0x088
  | .bufCap => 0x08C

/-- `wr NAME, VALUE` (R108). -/
def wr (r : Reg) (v : Word) : List Event := [.write 4 (BitVec.ofNat 12 (offsetOf r)) v]

/-- `rd NAME` (R108). -/
def rd (r : Reg) : List Event := [.read 4 (BitVec.ofNat 12 (offsetOf r))]

/-- `cmd MNEMONIC [ARG]` (R108); the assembler takes only commands that have a word (R109). -/
def cmd (i : Instr) : List Event := wr .cmd (encode i)

/-- `wait` (R110): `STATUS` is read until BUSY is 0, so the engine's turn comes before the read that ends it. DESIGN
CHOICE (log 25): how many reads find BUSY 1 before that turn is unspecified but finite (I17, R284), and this list has none
of them. A wait with `n` of them is `n` copies of `rd .status` before this list. -/
def wait : List Event := .engine :: rd .status

/-- `exec MNEMONIC [ARG]` (R110), with the `wait` of log 25. -/
def cmdWait (i : Instr) : List Event := cmd i ++ wait

/-- `ack` (R110, R249). -/
def ack : List Event := wr .status 0x0000000E

/-- `sel B, I` (R110). -/
def sel (b : Word) (i : Word) : List Event := wr .bufSel b ++ wr .bufIdx i

/-- `load_pcm I, v0, …, vn` (R110). -/
def loadPcm (i : Word) (vs : List Word) : List Event := sel 0 i ++ vs.flatMap (wr .bufData)

/-- `fill_pcm I, COUNT, V` (R110). -/
def fillPcm (i : Word) (count : Nat) (v : Word) : List Event := loadPcm i (List.replicate count v)

/-- `read_buf B, I, COUNT` (R110). -/
def readBuf (b i : Word) (count : Nat) : List Event := sel b i ++ (List.replicate count ()).flatMap fun _ => rd .bufData

end Sys2Proof.Machine
end

