-- ==== Sys2Proof/Tests/Slice0.lean ====
section
/-! SUPPORT. Tests whose expected values are the spec's (95_test_vectors.md, or worked out from the rules), and for every
statement with hypotheses a state and operands that meet them all. -/

namespace Sys2Proof.Machine

/-- A step answers this next state. -/
def nextIs (o : Host.Outcome State Fault Refusal) (t : State) : Bool :=
  match o with
  | .next u => decide (u = t)
  | .fault _ | .refused _ => false

/-! ### Well-formed commands (30_encoding.md R102, R109) -/

theorem test_wf_spectrum_too_large : (Instr.spectrum 0x1000000).wellFormed = false := by decide
theorem test_wf_spectrum_largest : (Instr.spectrum 0xFFFFFF).wellFormed = true := by decide

/-! ### Command words written out from the opcode map (R103); 95_test_vectors.md section 2 -/

theorem test_word_nop : decode 0x00000000 = .ok .nop := by decide
theorem test_word_config : decode 0x00000001 = .ok .config := by decide
theorem test_word_spectrum_43 : decode 0x00002B02 = .ok (.spectrum 43) := by decide
theorem test_word_spectrum_largest : decode 0xFFFFFF02 = .ok (.spectrum 0xFFFFFF) := by decide
theorem test_word_analyze : decode 0x00000003 = .ok .analyze := by decide
theorem test_word_onset : decode 0x00000004 = .ok .onset := by decide
theorem test_word_tempo : decode 0x00000005 = .ok .tempo := by decide
theorem test_word_resample : decode 0x00000006 = .ok .resample := by decide
theorem test_word_smooth : decode 0x00000007 = .ok .smooth := by decide
theorem test_word_normalize : decode 0x00000008 = .ok .normalize := by decide
theorem test_word_beat : decode 0x00000009 = .ok .beat := by decide
theorem test_word_run : decode 0x0000000A = .ok .run := by decide
theorem test_word_first_reserved : decode 0x0000000B = .error (.reservedOpcode 0x0B) := by decide
theorem test_word_last_reserved : decode 0x000000FF = .error (.reservedOpcode 0xFF) := by decide
theorem test_word_nop_with_arg : decode 0x00000100 = .error (.nonzeroArg 0) := by decide
theorem test_word_analyze_with_arg : decode 0x80000003 = .error (.nonzeroArg 3) := by decide
theorem test_encode_spectrum : encode (.spectrum 5) = 0x00000502 := by decide
theorem test_table_word : decodeTableWord 32 0x502 = some (.spectrum 5) := by decide

/-! ### Steps from reset -/

/-- R124's example: NOP leaves STATUS 0x00000002. -/
theorem test_step_nop : nextIs (step (State.reset.withFetchWord 32 0x00)) { State.reset with done := true } = true := by decide

/-- R275: a host that sets nothing gets ERR_PARAM from CONFIG. -/
theorem test_step_config_at_reset :
    nextIs (step (State.reset.withFetchWord 32 0x01)) { State.reset with error := some .param } = true := by decide

theorem test_step_spectrum_at_reset :
    nextIs (step (State.reset.withFetchWord 32 0x02)) { State.reset with error := some .seq } = true := by decide

theorem test_step_analyze_at_reset :
    nextIs (step (State.reset.withFetchWord 32 0x03)) { State.reset with error := some .seq } = true := by decide

theorem test_step_run_at_reset :
    nextIs (step (State.reset.withFetchWord 32 0x0A)) { State.reset with error := some .param } = true := by decide

theorem test_step_reserved_opcode :
    nextIs (step (State.reset.withFetchWord 32 0x0B)) { State.reset with error := some .badCmd } = true := by decide

/-- STATUS after a failed CONFIG (95_test_vectors.md 3.1). -/
theorem test_status_after_param_error : statusWord { State.reset with error := some .param } = 0x00000304 := by decide

/-! ### Values of 95_test_vectors.md -/

/-- 3.1: counts of `NSAMP = 44100` at 30 frames per second, and the halves that round up. -/
theorem test_counts : nHops 44100 = 44 ∧ nFrames 44100 (magUnits 0x41F00000) 44100 = 30 ∧
    nFrames 735 (magUnits 0x41F00000) 44100 = 1 ∧ nFrames 734 (magUnits 0x41F00000) 44100 = 0 := by decide

/-- 3.1: validity of frame rates and smoothing factors. -/
theorem test_validity : validFps 0x80000000 = false ∧ validFps 0x7F800000 = false ∧ validFps 0x7FC00000 = false ∧
    validFps 0x00000001 = true ∧ validSmooth 0x80000000 = true ∧ validSmooth 0x3F800000 = true ∧
    validSmooth 0x3F800001 = false ∧ validSmooth 0x7FC00000 = false := by decide

/-- 3.2: PCM legality. -/
theorem test_legal : legalSample 0x80000000 = true ∧ legalSample 0xBF800000 = true ∧ legalSample 0x3F800001 = false ∧
    legalSample 0xFF800000 = false ∧ legalSample 0x7FC00000 = false := by decide

/-- 3.1: the edges of the bands at 44100 Hz and the empty bands. -/
theorem test_band_edges : inBand 44100 6 928 = true ∧ inBand 44100 6 929 = false ∧ inBand 44100 0 1 = true ∧
    inBand 44100 0 0 = false ∧ inBand 8000 5 1024 = true ∧ inBand 192000 0 1 = false := by decide

/-- 3.2: the frequency of bin 928 at 44100 Hz. -/
theorem test_bin_frequency : binFreq 44100 928 = 0x469C1DA0 := by decide

/-- R153: a point of the waveform of an impulse of 1.0. -/
theorem test_waveform : waveform [one32, zero32, zero32, zero32] = [0x3E800000] := by decide

/-- 3.3, first row. -/
theorem test_onset_example : onsetsOf 44100 [0, 3 * 2 ^ 149, 2 ^ 149, 2 ^ 149] = [1] ∧
    thresholdWord [0, 3 * 2 ^ 149, 2 ^ 149, 2 ^ 149] 0 = 0x3FCCCCCD := by decide

/-- 3.3, last row: coalescing drops hops 6 and 13. -/
theorem test_onset_coalescing : onsetsOf 44100 [1, 0, 0, 0, 0, 0, 1, 1, 0, 0, 0, 0, 0, 1] = [0, 7] := by decide

/-- 3.4, second row: ties go to the smallest lag. -/
theorem test_tempo_tie : tempoLagOf (autocorr [0, 15, 35] 40) (lags 44100) = some 15 := by decide +kernel

/-- R190's example. -/
theorem test_tempo_example : tempoLagOf (autocorr [0, 20, 40, 60] 61) (lags 44100) = some 20 ∧
    bpmWord 44100 20 = 0x43013300 := by decide +kernel

/-- R205's example: frame 1 at 30 frames per second. -/
theorem test_resample_example : framePos 44100 (magUnits 0x41F00000) 1 = 1 ∧
    frameFrac 44100 (magUnits 0x41F00000) 1 = 0x3EDF0000 ∧ frameTime (magUnits 0x41F00000) 1 = 0x3D088889 := by decide

/-- 3.6, second row. -/
theorem test_smooth_example : smoothSeries 0x3F59999A [zero32, one32, zero32, zero32] =
    [0x3DCBC5EC, 0x3DEFBBAC, 0x3DE3D3C2, 0x3DDDF3B5] := by decide +kernel

/-- 3.6, first row. -/
theorem test_smooth_half : smoothSeries 0x3F000000 [zero32, one32, zero32, zero32] =
    [0x3E300000, 0x3EB00000, 0x3E400000, 0x3E000000] := by decide +kernel

/-- 3.7: the rows that divide, that clamp and that have a zero peak. -/
theorem test_normalize_example : normalise 0x3C316D4E 0x3C9A8293 = 0x3F12FC25 ∧
    normalise 0x43DC0000 0x46AC4400 = 0x3CA377EE ∧ normalise 0x46AC4401 0x46AC4400 = 0x3F800000 ∧
    normalise 0x40400000 0 = 0 := by decide

/-- R216's example: frame 1 of the click train. -/
theorem test_beat_example : beatPhase 44100 (magUnits 0x42700000) (some 43) [0, 43, 86, 129, 172] 1 = 0x3C88BE83 ∧
    isBeat 44100 (magUnits 0x42700000) [0, 43, 86, 129, 172] 1 = 0 ∧
    isBeat 44100 (magUnits 0x42700000) [0, 43, 86, 129, 172] 0 = one32 := by decide

/-! ### The host interface -/

/-- R108, R110: a program of host accesses, `exec nop`, run to its last read. -/
theorem test_program_nop : ∃ t, Host.Core.run core 3 { State.reset with inputs := cmdWait .nop } = .next t ∧
    t.readData = some 0x00000002 := ⟨_, rfl, by decide⟩

/-- R80: a port read at the capacity of MAG records ERR_BUFACC and returns 0. -/
theorem test_port_read_out_of_range :
    nextIs (hostRead { State.reset with bufSel := 1, bufIdx := 1025 } 4 0x088)
      { State.reset with bufSel := 1, bufIdx := 1025, error := some .bufAcc, readData := some 0 } = true := by decide

/-- R81: a port write of another buffer than PCM records ERR_BUFACC. -/
theorem test_port_write_read_only :
    nextIs (hostWrite { State.reset with bufSel := 2 } 4 0x088 1)
      { State.reset with bufSel := 2, error := some .bufAcc } = true := by decide

/-- R272: a soft reset that aborts TEMPO clears ACORR and keeps ONSET. -/
theorem test_soft_reset_aborts_tempo :
    (let s := { State.reset with latch := some 5, mem := { State.reset.mem with acorr := [(3, 1)], onset := [(0, 7)] } }
     (s.softReset.mem.acorr, s.softReset.mem.onset, s.softReset.latch)) = ([], [(0, 7)], none) := by decide

/-! ### A small configured machine: one sample, one hop, one frame, one sample and one frame a second -/

/-- The registers after a CONFIG of `SR = 1`, `NSAMP = 1`, `FPS = 1.0f` (95_test_vectors.md 3.1, last row of counts). -/
def small : State := { State.reset with sr := 1, nsamp := 1, fps := one32, nhops := 1, nframes := 1 }

/-- The small machine at a stage, with the contents of its buffers. -/
def smallAt (st : Stage) (m : Memory) : State := { small with stage := st, mem := m }

/-- A memory with PCM word 0 only. -/
def onePcm (v : Word) : Memory := { State.reset.mem with pcm := [(0, v)] }

theorem test_small_counts : configCounts small = .ok (1, 1) :=
  configCounts_eq_ok.mpr ⟨by decide, by decide, by decide, by decide, pMax_pos,
    le_trans (by decide +kernel) frameMax_pos, by decide, by decide +kernel⟩

theorem test_small_holds (st : Stage) (m : Memory) : configHolds (smallAt st m) = true :=
  configHolds_iff.mpr test_small_counts

theorem legal_one : ∀ v ∈ [one32], legalSample v = true := by
  simp only [List.mem_singleton, forall_eq]
  decide

/-- No feature of the one-sample stream overflows, whatever `NUM` is: each hop's window has one nonzero sample or none, so
FFT-ZERO and FFT-IMPULSE (R15) bound its magnitudes. -/
theorem test_small_finite (h : Nat) : isFinite (hopRecord 1 false [one32] h).rms = true ∧
    isFinite (hopRecord 1 false [one32] h).flux = true := by
  refine hopRecord_finite_of_bounded legal_one (fun h v hv => ?_) h
  have hx : hopWindow [one32] h = (if h = 0 then one32 else zero32) :: List.replicate 2047 zero32 := by
    unfold hopWindow padWindow
    cases h with
    | zero => rfl
    | succ h =>
      rw [List.drop_eq_nil_of_le (by simp; omega)]
      rfl
  have hwin := windowed_spec (sym := false) (hopWindow_legal legal_one h)
  rw [hopMagnitudes, hx, windowed, show 2048 = 2047 + 1 from rfl, List.range_succ_eq_map, List.map_cons,
    List.zipWith_cons_cons] at hv
  refine le_trans (fftmag_le_of_impulse (fun u hu => ?_) v hv) ?_
  · rw [← List.map_uncurry_zip_eq_zipWith] at hu
    obtain ⟨⟨a, w⟩, haw, rfl⟩ := List.mem_map.mp hu
    obtain ⟨n, -, hn⟩ := List.mem_map.mp (List.of_mem_zip haw).2
    have hw : inUnit w = true := hn ▸ hann_inUnit false n
    have ha := List.eq_of_mem_replicate (List.of_mem_zip haw).1
    have := mul32_le (a := a) (u := 0) (by rw [ha]; decide) ((inUnit_iff w).mp hw).1 rep_zero (by simp [ha])
    simpa using this.2
  · refine le_trans (hwin (mul32 (if h = 0 then one32 else zero32) (hann false 0)) ?_).2 (by norm_num)
    rw [hx, windowed, show 2048 = 2047 + 1 from rfl, List.range_succ_eq_map, List.map_cons, List.zipWith_cons_cons]
    exact List.mem_cons_self

/-- ANALYZE completes on the small machine with one legal sample. -/
theorem test_small_analyze : ∃ t, exec .analyze (smallAt .configured (onePcm one32)) = .next t ∧ t.error = none := by
  have hwin := hopWindow_legal legal_one 0
  have hbody : analyzeBody (smallAt .configured (onePcm one32)) =
      .ok ((smallAt .configured (onePcm one32)).analyzed [one32]
        (hopRecords (smallAt .configured (onePcm one32)) [one32])) := by
    refine analyzeBody_eq_ok.mpr ⟨rfl, test_small_holds _ _, [one32], readPcm_eq_ok.mpr ⟨by decide, legal_one⟩, ?_, rfl⟩
    intro v hv
    rcases List.mem_append.mp hv with hv | hv
    · rcases List.mem_append.mp hv with hv | hv
      · obtain ⟨r, hr, hv⟩ := List.mem_flatMap.mp hv
        obtain ⟨h, _, rfl⟩ := List.mem_map.mp hr
        obtain ⟨h1, h2⟩ := test_small_finite h
        exact isFinite_of_feature (hopRecord_words_spec (by decide) legal_one h1 h2 v hv).1
      · exact isFinite_of_feature (fftmag_feature (fun v hv => (windowed_spec hwin v hv).1) v hv)
    · exact waveform_finite (windowed_spec hwin) v hv
  refine ⟨_, by rw [exec, execAnalyze, hbody, finish_ok], ?_⟩
  rw [State.complete_error, State.analyzed_error]
  rfl

/-- SPECTRUM completes on the small machine with one legal sample. -/
theorem test_small_spectrum : ∃ t,
    exec (.spectrum 0) (smallAt .configured (onePcm one32)) = .next t ∧ t.error = none := by
  have hw := windowed_spec (sym := (smallAt .configured (onePcm one32)).hannSym) (x := padWindow [one32])
    fun v hv => by
      rcases List.mem_append.mp hv with hv | hv
      · exact (legalSample_iff v).mp (legal_one v hv)
      · rw [(List.mem_replicate.mp hv).2]; simp
  have hread : readPcm (smallAt .configured (onePcm one32)).mem
      (windowIndices (smallAt .configured (onePcm one32)).nsamp.toNat 0) = .ok [one32] :=
    readPcm_eq_ok.mpr ⟨by decide, legal_one⟩
  have hbody := spectrumBody_eq_ok.mpr ⟨by decide, test_small_holds .configured (onePcm one32), by decide, _, hread,
    fun v hv => by
      rcases List.mem_append.mp hv with hv | hv
      · exact isFinite_of_feature (fftmag_feature (fun v hv => (hw v hv).1) v hv)
      · exact waveform_finite hw v hv, rfl⟩
  exact ⟨_, by rw [exec, execSpectrum, hbody, finish_ok], rfl⟩

/-! ### Concrete states and operands that meet the hypotheses of the statements -/

/-- A reset machine that runs the command word `w`. -/
def running (w : Word) : State := { State.reset with latch := some w }

/-- A memory whose first hop record and frame record are all zeros. -/
def zeroRecords : Memory :=
  { State.reset.mem with
    hopf := (List.range 12).map fun i => (i, 0)
    frame := (List.range 16).map fun i => (i, 0) }

theorem realValue_one32 : realValue one32 = 1 := by
  rw [realValue, show realUnits one32 = 2 ^ 149 by decide]
  norm_num

theorem realValue_zero : realValue 0x00000000 = 0 ∧ realValue 0x80000000 = 0 := by
  constructor
  · rw [realValue, show realUnits 0x00000000 = 0 by decide]; norm_num
  · rw [realValue, show realUnits 0x80000000 = 0 by decide]; norm_num

theorem boundedFeature_zero : BoundedFeature 0 := ⟨by decide, Nat.zero_le _⟩

theorem boundedFeature_one : BoundedFeature one32 := ⟨by decide, by rw [magUnits_one32, featureCap]; norm_num⟩

theorem inRange_small {q : ℚ} (h0 : 0 ≤ q) (h : q ≤ 2) : InRange q := by
  rw [InRange, abs_of_nonneg h0]
  exact lt_of_le_of_lt h (by norm_num)

theorem witness_DecodeAndEncodeAgree : (Instr.spectrum 0xFFFFFF).wellFormed = true ∧ Instr.run.wellFormed = true ∧
    decode 0xFFFFFF02 = .ok (.spectrum 0xFFFFFF) ∧ decode 0x0A = .ok .run := by decide

theorem witness_StepRunsTheDecodedCommand :
    ((running 0).latch = some 0 ∧ decode 0 = .ok .nop ∧ (running 0).inputs = []) ∧
    { running 0 with inputs := [.engine] }.latch = some 0 ∧ { running 0 with inputs := [.engine] }.inputs = [.engine] := by
  decide

theorem witness_StepTakesTheNextEvent :
    { State.reset with inputs := [.read 4 0] }.inputs = .read 4 0 :: [] ∧
    { State.reset with inputs := [.write 4 0x00C 1] }.inputs = .write 4 0x00C 1 :: [] ∧
    (State.reset.latch = none ∧ State.reset.inputs = []) ∧
    { State.reset with inputs := [.engine] }.latch = none ∧
    { State.reset with inputs := [.engine] }.inputs = .engine :: [] := by decide

theorem witness_ReservedOpcodesFail : (running 0x0B).inputs = [] ∧ (running 0x0B).latch = some 0x0B ∧
    (running 0x0B).error = none ∧ 0x0B ≤ ((0x0B : Word) &&& 0xFF).toNat ∧ (running 0xFFFFFFFF).latch = some 0xFFFFFFFF ∧
    0x0B ≤ ((0xFFFFFFFF : Word) &&& 0xFF).toNat := by decide

theorem witness_ArgumentsAreChecked :
    ((running 0x103).inputs = [] ∧ (running 0x103).latch = some 0x103 ∧ (running 0x103).error = none ∧
      (0x103 : Word) &&& 0xFF ≠ 0x02 ∧ (0x103 : Word) >>> 8 ≠ 0) ∧
    (0x02 : Word) &&& 0xFF = 0x02 ∧ (0xFFFFFF02 : Word) &&& 0xFF = 0x02 := by decide

/-- The third clause of `ArgumentsAreChecked`, at the first hop index out of range. -/
theorem witness_ArgumentsAreChecked_range : (smallAt .configured (onePcm one32)).error = none ∧
    (smallAt .configured (onePcm one32)).stage ≠ .invalid ∧ configHolds (smallAt .configured (onePcm one32)) = true ∧
    (smallAt .configured (onePcm one32)).nhops.toNat ≤ 1 :=
  ⟨rfl, by decide, test_small_holds _ _, by decide⟩

/-- A command that completes: for `CommandsKeepTheHostsRegisters`, `ErrorsArePrecise` and `StageDiscipline`. -/
theorem witness_command_completes : ∃ t, exec .nop State.reset = .next t ∧ State.reset.error = none ∧
    t.error = none ∧ Instr.nop ≠ .run := ⟨_, rfl, rfl, rfl, by decide⟩

/-- A command that fails: `ErrorsArePrecise`. -/
theorem witness_command_fails : ∃ t, exec .config State.reset = .next t ∧ t.error = some .param := ⟨_, rfl, rfl⟩

theorem witness_CommandsWriteOnlyTheirBuffers : (∃ t, exec .nop State.reset = .next t) ∧
    writesBuffer .nop .frame = false ∧ writesBuffer .analyze .pcm = false ∧
    ∃ t, exec .analyze (smallAt .configured (onePcm one32)) = .next t :=
  ⟨⟨_, rfl⟩, rfl, rfl, test_small_analyze.imp fun _ h => h.1⟩

theorem witness_IgnoredWrites : (0x000 : BitVec 12).toNat % 4 = 0 ∧ (0x068 : BitVec 12).toNat % 4 = 0 ∧
    (0x01C : BitVec 12).toNat % 4 = 0 ∧ (0xFFC : BitVec 12).toNat % 4 = 0 ∧
    regAt (0x01C : BitVec 12).toNat = none ∧ regAt (0xFFC : BitVec 12).toNat = none := by decide

theorem witness_MalformedAccessIsABusError : ((2 : Nat) ≠ 4 ∨ (0x000 : BitVec 12).toNat % 4 ≠ 0) ∧
    ((4 : Nat) ≠ 4 ∨ (0xFFF : BitVec 12).toNat % 4 ≠ 0) := by decide

theorem witness_ConfigurationWrites : State.reset.latch = none ∧ (2 : Word).getLsbD 0 = false ∧ State.reset.bufSel = 0 ∧
    State.reset.bufIdx.toNat < Config.pMax := ⟨rfl, by decide, rfl, pMax_pos⟩

theorem witness_Rejections : (running 0x0A).latch.isSome = true ∧ (2 : Word).getLsbD 0 = false ∧
    { State.reset with error := some .seq }.error ≠ none := by decide

theorem witness_PortReads :
    (running 0).latch.isSome = true ∧
    ({ State.reset with bufSel := 1, bufIdx := 1025 }.latch = none ∧
      capacity (selectedBuffer { State.reset with bufSel := 1, bufIdx := 1025 }.bufSel) ≤ (1025 : Word).toNat) ∧
    ((1024 : Word).toNat < capacity (selectedBuffer 1) ∧
      { State.reset with mem := { State.reset.mem with mag := [(1024, 5)] } }.bufWord (selectedBuffer 1) 1024 = some 5 ∧
      State.reset.bufWord (selectedBuffer 1) 1024 = none) ∧
    (2047 : Word).toNat < capacity (selectedBuffer 7) := by decide

theorem witness_PortWrites :
    (running 0).latch.isSome = true ∧ (State.reset.latch = none ∧ (1 : BitVec 3) ≠ 0) ∧
    Config.pMax ≤ (word Config.pMax).toNat ∧ (State.reset.bufSel = 0 ∧ State.reset.bufIdx.toNat < Config.pMax) := by
  refine ⟨rfl, ⟨rfl, by decide⟩, le_of_eq (word_toNat (lt_of_le_of_lt pMax_le (by norm_num))).symm, rfl, pMax_pos⟩

theorem witness_PortSelectionWrites : State.reset.latch = none ∧ (running 0).latch.isSome = true := by decide

/-- Also for `RegisterReads`, whose clauses ask for the same two states. -/
theorem witness_ReadsHaveNoSideEffect : (0x008 : BitVec 12) ≠ 0x088 ∧ (∃ t, hostRead State.reset 4 0x008 = .next t) ∧
    ∃ t, hostRead (running 0) 4 0x008 = .next t := ⟨by decide, ⟨_, rfl⟩, _, rfl⟩

theorem witness_InterruptLine : (∃ t, hostWrite State.reset 4 0x008 0x0000000E = .next t) ∧
    (∃ t, hostWrite State.reset 4 0x010 0x00000000 = .next t) ∧ ∃ t, hostWrite State.reset 4 0x004 0x00000001 = .next t :=
  ⟨⟨_, rfl⟩, ⟨_, rfl⟩, _, rfl⟩

theorem witness_HardReset : { running 5 with inputs := [.hardReset] }.inputs = .hardReset :: [] := rfl

theorem witness_SoftResetKeepsTheBuffers : (1 : Word).getLsbD 0 = true ∧ State.reset.latch = none := by decide

/-- A command of the table of R272, at the last word that it clears and at the next one. -/
theorem witness_SoftResetAbortsTheCommand : (1 : Word).getLsbD 0 = true ∧ (running 5).latch = some 5 ∧
    decode 5 = .ok .tempo ∧ Instr.tempo ≠ .run ∧ abortedWord 1 1 .tempo .acorr 255 ∧ ¬abortedWord 1 1 .tempo .acorr 256 :=
  ⟨by decide, rfl, by decide, by decide, ⟨rfl, by decide⟩, fun h => absurd h.2 (by decide)⟩

/-- RUN with a valid and with an invalid configuration, and a word that is no command. -/
theorem witness_SoftResetAbortsTheCommand_run : { small with latch := some 10 }.latch = some 10 ∧
    decode 10 = .ok .run ∧ configCounts { small with latch := some 10 } = .ok (1, 1) ∧
    abortedWord 1 1 .run .frame 15 ∧ ¬abortedWord 1 1 .run .frame 16 ∧
    configCounts (running 10) = .error .param ∧ decode 0x0B = .error (.reservedOpcode 0x0B) := by
  refine ⟨rfl, by decide, test_small_counts, by simp [abortedWord], by simp [abortedWord], rfl, by decide⟩

theorem witness_StageDiscipline : State.reset.error = none ∧ stageAllows .analyze State.reset.stage = false := by decide

/-- A word with CONFIG's opcode and an argument. -/
theorem witness_ConfigChecksAndWrites_word : (running 0x101).inputs = [] ∧ (running 0x101).latch = some 0x101 ∧
    (running 0x101).error = none ∧ (0x101 : Word) &&& 0xFF = 0x01 ∧ (0x101 : Word) >>> 8 ≠ 0 := by decide

/-- The clauses of `ConfigChecksAndWrites`: a bad rate, no samples, one sample too many, too many frames, all well. -/
theorem witness_ConfigChecksAndWrites :
    ¬(1 ≤ State.reset.sr.toNat ∧ State.reset.sr.toNat ≤ 192000) ∧
    (1 ≤ small.sr.toNat ∧ small.sr.toNat ≤ 192000) ∧ (isFinite small.fps = true ∧ 0 < realValue small.fps) ∧
    (isNaN small.smooth = false ∧ 0 ≤ realValue small.smooth ∧ realValue small.smooth ≤ 1) ∧
    { small with nsamp := 0 }.nsamp.toNat = 0 ∧
    Config.pMax < { small with nsamp := word (Config.pMax + 1) }.nsamp.toNat ∧
    (small.nsamp.toNat ≠ 0 ∧ small.nsamp.toNat ≤ Config.pMax) ∧
    (isFinite 0x7F7FFFFF = true ∧ (Config.frameMax : ℤ) < ⌊(1 : ℚ) * realValue 0x7F7FFFFF / 1 + 1 / 2⌋) ∧
    ⌊(small.nsamp.toNat : ℚ) * realValue small.fps / small.sr.toNat + 1 / 2⌋ ≤ (Config.frameMax : ℤ) := by
  have h1 : realValue small.fps = 1 := realValue_one32
  have h2 : realUnits small.smooth = 0xD9999A * 2 ^ 125 := by decide
  have h3 : realUnits 0x7F7FFFFF = 0xFFFFFF * 2 ^ 253 := by decide
  have h4 : Config.pMax + 1 < 2 ^ 32 := lt_of_le_of_lt (Nat.succ_le_succ pMax_le) (by norm_num)
  have h5 : small.nsamp.toNat = 1 := rfl
  have h6 : small.sr.toNat = 1 := rfl
  refine ⟨by decide, by decide, ⟨by decide, by rw [h1]; norm_num⟩, ⟨by decide, ?_, ?_⟩, rfl, ?_, ⟨by decide, pMax_pos⟩,
    ⟨by decide, ?_⟩, ?_⟩
  · rw [realValue, h2]; norm_num
  · rw [realValue, h2]; norm_num
  · show Config.pMax < (word (Config.pMax + 1)).toNat
    rw [word_toNat h4]; omega
  · refine lt_of_le_of_lt (b := (2 ^ 24 : ℤ)) (by exact_mod_cast frameMax_le) ?_
    rw [← Int.add_one_le_iff, Int.le_floor, realValue, h3]
    norm_num
  · have := frameMax_pos
    rw [h1, h5, h6, show ⌊((1 : ℕ) : ℚ) * 1 / ((1 : ℕ) : ℚ) + 1 / 2⌋ = 1 by norm_num]
    exact_mod_cast this

theorem witness_IllegalSamplesFail : (smallAt .configured (onePcm 0x3F800001)).error = none ∧
    configHolds (smallAt .configured (onePcm 0x3F800001)) = true ∧
    (smallAt .configured (onePcm 0x3F800001)).mem.read .pcm 0 = some 0x3F800001 ∧
    ¬(isFinite 0x3F800001 = true ∧ |realValue 0x3F800001| ≤ 1) ∧
    (smallAt .configured (onePcm 0x3F800001)).stage = .configured ∧ 0 < small.nsamp.toNat ∧ 0 < small.nhops.toNat ∧
    0 < min small.nsamp.toNat (0 * 1024 + 2048) := by
  refine ⟨rfl, test_small_holds _ _, rfl, ?_, rfl, by decide, by decide, by decide⟩
  rintro ⟨-, h⟩
  rw [realValue, show realUnits 0x3F800001 = 0x800001 * 2 ^ 126 by decide] at h
  norm_num at h

/-- `SpectrumCompletes` at hop 0, and `AnalyzeCompletes` and `RunCompletes` on a stream whose features are finite. The last
clause of `AnalyzeCompletes`, on an overflow, is met or not as `NUM` is, which no proof can know. -/
theorem witness_legal_stream : (smallAt .configured (onePcm one32)).stage = .configured ∧
    configHolds (smallAt .configured (onePcm one32)) = true ∧ 0 < small.nhops.toNat ∧
    [one32].length = min small.nsamp.toNat (0 * 1024 + 2048) - 0 * 1024 ∧ [one32].length = small.nsamp.toNat ∧
    configCounts (smallAt .configured (onePcm one32)) = .ok (1, 1) ∧
    (∀ h, HopIsFinite (smallAt .configured (onePcm one32)) [one32] h) ∧
    ∀ n v, [one32][n]? = some v → (onePcm one32).read .pcm n = some v ∧ legalSample v = true := by
  refine ⟨rfl, test_small_holds _ _, by decide, by decide, by decide, test_small_counts, test_small_finite,
    fun n v h => ?_⟩
  cases n with
  | zero => obtain rfl : one32 = v := by simpa using h
            exact ⟨rfl, by decide⟩
  | succ n => simp at h

theorem witness_OnsetCompletes : configHolds (smallAt .analyzed { State.reset.mem with hopf := [(2, one32)] }) = true ∧
    [one32].length = small.nhops.toNat ∧ ∀ i v, [one32][i]? = some v →
      { State.reset.mem with hopf := [(2, one32)] }.read .hopf (12 * i + 2) = some v ∧ BoundedFeature v := by
  refine ⟨test_small_holds _ _, by decide, fun i v h => ?_⟩
  cases i with
  | zero => obtain rfl : one32 = v := by simpa using h
            exact ⟨rfl, boundedFeature_one⟩
  | succ n => simp at h

/-- `TempoCompletes` and, with stage 7, `BeatCompletes`. -/
theorem witness_onset_list (st : Stage) :
    configHolds { smallAt st { State.reset.mem with onset := [(0, 0)] } with onsetCount := 1 } = true ∧
    [0].length = (1 : Word).toNat ∧ [0].Pairwise (· < ·) ∧ small.tempoFound = false ∧
    ∀ j o, [0][j]? = some o → { State.reset.mem with onset := [(0, 0)] }.read .onset j = some (word o) ∧ o < 2 ^ 32 := by
  refine ⟨configHolds_iff.mpr test_small_counts, rfl, by decide, rfl, fun j o h => ?_⟩
  cases j with
  | zero => obtain rfl : 0 = o := by simpa using h
            exact ⟨rfl, by decide⟩
  | succ n => simp at h

theorem witness_ResampleCompletes : configHolds (smallAt .tempo zeroRecords) = true ∧
    ∀ h j, h < small.nhops.toNat → j < 10 → ∃ v, zeroRecords.read .hopf (12 * h + j) = some v ∧ BoundedFeature v := by
  refine ⟨test_small_holds _ _, fun h j hh hj => ⟨0, ?_, boundedFeature_zero⟩⟩
  obtain rfl : h = 0 := Nat.lt_one_iff.mp hh
  revert j
  decide

/-- `SmoothCompletes` and `NormalizeCompletes`. -/
theorem witness_zero_frames (st : Stage) : configHolds (smallAt st zeroRecords) = true ∧
    [(0 : Word)].length = small.nframes.toNat ∧
    (∀ k i, k < small.nframes.toNat → i < 10 → zeroRecords.read .frame (16 * k + 2 + i) = some 0) ∧
    BoundedFeature 0 ∧ isFeature 0 = true ∧ (∀ b, b < 7 → isFeature (small.peakBands.get b) = true) ∧
    isFeature small.peakRms = true ∧ isFeature small.peakFlux = true := by
  refine ⟨test_small_holds _ _, by decide, fun k i hk hi => ?_, boundedFeature_zero, by decide, by decide, by decide,
    by decide⟩
  obtain rfl : k = 0 := Nat.lt_one_iff.mp hk
  revert i
  decide

theorem witness_RunIsThePipeline : State.reset.error = none ∧ State.reset.done = false ∧ small.error = none ∧
    small.done = false := by decide

theorem witness_RunOnSilence : configCounts (smallAt .invalid (onePcm 0)) = .ok (1, 1) ∧
    ∀ n, n < small.nsamp.toNat → (onePcm 0).read .pcm n = some 0 := by
  refine ⟨test_small_counts, fun n hn => ?_⟩
  obtain rfl : n = 0 := Nat.lt_one_iff.mp hn
  rfl

theorem witness_RoundingToNearestEven : (0 : Nat) < 3 ∧ InRange (((1 : ℕ) : ℚ) / ((3 : ℕ) : ℚ)) :=
  ⟨by decide, inRange_small (by norm_num) (by norm_num)⟩

/-- `ArithmeticIsCorrectlyRounded` and `SquareRootIsNearest` at 1.0. -/
theorem witness_ArithmeticIsCorrectlyRounded : isFinite one32 = true ∧ isFeature one32 = true ∧
    InRange (realValue one32 + realValue one32) ∧ InRange (realValue one32 - realValue one32) ∧
    InRange (realValue one32 * realValue one32) ∧ realValue one32 ≠ 0 ∧ InRange (realValue one32 / realValue one32) := by
  rw [realValue_one32]
  exact ⟨by decide, by decide, inRange_small (by norm_num) (by norm_num), inRange_small (by norm_num) (by norm_num),
    inRange_small (by norm_num) (by norm_num), by norm_num, inRange_small (by norm_num) (by norm_num)⟩

/-- A window of zeros, one with a single sample that is not zero, and an argument of `exp`. -/
theorem witness_NumericsProperties : realValue 0xBF800000 < 0 ∧ (∀ v ∈ [zero32], isFinite v = true ∧ |realValue v| ≤ 1 ∧ realValue v = 0) ∧
    (∀ v ∈ [one32], isFinite v = true ∧ |realValue v| ≤ 1) ∧ [one32] = [] ++ one32 :: [] ∧ realValue one32 ≠ 0 := by
  have h0 : realValue zero32 = 0 := realValue_zero.1
  have h1 : realValue 0xBF800000 < 0 := by
    rw [realValue, show realUnits 0xBF800000 = -(2 ^ 149) by decide]
    norm_num
  simp only [List.mem_singleton, forall_eq, realValue_one32, h0]
  exact ⟨h1, ⟨by decide, by norm_num, trivial⟩, ⟨by decide, by norm_num⟩, rfl, by norm_num⟩

/-- The least and the greatest sample rate; bin 1024 at the greatest, in no band; bin 1 at 44100 Hz, in band 0. -/
theorem witness_BandMembership : (1 ≤ 192000 ∧ inBand 192000 6 1024 = false) ∧ inBand 44100 0 1 = true ∧
    inBand 1 0 0 = false := by decide

/-- A window of odd count, with median 1, and one of even count, with median 3/2. -/
theorem witness_MedianThreshold : (0 < [1].length ∧ InRange (8 * (1 : ℚ) / 5 / 2 ^ 149)) ∧
    1 < [1, 2].length ∧ InRange (8 * (3 / 2 : ℚ) / 5 / 2 ^ 149) :=
  ⟨⟨by decide, inRange_small (by norm_num) (by norm_num)⟩, by decide, inRange_small (by norm_num) (by norm_num)⟩

/-- A candidate that coalescing drops. -/
theorem witness_CoalescingKeepsTheEarliest : 6 < [1, 0, 0, 0, 0, 0, 1, 1, 0, 0, 0, 0, 0, 1].length ∧
    isCandidate [1, 0, 0, 0, 0, 0, 1, 1, 0, 0, 0, 0, 0, 1] 6 = true ∧
    6 ∉ onsetsOf 44100 [1, 0, 0, 0, 0, 0, 1, 1, 0, 0, 0, 0, 0, 1] := by
  rw [test_onset_coalescing]
  decide

/-- The rates at both ends, the longest lag there is, and no lag at all. -/
theorem witness_TempoSelection : [0, 15, 35].Pairwise (· < ·) ∧ (∀ o ∈ [0, 15, 35], o < 40) ∧ 187 ∈ lags 192000 ∧
    lags 1 = [] := by
  refine ⟨by decide, by decide, ?_, by decide⟩
  rw [lags, List.mem_range'_1]
  decide

theorem witness_FramePositionsAndInterpolation : 0 < realValue one32 ∧ isFinite one32 = true ∧
    InRange (((0 : ℕ) : ℚ) / realValue one32) ∧ BoundedFeature 0 ∧ BoundedFeature one32 ∧ isFeature one32 = true := by
  rw [realValue_one32]
  exact ⟨by norm_num, by decide, inRange_small (by norm_num) (by norm_num), boundedFeature_zero, boundedFeature_one,
    by decide⟩

/-- Smoothing factors +0.0, −0.0 and 1.0. -/
theorem witness_SmoothingRecurrences : (inUnit 0 = true ∧ inUnit 0x80000000 = true ∧ inUnit one32 = true) ∧
    (realValue 0x00000000 = 0 ∧ realValue 0x80000000 = 0) ∧ realValue one32 = 1 ∧ isFeature one32 = true :=
  ⟨by decide, realValue_zero, realValue_one32, by decide⟩

/-- At one hop a frame, the onset at hop `o` falls in frame `o`: so frame 0 is before the onset of `[1]`, frame 1 its
own, frame 2 after it, and frame 2 lies between the onsets of `[1, 3]`. -/
theorem witness_BeatFields : isFinite one32 = true ∧ 0 < realValue one32 ∧
    (∀ o : Nat, ⌊(o : ℚ) * 1024 * realValue one32 / (1024 : ℕ)⌋ = o) ∧
    ([1].Pairwise (· < ·) ∧ [1] = [] ++ 1 :: []) ∧ ([1, 3].Pairwise (· < ·) ∧ [1, 3] = [] ++ 1 :: 3 :: []) ∧
    (∀ l, some 1 = some l → 1 ≤ l) ∧
    InRange (max 0 (((2 : ℕ) : ℚ) / realValue one32 - ((1 : ℕ) : ℚ) * 1024 / (1024 : ℕ)) * 20 / 3) := by
  rw [realValue_one32]
  refine ⟨by decide, by norm_num, fun o => ?_, by decide, by decide, fun l h => by cases h; decide, ?_⟩
  · rw [show (o : ℚ) * 1024 * 1 / (1024 : ℕ) = (o : ℤ) by push_cast; ring, Int.floor_intCast]
  · rw [InRange]
    norm_num

/-- `PeakAmplitudeOfTheStream` and `AnalysisIsDeterministic`, the second with a state that differs in another buffer. -/
theorem witness_analysis : (smallAt .configured (onePcm one32)).error = none ∧
    (∃ t, exec .analyze (smallAt .configured (onePcm one32)) = .next t ∧ t.error = none) ∧
    ∃ t, exec (.spectrum 0) (smallAt .configured (onePcm one32)) = .next t ∧ t.error = none :=
  ⟨rfl, test_small_analyze, test_small_spectrum⟩

/-- A latched command, and a state at stage 1 with a written buffer, from which the idle engine takes a step. -/
theorem witness_StepKeepsBusyInv : BusyInv (running 0) ∧ ∃ t, step (running 0) = .next t :=
  ⟨fun _ => ⟨rfl, rfl⟩, _, rfl⟩

theorem witness_StepKeepsMemoryInv : ConfigInv (smallAt .configured (onePcm one32)) ∧
    MemoryInv (smallAt .configured (onePcm one32)) ∧ ∃ t, step (smallAt .configured (onePcm one32)) = .next t := by
  refine ⟨fun _ => test_small_holds _ _, ⟨by decide, fun b k v h => ?_⟩, _, rfl⟩
  cases b
  case pcm =>
    by_cases hk : k = 0
    · rw [hk]; exact pMax_pos
    · simp [smallAt, onePcm, Memory.read, Memory.buffer, Buffer.read, hk] at h
  all_goals simp [smallAt, onePcm, Memory.read, Memory.buffer, State.reset] at h

/-- Also for `StepKeepsFrameInv`. -/
theorem witness_StepKeepsPipelineInv : PipelineInv (smallAt .configured (onePcm one32)) ∧
    FrameInv (smallAt .configured (onePcm one32)) ∧ ∃ t, step (smallAt .configured (onePcm one32)) = .next t := by
  refine ⟨⟨fun _ => test_small_holds _ _, ⟨fun h => absurd h (by decide), fun h => absurd h (by decide)⟩,
    fun h => absurd h (by decide), fun h => absurd h (by decide), fun h => absurd h (by decide)⟩,
    ⟨fun h => absurd h (by decide), fun h => absurd h (by decide), fun h => absurd h (by decide)⟩, _, rfl⟩

theorem witness_FaultsOfReachableStates : Reachable { State.reset with inputs := [.read 2 0] } ∧
    step { State.reset with inputs := [.read 2 0] } = .fault .busError := ⟨.start _, rfl⟩

end Sys2Proof.Machine
end

/-! ## What a step can do: one lemma for each part of it -/

namespace Sys2Proof.Machine

/-! ### Steps, commands and host accesses -/

/-- What a step can be (R87, R121): the engine's turn, a host access or a hard reset, its event taken from the list. -/
theorem step_eq_next {s t : State} (h : step s = .next t) : ∃ rest, let u := { s with inputs := rest }
    engineTurn u = .next t ∨ (∃ size off, hostRead u size off = .next t) ∨
      (∃ size off v, hostWrite u size off v = .next t) ∨ t = u.hardReset := by
  unfold step at h
  split at h
  · rename_i hi
    exact ⟨s.inputs, .inl h⟩
  · rename_i e rest _
    refine ⟨rest, ?_⟩
    cases e with
    | engine => exact .inl h
    | read size off => exact .inr (.inl ⟨size, off, h⟩)
    | write size off v => exact .inr (.inr (.inl ⟨size, off, v, h⟩))
    | hardReset => cases h; exact .inr (.inr (.inr rfl))

/-- What the engine's turn can be (R104, R121, R258): idle, the decoded command, or ERR_BADCMD. -/
theorem engineTurn_eq_next {s t : State} (h : engineTurn s = .next t) :
    t = s ∨ t = s.fail .badCmd ∨ ∃ w i, s.latch = some w ∧ decode w = .ok i ∧ exec i s = .next t := by
  unfold engineTurn State.fetch at h
  split at h
  · cases h; exact .inl rfl
  · rename_i w hw
    split at h
    · rename_i i hi
      exact .inr (.inr ⟨w, i, hw, hi, h⟩)
    · cases h; exact .inr (.inl rfl)

/-- A property that every command's body keeps holds after the command, if its two ends keep it (R121, R129, R243). -/
theorem exec_induction {P : State → Prop} (hspectrum : ∀ h u v, P u → spectrumBody h u = .ok v → P v)
    (hpipeline : ∀ c ∈ runCommands, ∀ u v, P u → c u = .ok v → P v) (hend : ∀ u, P u → P u.complete)
    (hfail : ∀ u e, P u → P (u.fail e)) {i : Instr} {s t : State} (hs : P s) (h : exec i s = .next t) : P t := by
  have hfinish : ∀ c : Cmd State, (∀ u, c = .ok u → P u) → finish s c = .next t → P t := by
    intro c hc h
    rcases finish_eq_next.mp h with ⟨u, hu, rfl⟩ | ⟨e, -, rfl⟩
    · exact hend u (hc u hu)
    · exact hfail s e hs
  cases i with
  | nop => exact hfinish (nopBody s) (fun u hu => by cases hu; exact hs) h
  | spectrum n => exact hfinish _ (fun u => hspectrum n s u hs) h
  | config => exact hfinish _ (fun u => hpipeline configBody (by simp [runCommands]) s u hs) h
  | analyze => exact hfinish _ (fun u => hpipeline analyzeBody (by simp [runCommands]) s u hs) h
  | onset => exact hfinish _ (fun u => hpipeline onsetBody (by simp [runCommands]) s u hs) h
  | tempo => exact hfinish _ (fun u => hpipeline tempoBody (by simp [runCommands]) s u hs) h
  | resample => exact hfinish _ (fun u => hpipeline resampleBody (by simp [runCommands]) s u hs) h
  | smooth => exact hfinish _ (fun u => hpipeline smoothBody (by simp [runCommands]) s u hs) h
  | normalize => exact hfinish _ (fun u => hpipeline normalizeBody (by simp [runCommands]) s u hs) h
  | beat => exact hfinish _ (fun u => hpipeline beatBody (by simp [runCommands]) s u hs) h
  | run => exact runSequence_induction hpipeline hend hfail hs h

/-- What a host read can leave (R71, R73, R80): the answer, and for a read of `BUF_DATA` a rejection, a recorded error or
the next index. -/
theorem hostRead_eq_next {s t : State} {size : Nat} {off : BitVec 12} (h : hostRead s size off = .next t) :
    (∃ v, t = s.respond v) ∨ (∃ f, t = s.respondFree f) ∨ (∃ f, t = s.reject.respondFree f) ∨
      t = (s.recordError .bufAcc).respond 0 ∨ ∃ v, t = { s.respond v with bufIdx := s.bufIdx + 1 } := by
  unfold hostRead at h
  split at h
  · cases h
  split at h
  · cases h; exact .inl ⟨_, rfl⟩
  · unfold portRead at h
    simp only at h
    split_ifs at h
    · cases h; exact .inr (.inr (.inl ⟨_, rfl⟩))
    · cases h; exact .inr (.inr (.inr (.inl rfl)))
    · split at h
      · cases h
      · cases h; exact .inr (.inr (.inr (.inr ⟨_, rfl⟩)))
  · cases h
    split_ifs
    · exact .inr (.inl ⟨_, rfl⟩)
    · exact .inl ⟨_, rfl⟩
  · cases h
    split_ifs
    · exact .inr (.inl ⟨_, rfl⟩)
    · exact .inl ⟨_, rfl⟩

/-- What a host write can leave (R71, R74): nothing changed, or a register written. -/
theorem hostWrite_eq_next {s t : State} {size : Nat} {off : BitVec 12} {v : Word} (h : hostWrite s size off v = .next t) :
    t = s ∨ ∃ r, t = writeReg s v r := by
  unfold hostWrite at h
  split at h
  · cases h
  split at h
  · cases h; exact .inl rfl
  · cases h; exact .inr ⟨_, rfl⟩

/-- A write done unless the engine is busy (R75). -/
theorem unlessBusy_cases (s t : State) : s.unlessBusy t = s.reject ∨ s.unlessBusy t = t := by
  unfold State.unlessBusy
  split_ifs
  · exact .inl rfl
  · exact .inr rfl

/-- A write of `CMD` (R79, R120): rejected or accepted. -/
theorem offerCommand_cases (s : State) (v : Word) : offerCommand s v = s.reject ∨ offerCommand s v = s.accept v := by
  unfold offerCommand
  split_ifs
  · exact .inl rfl
  · exact .inr rfl

/-- A write of `BUF_DATA` (R81): rejected, an error, or a PCM word with the invalidation of R76. -/
theorem portWrite_cases (s : State) (v : Word) :
    portWrite s v = s.reject ∨ portWrite s v = s.recordError .bufAcc ∨
      portWrite s v = { (s.putCells .pcm [(s.bufIdx.toNat, v)]).invalidate with bufIdx := s.bufIdx + 1 } := by
  unfold portWrite
  split_ifs
  · exact .inl rfl
  · exact .inr (.inl rfl)
  · exact .inr (.inl rfl)
  · exact .inr (.inr rfl)

/-! ## The pipeline invariants -/

/-! ### What the invariants see of a state -/

/-- The state with every field at a fixed value that the pipeline invariants do not look at. -/
def State.pipelineView (s : State) : State :=
  { s with hannSym := false, done := false, error := none, rej := false, doneIe := false, errIe := false, rejIe := false,
           peakAmp := 0, bufSel := 0, bufIdx := 0, latch := none, inputs := [], readData := none, freeCtr := 0 }

/-- The pipeline invariants are those of the view. -/
theorem pipelineInv_pipelineView (s : State) : PipelineInv s.pipelineView ↔ PipelineInv s := Iff.rfl

theorem PipelineInv.of_pipelineView_eq {s t : State} (h : t.pipelineView = s.pipelineView) (hs : PipelineInv s) :
    PipelineInv t := by
  rw [← pipelineInv_pipelineView, h]
  exact hs

/-- At stage 0 with no tempo found the pipeline invariants ask for nothing. -/
theorem PipelineInv.of_invalid {s : State} (h1 : s.stage = .invalid) (h2 : s.tempoFound = false) : PipelineInv s := by
  refine ⟨fun h => absurd h1 h, ⟨fun h => ?_, fun h => ?_⟩, fun h => ?_, fun h => ?_, fun h => ?_⟩
  · rw [h1] at h; exact absurd h (by decide)
  · rw [h1] at h; exact absurd h (by decide)
  · rw [h1] at h; exact absurd h (by decide)
  · rw [h2] at h; cases h
  · rw [h1] at h; exact absurd h (by decide)

/-- A host read leaves the view as it was (R83). -/
theorem pipelineView_hostRead {s t : State} {size : Nat} {off : BitVec 12} (h : hostRead s size off = .next t) :
    t.pipelineView = s.pipelineView := by
  rcases hostRead_eq_next h with ⟨v, rfl⟩ | ⟨f, rfl⟩ | ⟨f, rfl⟩ | rfl | ⟨v, rfl⟩ <;> rfl

/-- A register write leaves the view, or takes the engine to stage 0 without a tempo (R76, R271). -/
theorem pipelineView_writeReg (s : State) (v : Word) (r : Reg) :
    (writeReg s v r).pipelineView = s.pipelineView ∨
      ((writeReg s v r).stage = .invalid ∧ (writeReg s v r).tempoFound = false) := by
  have hconf : ∀ u : State, (s.unlessBusy u.invalidate).pipelineView = s.pipelineView ∨
      ((s.unlessBusy u.invalidate).stage = .invalid ∧ (s.unlessBusy u.invalidate).tempoFound = false) := by
    intro u
    rcases unlessBusy_cases s u.invalidate with h | h <;> rw [h]
    · exact .inl rfl
    · exact .inr ⟨rfl, rfl⟩
  have hport : ∀ u : State, u.pipelineView = s.pipelineView → (s.unlessBusy u).pipelineView = s.pipelineView := by
    intro u hu
    rcases unlessBusy_cases s u with h | h <;> rw [h]
    · rfl
    · exact hu
  cases r with
  | ctrl =>
    simp only [writeReg]
    split
    · exact .inr ⟨rfl, rfl⟩
    · exact hconf { s with hannSym := v.getLsbD 1 }
  | sr => exact hconf { s with sr := v }
  | nsamp => exact hconf { s with nsamp := v }
  | fps => exact hconf { s with fps := v }
  | smooth => exact hconf { s with smooth := v }
  | bufSel => exact .inl (hport _ rfl)
  | bufIdx => exact .inl (hport _ rfl)
  | cmd => rcases offerCommand_cases s v with h | h <;> simp only [writeReg, h] <;> exact .inl rfl
  | bufData =>
    rcases portWrite_cases s v with h | h | h <;> simp only [writeReg, h]
    · exact .inl rfl
    · exact .inl rfl
    · exact .inr ⟨rfl, rfl⟩
  | _ => exact .inl rfl

/-! ### The parts of the invariants, and what keeps each of them -/

/-- What FeatureInv asks for from stage 2 on. -/
def HopFeatures (s : State) : Prop :=
  (∀ h j, h < s.nhops.toNat → j < 11 → ∃ v, s.mem.read .hopf (12 * h + j) = some v ∧ BoundedFeature v) ∧
    ∀ i, i < 10 → BoundedFeature (seriesPeak s i)

/-- What FeatureInv asks for at stages 5 and 6. -/
def FrameFeatures (s : State) : Prop :=
  ∀ k i, k < s.nframes.toNat → i < 10 → ∃ v, s.mem.read .frame (16 * k + 2 + i) = some v ∧ BoundedFeature v

/-- `ons` is the onset list that registers and buffer hold, as OnsetInv asks for it from stage 3 on. -/
def OnsetList (s : State) (ons : List Nat) : Prop :=
  ons.length = s.onsetCount.toNat ∧ (∀ j o, ons[j]? = some o → s.mem.read .onset j = some (word o)) ∧
    ons.Pairwise (fun a b => a < b ∧ 3 * s.sr.toNat ≤ (b - a) * 20480) ∧ (∀ o ∈ ons, o < s.nhops.toNat) ∧
    s.onsetCount.toNat ≤ s.nhops.toNat

/-- What TempoInv asks for of a found tempo. -/
def TempoInRange (s : State) : Prop :=
  s.tempoFound = true → 1 ≤ s.tempoLag.toNat ∧ s.tempoLag.toNat ≤ 187 ∧ isFinite s.tempoBpm = true ∧
    60 ≤ realValue s.tempoBpm ∧ realValue s.tempoBpm ≤ 200

/-- What TempoInv asks for from stage 4 on where no tempo is found. -/
def NoTempoIsZero (s : State) : Prop := s.tempoFound = false → s.tempoLag = 0 ∧ s.tempoBpm = 0

theorem pipelineInv_iff (s : State) : PipelineInv s ↔ (s.stage ≠ .invalid → configHolds s = true) ∧
    ((2 ≤ stageNumber s.stage → HopFeatures s) ∧ (s.stage = .resampled ∨ s.stage = .smoothed → FrameFeatures s)) ∧
    (3 ≤ stageNumber s.stage → ∃ ons, OnsetList s ons) ∧ TempoInRange s ∧
    (4 ≤ stageNumber s.stage → NoTempoIsZero s) := Iff.rfl

/-- The registers of the configuration and its counts are kept. -/
structure KeepsConfig (s t : State) : Prop where
  sr : t.sr = s.sr
  nsamp : t.nsamp = s.nsamp
  fps : t.fps = s.fps
  smooth : t.smooth = s.smooth
  nhops : t.nhops = s.nhops
  nframes : t.nframes = s.nframes

/-- The hop records but their threshold words, and the peaks, are kept. -/
structure KeepsFeatures (s t : State) : Prop where
  peakRms : t.peakRms = s.peakRms
  peakFlux : t.peakFlux = s.peakFlux
  peakBands : t.peakBands = s.peakBands
  hopf : ∀ h j, j < 11 → t.mem.read .hopf (12 * h + j) = s.mem.read .hopf (12 * h + j)

/-- The onset list is kept. -/
structure KeepsOnsets (s t : State) : Prop where
  count : t.onsetCount = s.onsetCount
  onset : ∀ i, t.mem.read .onset i = s.mem.read .onset i

/-- The tempo registers are kept. -/
structure KeepsTempo (s t : State) : Prop where
  found : t.tempoFound = s.tempoFound
  lag : t.tempoLag = s.tempoLag
  bpm : t.tempoBpm = s.tempoBpm

theorem KeepsConfig.configHolds_eq {s t : State} (h : KeepsConfig s t) : configHolds t = configHolds s := by
  have hcounts : configCounts t = configCounts s := by
    unfold configCounts State.fpsUnits
    rw [h.sr, h.nsamp, h.fps, h.smooth]
  rw [configHolds, configHolds, hcounts, h.nhops, h.nframes]

theorem HopFeatures.keep {s t : State} (hs : HopFeatures s) (hc : KeepsConfig s t) (hf : KeepsFeatures s t) :
    HopFeatures t := by
  obtain ⟨hwords, hpeaks⟩ := hs
  refine ⟨fun h j hh hj => ?_, fun i hi => ?_⟩
  · rw [hf.hopf h j hj]
    exact hwords h j (hc.nhops ▸ hh) hj
  · have heq : seriesPeak t i = seriesPeak s i := by
      simp only [seriesPeak, hf.peakBands, hf.peakRms, hf.peakFlux, hc.sr]
    rw [heq]
    exact hpeaks i hi

theorem OnsetList.keep {s t : State} {ons : List Nat} (hs : OnsetList s ons) (hc : KeepsConfig s t)
    (ho : KeepsOnsets s t) : OnsetList t ons := by
  unfold OnsetList
  simp only [ho.count, ho.onset, hc.sr, hc.nhops]
  exact hs

theorem TempoInRange.keep {s t : State} (hs : TempoInRange s) (ht : KeepsTempo s t) : TempoInRange t := by
  unfold TempoInRange
  simp only [ht.found, ht.lag, ht.bpm]
  exact hs

theorem NoTempoIsZero.keep {s t : State} (hs : NoTempoIsZero s) (ht : KeepsTempo s t) : NoTempoIsZero t := by
  unfold NoTempoIsZero
  simp only [ht.found, ht.lag, ht.bpm]
  exact hs

end Sys2Proof.Machine

namespace Sys2Proof.Machine

/-! ### What each command keeps of the parts -/

theorem State.withSpectrum_read_ne (s : State) (w : List Word) {b : BufId} (hm : b ≠ .mag) (hw : b ≠ .wave) (i : Nat) :
    (s.withSpectrum w).mem.read b i = s.mem.read b i := by
  rw [State.withSpectrum_mem, Memory.read_writeCells_ne _ _ _ hw, Memory.read_writeCells_ne _ _ _ hm]

theorem keepsConfig_withSpectrum (s : State) (w : List Word) : KeepsConfig s (s.withSpectrum w) := by
  constructor <;> simp

theorem keepsFeatures_withSpectrum (s : State) (w : List Word) : KeepsFeatures s (s.withSpectrum w) :=
  ⟨by simp, by simp, by simp, fun _ _ _ => State.withSpectrum_read_ne s w (by decide) (by decide) _⟩

theorem keepsOnsets_withSpectrum (s : State) (w : List Word) : KeepsOnsets s (s.withSpectrum w) :=
  ⟨by simp, fun _ => State.withSpectrum_read_ne s w (by decide) (by decide) _⟩

theorem keepsTempo_withSpectrum (s : State) (w : List Word) : KeepsTempo s (s.withSpectrum w) := by
  constructor <;> simp

theorem keepsConfig_analyzed (s : State) (xs : List Word) (rs : List HopRecord) : KeepsConfig s (s.analyzed xs rs) := by
  constructor <;> simp

theorem keepsTempo_analyzed (s : State) (xs : List Word) (rs : List HopRecord) : KeepsTempo s (s.analyzed xs rs) := by
  constructor <;> simp

theorem keepsConfig_withOnsets (s : State) (flux : List Nat) : KeepsConfig s (s.withOnsets flux) := by
  constructor <;> simp

theorem keepsFeatures_withOnsets (s : State) {flux : List Nat} (hf : flux.length = s.nhops.toNat) :
    KeepsFeatures s (s.withOnsets flux) := by
  refine ⟨by simp, by simp, by simp, fun h j hj => ?_⟩
  exact (State.withOnsets_read s hf .hopf (12 * h + j)).2.2 (by omega) (by simp)

theorem keepsTempo_withOnsets (s : State) (flux : List Nat) : KeepsTempo s (s.withOnsets flux) := by
  constructor <;> simp

theorem keepsConfig_withTempo (s : State) (ons : List Nat) : KeepsConfig s (s.withTempo ons) := by
  constructor <;> simp

theorem keepsFeatures_withTempo (s : State) (ons : List Nat) : KeepsFeatures s (s.withTempo ons) :=
  ⟨by simp, by simp, by simp, fun _ _ _ => by rw [State.withTempo_read, if_neg (by simp)]⟩

theorem keepsOnsets_withTempo (s : State) (ons : List Nat) : KeepsOnsets s (s.withTempo ons) :=
  ⟨by simp, fun _ => by rw [State.withTempo_read, if_neg (by simp)]⟩

/-- The commands from RESAMPLE on change the frame records and the stage alone. -/
structure KeepsAllButFrames (s t : State) : Prop where
  config : KeepsConfig s t
  features : KeepsFeatures s t
  onsets : KeepsOnsets s t
  tempo : KeepsTempo s t

theorem keepsAllButFrames_resampled (s : State) : KeepsAllButFrames s s.resampled := by
  have hmem : ∀ b i, b ≠ .frame → s.resampled.mem.read b i = s.mem.read b i := fun b i hb =>
    (State.resampled_read s b i).2 fun h => hb h.1
  exact ⟨by constructor <;> simp, ⟨by simp, by simp, by simp, fun _ _ _ => hmem _ _ (by decide)⟩,
    ⟨by simp, fun _ => hmem _ _ (by decide)⟩, by constructor <;> simp⟩

theorem State.smoothed_mem (s : State) : s.smoothed.mem = s.mem.writeCells .frame
    (frameSeriesCells s.nframes.toNat fun k i => ((smoothedTable s).getD i []).getD k zero32) := by cases s; rfl

theorem State.normalized_mem (s : State) : s.normalized.mem = s.mem.writeCells .frame
    (frameSeriesCells s.nframes.toNat fun k i => normalise (s.frameWord k (seriesFrameWord i)) (seriesPeak s i)) := by
  cases s; rfl

theorem keepsAllButFrames_smoothed (s : State) : KeepsAllButFrames s s.smoothed := by
  have hmem : ∀ b i, b ≠ .frame → s.smoothed.mem.read b i = s.mem.read b i := fun b i hb => by
    rw [State.smoothed_mem, Memory.read_writeCells_ne _ _ _ hb]
  exact ⟨by constructor <;> simp, ⟨by simp, by simp, by simp, fun _ _ _ => hmem _ _ (by decide)⟩,
    ⟨by simp, fun _ => hmem _ _ (by decide)⟩, by constructor <;> simp⟩

theorem keepsAllButFrames_normalized (s : State) : KeepsAllButFrames s s.normalized := by
  have hmem : ∀ b i, b ≠ .frame → s.normalized.mem.read b i = s.mem.read b i := fun b i hb => by
    rw [State.normalized_mem, Memory.read_writeCells_ne _ _ _ hb]
  exact ⟨by constructor <;> simp, ⟨by simp, by simp, by simp, fun _ _ _ => hmem _ _ (by decide)⟩,
    ⟨by simp, fun _ => hmem _ _ (by decide)⟩, by constructor <;> simp⟩

theorem keepsAllButFrames_withBeats (s : State) (ons : List Nat) : KeepsAllButFrames s (s.withBeats ons) := by
  have hmem : ∀ b i, b ≠ .frame → (s.withBeats ons).mem.read b i = s.mem.read b i := fun b i hb =>
    (State.withBeats_read s ons b i).2 fun h => hb h.1
  exact ⟨by constructor <;> simp, ⟨by simp, by simp, by simp, fun _ _ _ => hmem _ _ (by decide)⟩,
    ⟨by simp, fun _ => hmem _ _ (by decide)⟩, by constructor <;> simp⟩

/-! ### What each command establishes -/

theorem boundedFeature_iff (v : Word) : BoundedFeature v ↔ isFeature v = true ∧ magUnits v ≤ 2 ^ 229 := Iff.rfl

theorem boundedFeature_zero32 : BoundedFeature zero32 := by
  rw [boundedFeature_iff, magUnits_zero32]
  exact ⟨isFeature_zero32, Nat.zero_le _⟩

@[simp] theorem Bands.get_tabulate (f : Nat → Word) {b : Nat} (hb : b < 7) : (Bands.tabulate f).get b = f b := by
  interval_cases b <;> rfl

/-- The largest of bounded features is one (R154). -/
theorem boundedFeature_globalPeak {f : HopRecord → Word} {rs : List HopRecord} (h : ∀ r ∈ rs, BoundedFeature (f r)) :
    BoundedFeature (globalPeak f rs) := by
  unfold globalPeak
  suffices hacc : ∀ acc, BoundedFeature acc → BoundedFeature (rs.foldl (fun p r => max32 p (f r)) acc) from
    hacc zero32 boundedFeature_zero32
  induction rs with
  | nil => exact fun _ ha => ha
  | cons r rs ih =>
    intro acc ha
    have hr := h r (by simp)
    exact ih (fun r' hr' => h r' (by simp [hr'])) _ (max32_feature_le ha.1 hr.1 ha.2 hr.2)

theorem HopRecord.rms_mem_words (r : HopRecord) : r.rms ∈ r.words := by
  simp [HopRecord.words]

theorem HopRecord.flux_mem_words (r : HopRecord) : r.flux ∈ r.words := by
  simp [HopRecord.words]

theorem HopRecord.band_mem_words (r : HopRecord) (b : Nat) : r.bands.get b ∈ r.words := by
  unfold Bands.get
  split <;> simp [HopRecord.words, Bands.toList]

/-- ANALYZE leaves bounded features in the hop records and the peaks (R145, R154, R157). -/
theorem hopFeatures_analyzed {s : State} {xs : List Word} (hsr : s.sr.toNat ≤ 192000)
    (hwords : ∀ h, h < s.nhops.toNat → ∀ w ∈ (hopRecord s.sr.toNat s.hannSym xs h).words, BoundedFeature w) :
    HopFeatures (s.analyzed xs (hopRecords s xs)) := by
  have hrec : ∀ r ∈ hopRecords s xs, ∀ w ∈ r.words, BoundedFeature w := by
    intro r hr
    obtain ⟨h, hh, rfl⟩ := List.mem_map.mp hr
    exact hwords h (List.mem_range.mp hh)
  constructor
  · intro h j hh hj
    rw [State.analyzed_nhops] at hh
    have hread := (State.analyzed_hopf s xs (hopRecord s.sr.toNat s.hannSym xs) s.nhops.toNat (12 * h + j)).1 h j rfl hh
      (by omega)
    have hlt : j < (hopRecord s.sr.toNat s.hannSym xs h).words.length := by rw [HopRecord.words_length]; omega
    rw [List.getElem?_eq_getElem hlt] at hread
    exact ⟨_, hread, hwords h hh _ (List.getElem_mem hlt)⟩
  · intro i hi
    unfold seriesPeak
    split_ifs with h7 h7' h8
    · rw [State.analyzed_peakBands, Bands.get_tabulate _ h7]
      exact boundedFeature_globalPeak fun r hr => hrec r hr _ (r.band_mem_words i)
    · rw [State.analyzed_peakRms]
      exact boundedFeature_globalPeak fun r hr => hrec r hr _ r.rms_mem_words
    · rw [State.analyzed_sr]
      exact rne32_feature_le (by norm_num) (rep_pow (by norm_num))
        (le_trans (Nat.mul_le_mul_right _ hsr) (by norm_num [featureCap]))
    · rw [State.analyzed_peakFlux]
      exact boundedFeature_globalPeak fun r hr => hrec r hr _ r.flux_mem_words

/-- ONSET leaves the onset list of the flux series (R55, R184, R185). -/
theorem onsetList_withOnsets {s : State} {flux : List Nat} (hf : flux.length = s.nhops.toNat) :
    OnsetList (s.withOnsets flux) (onsetsOf s.sr.toNat flux) := by
  have hle : (onsetsOf s.sr.toNat flux).length ≤ s.nhops.toNat := hf ▸ onsetsOf_length_le _ _
  have hcount : (word (onsetsOf s.sr.toNat flux).length).toNat = (onsetsOf s.sr.toNat flux).length :=
    word_toNat (lt_of_le_of_lt hle s.nhops.isLt)
  unfold OnsetList
  simp only [State.withOnsets_onsetCount, State.withOnsets_sr, State.withOnsets_nhops, hcount]
  refine ⟨trivial, fun j o hj => ?_, ?_, fun o ho => hf ▸ onsetsOf_lt ho, hle⟩
  · obtain ⟨hlt, rfl⟩ := List.getElem?_eq_some_iff.mp hj
    rw [(State.withOnsets_read s hf .onset j).2.1 rfl (by omega), List.getD_eq_getElem _ _ hlt]
  · refine (onsetsOf_pairwise _ _).and ?_
    exact (coalesce_spaced _ none _ (List.pairwise_lt_range.filter _) (by simp)).2

/-- The tempo of a lag in range is in [60, 200] (R186, R189). -/
theorem bpmWord_spec {sr lag : Nat} (hsr : 1 ≤ sr) (hlag : lag ∈ lags sr) :
    isFinite (bpmWord sr lag) = true ∧ 60 ≤ realValue (bpmWord sr lag) ∧ realValue (bpmWord sr lag) ≤ 200 := by
  obtain ⟨hmin, hmax⟩ := mem_lags.mp hlag
  unfold lagMin at hmin
  unfold lagMax at hmax
  have hlo : 60 * (1024 * lag) ≤ 60 * sr := by omega
  have hhi : 60 * sr ≤ 200 * (1024 * lag) := by omega
  have hpos : 0 < 1024 * lag := by omega
  obtain ⟨hf, hle⟩ := rne32_feature_le (n := 60 * sr) (u := 200 * 2 ^ 149) hpos (rep_mul_pow (by norm_num) (by norm_num))
    (by rw [Nat.mul_right_comm 200]; exact Nat.mul_le_mul_right _ hhi)
  have hge : 60 * 2 ^ 149 ≤ magUnits (rne32 (60 * sr) (1024 * lag)) :=
    le_pack false hpos (rep_mul_pow (by norm_num) (by norm_num))
      (by rw [Nat.mul_right_comm]; exact Nat.mul_le_mul_right _ hlo)
  have hval : realValue (bpmWord sr lag) = (magUnits (rne32 (60 * sr) (1024 * lag)) : ℚ) / 2 ^ 149 := by
    rw [realValue, bpmWord, realUnits_of_pos (signBit_of_feature hf)]
    push_cast
    rfl
  refine ⟨isFinite_of_feature hf, ?_, ?_⟩
  · rw [hval, le_div_iff₀ (by positivity)]
    exact_mod_cast hge
  · rw [hval, div_le_iff₀ (by positivity)]
    exact_mod_cast hle

theorem State.withTempo_tempoLag (s : State) (ons : List Nat) : (s.withTempo ons).tempoLag =
    match tempoLagOf (autocorr ons s.nhops.toNat) (lags s.sr.toNat) with | some lag => word lag | none => 0 := by
  cases s; rfl

theorem State.withTempo_tempoBpm (s : State) (ons : List Nat) : (s.withTempo ons).tempoBpm =
    match tempoLagOf (autocorr ons s.nhops.toNat) (lags s.sr.toNat) with
    | some lag => bpmWord s.sr.toNat lag | none => zero32 := by
  cases s; rfl

/-- TEMPO leaves a tempo in range, or none and zeros (R189, R190). -/
theorem tempo_withTempo {s : State} (ons : List Nat) (h1 : 1 ≤ s.sr.toNat) (h2 : s.sr.toNat ≤ 192000) :
    TempoInRange (s.withTempo ons) ∧ NoTempoIsZero (s.withTempo ons) := by
  unfold TempoInRange NoTempoIsZero
  rw [State.withTempo_tempoFound, State.withTempo_tempoLag, State.withTempo_tempoBpm]
  cases hlag : tempoLagOf (autocorr ons s.nhops.toNat) (lags s.sr.toNat) with
  | none => exact ⟨by simp, fun _ => ⟨rfl, rfl⟩⟩
  | some lag =>
    obtain ⟨hl1, hl2⟩ := tempoLagOf_bounds h1 h2 hlag
    have hw : (word lag).toNat = lag := word_toNat (by omega)
    refine ⟨fun _ => ?_, by simp⟩
    simp only [hw]
    exact ⟨hl1, hl2, bpmWord_spec h1 (tempoLagOf_mem hlag)⟩

/-- A series word of a hop record is a bounded feature. -/
theorem HopFeatures.hopWord {s : State} (hs : HopFeatures s) {h i : Nat} (hh : h < s.nhops.toNat) (hi : i < 10) :
    BoundedFeature (s.hopWord h (seriesHopWord i)) := by
  have hj : seriesHopWord i < 11 := by unfold seriesHopWord; split_ifs <;> omega
  obtain ⟨v, hv, hb⟩ := hs.1 h _ hh hj
  rw [State.hopWord, hv]
  exact hb

/-- The resampled values are bounded features (R203). -/
theorem boundedFeature_resampledValue {s : State} (hc : ConfigFacts s) (hs : HopFeatures s) (k : Nat) {i : Nat}
    (hi : i < 10) : BoundedFeature (resampledValue s k i) := by
  have hn := hc.nhopsPos
  unfold resampledValue
  simp only
  split_ifs with hlast
  · exact hs.hopWord (by omega) hi
  · exact interpolate_spec (e := 229) (by norm_num) (by norm_num) (frameFrac_inUnit hc.fpsPos)
      (hs.hopWord (by omega) hi) (hs.hopWord (by omega) hi)

theorem frameRecord_series (s : State) (k : Nat) {i : Nat} (hi : i < 10) :
    (frameRecord s k)[2 + i]? = some (resampledValue s k i) := by
  interval_cases i <;> rfl

theorem frameFeatures_resampled {s : State} (hc : ConfigFacts s) (hs : HopFeatures s) :
    FrameFeatures s.resampled := by
  intro k i hk hi
  rw [State.resampled_nframes] at hk
  rw [(State.resampled_read s .frame _).1 k (2 + i) rfl (by omega) hk (by omega), frameRecord_series s k hi]
  exact ⟨_, rfl, boundedFeature_resampledValue hc hs k hi⟩

theorem FrameFeatures.frameWord {s : State} (hs : FrameFeatures s) {k i : Nat} (hk : k < s.nframes.toNat) (hi : i < 10) :
    BoundedFeature (s.frameWord k (seriesFrameWord i)) := by
  obtain ⟨v, hv, hb⟩ := hs k i hk hi
  rw [State.frameWord, seriesFrameWord, ← Nat.add_assoc, hv]
  exact hb

/-- The smoothed values are bounded features (R206, R207). -/
theorem boundedFeature_smoothSeries {s : State} (hc : ConfigFacts s) (hs : FrameFeatures s) {i : Nat} (hi : i < 10) :
    ∀ v ∈ smoothSeries s.smooth (frameSeries s i), BoundedFeature v := by
  refine smoothSeries_spec (e := 229) (by norm_num) (by norm_num) hc.smoothUnit _ fun v hv => ?_
  obtain ⟨k, hk, rfl⟩ := List.mem_map.mp hv
  exact hs.frameWord (List.mem_range.mp hk) hi

theorem smoothedTable_getD (s : State) {i : Nat} (hi : i < 10) :
    (smoothedTable s).getD i [] = smoothSeries s.smooth (frameSeries s i) := by
  simp [smoothedTable, List.getD_eq_getElem?_getD, hi]

theorem frameFeatures_smoothed {s : State} (hc : ConfigFacts s) (hs : FrameFeatures s) : FrameFeatures s.smoothed := by
  intro k i hk hi
  rw [State.smoothed_nframes] at hk
  rw [State.smoothed_mem, (Memory.read_frameSeries s.mem _ _ .frame _).1 k i rfl rfl hk hi, smoothedTable_getD s hi]
  have hlt : k < (smoothSeries s.smooth (frameSeries s i)).length := by simpa [frameSeries] using hk
  rw [List.getD_eq_getElem _ _ hlt]
  exact ⟨_, rfl, boundedFeature_smoothSeries hc hs hi _ (List.getElem_mem hlt)⟩

end Sys2Proof.Machine

namespace Sys2Proof.Machine

/-! ### Each body keeps the pipeline invariants -/

theorem PipelineInv.configHolds {s : State} (hs : PipelineInv s) (h : s.stage ≠ .invalid) : configHolds s = true := by
  obtain ⟨hconf, -⟩ := (pipelineInv_iff s).mp hs
  exact hconf h

/-- From stage 2 on the hop records hold bounded features. -/
theorem PipelineInv.hopFeatures {s : State} (hs : PipelineInv s) (h : 2 ≤ stageNumber s.stage) : HopFeatures s := by
  obtain ⟨-, ⟨hfeat, -⟩, -⟩ := (pipelineInv_iff s).mp hs
  exact hfeat h

/-- At stages 5 and 6 the frame records hold bounded features. -/
theorem PipelineInv.frameFeatures {s : State} (hs : PipelineInv s) (h : s.stage = .resampled ∨ s.stage = .smoothed) :
    FrameFeatures s := by
  obtain ⟨-, ⟨-, hframes⟩, -⟩ := (pipelineInv_iff s).mp hs
  exact hframes h

theorem PipelineInv.onsetList {s : State} (hs : PipelineInv s) (h : 3 ≤ stageNumber s.stage) :
    ∃ ons, OnsetList s ons := by
  obtain ⟨-, -, honsets, -⟩ := (pipelineInv_iff s).mp hs
  exact honsets h

theorem PipelineInv.tempoInRange {s : State} (hs : PipelineInv s) : TempoInRange s := by
  obtain ⟨-, -, -, hrange, -⟩ := (pipelineInv_iff s).mp hs
  exact hrange

theorem PipelineInv.noTempoIsZero {s : State} (hs : PipelineInv s) (h : 4 ≤ stageNumber s.stage) :
    NoTempoIsZero s := by
  obtain ⟨-, -, -, -, hnone⟩ := (pipelineInv_iff s).mp hs
  exact hnone h

/-- The words of a hop record of a completed ANALYZE are bounded features: finite words are, since rms and flux are among
them (log 8). -/
theorem boundedFeature_of_finite_words {s : State} {xs : List Word} (hsr : s.sr.toNat ≤ 192000)
    (hlegal : ∀ v ∈ xs, legalSample v = true) {h : Nat} (hfin : HopIsFinite s xs h) :
    ∀ w ∈ (hopRecord s.sr.toNat s.hannSym xs h).words, BoundedFeature w :=
  hopRecord_words_spec hsr hlegal hfin.1 hfin.2

theorem configBody_keeps_pipelineInv {s t : State} (h : configBody s = .ok t) : PipelineInv t := by
  obtain ⟨nh, nf, hcounts, rfl⟩ := configBody_eq_ok.mp h
  rw [pipelineInv_iff, State.configured_stage]
  exact ⟨fun _ => configHolds_configured hcounts, ⟨fun h => absurd h (by decide), fun h => absurd h (by decide)⟩,
    fun h => absurd h (by decide), fun h => absurd h Bool.false_ne_true, fun h => absurd h (by decide)⟩

theorem spectrumBody_keeps_pipelineInv {n : Nat} {s t : State} (hs : PipelineInv s) (h : spectrumBody n s = .ok t) :
    PipelineInv t := by
  obtain ⟨-, -, -, xs, -, -, rfl⟩ := spectrumBody_eq_ok.mp h
  generalize windowed s.hannSym (padWindow xs) = w
  have hcfg := keepsConfig_withSpectrum s w
  have htmp := keepsTempo_withSpectrum s w
  rw [pipelineInv_iff, State.withSpectrum_stage, hcfg.configHolds_eq]
  refine ⟨hs.configHolds, ⟨fun h => (hs.hopFeatures h).keep hcfg (keepsFeatures_withSpectrum s w), fun h k i hk hi => ?_⟩,
    fun h => (hs.onsetList h).imp fun _ ho => ho.keep hcfg (keepsOnsets_withSpectrum s w), hs.tempoInRange.keep htmp,
    fun h => (hs.noTempoIsZero h).keep htmp⟩
  rw [State.withSpectrum_read_ne s w (by decide) (by decide)]
  exact hs.frameFeatures h k i (hcfg.nframes ▸ hk) hi

theorem analyzeBody_keeps_pipelineInv {s t : State} (hs : PipelineInv s) (h : analyzeBody s = .ok t) :
    PipelineInv t := by
  obtain ⟨-, hconf, xs, hread, hfin, rfl⟩ := analyzeBody_eq_ok.mp h
  have hfacts := configFacts hconf
  have hwords : ∀ h, h < s.nhops.toNat → ∀ w ∈ (hopRecord s.sr.toNat s.hannSym xs h).words, BoundedFeature w := by
    intro h hh
    have hmem : ∀ w ∈ (hopRecord s.sr.toNat s.hannSym xs h).words, isFinite w = true := fun w hw =>
      hfin w (List.mem_append_left _ (List.mem_append_left _
        (List.mem_flatMap.mpr ⟨_, List.mem_map_of_mem (List.mem_range.mpr hh), hw⟩)))
    exact boundedFeature_of_finite_words hfacts.srLe (readPcm_eq_ok.mp hread).2
      ⟨hmem _ (HopRecord.rms_mem_words _), hmem _ (HopRecord.flux_mem_words _)⟩
  rw [pipelineInv_iff, (keepsConfig_analyzed s xs _).configHolds_eq, State.analyzed_stage]
  exact ⟨fun _ => hconf, ⟨fun _ => hopFeatures_analyzed hfacts.srLe hwords, fun h => absurd h (by decide)⟩,
    fun h => absurd h (by decide), hs.tempoInRange.keep (keepsTempo_analyzed s xs _), fun h => absurd h (by decide)⟩

/-- A successful read gives one word for each index. -/
theorem length_of_readWords {m : Memory} {id : BufId} {is : List Nat} {vs : List Word} (h : readWords m id is = .ok vs) :
    vs.length = is.length := by
  have := congrArg List.length (readWords_eq_ok.mp h)
  simpa using this.symm

theorem onsetBody_keeps_pipelineInv {s t : State} (hs : PipelineInv s) (h : onsetBody s = .ok t) : PipelineInv t := by
  obtain ⟨hstage, hconf, fs, hread, -, -, rfl⟩ := onsetBody_eq_ok.mp h
  have hlen : (fs.map magUnits).length = s.nhops.toNat := by
    rw [List.length_map, length_of_readWords hread, List.length_map, List.length_range]
  have hcfg := keepsConfig_withOnsets s (fs.map magUnits)
  have hfeat := hs.hopFeatures (by rw [hstage]; decide)
  rw [pipelineInv_iff, hcfg.configHolds_eq, State.withOnsets_stage]
  exact ⟨fun _ => hconf, ⟨fun _ => hfeat.keep hcfg (keepsFeatures_withOnsets s hlen), fun h => absurd h (by decide)⟩,
    fun _ => ⟨_, onsetList_withOnsets hlen⟩, hs.tempoInRange.keep (keepsTempo_withOnsets s _), fun h => absurd h (by decide)⟩

theorem tempoBody_keeps_pipelineInv {s t : State} (hs : PipelineInv s) (h : tempoBody s = .ok t) : PipelineInv t := by
  obtain ⟨hstage, hconf, ons, -, rfl⟩ := tempoBody_eq_ok.mp h
  have hfacts := configFacts hconf
  have hcfg := keepsConfig_withTempo s ons
  obtain ⟨hrange, hnone⟩ := tempo_withTempo ons hfacts.srPos hfacts.srLe
  have hfeat := hs.hopFeatures (by rw [hstage]; decide)
  have honsets := hs.onsetList (by rw [hstage]; decide)
  rw [pipelineInv_iff, hcfg.configHolds_eq, State.withTempo_stage]
  exact ⟨fun _ => hconf, ⟨fun _ => hfeat.keep hcfg (keepsFeatures_withTempo s ons), fun h => absurd h (by decide)⟩,
    fun _ => honsets.imp fun _ ho => ho.keep hcfg (keepsOnsets_withTempo s ons), hrange, fun _ => hnone⟩

/-- A command from stage 4 on that changes the frame records and the stage alone keeps the invariants, if it leaves
bounded features where stages 5 and 6 ask for them. -/
theorem PipelineInv.of_keepsAllButFrames {s t : State} (hs : PipelineInv s) (hstage : 4 ≤ stageNumber s.stage)
    (hk : KeepsAllButFrames s t) (hframes : t.stage = .resampled ∨ t.stage = .smoothed → FrameFeatures t) :
    PipelineInv t := by
  have hvalid : s.stage ≠ .invalid := fun h => by rw [h] at hstage; exact absurd hstage (by decide)
  rw [pipelineInv_iff, hk.config.configHolds_eq]
  exact ⟨fun _ => hs.configHolds hvalid,
    ⟨fun _ => (hs.hopFeatures (by omega)).keep hk.config hk.features, hframes⟩,
    fun _ => (hs.onsetList (by omega)).imp fun _ ho => ho.keep hk.config hk.onsets, hs.tempoInRange.keep hk.tempo,
    fun _ => (hs.noTempoIsZero hstage).keep hk.tempo⟩

theorem resampleBody_keeps_pipelineInv {s t : State} (hs : PipelineInv s) (h : resampleBody s = .ok t) :
    PipelineInv t := by
  obtain ⟨hstage, hconf, -, -, rfl⟩ := resampleBody_eq_ok.mp h
  refine hs.of_keepsAllButFrames (by rw [hstage]; decide) (keepsAllButFrames_resampled s) fun _ => ?_
  exact frameFeatures_resampled (configFacts hconf) (hs.hopFeatures (by rw [hstage]; decide))

theorem smoothBody_keeps_pipelineInv {s t : State} (hs : PipelineInv s) (h : smoothBody s = .ok t) : PipelineInv t := by
  obtain ⟨hstage, hconf, -, -, rfl⟩ := smoothBody_eq_ok.mp h
  refine hs.of_keepsAllButFrames (by rw [hstage]; decide) (keepsAllButFrames_smoothed s) fun _ => ?_
  exact frameFeatures_smoothed (configFacts hconf) (hs.frameFeatures (.inl hstage))

theorem normalizeBody_keeps_pipelineInv {s t : State} (hs : PipelineInv s) (h : normalizeBody s = .ok t) :
    PipelineInv t := by
  obtain ⟨hstage, -, -, -, rfl⟩ := normalizeBody_eq_ok.mp h
  refine hs.of_keepsAllButFrames (by rw [hstage]; decide) (keepsAllButFrames_normalized s) fun h => ?_
  rw [State.normalized_stage] at h
  rcases h with h | h <;> cases h

theorem beatBody_keeps_pipelineInv {s t : State} (hs : PipelineInv s) (h : beatBody s = .ok t) : PipelineInv t := by
  obtain ⟨hstage, -, ons, -, -, rfl⟩ := beatBody_eq_ok.mp h
  refine hs.of_keepsAllButFrames (by rw [hstage]; decide) (keepsAllButFrames_withBeats s ons) fun h => ?_
  rw [State.withBeats_stage] at h
  rcases h with h | h <;> cases h

/-- Every command of RUN keeps the pipeline invariants. -/
theorem runCommands_keep_pipelineInv : ∀ c ∈ runCommands, ∀ s t, PipelineInv s → c s = .ok t → PipelineInv t := by
  intro c hc s t hs h
  simp only [runCommands, List.mem_cons, List.not_mem_nil, or_false] at hc
  rcases hc with rfl | rfl | rfl | rfl | rfl | rfl | rfl | rfl
  · exact configBody_keeps_pipelineInv h
  · exact analyzeBody_keeps_pipelineInv hs h
  · exact onsetBody_keeps_pipelineInv hs h
  · exact tempoBody_keeps_pipelineInv hs h
  · exact resampleBody_keeps_pipelineInv hs h
  · exact smoothBody_keeps_pipelineInv hs h
  · exact normalizeBody_keeps_pipelineInv hs h
  · exact beatBody_keeps_pipelineInv hs h

/-! ### Steps -/

theorem exec_keeps_pipelineInv {i : Instr} {s t : State} (hs : PipelineInv s) (h : exec i s = .next t) :
    PipelineInv t :=
  exec_induction (P := PipelineInv) (fun _ _ _ => spectrumBody_keeps_pipelineInv) runCommands_keep_pipelineInv
    (fun _ hu => hu.of_pipelineView_eq rfl) (fun _ _ hu => hu.of_pipelineView_eq rfl) hs h

theorem engineTurn_keeps_pipelineInv {s t : State} (hs : PipelineInv s) (h : engineTurn s = .next t) :
    PipelineInv t := by
  rcases engineTurn_eq_next h with rfl | rfl | ⟨w, i, -, -, hi⟩
  · exact hs
  · exact hs.of_pipelineView_eq rfl
  · exact exec_keeps_pipelineInv hs hi

theorem hostWrite_keeps_pipelineInv {s t : State} {size : Nat} {off : BitVec 12} {v : Word} (hs : PipelineInv s)
    (h : hostWrite s size off v = .next t) : PipelineInv t := by
  rcases hostWrite_eq_next h with rfl | ⟨r, rfl⟩
  · exact hs
  · rcases pipelineView_writeReg s v r with hr | ⟨h1, h2⟩
    · exact hs.of_pipelineView_eq hr
    · exact .of_invalid h1 h2

/-- Settles O58: each command establishes the part of its stage and keeps the others; a host access leaves what the
invariants look at, or invalidates. -/
theorem stepKeepsPipelineInv : Obligations.StepKeepsPipelineInv := by
  intro s t hs h
  obtain ⟨rest, h⟩ := step_eq_next h
  have hu : PipelineInv { s with inputs := rest } := hs.of_pipelineView_eq rfl
  rcases h with h | ⟨size, off, h⟩ | ⟨size, off, v, h⟩ | rfl
  · exact engineTurn_keeps_pipelineInv hu h
  · exact hu.of_pipelineView_eq (pipelineView_hostRead h)
  · exact hostWrite_keeps_pipelineInv hu h
  · exact .of_invalid rfl rfl

end Sys2Proof.Machine

/-! ## Faults: how a step can stop the machine -/

namespace Sys2Proof.Machine

/-! ### Reachable states -/

/-- A property of the states right after reset that every step keeps holds of every reachable state. -/
theorem Reachable.invariant {P : State → Prop} (hstart : ∀ inputs, P { State.reset with inputs := inputs })
    (hstep : ∀ s t, P s → step s = .next t → P t) {s : State} (h : Reachable s) : P s := by
  induction h with
  | start inputs => exact hstart inputs
  | next s t _ one ih => exact hstep s t ih one

theorem Reachable.pipelineInv {s : State} (h : Reachable s) : PipelineInv s :=
  h.invariant (fun _ => .of_invalid rfl rfl) stepKeepsPipelineInv

/-! ### Decoding -/

/-- A word is its two fields (R100). -/
theorem toNat_eq_fields (w : Word) : w.toNat = argField w * 256 + opField w := by
  have := w.isLt
  simp only [argField, opField, BitVec.extractLsb'_toNat, Nat.shiftRight_eq_div_pow]
  omega

theorem withoutArg_eq_ok {w : Word} {i j : Instr} (h : withoutArg w i = .ok j) : argField w = 0 ∧ i = j := by
  unfold withoutArg at h
  split_ifs at h with h0
  cases h
  exact ⟨h0, rfl⟩

/-- The fields of a word that decodes are the opcode and the argument of its command (R101 to R103). -/
theorem fields_of_decode {w : Word} {i : Instr} (h : decode w = .ok i) :
    opField w = opcodeOf i ∧ argField w = argOf i := by
  unfold decode at h
  split at h
  case h_3 hop =>
    cases h
    exact ⟨hop, rfl⟩
  case h_12 => cases h
  all_goals
    rename_i hop
    obtain ⟨harg, rfl⟩ := withoutArg_eq_ok h
    exact ⟨hop, harg⟩

/-- A word that decodes is the word of its command (R100). -/
theorem eq_ofNat_of_decode {w : Word} {i : Instr} (h : decode w = .ok i) :
    w = BitVec.ofNat 32 (argOf i * 256 + opcodeOf i) := by
  obtain ⟨hop, harg⟩ := fields_of_decode h
  rw [← hop, ← harg, ← toNat_eq_fields, BitVec.ofNat_toNat, BitVec.setWidth_eq]

/-! ### Host accesses and the engine's turn -/

/-- How a host read can stop the machine (R61, R71). -/
theorem hostRead_eq_fault {s : State} {size : Nat} {off : BitVec 12} {f : Fault} (h : hostRead s size off = .fault f) :
    f = .busError ∨ f = .unwritten (selectedBuffer s.bufSel) s.bufIdx.toNat := by
  unfold hostRead at h
  split at h
  · cases h; exact .inl rfl
  split at h
  · cases h
  · unfold portRead at h
    simp only at h
    split_ifs at h
    split at h
    · cases h; exact .inr rfl
    · cases h
  · cases h
  · cases h

/-- How a host write can stop the machine (R71). -/
theorem hostWrite_eq_fault {s : State} {size : Nat} {off : BitVec 12} {v : Word} {f : Fault}
    (h : hostWrite s size off v = .fault f) : f = .busError := by
  unfold hostWrite at h
  split at h
  · cases h; rfl
  · split at h <;> cases h

/-- The engine's turn stops only in a command (R121). -/
theorem engineTurn_eq_fault {s : State} {f : Fault} (h : engineTurn s = .fault f) :
    ∃ w i, s.latch = some w ∧ decode w = .ok i ∧ exec i s = .fault f := by
  unfold engineTurn State.fetch at h
  split at h
  · cases h
  · rename_i w hw
    split at h
    · rename_i i hi
      exact ⟨w, i, hw, hi, h⟩
    · cases h

/-- How a step can stop: in the engine's turn, in a host read that comes next, or on a malformed access. -/
theorem step_eq_fault {s : State} {f : Fault} (h : step s = .fault f) :
    (∃ rest, engineTurn { s with inputs := rest } = .fault f) ∨ f = .busError ∨
      ∃ size off rest, s.inputs = .read size off :: rest ∧ f = .unwritten (selectedBuffer s.bufSel) s.bufIdx.toNat := by
  unfold step at h
  split at h
  · exact .inl ⟨s.inputs, h⟩
  · rename_i e rest hi
    cases e with
    | engine => exact .inl ⟨rest, h⟩
    | read size off =>
      rcases hostRead_eq_fault h with hf | hf
      · exact .inr (.inl hf)
      · exact .inr (.inr ⟨size, off, rest, hi, hf⟩)
    | write size off v => exact .inr (.inl (hostWrite_eq_fault h))
    | hardReset => cases h

/-! ### The faults a computation can record -/

/-- Every fault that a computation of a command records is one of `P`. -/
def FaultsIn {α : Type} (P : Fault → Prop) (c : Cmd α) : Prop := ∀ f, c = .error (.fault f) → P f

/-- A computation that completes or fails with an error code. -/
def NoFault {α : Type} (c : Cmd α) : Prop := FaultsIn (fun _ => False) c

theorem faultsIn_ok {α : Type} {P : Fault → Prop} (x : α) : FaultsIn P (.ok x : Cmd α) := fun _ h => nomatch h

theorem faultsIn_bind {α β : Type} {P : Fault → Prop} {a : Cmd α} {g : α → Cmd β} (ha : FaultsIn P a)
    (hg : ∀ x, a = .ok x → FaultsIn P (g x)) : FaultsIn P (a >>= g) := by
  intro f h
  rcases Cmd.bind_eq_error.mp h with h | ⟨x, hx, h⟩
  · exact ha f h
  · exact hg x hx f h

theorem faultsIn_check {P : Fault → Prop} (b : Bool) (e : ErrCode) : FaultsIn P (check b e) :=
  fun _ h => nomatch (check_eq_error.mp h).2

theorem faultsIn_assume {P : Fault → Prop} {b : Bool} {f : Fault} (hb : b = false → P f) : FaultsIn P (assume b f) := by
  intro f' h
  obtain ⟨hfalse, hf⟩ := assume_eq_error.mp h
  cases hf
  exact hb hfalse

/-- What holds is assumed without a fault. -/
theorem faultsIn_assume_of_true {P : Fault → Prop} {b : Bool} (hb : b = true) (f : Fault) : FaultsIn P (assume b f) :=
  faultsIn_assume fun h => absurd h (by simp [hb])

theorem faultsIn_assumeFinite {P : Fault → Prop} {ws : List Word} (h : ∀ w ∈ ws, isFinite w = true) :
    FaultsIn P (assumeFinite ws) :=
  faultsIn_assume_of_true (List.all_eq_true.mpr h) _

theorem faultsIn_assumeFeatures {P : Fault → Prop} {ws : List Word} (h : ∀ w ∈ ws, isFeature w = true) :
    FaultsIn P (assumeFeatures ws) :=
  faultsIn_assume_of_true (List.all_eq_true.mpr h) _

theorem noFault_readWords {m : Memory} {id : BufId} {is : List Nat} (h : ∀ i ∈ is, m.read id i ≠ none) :
    NoFault (readWords m id is) := by
  intro f hf
  obtain ⟨i, hi, hnone, -⟩ := readWords_eq_error hf
  exact h i hi hnone

/-- At a stage that a command requires, the configuration holds: what follows decides its faults (R122, R249). -/
theorem faultsIn_of_stage {P : Fault → Prop} {s : State} {st : Stage} {c : Cmd State} (hs : PipelineInv s)
    (hst : st ≠ .invalid) (hc : s.stage = st → ConfigFacts s → FaultsIn P c) :
    FaultsIn P (requireStage s st >>= fun _ => assumeConfig s >>= fun _ => c) := by
  refine faultsIn_bind (faultsIn_check _ _) fun u hu => ?_
  have hstage : s.stage = st := by simpa using check_eq_ok.mp hu
  have hconf : configHolds s = true := hs.configHolds (hstage ▸ hst)
  exact faultsIn_bind (faultsIn_assume_of_true hconf _) fun _ _ => hc hstage (configFacts hconf)

/-- Every word that a successful read of words gives stands in the buffer. -/
theorem mem_of_readWords {m : Memory} {id : BufId} {is : List Nat} {vs : List Word} (h : readWords m id is = .ok vs)
    {v : Word} (hv : v ∈ vs) : ∃ i ∈ is, m.read id i = some v := by
  have hmem : some v ∈ is.map (m.read id) := by
    rw [readWords_eq_ok.mp h]
    exact List.mem_map_of_mem hv
  exact List.mem_map.mp hmem

/-- Reading words that are written bounded features records no fault and gives bounded features. -/
theorem readWords_of_boundedFeature {m : Memory} {id : BufId} {is : List Nat}
    (h : ∀ i ∈ is, ∃ v, m.read id i = some v ∧ BoundedFeature v) :
    NoFault (readWords m id is) ∧ ∀ vs, readWords m id is = .ok vs → ∀ v ∈ vs, BoundedFeature v := by
  constructor
  · refine noFault_readWords fun i hi hnone => ?_
    obtain ⟨v, hv, -⟩ := h i hi
    rw [hnone] at hv
    cases hv
  · intro vs hvs v hv
    obtain ⟨i, hi, hread⟩ := mem_of_readWords hvs hv
    obtain ⟨u, hu, hb⟩ := h i hi
    rw [hread] at hu
    cases hu
    exact hb

/-! ### The commands from ONSET on record no fault -/

theorem onsetBody_noFault {s : State} (hs : PipelineInv s) : NoFault (onsetBody s) := by
  refine faultsIn_of_stage hs (by decide) fun hstage _ => ?_
  have hfeat := hs.hopFeatures (by rw [hstage]; decide)
  obtain ⟨hread, hfs⟩ := readWords_of_boundedFeature (m := s.mem) (id := .hopf)
    (is := (List.range s.nhops.toNat).map fun i => 12 * i + 2) (by
      intro i hi
      obtain ⟨h, hh, rfl⟩ := List.mem_map.mp hi
      exact hfeat.1 h 2 (List.mem_range.mp hh) (by norm_num))
  refine faultsIn_bind hread fun fs hok => ?_
  refine faultsIn_bind (faultsIn_assumeFeatures fun v hv => (hfs fs hok v hv).1) fun _ _ => ?_
  refine faultsIn_bind (faultsIn_assumeFinite fun w hw => ?_) fun _ _ => faultsIn_ok _
  obtain ⟨i, -, rfl⟩ := List.mem_map.mp hw
  refine isFinite_of_feature (thresholdWord_spec (e := 229) (by norm_num) (fun f hf => ?_) i).1
  obtain ⟨v, hv, rfl⟩ := List.mem_map.mp hf
  exact (hfs fs hok v hv).2

/-- The onset list is what the commands read (R55). -/
theorem readOnsets_of_onsetList {s : State} {ons : List Nat} (h : OnsetList s ons) : readOnsets s = .ok ons := by
  obtain ⟨hlen, hread, -, hlt, -⟩ := h
  refine readOnsets_eq_ok.mpr ⟨ons.map word, readWords_eq_ok.mpr (List.ext_getElem? fun j => ?_), ?_⟩
  · rcases Nat.lt_or_ge j ons.length with hj | hj
    · have := hread j ons[j] (List.getElem?_eq_getElem hj)
      simp [List.getElem?_range (hlen ▸ hj), List.getElem?_eq_getElem hj, this]
    · simp [List.getElem?_eq_none hj, hlen ▸ hj]
  · rw [List.map_map]
    refine (List.map_id'' (fun _ => rfl) ons).symm.trans (List.map_congr_left fun o ho => ?_)
    exact (word_toNat (lt_trans (hlt o ho) s.nhops.isLt)).symm

theorem tempoBody_noFault {s : State} (hs : PipelineInv s) : NoFault (tempoBody s) := by
  refine faultsIn_of_stage hs (by decide) fun hstage _ => ?_
  obtain ⟨ons, hons⟩ := hs.onsetList (by rw [hstage]; decide)
  rw [readOnsets_of_onsetList hons]
  exact faultsIn_bind (faultsIn_ok _) fun _ _ => faultsIn_ok _

theorem resampleBody_noFault {s : State} (hs : PipelineInv s) : NoFault (resampleBody s) := by
  refine faultsIn_of_stage hs (by decide) fun hstage hfacts => ?_
  have hfeat := hs.hopFeatures (by rw [hstage]; decide)
  obtain ⟨hread, hhs⟩ := readWords_of_boundedFeature (m := s.mem) (id := .hopf)
    (is := hopSeriesIndices s.nhops.toNat) (by
      intro i hi
      obtain ⟨h, hh, hi⟩ := List.mem_flatMap.mp hi
      obtain ⟨j, hj, rfl⟩ := List.mem_map.mp hi
      exact hfeat.1 h j (List.mem_range.mp hh) (lt_trans (List.mem_range.mp hj) (by norm_num)))
  refine faultsIn_bind hread fun xs hok => ?_
  refine faultsIn_bind (faultsIn_assumeFeatures fun v hv => (hhs xs hok v hv).1) fun _ _ => ?_
  refine faultsIn_bind (faultsIn_assumeFinite fun w hw => ?_) fun _ _ => faultsIn_ok _
  obtain ⟨k, hk, hw⟩ := List.mem_flatMap.mp hw
  rcases List.mem_cons.mp hw with rfl | hw
  · exact isFinite_of_feature (frameTime_spec hfacts.fpsPos hfacts.srPos (le_trans hfacts.nsampLe pMax_le)
      (hfacts.nframes ▸ List.mem_range.mp hk)).1
  · obtain ⟨i, hi, rfl⟩ := List.mem_map.mp hw
    exact isFinite_of_feature (boundedFeature_resampledValue hfacts hfeat k (List.mem_range.mp hi)).1

/-- The series words of the frame records can be read at stages 5 and 6. -/
theorem FrameFeatures.readable {s : State} (hs : FrameFeatures s) :
    NoFault (readWords s.mem .frame (frameSeriesIndices s.nframes.toNat)) ∧
      ∀ vs, readWords s.mem .frame (frameSeriesIndices s.nframes.toNat) = .ok vs → ∀ v ∈ vs, BoundedFeature v := by
  refine readWords_of_boundedFeature fun i hi => ?_
  obtain ⟨k, hk, hi⟩ := List.mem_flatMap.mp hi
  obtain ⟨j, hj, rfl⟩ := List.mem_map.mp hi
  rw [seriesFrameWord, ← Nat.add_assoc]
  exact hs k j (List.mem_range.mp hk) (List.mem_range.mp hj)

theorem smoothBody_noFault {s : State} (hs : PipelineInv s) : NoFault (smoothBody s) := by
  refine faultsIn_of_stage hs (by decide) fun hstage hfacts => ?_
  have hfeat := hs.frameFeatures (.inl hstage)
  obtain ⟨hreadable, hbounded⟩ := hfeat.readable
  refine faultsIn_bind hreadable fun xs hok => ?_
  refine faultsIn_bind (faultsIn_assumeFeatures fun v hv => (hbounded xs hok v hv).1) fun _ _ => ?_
  refine faultsIn_bind (faultsIn_assumeFinite fun w hw => ?_) fun _ _ => faultsIn_ok _
  obtain ⟨l, hl, hw⟩ := List.mem_flatten.mp hw
  obtain ⟨i, hi, rfl⟩ := List.mem_map.mp hl
  exact isFinite_of_feature (boundedFeature_smoothSeries hfacts hfeat (List.mem_range.mp hi) w hw).1

theorem normalizeBody_noFault {s : State} (hs : PipelineInv s) : NoFault (normalizeBody s) := by
  refine faultsIn_of_stage hs (by decide) fun hstage _ => ?_
  obtain ⟨hreadable, hbounded⟩ := (hs.frameFeatures (.inr hstage)).readable
  refine faultsIn_bind hreadable fun xs hok => ?_
  refine faultsIn_bind (faultsIn_assumeFeatures fun v hv => (hbounded xs hok v hv).1) fun _ _ => ?_
  refine faultsIn_bind (faultsIn_assumeFeatures fun w hw => ?_) fun _ _ => faultsIn_ok _
  obtain ⟨i, hi, rfl⟩ := List.mem_map.mp hw
  exact ((hs.hopFeatures (by rw [hstage]; decide)).2 i (List.mem_range.mp hi)).1

theorem beatBody_noFault {s : State} (hs : PipelineInv s) : NoFault (beatBody s) := by
  refine faultsIn_of_stage hs (by decide) fun hstage _ => ?_
  obtain ⟨ons, hons⟩ := hs.onsetList (by rw [hstage]; decide)
  rw [readOnsets_of_onsetList hons]
  refine faultsIn_bind (faultsIn_ok _) fun ons' hok => ?_
  cases hok
  refine faultsIn_bind (faultsIn_assume_of_true ?_ _) fun _ _ => faultsIn_ok _
  obtain ⟨-, -, hspaced, -, -⟩ := hons
  have hrising : ons.Pairwise (· < ·) := hspaced.imp fun h => h.1
  have hlag : s.tempoFound = true → s.tempoLag.toNat ≠ 0 := fun h => by
    have := (hs.tempoInRange h).1
    omega
  rw [beatInputsHold, decide_eq_true hrising, Bool.true_and]
  cases hfound : s.tempoFound with
  | false => rfl
  | true => simpa using hlag hfound

/-- The commands of RUN after ANALYZE record no fault. -/
theorem noFault_after_analyze : ∀ c ∈ runCommands.drop 2, ∀ s, PipelineInv s → NoFault (c s) := by
  intro c hc s hs
  simp only [runCommands, List.drop_succ_cons, List.drop_zero, List.mem_cons, List.not_mem_nil, or_false] at hc
  rcases hc with rfl | rfl | rfl | rfl | rfl | rfl
  · exact onsetBody_noFault hs
  · exact tempoBody_noFault hs
  · exact resampleBody_noFault hs
  · exact smoothBody_noFault hs
  · exact normalizeBody_noFault hs
  · exact beatBody_noFault hs

theorem configBody_noFault (s : State) : NoFault (configBody s) := by
  intro f h
  obtain ⟨e, -, he⟩ := configBody_eq_error.mp h
  cases he

/-- A sequence of commands that record no fault where an invariant holds, and keep it, records none. -/
theorem runSequence_ne_fault {P : State → Prop} {cs : List (State → Cmd State)}
    (hkeep : ∀ c ∈ cs, ∀ u v, P u → c u = .ok v → P v) (hnf : ∀ c ∈ cs, ∀ u, P u → NoFault (c u)) {s : State}
    (hs : P s) (f : Fault) : runSequence cs s ≠ .fault f := by
  induction cs generalizing s with
  | nil => exact fun h => nomatch h
  | cons c cs ih =>
    rcases hcs : c s with (e | f') | u
    · rw [runSequence_cons_error hcs]
      exact fun h => nomatch h
    · exact absurd hcs (hnf c (by simp) s hs f')
    · rw [runSequence_cons_ok hcs]
      exact ih (fun c' h => hkeep c' (List.mem_cons_of_mem _ h)) (fun c' h => hnf c' (List.mem_cons_of_mem _ h))
        (hkeep c (by simp) s u hs hcs)

/-! ### SPECTRUM and ANALYZE -/

/-- The fault of an unwritten word of the stream (R61). -/
def PcmFault (s : State) (f : Fault) : Prop :=
  ∃ k, k < s.nsamp.toNat ∧ s.mem.read .pcm k = none ∧ f = .unwritten .pcm k

/-- The fault of a stream of which an rms or a flux overflows (R16, log 8). -/
def OverflowFault (s : State) (f : Fault) : Prop :=
  f = .notFinite ∧ ∃ xs h, IsStream s xs ∧ h * 1024 < s.nsamp.toNat ∧ ¬HopIsFinite s xs h

theorem faultsIn_readPcm {s : State} {is : List Nat} (his : ∀ i ∈ is, i < s.nsamp.toNat) :
    FaultsIn (PcmFault s) (readPcm s.mem is) := by
  intro f h
  rcases readPcm_eq_error h with h | ⟨k, hk, hnone, hf⟩
  · cases h
  · cases hf
    exact ⟨k, his k hk, hnone, rfl⟩

theorem mem_windowIndices {nsamp h n : Nat} (hn : n ∈ windowIndices nsamp h) : n < nsamp := by
  rw [windowIndices, List.mem_range'_1] at hn
  omega

theorem isStream_of_readPcm {s : State} {xs : List Word} (h : readPcm s.mem (List.range s.nsamp.toNat) = .ok xs) :
    IsStream s xs := by
  have hmap := (readPcm_eq_ok.mp h).1
  refine ⟨by simpa using (congrArg List.length hmap).symm, fun n v hv => ?_⟩
  have hn : n < s.nsamp.toNat := by
    have := (List.getElem?_eq_some_iff.mp hv).1
    simpa using lt_of_lt_of_eq this (by simpa using (congrArg List.length hmap).symm)
  have := congrArg (·[n]?) hmap
  simpa [List.getElem?_range hn, hv] using this

/-- The words of the spectrum of a window of legal samples are finite (R16, R155). -/
theorem spectrum_words_finite {sym : Bool} {x : List Word} (hx : ∀ v ∈ x, isFinite v = true ∧ magUnits v ≤ 2 ^ 149) :
    ∀ v ∈ fftmag (windowed sym x) ++ waveform (windowed sym x), isFinite v = true := by
  have hw := windowed_spec (sym := sym) hx
  intro v hv
  rcases List.mem_append.mp hv with hv | hv
  · exact isFinite_of_feature (fftmag_feature (fun u hu => (hw u hu).1) v hv)
  · exact waveform_finite hw v hv

theorem padWindow_legal {x : List Word} (hx : ∀ v ∈ x, legalSample v = true) :
    ∀ v ∈ padWindow x, isFinite v = true ∧ magUnits v ≤ 2 ^ 149 := by
  intro v hv
  rcases List.mem_append.mp hv with hv | hv
  · exact (legalSample_iff v).mp (hx v hv)
  · rw [List.eq_of_mem_replicate hv]
    simp

theorem spectrumBody_faultsIn {s : State} (hs : PipelineInv s) (n : Nat) :
    FaultsIn (PcmFault s) (spectrumBody n s) := by
  refine faultsIn_bind (faultsIn_check _ _) fun u hu => ?_
  have hconf : configHolds s = true := hs.configHolds (by simpa using check_eq_ok.mp hu)
  refine faultsIn_bind (faultsIn_assume_of_true hconf _) fun _ _ => ?_
  refine faultsIn_bind (faultsIn_check _ _) fun _ _ => ?_
  refine faultsIn_bind (faultsIn_readPcm fun i => mem_windowIndices) fun x hx => ?_
  exact faultsIn_bind (faultsIn_assumeFinite (spectrum_words_finite (padWindow_legal (readPcm_eq_ok.mp hx).2)))
    fun _ _ => faultsIn_ok _

/-- ANALYZE can stop only on an unwritten word of the stream, or on an rms or a flux that overflows. -/
theorem analyzeBody_faultsIn {s : State} (hs : PipelineInv s) :
    FaultsIn (fun f => PcmFault s f ∨ OverflowFault s f) (analyzeBody s) := by
  refine faultsIn_of_stage hs (by decide) fun _ hfacts => ?_
  have hpcm := faultsIn_readPcm (s := s) (is := List.range s.nsamp.toNat) fun i hi => List.mem_range.mp hi
  refine faultsIn_bind (fun f hf => .inl (hpcm f hf)) fun xs hx => ?_
  refine faultsIn_bind (faultsIn_assume fun hbad => .inr ⟨rfl, ?_⟩) fun _ _ => faultsIn_ok _
  have hlegal := (readPcm_eq_ok.mp hx).2
  by_contra hcon
  have hfin : ∀ h, h < s.nhops.toNat → HopIsFinite s xs h := by
    intro h hh
    by_contra hinf
    refine hcon ⟨xs, h, isStream_of_readPcm hx, ?_, hinf⟩
    rw [hfacts.nhops, nHops] at hh
    omega
  refine absurd (List.all_eq_true.mpr fun w hw => ?_) (Bool.eq_false_iff.mp hbad)
  rw [List.append_assoc] at hw
  rcases List.mem_append.mp hw with hw | hw
  · obtain ⟨r, hr, hw⟩ := List.mem_flatMap.mp hw
    obtain ⟨h, hh, rfl⟩ := List.mem_map.mp hr
    exact isFinite_of_feature (boundedFeature_of_finite_words hfacts.srLe hlegal (hfin h (List.mem_range.mp hh)) w hw).1
  · exact spectrum_words_finite (hopWindow_legal hlegal _) w hw

/-! ### Commands and reachable states -/

/-- RUN stops only as its ANALYZE does, on the stream it started with (R129, R130). -/
theorem execRun_eq_fault {s : State} {f : Fault} (h : execRun s = .fault f) : PcmFault s f ∨ OverflowFault s f := by
  rw [execRun, runCommands] at h
  rcases hc : configBody s with (e | f') | u
  · rw [runSequence_cons_error hc] at h
    cases h
  · exact absurd hc (configBody_noFault s f')
  · rw [runSequence_cons_ok hc] at h
    have hu := configBody_keeps_pipelineInv hc
    obtain ⟨nh, nf, -, rfl⟩ := configBody_eq_ok.mp hc
    rcases ha : analyzeBody (s.configured nh nf) with (e | f') | v
    · rw [runSequence_cons_error ha] at h
      cases h
    · rw [runSequence_cons_fault ha] at h
      cases h
      exact analyzeBody_faultsIn hu f ha
    · rw [runSequence_cons_ok ha] at h
      exact absurd h (runSequence_ne_fault (fun c hc => runCommands_keep_pipelineInv c (List.mem_of_mem_drop hc))
        noFault_after_analyze (analyzeBody_keeps_pipelineInv hu ha) f)

/-- How a command can stop where the pipeline invariants hold. -/
theorem exec_eq_fault {i : Instr} {s : State} {f : Fault} (hs : PipelineInv s) (h : exec i s = .fault f) :
    PcmFault s f ∨ ((i = .analyze ∨ i = .run) ∧ OverflowFault s f) := by
  have hnf : ∀ {c : Cmd State}, NoFault c → finish s c = .fault f →
      PcmFault s f ∨ ((i = .analyze ∨ i = .run) ∧ OverflowFault s f) :=
    fun hc h => (hc f (finish_eq_fault.mp h)).elim
  cases i with
  | nop => exact hnf (faultsIn_ok s) h
  | config => exact hnf (configBody_noFault s) h
  | spectrum n => exact .inl (spectrumBody_faultsIn hs n f (finish_eq_fault.mp h))
  | analyze => exact (analyzeBody_faultsIn hs f (finish_eq_fault.mp h)).imp id fun ho => ⟨.inl rfl, ho⟩
  | onset => exact hnf (onsetBody_noFault hs) h
  | tempo => exact hnf (tempoBody_noFault hs) h
  | resample => exact hnf (resampleBody_noFault hs) h
  | smooth => exact hnf (smoothBody_noFault hs) h
  | normalize => exact hnf (normalizeBody_noFault hs) h
  | beat => exact hnf (beatBody_noFault hs) h
  | run => exact (execRun_eq_fault h).imp id fun ho => ⟨.inr rfl, ho⟩

/-- Settles O60: the pipeline invariants of reachable states leave a command only the words of the stream, and an rms or
a flux, to stop on. -/
theorem faultsOfReachableStates : Obligations.FaultsOfReachableStates := by
  intro s f hreach h
  rcases step_eq_fault h with ⟨rest, hturn⟩ | hbus | hread
  · obtain ⟨w, i, hlatch, hdec, hexec⟩ := engineTurn_eq_fault hturn
    have hlatch : s.latch = some w := hlatch
    have hu : PipelineInv { s with inputs := rest } := hreach.pipelineInv.of_pipelineView_eq rfl
    rcases exec_eq_fault hu hexec with hpcm | ⟨hi, hf, hover⟩
    · exact .inr (.inr (.inl ⟨by simp [hlatch], hpcm⟩))
    · refine .inr (.inr (.inr ⟨hf, ?_, hover⟩))
      rw [hlatch, eq_ofNat_of_decode hdec]
      rcases hi with rfl | rfl
      · exact .inl rfl
      · exact .inr rfl
  · exact .inl hbus
  · exact .inr (.inl hread)

end Sys2Proof.Machine

/-! ## Rounding to nearest, ties to even -/

namespace Sys2Proof.Machine

/-! ### The two representable magnitudes around a value -/

/-- `lo` and `hi` are the representable magnitudes next to a value of `n/d` units: the value lies between them, no finite
magnitude lies strictly between them, and the rounded magnitude is the nearer one, the even one on a tie (R12). -/
structure RoundBracket (n d lo hi : Nat) : Prop where
  le : lo * d ≤ n
  lt : n < hi * d
  gap : ∀ c, unitsOfBits c ≤ lo ∨ hi ≤ unitsOfBits c
  down : 2 * n < (lo + hi) * d → unitsOfBits (roundMag n d) = lo
  up : (lo + hi) * d < 2 * n → unitsOfBits (roundMag n d) = hi
  tie : 2 * n = (lo + hi) * d →
    roundMag n d % 2 = 0 ∧ (unitsOfBits (roundMag n d) = lo ∨ unitsOfBits (roundMag n d) = hi)

/-- Two neighbouring bit patterns of the same exponent leave no magnitude between their own. -/
theorem unitsOfBits_gap {k q : Nat} (h1 : q < 2 ^ 24) (h2 : k = 0 ∨ 2 ^ 23 ≤ q) (hfin : k * 2 ^ 23 + q < 0x7F800000)
    (c : Nat) : unitsOfBits c ≤ q * 2 ^ k ∨ (q + 1) * 2 ^ k ≤ unitsOfBits c := by
  have hlo : unitsOfBits (k * 2 ^ 23 + q) = q * 2 ^ k := unitsOfBits_normal k q h1 h2
  have hhi : unitsOfBits (k * 2 ^ 23 + (q + 1)) = (q + 1) * 2 ^ k := by
    rcases Nat.lt_or_ge (q + 1) (2 ^ 24) with h | h
    · exact unitsOfBits_normal k (q + 1) h (by omega)
    · have hq : q + 1 = 2 ^ 24 := by omega
      rw [hq, show k * 2 ^ 23 + 2 ^ 24 = (k + 1) * 2 ^ 23 + 2 ^ 23 by ring,
        unitsOfBits_normal _ _ (by norm_num) (.inr le_rfl)]
      ring
  rcases Nat.lt_or_ge (k * 2 ^ 23 + q) c with h | h
  · exact .inr (hhi ▸ (unitsOfBits_le_iff (by omega)).mpr (by omega))
  · refine .inl (hlo ▸ ?_)
    exact (unitsOfBits_le_iff (by omega)).mpr h

theorem roundHalfEven_of_lt {q r d : Nat} (h : 2 * r < d) : roundHalfEven q r d = q := by
  rw [roundHalfEven, if_neg (by omega), if_neg (by omega)]

theorem roundHalfEven_of_gt {q r d : Nat} (h : d < 2 * r) : roundHalfEven q r d = q + 1 := by
  rw [roundHalfEven, if_pos h]

theorem roundHalfEven_of_tie {q r d : Nat} (h : 2 * r = d) : roundHalfEven q r d = q + q % 2 := by
  rw [roundHalfEven, if_neg (by omega), if_pos h]

/-- Every value that rounds to a finite magnitude has its bracket, of width `2^dropBits`. -/
theorem exists_roundBracket {n d : Nat} (hd : 0 < d) (hfin : roundMag n d < 0x7F800000) :
    ∃ lo, RoundBracket n d lo (lo + 2 ^ dropBits (n / d)) := by
  have hunits := roundMag_units hfin
  obtain ⟨hq1, hq2⟩ := dropBits_spec (n / d)
  rw [Nat.div_div_eq_div_mul] at hq1 hq2
  have hbits : roundMag n d = min (dropBits (n / d) * 2 ^ 23 + roundHalfEven (n / (d * 2 ^ dropBits (n / d)))
    (n % (d * 2 ^ dropBits (n / d))) (d * 2 ^ dropBits (n / d))) 0x7F800000 := rfl
  generalize dropBits (n / d) = k at *
  have hdm : d * 2 ^ k * (n / (d * 2 ^ k)) + n % (d * 2 ^ k) = n := Nat.div_add_mod _ _
  have hmod : n % (d * 2 ^ k) < d * 2 ^ k := Nat.mod_lt _ (Nat.mul_pos hd (Nat.two_pow_pos k))
  generalize n / (d * 2 ^ k) = Q at *
  generalize n % (d * 2 ^ k) = r at *
  have hle := le_roundHalfEven Q r (d * 2 ^ k)
  have hlo : Q * 2 ^ k * d = d * 2 ^ k * Q := by ring
  have hhi : (Q * 2 ^ k + 2 ^ k) * d = d * 2 ^ k * Q + d * 2 ^ k := by ring
  have hmid : (Q * 2 ^ k + (Q * 2 ^ k + 2 ^ k)) * d = 2 * (d * 2 ^ k * Q) + d * 2 ^ k := by ring
  have hsucc : (Q + 1) * 2 ^ k = Q * 2 ^ k + 2 ^ k := by ring
  refine ⟨Q * 2 ^ k, ?_, ?_, fun c => ?_, fun h => ?_, fun h => ?_, fun h => ?_⟩
  · omega
  · omega
  · exact hsucc ▸ unitsOfBits_gap hq1 hq2 (by omega) c
  · rw [hunits, roundHalfEven_of_lt (by omega)]
  · rw [hunits, roundHalfEven_of_gt (by omega), hsucc]
  · have hr := roundHalfEven_of_tie (q := Q) (show 2 * r = d * 2 ^ k by omega)
    rw [hr] at hbits
    refine ⟨by omega, ?_⟩
    rw [hunits, hr]
    rcases Nat.mod_two_eq_zero_or_one Q with h0 | h0 <;> rw [h0]
    · exact .inl rfl
    · exact .inr hsucc

/-- A value below the halfway point above the largest finite magnitude rounds to a finite one. -/
theorem roundMag_lt_inf {n d : Nat} (hd : 0 < d) (h : n < (2 ^ 25 - 1) * 2 ^ 252 * d) : roundMag n d < 0x7F800000 := by
  have hmax : unitsOfBits 0x7F7FFFFF = (2 ^ 24 - 1) * 2 ^ 253 := unitsOfBits_normal 253 (2 ^ 24 - 1) (by norm_num)
    (.inr (by norm_num))
  rcases Nat.le_total n (unitsOfBits 0x7F7FFFFF * d) with hle | hge
  · exact lt_of_le_of_lt (roundMag_le hd hle) (by norm_num)
  have hlog : Nat.log2 (n / d) = 276 := by
    have h1 : unitsOfBits 0x7F7FFFFF ≤ n / d := (Nat.le_div_iff_mul_le hd).mpr hge
    have h2 : n / d < (2 ^ 25 - 1) * 2 ^ 252 := (Nat.div_lt_iff_lt_mul hd).mpr h
    have h276 : (2 : Nat) ^ 276 = 2 ^ 24 * 2 ^ 252 := by rw [← pow_add]
    have h277 : (2 : Nat) ^ 277 = 2 ^ 25 * 2 ^ 252 := by rw [← pow_add]
    have := (Nat.le_log2 (n := n / d) (k := 276) (by omega)).mpr (by omega)
    have := (Nat.log2_lt (n := n / d) (k := 277) (by omega)).mpr (by omega)
    omega
  have hdrop : dropBits (n / d) = 253 := by rw [dropBits, hlog]
  have hunit : (2 ^ 25 - 1) * 2 ^ 252 * d = (2 ^ 24 - 1) * (d * 2 ^ 253) + d * 2 ^ 252 := by ring
  have hge : (2 ^ 24 - 1) * (d * 2 ^ 253) ≤ n := by rw [hmax] at hge; linarith
  have hhalf : d * 2 ^ 253 = 2 * (d * 2 ^ 252) := by ring
  have hQ : n / (d * 2 ^ 253) = 2 ^ 24 - 1 := Nat.div_eq_of_lt_le hge (by omega)
  have hR : n % (d * 2 ^ 253) = n - (2 ^ 24 - 1) * (d * 2 ^ 253) := by
    rw [Nat.mod_eq_sub_div_mul, hQ]
  rw [roundMag, hdrop, hQ, roundHalfEven_of_lt (by omega)]
  norm_num

end Sys2Proof.Machine

namespace Sys2Proof.Machine

/-! ### Real values -/

@[simp] theorem realValue_neg32 (w : Word) : realValue (neg32 w) = -realValue w := by
  rw [realValue, realValue, realUnits_neg32]
  push_cast
  ring

theorem realValue_le_iff {a b : Word} : realValue a ≤ realValue b ↔ realUnits a ≤ realUnits b := by
  rw [realValue, realValue, div_le_div_iff_of_pos_right (by positivity), Int.cast_le]

theorem realValue_nonneg_iff (w : Word) : 0 ≤ realValue w ↔ 0 ≤ realUnits w := by
  rw [realValue, le_div_iff₀ (by positivity), zero_mul, Int.cast_nonneg_iff]

theorem realValue_eq_zero_iff (w : Word) : realValue w = 0 ↔ magUnits w = 0 := by
  have h := natAbs_realUnits w
  rw [realValue, div_eq_zero_iff, or_iff_left (by positivity), Int.cast_eq_zero]
  omega

theorem getLsbD_zero_withSign (neg : Bool) {b : Nat} (h : b < 2 ^ 31) :
    (withSign neg b).getLsbD 0 = decide (b % 2 = 1) := by
  rw [BitVec.getLsbD, withSign_toNat neg h, Nat.testBit_zero]
  cases neg
  · rfl
  · simp only [if_true, decide_eq_decide]
    omega

theorem getLsbD_zero_neg32 (w : Word) : (neg32 w).getLsbD 0 = w.getLsbD 0 := by
  simp [neg32]

theorem withSign_true_eq_neg32 {b : Nat} (h : b < 2 ^ 31) : withSign true b = neg32 (withSign false b) := by
  rw [neg32_eq, signBit_withSign _ h, magBits_withSign _ h]
  rfl

/-! ### The nearer end of a bracket -/

section
variable {K : Type*} [Field K] [LinearOrder K] [IsStrictOrderedRing K] {lo hi x y : K}

/-- Below the middle of a bracket no value outside it is nearer than its lower end. -/
theorem abs_lo_sub_le (hlo : lo ≤ y) (hx : x ≤ lo ∨ hi ≤ x) (hy : 2 * y ≤ lo + hi) :
    |lo - y| ≤ |x - y| := by
  rw [abs_of_nonpos (by linarith)]
  rcases hx with hx | hx
  · rw [abs_of_nonpos (by linarith)]; linarith
  · rw [abs_of_nonneg (by linarith)]; linarith

/-- Above the middle of a bracket no value outside it is nearer than its upper end. -/
theorem abs_hi_sub_le (hhi : y ≤ hi) (hx : x ≤ lo ∨ hi ≤ x) (hy : lo + hi ≤ 2 * y) :
    |hi - y| ≤ |x - y| := by
  rw [abs_of_nonneg (by linarith)]
  rcases hx with hx | hx
  · rw [abs_of_nonpos (by linarith)]; linarith
  · rw [abs_of_nonneg (by linarith)]; linarith

theorem eq_lo_of_abs_eq (hlo : lo ≤ y) (hx : x ≤ lo ∨ hi ≤ x) (hy : 2 * y < lo + hi)
    (h : |x - y| = |lo - y|) : x = lo := by
  rw [abs_of_nonpos (show lo - y ≤ 0 by linarith)] at h
  rcases hx with hx | hx
  · rw [abs_of_nonpos (by linarith)] at h; linarith
  · rw [abs_of_nonneg (by linarith)] at h; linarith

theorem eq_hi_of_abs_eq (hhi : y ≤ hi) (hx : x ≤ lo ∨ hi ≤ x) (hy : lo + hi < 2 * y)
    (h : |x - y| = |hi - y|) : x = hi := by
  rw [abs_of_nonneg (show 0 ≤ hi - y by linarith)] at h
  rcases hx with hx | hx
  · rw [abs_of_nonpos (by linarith)] at h; linarith
  · rw [abs_of_nonneg (by linarith)] at h; linarith

end

/-- No word's value lies strictly inside a bracket. -/
theorem RoundBracket.realUnits_gap {n d lo hi : Nat} (hb : RoundBracket n d lo hi) (v : Word) :
    realUnits v ≤ lo ∨ (hi : ℤ) ≤ realUnits v := by
  have hgap := hb.gap (magBits v)
  rw [← magUnits_eq] at hgap
  unfold realUnits
  split_ifs <;> omega

/-- The rounded magnitude is as near to the value `y = n/d` as any word's, and the even one of two as near (R12). -/
theorem RoundBracket.nearest {n d lo hi : Nat} (hb : RoundBracket n d lo hi) {y : ℚ} (hy : y * d = n) (hd : 0 < d)
    (v : Word) : |(unitsOfBits (roundMag n d) : ℚ) - y| ≤ |(realUnits v : ℚ) - y| ∧
      (|(realUnits v : ℚ) - y| = |(unitsOfBits (roundMag n d) : ℚ) - y| →
        (realUnits v : ℚ) = unitsOfBits (roundMag n d) ∨ roundMag n d % 2 = 0) := by
  have hd' : (0 : ℚ) < d := by exact_mod_cast hd
  have hlo : (lo : ℚ) ≤ y := by
    refine le_of_mul_le_mul_right ?_ hd'
    rw [hy]
    exact_mod_cast hb.le
  have hhi : y ≤ hi := by
    refine le_of_mul_le_mul_right ?_ hd'
    rw [hy]
    exact_mod_cast hb.lt.le
  have hx : (realUnits v : ℚ) ≤ lo ∨ (hi : ℚ) ≤ realUnits v :=
    (hb.realUnits_gap v).imp (fun h => by exact_mod_cast h) (fun h => by exact_mod_cast h)
  have hmid : ∀ a b : ℚ, a * d < b * d ↔ a < b := fun a b => mul_lt_mul_iff_left₀ hd'
  rcases lt_trichotomy (2 * n) ((lo + hi) * d) with h | h | h
  · have hlt : 2 * y < lo + hi := by
      rw [← hmid, mul_assoc, hy]
      exact_mod_cast h
    rw [hb.down h]
    exact ⟨abs_lo_sub_le hlo hx hlt.le, fun he => .inl (eq_lo_of_abs_eq hlo hx hlt he)⟩
  · have heq : 2 * y = lo + hi := by
      refine mul_right_cancel₀ hd'.ne' ?_
      rw [mul_assoc, hy]
      exact_mod_cast h
    obtain ⟨heven, hu | hu⟩ := hb.tie h <;> rw [hu]
    · exact ⟨abs_lo_sub_le hlo hx heq.le, fun _ => .inr heven⟩
    · exact ⟨abs_hi_sub_le hhi hx heq.ge, fun _ => .inr heven⟩
  · have hgt : (lo : ℚ) + hi < 2 * y := by
      rw [← hmid, mul_assoc 2, hy]
      exact_mod_cast h
    rw [hb.up h]
    exact ⟨abs_hi_sub_le hhi hx hgt.le, fun he => .inl (eq_hi_of_abs_eq hhi hx hgt he)⟩

/-! ### Rounded words -/

theorem isFinite_pack (neg : Bool) {n d : Nat} : isFinite (withSign neg (roundMag n d)) = true ↔
    roundMag n d < 0x7F800000 := by
  rw [isFinite_iff, magBits_withSign _ (roundMag_lt n d)]

theorem realUnits_pack (n d : Nat) : realUnits (withSign false (roundMag n d)) = unitsOfBits (roundMag n d) := by
  rw [realUnits_of_pos (signBit_pack _ _ _), magUnits_withSign _ (roundMag_lt n d)]

/-- Distances in units. -/
theorem abs_realValue_sub (v : Word) (q : ℚ) : |realValue v - q| = |(realUnits v : ℚ) - q * 2 ^ 149| / 2 ^ 149 := by
  have h : realValue v - q = ((realUnits v : ℚ) - q * 2 ^ 149) / 2 ^ 149 := by
    rw [realValue, sub_div, mul_div_cancel_right₀ _ (by positivity)]
  rw [h, abs_div, abs_of_pos (show (0 : ℚ) < 2 ^ 149 by positivity)]

/-- The rounding of a non-negative value in range is the nearest word (R12). -/
theorem isNearest_pack_nonneg {n d : Nat} {q : ℚ} (hd : 0 < d) (hq : q * 2 ^ 149 * d = n) (hr : InRange q) :
    IsNearest (withSign false (roundMag n d)) q := by
  have hd' : (0 : ℚ) < d := by exact_mod_cast hd
  have hfin : roundMag n d < 0x7F800000 := by
    refine roundMag_lt_inf hd ?_
    have hlt : q < 2 ^ 128 - 2 ^ 103 := lt_of_le_of_lt (le_abs_self q) hr
    have hcast : (((2 ^ 25 - 1) * 2 ^ 252 * d : ℕ) : ℚ) = (2 ^ 128 - 2 ^ 103) * 2 ^ 149 * d := by
      rw [show (2 ^ 25 - 1 : ℕ) = 33554431 from rfl]
      push_cast
      ring
    refine (Nat.cast_lt (α := ℚ)).mp ?_
    rw [hcast, ← hq]
    exact mul_lt_mul_of_pos_right (mul_lt_mul_of_pos_right hlt (by positivity)) hd'
  obtain ⟨lo, hb⟩ := exists_roundBracket hd hfin
  refine ⟨(isFinite_pack _).mpr hfin, fun v _ => ?_⟩
  obtain ⟨hle, htie⟩ := hb.nearest hq hd v
  rw [abs_realValue_sub, abs_realValue_sub, realUnits_pack, Int.cast_natCast,
    div_le_div_iff_of_pos_right (by positivity), div_left_inj' (by positivity)]
  refine ⟨hle, fun h => ?_⟩
  rcases htie h with h | h
  · left
    rw [realValue, realValue, realUnits_pack, h, Int.cast_natCast]
  · right
    rw [getLsbD_zero_withSign _ (roundMag_lt n d), h]
    rfl

/-- The nearest word of the opposite value is the opposite word. -/
theorem IsNearest.neg {w : Word} {q : ℚ} (h : IsNearest w q) : IsNearest (neg32 w) (-q) := by
  obtain ⟨hfin, hnear⟩ := h
  refine ⟨by simpa using hfin, fun v hv => ?_⟩
  have hflip : ∀ a : ℚ, |a - -q| = |-a - q| := fun a => by rw [← abs_neg]; congr 1; ring
  obtain ⟨hle, htie⟩ := hnear (neg32 v) (by simpa using hv)
  rw [realValue_neg32] at hle htie
  rw [hflip, hflip, realValue_neg32, neg_neg, getLsbD_zero_neg32]
  exact ⟨hle, fun h => (htie h).imp (fun h => by rw [← h, neg_neg]) id⟩

/-- A sign and a rounded magnitude are the nearest word of the value (R12). -/
theorem isNearest_pack {neg : Bool} {n d : Nat} {q : ℚ} (hd : 0 < d)
    (hq : q * 2 ^ 149 * d = if neg then -(n : ℚ) else n) (hr : InRange q) :
    IsNearest (withSign neg (roundMag n d)) q := by
  cases neg with
  | false => exact isNearest_pack_nonneg hd (by simpa using hq) hr
  | true =>
    have hneg : -q * 2 ^ 149 * d = n := by
      rw [if_pos rfl] at hq
      linarith
    have := (isNearest_pack_nonneg hd hneg (by simpa [InRange] using hr)).neg
    rwa [neg_neg, ← withSign_true_eq_neg32 (roundMag_lt n d)] at this

/-- Settles O42: the bracket of the exact value holds no other word, and `roundHalfEven` picks its nearer end. -/
theorem roundingToNearestEven : Obligations.RoundingToNearestEven := by
  intro n d hd hr
  refine isNearest_pack hd ?_ hr
  have hd' : (d : ℚ) ≠ 0 := by exact_mod_cast hd.ne'
  rw [if_neg (by simp), mul_right_comm, div_mul_cancel₀ _ hd']
  push_cast
  rfl

/-! ### The four operations -/

theorem isNearest_add32 {a b : Word} (ha : isFinite a = true) (hb : isFinite b = true)
    (hr : InRange (realValue a + realValue b)) : IsNearest (add32 a b) (realValue a + realValue b) := by
  have hsum : (realValue a + realValue b) * 2 ^ 149 * ((1 : ℕ) : ℚ) = ((realUnits a + realUnits b : ℤ) : ℚ) := by
    rw [realValue, realValue]
    push_cast
    field_simp
  rw [add32_of_finite ha hb]
  split_ifs with h0
  · rw [← roundMag_zero 1]
    exact isNearest_pack one_pos (by rw [hsum, h0]; simp) hr
  · refine isNearest_pack one_pos ?_ hr
    rw [hsum, Nat.cast_natAbs]
    rcases lt_or_ge (realUnits a + realUnits b) 0 with h | h
    · rw [decide_eq_true h, if_pos rfl, abs_of_neg h]
      push_cast
      ring
    · rw [decide_eq_false (by omega), if_neg (by simp), abs_of_nonneg h]

theorem isNearest_sub32 {a b : Word} (ha : isFinite a = true) (hb : isFinite b = true)
    (hr : InRange (realValue a - realValue b)) : IsNearest (sub32 a b) (realValue a - realValue b) := by
  rw [sub32_of_finite ha hb]
  rw [sub_eq_add_neg, ← realValue_neg32] at *
  exact isNearest_add32 ha (by simpa using hb) hr

/-- A word's units from its sign and its magnitude. -/
theorem realUnits_cast (w : Word) : (realUnits w : ℚ) = if signBit w then -(magUnits w : ℚ) else magUnits w := by
  unfold realUnits
  split_ifs <;> simp

/-- The product of two words' units: the signs' product and the magnitudes'. -/
theorem realUnits_mul_cast (a b : Word) : (realUnits a : ℚ) * realUnits b =
    if signBit a != signBit b then -((magUnits a : ℚ) * magUnits b) else (magUnits a : ℚ) * magUnits b := by
  rw [realUnits_cast, realUnits_cast]
  cases signBit a <;> cases signBit b <;> simp

/-- The quotient of two words' units: the signs' product and the magnitudes' quotient. -/
theorem realUnits_div_cast (a b : Word) : (realUnits a : ℚ) / realUnits b =
    if signBit a != signBit b then -((magUnits a : ℚ) / magUnits b) else (magUnits a : ℚ) / magUnits b := by
  rw [realUnits_cast, realUnits_cast]
  cases signBit a <;> cases signBit b <;> simp [neg_div, div_neg]

theorem isNearest_mul32 {a b : Word} (ha : isFinite a = true) (hb : isFinite b = true)
    (hr : InRange (realValue a * realValue b)) : IsNearest (mul32 a b) (realValue a * realValue b) := by
  have hprod : realValue a * realValue b * 2 ^ 149 * ((2 ^ 149 : ℕ) : ℚ) = (realUnits a : ℚ) * realUnits b := by
    rw [realValue, realValue]
    push_cast
    ring
  rw [mul32_of_finite ha hb]
  refine isNearest_pack (by positivity) ?_ hr
  rw [hprod, realUnits_mul_cast, Nat.cast_mul]

theorem isNearest_div32 {a b : Word} (ha : isFinite a = true) (hb : isFinite b = true) (h0 : realValue b ≠ 0)
    (hr : InRange (realValue a / realValue b)) : IsNearest (div32 a b) (realValue a / realValue b) := by
  have hm : magUnits b ≠ 0 := fun h => h0 ((realValue_eq_zero_iff b).mpr h)
  have hquot : realValue a / realValue b = (realUnits a : ℚ) / realUnits b := by
    rw [realValue, realValue, div_div_div_cancel_right₀ (by positivity)]
  have hscale : (magUnits a : ℚ) / magUnits b * 2 ^ 149 * magUnits b = ((magUnits a * 2 ^ 149 : ℕ) : ℚ) := by
    have hm' : (magUnits b : ℚ) ≠ 0 := by exact_mod_cast hm
    rw [mul_right_comm, div_mul_cancel₀ _ hm']
    push_cast
    rfl
  rw [div32_of_finite ha hb hm]
  refine isNearest_pack (Nat.pos_of_ne_zero hm) ?_ hr
  rw [hquot, realUnits_div_cast, ← hscale]
  split_ifs <;> ring

/-! ### Maximum and minimum -/

theorem realValue_max32 {a b : Word} (ha : isFinite a = true) (hb : isFinite b = true) :
    (max32 a b = a ∨ max32 a b = b) ∧ realValue (max32 a b) = max (realValue a) (realValue b) := by
  obtain ⟨hor, h1, h2⟩ := max32_spec (not_isNaN_of_finite ha) (not_isNaN_of_finite hb)
  refine ⟨hor, le_antisymm ?_ (max_le (realValue_le_iff.mpr h1) (realValue_le_iff.mpr h2))⟩
  rcases hor with h | h <;> rw [h]
  · exact le_max_left _ _
  · exact le_max_right _ _

theorem realValue_min32 {a b : Word} (ha : isFinite a = true) (hb : isFinite b = true) :
    (min32 a b = a ∨ min32 a b = b) ∧ realValue (min32 a b) = min (realValue a) (realValue b) := by
  obtain ⟨hor, h1, h2⟩ := min32_spec (not_isNaN_of_finite ha) (not_isNaN_of_finite hb)
  refine ⟨hor, le_antisymm (le_min (realValue_le_iff.mpr h1) (realValue_le_iff.mpr h2)) ?_⟩
  rcases hor with h | h <;> rw [h]
  · exact min_le_left _ _
  · exact min_le_right _ _

/-- Settles O43: each operation is a sign and one rounding of the exact magnitude. -/
theorem arithmeticIsCorrectlyRounded : Obligations.ArithmeticIsCorrectlyRounded := by
  intro a b ha hb
  obtain ⟨hmax, hmaxv⟩ := realValue_max32 ha hb
  obtain ⟨hmin, hminv⟩ := realValue_min32 ha hb
  exact ⟨isNearest_add32 ha hb, isNearest_sub32 ha hb, isNearest_mul32 ha hb, isNearest_div32 ha hb,
    hmax, hmaxv, hmin, hminv⟩

end Sys2Proof.Machine

namespace Sys2Proof.Machine

/-! ### The square root -/

/-- What `sqrt32` answers on a feature that is not zero: the root of its units, or half above the integer root, rounded. -/
theorem sqrt32_of_feature {a : Word} (ha : isFeature a = true) (h0 : magUnits a ≠ 0) :
    sqrt32 a = withSign false (roundMag
      (if isqrt 256 (magUnits a * 2 ^ 149) * isqrt 256 (magUnits a * 2 ^ 149) = magUnits a * 2 ^ 149
        then 2 * isqrt 256 (magUnits a * 2 ^ 149) else 2 * isqrt 256 (magUnits a * 2 ^ 149) + 1) 2) := by
  have hf := isFinite_of_feature ha
  simp [sqrt32, not_isNaN_of_finite hf, h0, signBit_of_feature ha, not_isInf_of_finite hf]

theorem mul_two_pow_lt {m i j k : Nat} (hm : m < 2 ^ i) (h : i + j ≤ k) : m * 2 ^ j < 2 ^ k :=
  calc m * 2 ^ j < 2 ^ i * 2 ^ j := Nat.mul_lt_mul_of_pos_right hm (Nat.two_pow_pos j)
    _ = 2 ^ (i + j) := (pow_add 2 i j).symm
    _ ≤ 2 ^ k := Nat.pow_le_pow_right two_pos h

/-- The integer root of a feature's units is the floor of the real one. -/
theorem isqrt_feature {a : Word} (ha : isFeature a = true) :
    isqrt 256 (magUnits a * 2 ^ 149) = Nat.sqrt (magUnits a * 2 ^ 149) := by
  have hlt : magUnits a * 2 ^ 149 < 4 ^ 256 :=
    lt_of_lt_of_eq (mul_two_pow_lt (magUnits_lt_of_finite (isFinite_of_feature ha)) (by norm_num)) (pow_mul 2 2 256)
  obtain ⟨h1, h2⟩ := isqrt_spec 256 _ hlt
  exact Nat.eq_sqrt.mpr ⟨h1, h2⟩

/-- The real square root of a feature in units of 2^-149. -/
theorem sqrt_realValue {a : Word} (ha : isFeature a = true) :
    Real.sqrt (realValue a : ℚ) = Real.sqrt ((magUnits a * 2 ^ 149 : ℕ) : ℝ) / 2 ^ 149 := by
  have hval : ((realValue a : ℚ) : ℝ) = ((magUnits a * 2 ^ 149 : ℕ) : ℝ) / (2 ^ 149 * 2 ^ 149) := by
    rw [realValue, realUnits_of_pos (signBit_of_feature ha), Nat.cast_mul, Nat.cast_pow, Nat.cast_ofNat,
      mul_div_mul_right _ _ (by positivity)]
    push_cast
    rfl
  rw [hval, Real.sqrt_div (Nat.cast_nonneg _), Real.sqrt_mul_self (by positivity)]

/-- A real strictly between consecutive naturals rounds as the halfway point does, where the bracket has an even sum:
no rounding boundary lies strictly between the naturals (R12). -/
theorem RoundBracket.nearest_of_half {r lo hi : Nat} (hb : RoundBracket (2 * r + 1) 2 lo hi) (heven : (lo + hi) % 2 = 0)
    {x : ℝ} (h1 : (r : ℝ) ≤ x) (h2 : x ≤ r + 1) (v : Word) :
    |(unitsOfBits (roundMag (2 * r + 1) 2) : ℝ) - x| ≤ |(realUnits v : ℝ) - x| := by
  have hgap : (realUnits v : ℝ) ≤ lo ∨ (hi : ℝ) ≤ realUnits v :=
    (hb.realUnits_gap v).imp (fun h => by exact_mod_cast h) (fun h => by exact_mod_cast h)
  have hle := hb.le
  have hlt := hb.lt
  have hlo : (lo : ℝ) ≤ r := by exact_mod_cast (show lo ≤ r by omega)
  have hhi : (r : ℝ) + 1 ≤ hi := by exact_mod_cast (show r + 1 ≤ hi by omega)
  rcases Nat.lt_or_ge (2 * r + 1) (lo + hi) with h | h
  · have hmid : (2 : ℝ) * (r + 1) ≤ lo + hi := by exact_mod_cast (show 2 * (r + 1) ≤ lo + hi by omega)
    rw [hb.down (by omega)]
    exact abs_lo_sub_le (by linarith) hgap (by linarith)
  · have hmid : (lo : ℝ) + hi ≤ 2 * r := by exact_mod_cast (show lo + hi ≤ 2 * r by omega)
    rw [hb.up (by omega)]
    exact abs_hi_sub_le (by linarith) hgap (by linarith)

/-- The rounded root of `m` units is at least as near to the real root as any word (R12). -/
theorem nearest_sqrt_units {m : Nat} (hm : 2 ^ 48 ≤ m)
    (hfin : roundMag (if Nat.sqrt m * Nat.sqrt m = m then 2 * Nat.sqrt m else 2 * Nat.sqrt m + 1) 2 < 0x7F800000)
    (v : Word) : |(unitsOfBits (roundMag (if Nat.sqrt m * Nat.sqrt m = m then 2 * Nat.sqrt m else 2 * Nat.sqrt m + 1) 2)
      : ℝ) - Real.sqrt m| ≤ |(realUnits v : ℝ) - Real.sqrt m| := by
  split_ifs at hfin ⊢ with hsq
  · obtain ⟨lo, hb⟩ := exists_roundBracket two_pos hfin
    have hroot : Real.sqrt (m : ℝ) = ((Nat.sqrt m : ℚ) : ℝ) := by
      rw [← hsq, Nat.cast_mul, Real.sqrt_mul_self (Nat.cast_nonneg _), hsq]
      push_cast
      rfl
    have := (hb.nearest (y := (Nat.sqrt m : ℚ)) (by push_cast; ring) two_pos v).1
    rw [hroot]
    exact_mod_cast this
  · obtain ⟨lo, hb⟩ := exists_roundBracket two_pos hfin
    have hr : 2 ^ 24 ≤ Nat.sqrt m := Nat.le_sqrt.mpr (by omega)
    have hlog : 24 ≤ Nat.log2 ((2 * Nat.sqrt m + 1) / 2) := (Nat.le_log2 (by omega)).mpr (by omega)
    have heven : 2 ∣ 2 ^ dropBits ((2 * Nat.sqrt m + 1) / 2) := dvd_pow_self 2 (by unfold dropBits; omega)
    refine hb.nearest_of_half (by omega) (Real.nat_sqrt_le_real_sqrt) (Real.real_sqrt_le_nat_sqrt_succ) v

/-- Settles O44: zero is its own root, and any other root is far enough above the last place of a word that the halfway
point above its integer part rounds as the root does. -/
theorem squareRootIsNearest : Obligations.SquareRootIsNearest := by
  intro a v ha hv
  have hroot := (sqrt32_feature ha).1
  refine ⟨hroot, ?_⟩
  by_cases h0 : magUnits a = 0
  · have hs : sqrt32 a = a := by simp [sqrt32, not_isNaN_of_finite (isFinite_of_feature ha), h0]
    rw [hs, (realValue_eq_zero_iff a).mpr h0]
    simp
  have hm : 2 ^ 48 ≤ magUnits a * 2 ^ 149 := by
    calc (2 : ℕ) ^ 48 ≤ 1 * 2 ^ 149 := by norm_num
      _ ≤ magUnits a * 2 ^ 149 := Nat.mul_le_mul_right _ (Nat.pos_of_ne_zero h0)
  have hs := sqrt32_of_feature ha h0
  rw [isqrt_feature ha] at hs
  rw [hs] at hroot ⊢
  have hnear := nearest_sqrt_units hm ((isFinite_pack false).mp (isFinite_of_feature hroot)) v
  have hunits : ∀ w : Word, ((realValue w : ℚ) : ℝ) - Real.sqrt (realValue a : ℚ) =
      ((realUnits w : ℝ) - Real.sqrt ((magUnits a * 2 ^ 149 : ℕ) : ℝ)) / 2 ^ 149 := by
    intro w
    rw [sqrt_realValue ha, realValue]
    push_cast
    ring
  rw [hunits, hunits, abs_div, abs_div, div_le_div_iff_of_pos_right (by positivity), realUnits_pack, Int.cast_natCast]
  exact hnear

/-! ## The numerics parameter -/

/-- A word in the unit interval, as a real value. -/
theorem realValue_of_inUnit {w : Word} (h : inUnit w = true) :
    isFinite w = true ∧ 0 ≤ realValue w ∧ realValue w ≤ 1 := by
  obtain ⟨hf, h0, h1⟩ := (inUnit_iff w).mp h
  refine ⟨hf, (realValue_nonneg_iff w).mpr h0, ?_⟩
  rw [realValue, div_le_one (by positivity)]
  exact_mod_cast h1

theorem realValue_neg_iff (w : Word) : realValue w < 0 ↔ realUnits w < 0 := by
  rw [← not_le, ← not_le, realValue_nonneg_iff]

@[simp] theorem realValue_abs32 (w : Word) : realValue (abs32 w) = |realValue w| := by
  rw [realValue, realValue, realUnits_of_pos (signBit_abs32 w), magUnits_abs32, abs_div,
    abs_of_pos (show (0 : ℚ) < 2 ^ 149 by positivity), ← natAbs_realUnits, Int.cast_natCast, Nat.cast_natAbs]
  push_cast
  rfl

/-- FFT-IMPULSE (R15): one sample that is not zero gives its magnitude in every bin. -/
theorem fftmag_of_impulse {before after : List Word} {v : Word} (hv : magUnits v ≠ 0)
    (h : ∀ u ∈ before ++ after, magUnits u = 0) :
    fftmag (before ++ v :: after) = List.replicate 1025 (abs32 v) := by
  have hnil : ∀ l : List Word, (∀ u ∈ l, magUnits u = 0) → l.filter (fun u => magUnits u != 0) = [] := fun l hl => by
    rw [List.filter_eq_nil_iff]
    intro u hu
    simp [hl u hu]
  have hf : (before ++ v :: after).filter (fun u => magUnits u != 0) = [v] := by
    rw [List.filter_append, hnil before fun u hu => h u (by simp [hu]), List.filter_cons_of_pos (by simpa using hv),
      hnil after fun u hu => h u (by simp [hu])]
    rfl
  rw [fftmag, hf]

/-- Settles O45: the properties of R15 hold by the construction of the numerics parameter. -/
theorem numericsProperties : Obligations.NumericsProperties := by
  refine ⟨fun sym n => realValue_of_inUnit (hann_inUnit sym n),
    fun a ha => realValue_of_inUnit (numExp_inUnit ((realValue_neg_iff a).mp ha)), fun s hs => ?_⟩
  refine ⟨fftmag_length s, fun m hm => ?_, fun hzero m hm => ?_, ?_⟩
  · exact (isFeature_iff m).mp (fftmag_feature (fun v hv => (hs v hv).1) m hm)
  · rw [fftmag_of_zeros fun v hv => (realValue_eq_zero_iff v).mp (hzero v hv)] at hm
    exact List.eq_of_mem_replicate hm
  · rintro before after v rfl hv hrest m hm
    rw [fftmag_of_impulse (fun h => hv ((realValue_eq_zero_iff v).mpr h))
      fun u hu => (realValue_eq_zero_iff u).mp (hrest u hu)] at hm
    rw [List.eq_of_mem_replicate hm]
    exact ⟨signBit_abs32 v, realValue_abs32 v⟩

end Sys2Proof.Machine

/-! ## What a step writes: edits of the memory, and the frame of every command -/

namespace Sys2Proof.Machine

/-! ### Edits of the memory -/

/-- Every cell's index is within the capacity of the buffer (R50). -/
def CellsFit (id : BufId) (cs : List (Nat × Word)) : Prop := ∀ c ∈ cs, c.1 < capacity id

/-- `m'` is `m` after edits of buffers of `p` only: words stored within capacity, marks cleared. -/
inductive Memory.Edited (p : BufId → Bool) (m : Memory) : Memory → Prop where
  | refl : Edited p m m
  | store {m' : Memory} {id : BufId} {cs : List (Nat × Word)} (h : Edited p m m') (hid : p id = true)
      (hfit : CellsFit id cs) : Edited p m (m'.writeCells id cs)
  | clear {m' : Memory} {id : BufId} {marks : Nat → Bool} (h : Edited p m m') (hid : p id = true) :
      Edited p m (m'.clear id marks)

namespace Memory.Edited

variable {p q : BufId → Bool} {m m' m'' : Memory}

theorem trans (h : Edited p m m') (h' : Edited p m' m'') : Edited p m m'' := by
  induction h' with
  | refl => exact h
  | store _ hid hfit ih => exact ih.store hid hfit
  | clear _ hid ih => exact ih.clear hid

theorem mono (hpq : ∀ b, p b = true → q b = true) (h : Edited p m m') : Edited q m m' := by
  induction h with
  | refl => exact refl
  | store _ hid hfit ih => exact ih.store (hpq _ hid) hfit
  | clear _ hid ih => exact ih.clear (hpq _ hid)

/-- The words of a buffer that is not edited stay. -/
theorem read_eq (h : Edited p m m') {b : BufId} (hb : p b = false) (k : Nat) : m'.read b k = m.read b k := by
  have hne : ∀ {id}, p id = true → b ≠ id := by
    rintro id hid rfl
    rw [hb] at hid
    cases hid
  induction h with
  | refl => rfl
  | store _ hid _ ih => rw [Memory.read_writeCells_ne _ _ _ (hne hid), ih]
  | clear _ hid ih => rw [Memory.read_clear, if_neg fun h => hne hid h.1, ih]

theorem wf (h : Edited p m m') (hm : m.wf = true) : m'.wf = true := by
  induction h with
  | refl => exact hm
  | store _ _ _ ih => exact Memory.wf_writeCells ih _ _
  | clear _ _ ih => exact Memory.wf_clear ih _ _

theorem read_lt_capacity (h : Edited p m m') (hm : ∀ b k v, m.read b k = some v → k < capacity b) :
    ∀ b k v, m'.read b k = some v → k < capacity b := by
  induction h with
  | refl => exact hm
  | store _ _ hfit ih =>
    intro b k v hread
    rcases Memory.read_writeCells_cases _ hread with ⟨rfl, hmem⟩ | hread
    · exact hfit _ hmem
    · exact ih b k v hread
  | clear _ _ ih =>
    intro b k v hread
    rw [Memory.read_clear] at hread
    split_ifs at hread
    exact ih b k v hread

end Memory.Edited

/-- Edits keep the memory invariant. -/
theorem MemoryInv.of_edited {p : BufId → Bool} {s t : State} (hs : MemoryInv s) (h : s.mem.Edited p t.mem) :
    MemoryInv t := by
  obtain ⟨hwf, hcap⟩ := hs
  exact ⟨h.wf hwf, h.read_lt_capacity hcap⟩

/-! ### The cells that commands store fit their buffers -/

theorem cellsFit_cellsFrom {id : BufId} {vs : List Word} (h : vs.length ≤ capacity id) :
    CellsFit id (cellsFrom 0 vs) := by
  rintro ⟨k, v⟩ hc
  obtain ⟨j, rfl, hj⟩ := mem_cellsFrom.mp hc
  have := (List.getElem?_eq_some_iff.mp hj).1
  simp only
  omega

theorem windowed_length_le (sym : Bool) (x : List Word) : (windowed sym x).length ≤ 2048 := by
  rw [windowed, List.length_zipWith, List.length_map, List.length_range]
  exact Nat.min_le_right _ _

theorem cellsFit_fftmag (w : List Word) : CellsFit .mag (cellsFrom 0 (fftmag w)) :=
  cellsFit_cellsFrom (fftmag_length w).le

theorem cellsFit_waveform (sym : Bool) (x : List Word) : CellsFit .wave (cellsFrom 0 (waveform (windowed sym x))) := by
  have := windowed_length_le sym x
  refine cellsFit_cellsFrom ?_
  rw [waveform_length, capacity]
  omega

theorem cellsFit_hopRecords {s : State} (h : ConfigFacts s) (xs : List Word) :
    CellsFit .hopf (cellsFrom 0 ((hopRecords s xs).flatMap HopRecord.words)) := by
  refine cellsFit_cellsFrom ?_
  rw [hopRecords, List.flatMap_map, flatMap_range_length _ fun k => HopRecord.words_length _]
  exact Nat.mul_le_mul_left 12 h.nhopsLe

theorem cellsFit_thresholds {s : State} (h : ConfigFacts s) (flux : List Nat) :
    CellsFit .hopf ((List.range s.nhops.toNat).map fun i => (12 * i + 11, thresholdWord flux i)) := by
  intro c hc
  obtain ⟨i, hi, rfl⟩ := List.mem_map.mp hc
  have := List.mem_range.mp hi
  have := h.nhopsLe
  simp only [capacity]
  omega

theorem cellsFit_onsets {s : State} (h : ConfigFacts s) {flux : List Nat} (hf : flux.length = s.nhops.toNat) :
    CellsFit .onset (cellsFrom 0 ((onsetsOf s.sr.toNat flux).map word ++
      List.replicate (s.nhops.toNat - (onsetsOf s.sr.toNat flux).length) 0)) := by
  have hle := onsetsOf_length_le s.sr.toNat flux
  have := h.nhopsLe
  refine cellsFit_cellsFrom ?_
  rw [List.length_append, List.length_map, List.length_replicate, capacity]
  omega

theorem cellsFit_acorrWords (sr : Nat) (R : Nat → Nat) : CellsFit .acorr (cellsFrom 0 (acorrWords sr R)) :=
  cellsFit_cellsFrom (by rw [acorrWords, List.length_map, List.length_range, capacity])

theorem cellsFit_frameRecords {s : State} (h : ConfigFacts s) :
    CellsFit .frame (cellsFrom 0 ((List.range s.nframes.toNat).flatMap (frameRecord s))) := by
  refine cellsFit_cellsFrom ?_
  rw [flatMap_range_length _ (frameRecord_length s)]
  exact Nat.mul_le_mul_left 16 h.nframesLe

theorem cellsFit_frameSeries {s : State} (h : ConfigFacts s) (f : Nat → Nat → Word) :
    CellsFit .frame (frameSeriesCells s.nframes.toNat f) := by
  intro c hc
  obtain ⟨k, i, hk, hi, rfl⟩ := mem_frameSeriesCells.mp hc
  have := h.nframesLe
  simp only [capacity]
  omega

theorem cellsFit_beatCells {s : State} (h : ConfigFacts s) (ons : List Nat) :
    CellsFit .frame ((List.range s.nframes.toNat).flatMap (beatCells s ons)) := by
  intro c hc
  obtain ⟨k, hk, hck⟩ := List.mem_flatMap.mp hc
  have := List.mem_range.mp hk
  have := h.nframesLe
  simp only [beatCells, List.mem_cons, List.not_mem_nil, or_false] at hck
  rcases hck with rfl | rfl | rfl <;> simp only [capacity] <;> omega

/-! ### What a completed body does -/

/-- The state with every field at a fixed value that a command may change: what is left are the registers the host owns,
the port, and the model's own fields (R73, R75). -/
def State.hostView (s : State) : State :=
  { s with done := false, error := none, tempoFound := false, stage := .invalid, nhops := 0, nframes := 0,
           onsetCount := 0, tempoLag := 0, tempoBpm := 0, peakAmp := 0, peakRms := 0, peakFlux := 0,
           peakBands := ⟨0, 0, 0, 0, 0, 0, 0⟩, latch := none, mem := State.reset.mem }

/-- What every computation of a command does, whichever it is: the host's registers stay, buffers of `p` only are edited,
and a nonzero STAGE still has its configuration. -/
structure Effect (p : BufId → Bool) (s t : State) : Prop where
  host : t.hostView = s.hostView
  mem : s.mem.Edited p t.mem
  config : ConfigInv s → ConfigInv t

theorem Effect.refl (p : BufId → Bool) (s : State) : Effect p s s := ⟨rfl, .refl, id⟩

theorem Effect.trans {p : BufId → Bool} {s t u : State} (h : Effect p s t) (h' : Effect p t u) : Effect p s u :=
  ⟨h'.host.trans h.host, h.mem.trans h'.mem, fun hs => h'.config (h.config hs)⟩

theorem Effect.mono {p q : BufId → Bool} (hpq : ∀ b, p b = true → q b = true) {s t : State} (h : Effect p s t) :
    Effect q s t :=
  ⟨h.host, h.mem.mono hpq, h.config⟩

/-- A body that checked the configuration and keeps its registers keeps ConfigInv too (R249). -/
theorem Effect.of_configHolds {p : BufId → Bool} {s t : State} (hconf : configHolds s = true) (hk : KeepsConfig s t)
    (hhost : t.hostView = s.hostView) (hmem : s.mem.Edited p t.mem) : Effect p s t :=
  ⟨hhost, hmem, fun _ _ => hk.configHolds_eq.trans hconf⟩

theorem configBody_effect {s t : State} (h : configBody s = .ok t) : Effect (writesBuffer .config) s t := by
  obtain ⟨nh, nf, hcounts, rfl⟩ := configBody_eq_ok.mp h
  exact ⟨rfl, .refl, fun _ _ => configHolds_configured hcounts⟩

theorem spectrumBody_effect {n : Nat} {s t : State} (h : spectrumBody n s = .ok t) :
    Effect (writesBuffer (.spectrum n)) s t := by
  obtain ⟨-, hconf, -, xs, -, -, rfl⟩ := spectrumBody_eq_ok.mp h
  refine .of_configHolds hconf (keepsConfig_withSpectrum s _) (by cases s; rfl) ?_
  rw [State.withSpectrum_mem]
  exact (Memory.Edited.refl.store rfl (cellsFit_fftmag _)).store rfl (cellsFit_waveform _ _)

theorem State.analyzed_mem (s : State) (xs : List Word) (rs : List HopRecord) : (s.analyzed xs rs).mem =
    ((s.putCells .hopf (cellsFrom 0 (rs.flatMap HopRecord.words))).withSpectrum
      (windowed s.hannSym (hopWindow xs (s.nhops.toNat - 1)))).mem := by cases s; rfl

theorem analyzeBody_effect {s t : State} (h : analyzeBody s = .ok t) : Effect (writesBuffer .analyze) s t := by
  obtain ⟨-, hconf, xs, -, -, rfl⟩ := analyzeBody_eq_ok.mp h
  refine .of_configHolds hconf (keepsConfig_analyzed s _ _) (by cases s; rfl) ?_
  rw [State.analyzed_mem, State.withSpectrum_mem, State.putCells_mem]
  exact ((Memory.Edited.refl.store rfl (cellsFit_hopRecords (configFacts hconf) xs)).store rfl (cellsFit_fftmag _)).store
    rfl (cellsFit_waveform _ _)

theorem State.withOnsets_mem (s : State) (flux : List Nat) : (s.withOnsets flux).mem =
    (s.mem.writeCells .hopf ((List.range s.nhops.toNat).map fun i => (12 * i + 11, thresholdWord flux i))).writeCells
      .onset (cellsFrom 0 ((onsetsOf s.sr.toNat flux).map word ++
        List.replicate (s.nhops.toNat - (onsetsOf s.sr.toNat flux).length) 0)) := by cases s; rfl

theorem onsetBody_effect {s t : State} (h : onsetBody s = .ok t) : Effect (writesBuffer .onset) s t := by
  obtain ⟨-, hconf, fs, hread, -, -, rfl⟩ := onsetBody_eq_ok.mp h
  have hlen : (fs.map magUnits).length = s.nhops.toNat := by
    rw [List.length_map, length_of_readWords hread, List.length_map, List.length_range]
  refine .of_configHolds hconf (keepsConfig_withOnsets s _) (by cases s; rfl) ?_
  rw [State.withOnsets_mem]
  exact (Memory.Edited.refl.store rfl (cellsFit_thresholds (configFacts hconf) _)).store rfl
    (cellsFit_onsets (configFacts hconf) hlen)

theorem tempoBody_effect {s t : State} (h : tempoBody s = .ok t) : Effect (writesBuffer .tempo) s t := by
  obtain ⟨-, hconf, ons, -, rfl⟩ := tempoBody_eq_ok.mp h
  refine .of_configHolds hconf (keepsConfig_withTempo s _) (by cases s; rfl) ?_
  rw [State.withTempo_mem]
  exact Memory.Edited.refl.store rfl (cellsFit_acorrWords _ _)

theorem resampleBody_effect {s t : State} (h : resampleBody s = .ok t) : Effect (writesBuffer .resample) s t := by
  obtain ⟨-, hconf, -, -, rfl⟩ := resampleBody_eq_ok.mp h
  refine .of_configHolds hconf (keepsAllButFrames_resampled s).config (by cases s; rfl) ?_
  rw [State.resampled_mem]
  exact Memory.Edited.refl.store rfl (cellsFit_frameRecords (configFacts hconf))

theorem smoothBody_effect {s t : State} (h : smoothBody s = .ok t) : Effect (writesBuffer .smooth) s t := by
  obtain ⟨-, hconf, -, -, rfl⟩ := smoothBody_eq_ok.mp h
  refine .of_configHolds hconf (keepsAllButFrames_smoothed s).config (by cases s; rfl) ?_
  rw [State.smoothed_mem]
  exact Memory.Edited.refl.store rfl (cellsFit_frameSeries (configFacts hconf) _)

theorem normalizeBody_effect {s t : State} (h : normalizeBody s = .ok t) : Effect (writesBuffer .normalize) s t := by
  obtain ⟨-, hconf, -, -, rfl⟩ := normalizeBody_eq_ok.mp h
  refine .of_configHolds hconf (keepsAllButFrames_normalized s).config (by cases s; rfl) ?_
  rw [State.normalized_mem]
  exact Memory.Edited.refl.store rfl (cellsFit_frameSeries (configFacts hconf) _)

theorem beatBody_effect {s t : State} (h : beatBody s = .ok t) : Effect (writesBuffer .beat) s t := by
  obtain ⟨-, hconf, ons, -, -, rfl⟩ := beatBody_eq_ok.mp h
  refine .of_configHolds hconf (keepsAllButFrames_withBeats s ons).config (by cases s; rfl) ?_
  rw [State.withBeats_mem]
  exact Memory.Edited.refl.store rfl (cellsFit_beatCells (configFacts hconf) ons)

/-! ### What a command does -/

theorem writesBuffer_pcm (i : Instr) : writesBuffer i .pcm = false := by
  cases i <;> rfl

theorem writesBuffer_hann (i : Instr) : writesBuffer i .hann = false := by
  cases i <;> rfl

/-- RUN may write every buffer that some command writes (R129). -/
theorem writesBuffer_run_of {i : Instr} {b : BufId} (h : writesBuffer i b = true) : writesBuffer .run b = true := by
  cases b with
  | pcm => rw [writesBuffer_pcm] at h; cases h
  | hann => rw [writesBuffer_hann] at h; cases h
  | _ => rfl

/-- Every command of RUN has an effect on RUN's buffers. -/
theorem runCommands_effect : ∀ c ∈ runCommands, ∀ s t, c s = .ok t → Effect (writesBuffer .run) s t := by
  intro c hc s t h
  have hrun : ∀ {i}, Effect (writesBuffer i) s t → Effect (writesBuffer .run) s t :=
    fun he => he.mono fun _ => writesBuffer_run_of
  simp only [runCommands, List.mem_cons, List.not_mem_nil, or_false] at hc
  rcases hc with rfl | rfl | rfl | rfl | rfl | rfl | rfl | rfl
  · exact hrun (configBody_effect h)
  · exact hrun (analyzeBody_effect h)
  · exact hrun (onsetBody_effect h)
  · exact hrun (tempoBody_effect h)
  · exact hrun (resampleBody_effect h)
  · exact hrun (smoothBody_effect h)
  · exact hrun (normalizeBody_effect h)
  · exact hrun (beatBody_effect h)

theorem Effect.complete (p : BufId → Bool) (s : State) : Effect p s s.complete := ⟨rfl, .refl, id⟩

theorem Effect.fail (p : BufId → Bool) (s : State) (e : ErrCode) : Effect p s (s.fail e) := ⟨rfl, .refl, id⟩

/-- A command ends with the effect of its body and BUSY 0, on the error path too (R121, R243). -/
theorem finish_effect {p : BufId → Bool} {s t : State} {c : Cmd State} (hc : ∀ u, c = .ok u → Effect p s u)
    (h : finish s c = .next t) : Effect p s t ∧ t.latch = none := by
  rcases finish_eq_next.mp h with ⟨u, hu, rfl⟩ | ⟨e, -, rfl⟩
  · exact ⟨(hc u hu).trans (.complete p u), rfl⟩
  · exact ⟨.fail p s e, rfl⟩

/-- A sequence of commands ends with the effects of those that completed and BUSY 0 (R129, R130). -/
theorem runSequence_effect {p : BufId → Bool} {cs : List (State → Cmd State)}
    (hc : ∀ c ∈ cs, ∀ u v, c u = .ok v → Effect p u v) {s t : State} (h : runSequence cs s = .next t) :
    Effect p s t ∧ t.latch = none := by
  induction cs generalizing s with
  | nil =>
    cases h
    exact ⟨.complete p s, rfl⟩
  | cons c cs ih =>
    rcases hcs : c s with (e | f) | u
    · rw [runSequence_cons_error hcs] at h
      cases h
      exact ⟨.fail p s e, rfl⟩
    · rw [runSequence_cons_fault hcs] at h
      cases h
    · rw [runSequence_cons_ok hcs] at h
      obtain ⟨hrest, hlatch⟩ := ih (fun c' h' => hc c' (List.mem_cons_of_mem _ h')) h
      exact ⟨(hc c List.mem_cons_self s u hcs).trans hrest, hlatch⟩

/-- What every command does: its effect on the buffers its rule names, and BUSY 0. -/
theorem exec_effect {i : Instr} {s t : State} (h : exec i s = .next t) :
    Effect (writesBuffer i) s t ∧ t.latch = none := by
  cases i with
  | nop => exact finish_effect (c := nopBody s) (fun u hu => by cases hu; exact .refl _ s) h
  | config => exact finish_effect (fun _ => configBody_effect) h
  | spectrum n => exact finish_effect (fun _ => spectrumBody_effect) h
  | analyze => exact finish_effect (fun _ => analyzeBody_effect) h
  | onset => exact finish_effect (fun _ => onsetBody_effect) h
  | tempo => exact finish_effect (fun _ => tempoBody_effect) h
  | resample => exact finish_effect (fun _ => resampleBody_effect) h
  | smooth => exact finish_effect (fun _ => smoothBody_effect) h
  | normalize => exact finish_effect (fun _ => normalizeBody_effect) h
  | beat => exact finish_effect (fun _ => beatBody_effect) h
  | run => exact runSequence_effect runCommands_effect h

/-! ### What host accesses write -/

section

variable {p : BufId → Bool} {m m' : Memory}

theorem abortRecords_edited (h : m.Edited p m') (hhopf : p .hopf = true) (hmag : p .mag = true)
    (hwave : p .wave = true) (nh : Nat) : m.Edited p (abortRecords m' nh) :=
  ((h.clear hhopf).clear hmag).clear hwave

theorem abortOnsets_edited (h : m.Edited p m') (hhopf : p .hopf = true) (honset : p .onset = true) (nh : Nat) :
    m.Edited p (abortOnsets m' nh) :=
  (h.clear hhopf).clear honset

theorem abortTempo_edited (h : m.Edited p m') (hacorr : p .acorr = true) : m.Edited p (abortTempo m') :=
  h.clear hacorr

theorem abortFrames_edited (h : m.Edited p m') (hframe : p .frame = true) (nf : Nat) :
    m.Edited p (abortFrames m' nf) :=
  h.clear hframe

end

/-- Aborting a command clears marks of the command's own buffers only (R272). -/
theorem abortCommand_edited (s : State) (i : Instr) : s.mem.Edited (writesBuffer i) (abortCommand s i) := by
  cases i with
  | nop | config => exact .refl
  | spectrum n => exact .clear (.clear .refl rfl) rfl
  | analyze => exact abortRecords_edited .refl rfl rfl rfl _
  | onset => exact abortOnsets_edited .refl rfl rfl _
  | tempo => exact abortTempo_edited .refl rfl
  | resample | smooth | normalize | beat => exact abortFrames_edited .refl rfl _
  | run =>
    simp only [abortCommand]
    split
    · exact .refl
    · have hrecords := abortRecords_edited (p := writesBuffer .run) (m := s.mem) .refl rfl rfl rfl
      exact abortFrames_edited (abortTempo_edited (abortOnsets_edited (hrecords _) rfl rfl _) rfl) rfl _

theorem memAfterAbort_edited (s : State) : s.mem.Edited (fun _ => true) s.memAfterAbort := by
  unfold State.memAfterAbort
  split
  · exact .refl
  · split
    · exact .refl
    · exact (abortCommand_edited s _).mono fun _ _ => rfl

/-- A write of `BUF_DATA` stores at most one PCM word, below `P_MAX` (R81). -/
theorem portWrite_edited (s : State) (v : Word) : s.mem.Edited (fun _ => true) (portWrite s v).mem := by
  unfold portWrite
  split_ifs with _ _ hidx
  · exact .refl
  · exact .refl
  · exact .refl
  · change s.mem.Edited _ (s.mem.writeCells .pcm [(s.bufIdx.toNat, v)])
    refine .store .refl rfl fun c hc => ?_
    rw [List.mem_singleton.mp hc]
    exact Nat.lt_of_not_le hidx

/-- A register write edits the memory through the port or a soft reset only (R81, R272). -/
theorem writeReg_edited (s : State) (v : Word) (r : Reg) : s.mem.Edited (fun _ => true) (writeReg s v r).mem := by
  have hunless : ∀ u : State, u.mem = s.mem → s.mem.Edited (fun _ => true) (s.unlessBusy u).mem := by
    intro u hu
    rcases unlessBusy_cases s u with h | h <;> rw [h]
    · exact .refl
    · rw [hu]
      exact .refl
  cases r with
  | ctrl =>
    rw [writeReg]
    split
    · exact memAfterAbort_edited s
    · exact hunless _ rfl
  | sr | nsamp | fps | smooth | bufSel | bufIdx => exact hunless _ rfl
  | cmd => rcases offerCommand_cases s v with h | h <;> rw [writeReg, h] <;> exact .refl
  | bufData => exact portWrite_edited s v
  | _ => exact .refl

/-! ### Steps -/

theorem ConfigInv.of_pipelineView_eq {s t : State} (h : t.pipelineView = s.pipelineView) (hs : ConfigInv s) :
    ConfigInv t := by
  have hview : ∀ u : State, ConfigInv u.pipelineView ↔ ConfigInv u := fun _ => Iff.rfl
  rw [← hview, h]
  exact hs

theorem ConfigInv.of_invalid {s : State} (h : s.stage = .invalid) : ConfigInv s := fun hs => absurd h hs

theorem memoryInv_of_empty {s : State} (h : s.mem = State.reset.mem) : MemoryInv s := by
  unfold MemoryInv
  rw [h]
  exact ⟨rfl, fun b k v hread => by cases b <;> cases hread⟩

theorem engineTurn_effect {s t : State} (h : engineTurn s = .next t) : Effect (fun _ => true) s t := by
  rcases engineTurn_eq_next h with rfl | rfl | ⟨w, i, -, -, hi⟩
  · exact .refl _ t
  · exact .fail _ s .badCmd
  · exact (exec_effect hi).1.mono fun _ _ => rfl

theorem hostRead_keeps_configInv_memoryInv {s t : State} {size : Nat} {off : BitVec 12} (hc : ConfigInv s) (hm : MemoryInv s)
    (h : hostRead s size off = .next t) : ConfigInv t ∧ MemoryInv t := by
  have hview := pipelineView_hostRead h
  have hmem : t.mem = s.mem := congrArg (fun u => u.mem) hview
  exact ⟨hc.of_pipelineView_eq hview, hm.of_edited (p := fun _ => true) (hmem ▸ .refl)⟩

theorem hostWrite_keeps_configInv_memoryInv {s t : State} {size : Nat} {off : BitVec 12} {v : Word} (hc : ConfigInv s)
    (hm : MemoryInv s) (h : hostWrite s size off v = .next t) : ConfigInv t ∧ MemoryInv t := by
  rcases hostWrite_eq_next h with rfl | ⟨r, rfl⟩
  · exact ⟨hc, hm⟩
  · refine ⟨?_, hm.of_edited (writeReg_edited s v r)⟩
    rcases pipelineView_writeReg s v r with hview | ⟨hstage, -⟩
    · exact hc.of_pipelineView_eq hview
    · exact .of_invalid hstage

/-- Settles O57: commands, port writes and aborts edit the memory within capacity; a command that writes a record has
checked the configuration, which bounds its counts. -/
theorem stepKeepsMemoryInv : Obligations.StepKeepsMemoryInv := by
  intro s t hc hm h
  obtain ⟨rest, h⟩ := step_eq_next h
  have huc : ConfigInv { s with inputs := rest } := hc
  have hum : MemoryInv { s with inputs := rest } := hm
  rcases h with h | ⟨size, off, h⟩ | ⟨size, off, v, h⟩ | rfl
  · have heff := engineTurn_effect h
    exact ⟨heff.config huc, hum.of_edited heff.mem⟩
  · exact hostRead_keeps_configInv_memoryInv huc hum h
  · exact hostWrite_keeps_configInv_memoryInv huc hum h
  · exact ⟨.of_invalid rfl, memoryInv_of_empty rfl⟩

/-! ### The frame of a command -/

/-- Settles O9: a command edits the buffers its rule names only. -/
theorem commandsWriteOnlyTheirBuffers : Obligations.CommandsWriteOnlyTheirBuffers := by
  intro i s t b h hb k
  obtain ⟨heff, -⟩ := exec_effect h
  exact heff.mem.read_eq hb k

/-- Settles O8: no command's effect reaches a field the host owns, and PCM is no command's buffer. -/
theorem commandsKeepTheHostsRegisters : Obligations.CommandsKeepTheHostsRegisters := by
  intro i s t h
  obtain ⟨heff, hlatch⟩ := exec_effect h
  have hkeep : ∀ {α : Type} (f : State → α), f t.hostView = f s.hostView := fun f => congrArg f heff.host
  exact ⟨hlatch, hkeep State.rej, hkeep State.hannSym, hkeep State.doneIe, hkeep State.errIe, hkeep State.rejIe,
    hkeep State.sr, hkeep State.nsamp, hkeep State.fps, hkeep State.smooth, hkeep State.bufSel, hkeep State.bufIdx,
    hkeep State.inputs, hkeep State.readData, hkeep State.freeCtr, heff.mem.read_eq (writesBuffer_pcm i)⟩

end Sys2Proof.Machine

/-! ## The fields of STATUS -/

namespace Sys2Proof.Machine

theorem errNumber_le (e : ErrCode) : errNumber e ≤ 7 := by
  cases e <;> decide

theorem State.errCode_le (s : State) : s.errCode ≤ 7 := by
  unfold State.errCode
  split
  · exact Nat.zero_le _
  · exact errNumber_le _

theorem stageNumber_le (st : Stage) : stageNumber st ≤ 8 := by
  cases st <;> decide

/-- The `STATUS` word as a number: its fields at their weights, with no wrap-around (R23). -/
theorem statusWord_toNat (s : State) : (statusWord s).toNat =
    s.busy.toNat + 2 * s.done.toNat + 4 * s.err.toNat + 8 * s.rej.toNat + 16 * s.tempoFound.toNat + 256 * s.errCode
      + 4096 * stageNumber s.stage := by
  have := Bool.toNat_le s.busy
  have := Bool.toNat_le s.done
  have := Bool.toNat_le s.err
  have := Bool.toNat_le s.rej
  have := Bool.toNat_le s.tempoFound
  have := s.errCode_le
  have := stageNumber_le s.stage
  rw [statusWord, BitVec.toNat_ofNat, Nat.mod_eq_of_lt (by omega)]

/-- Bit `i` of a word, from its number. -/
theorem getLsbD_eq_of_toNat {w : Word} {i : Nat} {b : Bool} (h : w.toNat / 2 ^ i % 2 = b.toNat) : w.getLsbD i = b := by
  rw [BitVec.getLsbD, Nat.testBit_eq_decide_div_mod_eq, h]
  cases b <;> rfl

/-- A field of a word, from its number. -/
theorem extractLsb'_toNat_eq_div_mod (w : Word) (start len : Nat) :
    (w.extractLsb' start len).toNat = w.toNat / 2 ^ start % 2 ^ len := by
  rw [BitVec.extractLsb'_toNat, Nat.shiftRight_eq_div_pow]

/-- Settles O21: each field is read off the sum that `STATUS` is, since the fields below it add up to less than its
weight. -/
theorem statusFields : Obligations.StatusFields := by
  intro s
  have hword := statusWord_toNat s
  have hbusy := Bool.toNat_le s.busy
  have hdone := Bool.toNat_le s.done
  have herr := Bool.toNat_le s.err
  have hrej := Bool.toNat_le s.rej
  have hfound := Bool.toNat_le s.tempoFound
  have hcode := s.errCode_le
  have hstage := stageNumber_le s.stage
  have hfield : ∀ start len n, (statusWord s).toNat / 2 ^ start % 2 ^ len = n →
      ((statusWord s).extractLsb' start len).toNat = n :=
    fun start len n h => (extractLsb'_toNat_eq_div_mod _ start len).trans h
  refine ⟨getLsbD_eq_of_toNat (b := s.busy) (by omega), getLsbD_eq_of_toNat (by omega),
    getLsbD_eq_of_toNat (b := s.err) (by omega), getLsbD_eq_of_toNat (by omega), getLsbD_eq_of_toNat (by omega),
    BitVec.eq_of_toNat_eq (hfield 5 3 0 (by omega)), (hfield 8 4 s.errCode (by omega)).trans ?_,
    (hfield 12 4 (stageNumber s.stage) (by omega)).trans ?_, BitVec.eq_of_toNat_eq (hfield 16 16 0 (by omega))⟩
  · unfold State.errCode
    cases s.error with
    | none => rfl
    | some e => cases e <;> rfl
  · cases s.stage <;> rfl

end Sys2Proof.Machine


/-! ## The host interface: what each access answers -/

namespace Sys2Proof.Machine

/-! ### The register map -/

/-- The register table (10_state.md section 2): each register at its offset. -/
def registerTable : List (BitVec 12 × Reg) :=
  [(0x000, .id), (0x004, .ctrl), (0x008, .status), (0x00C, .cmd), (0x010, .irqEn), (0x014, .paramPmax),
    (0x018, .paramFmax), (0x020, .sr), (0x024, .nsamp), (0x028, .fps), (0x02C, .smooth), (0x030, .nhops),
    (0x034, .nframes), (0x038, .onsetCount), (0x03C, .tempoLag), (0x040, .tempoBpm), (0x044, .peakAmp),
    (0x048, .peakRms), (0x04C, .peakFlux), (0x050, .peakBand 0), (0x054, .peakBand 1), (0x058, .peakBand 2),
    (0x05C, .peakBand 3), (0x060, .peakBand 4), (0x064, .peakBand 5), (0x068, .peakBand 6), (0x080, .bufSel),
    (0x084, .bufIdx), (0x088, .bufData), (0x08C, .bufCap)]

theorem regAt_eq_some_iff {off : BitVec 12} {r : Reg} : regAt off.toNat = some r ↔ (off, r) ∈ registerTable := by
  constructor
  · intro h
    unfold regAt at h
    split at h
    case h_31 => cases h
    all_goals
      rename_i hoff
      have hoff := congrArg (BitVec.ofNat 12) hoff
      rw [BitVec.ofNat_toNat, BitVec.setWidth_eq] at hoff
      subst hoff
      cases h
      decide
  · have hrows : ∀ row ∈ registerTable, regAt row.1.toNat = some row.2 := by decide
    exact hrows (off, r)

/-- Registers stand at multiples of 4. -/
theorem aligned_of_regAt {off : BitVec 12} {r : Reg} (h : regAt off.toNat = some r) : off.toNat % 4 = 0 := by
  have hrows : ∀ row ∈ registerTable, row.1.toNat % 4 = 0 := by decide
  exact hrows (off, r) (regAt_eq_some_iff.mp h)

/-- The offsets outside the table are reserved (R45). -/
theorem regAt_eq_none_of_not_mem {off : BitVec 12} (h : off ∉ registerTable.map Prod.fst) : regAt off.toNat = none :=
  Option.eq_none_iff_forall_ne_some.mpr fun _ hr => h (List.mem_map_of_mem (regAt_eq_some_iff.mp hr))

theorem eq_of_regAt_eq_bufData {off : BitVec 12} (h : regAt off.toNat = some .bufData) : off = 0x088 := by
  have hrows : ∀ row ∈ registerTable, row.2 = .bufData → row.1 = 0x088 := by decide
  exact hrows (off, .bufData) (regAt_eq_some_iff.mp h) rfl

theorem eq_of_regAt_eq_status {off : BitVec 12} (h : regAt off.toNat = some .status) : off = 0x008 := by
  have hrows : ∀ row ∈ registerTable, row.2 = .status → row.1 = 0x008 := by decide
  exact hrows (off, .status) (regAt_eq_some_iff.mp h) rfl

/-- Where every offset of a list holds a register with a property, so does each of them. -/
theorem exists_regAt_of_all {offs : List (BitVec 12)} {p : Reg → Bool} {off : BitVec 12}
    (hall : offs.all (fun k => (regAt k.toNat).any p) = true) (hmem : off ∈ offs) :
    ∃ r, regAt off.toNat = some r ∧ p r = true :=
  (Option.any_eq_true _ _).mp (List.all_eq_true.mp hall off hmem)

/-- The registers that a host write leaves as they are (R74). -/
def isReadOnlyReg : Reg → Bool
  | .id | .paramPmax | .paramFmax | .bufCap => true
  | r => isResultReg r

theorem writeReg_of_readOnly {r : Reg} (h : isReadOnlyReg r = true) (s : State) (v : Word) : writeReg s v r = s := by
  cases r with
  | ctrl | status | cmd | irqEn | sr | nsamp | fps | smooth | bufSel | bufIdx | bufData => cases h
  | _ => rfl

/-- The buffer of each selection, by its number (R41, R50). -/
theorem selectedBuffer_eq_getD (sel : BitVec 3) : selectedBuffer sel =
    [BufId.pcm, .mag, .wave, .hopf, .onset, .acorr, .frame, .hann].getD sel.toNat .pcm := by
  decide +revert

theorem selectedBuffer_eq_pcm_iff (sel : BitVec 3) : selectedBuffer sel = .pcm ↔ sel = 0 := by
  decide +revert

/-- The capacity of each selection, by its number (R44, R50). -/
theorem capacity_selectedBuffer (sel : BitVec 3) : capacity (selectedBuffer sel) =
    [Config.pMax, 1025, 512, 12 * Config.hopMax, Config.hopMax, 256, 16 * Config.frameMax, 2048].getD sel.toNat 0 := by
  have hsel : sel = 0 ∨ sel = 1 ∨ sel = 2 ∨ sel = 3 ∨ sel = 4 ∨ sel = 5 ∨ sel = 6 ∨ sel = 7 := by decide +revert
  rcases hsel with rfl | rfl | rfl | rfl | rfl | rfl | rfl | rfl <;> rfl

/-- BUSY is 0 while no command is latched (R24, R59). -/
theorem State.not_busy_of_idle {s : State} (h : s.latch = none) : ¬ s.busy = true := by
  rw [State.busy, h]
  decide

/-! ### Accesses to a register, to a reserved offset, and malformed ones -/

theorem wellAligned_iff {size : Nat} {off : BitVec 12} :
    wellAligned size off = true ↔ size = 4 ∧ off.toNat % 4 = 0 := by
  simp [wellAligned]

section

variable {s : State} {off : BitVec 12} {r : Reg}

theorem hostWrite_of_not_wellAligned {size : Nat} (h : wellAligned size off = false) (s : State) (v : Word) :
    hostWrite s size off v = .fault .busError := by
  simp [hostWrite, h]

theorem hostRead_of_not_wellAligned {size : Nat} (h : wellAligned size off = false) (s : State) :
    hostRead s size off = .fault .busError := by
  simp [hostRead, h]

/-- A write at a register's offset writes that register. -/
theorem hostWrite_of_regAt (hr : regAt off.toNat = some r) (s : State) (v : Word) :
    hostWrite s 4 off v = .next (writeReg s v r) := by
  have hw : wellAligned 4 off = true := wellAligned_iff.mpr ⟨rfl, aligned_of_regAt hr⟩
  simp [hostWrite, hw, hr]

theorem hostWrite_of_reserved (hal : off.toNat % 4 = 0) (hr : regAt off.toNat = none) (s : State) (v : Word) :
    hostWrite s 4 off v = .next s := by
  have hw : wellAligned 4 off = true := wellAligned_iff.mpr ⟨rfl, hal⟩
  simp [hostWrite, hw, hr]

theorem hostRead_of_reserved (hal : off.toNat % 4 = 0) (hr : regAt off.toNat = none) (s : State) :
    hostRead s 4 off = .next (s.respond 0) := by
  have hw : wellAligned 4 off = true := wellAligned_iff.mpr ⟨rfl, hal⟩
  simp [hostRead, hw, hr]

theorem hostRead_bufData (s : State) : hostRead s 4 0x088 = portRead s := rfl

/-- A read of `STATUS` while a command runs takes its result fields from a free word (R73(b), log 4). -/
theorem hostRead_status_of_busy (hbusy : s.latch.isSome = true) :
    hostRead s 4 0x008 = .next (s.respondFree (busyStatusWord s)) :=
  congrArg Host.Outcome.next (if_pos hbusy)

theorem hostRead_status_of_idle (hidle : s.latch = none) : hostRead s 4 0x008 = .next (s.respond (statusWord s)) :=
  congrArg Host.Outcome.next (if_neg (State.not_busy_of_idle hidle))

/-- A read at the offset of a register that is neither `STATUS` nor the port (R73). -/
theorem hostRead_of_regAt (hr : regAt off.toNat = some r) (hport : r ≠ .bufData) (hstatus : r ≠ .status) (s : State) :
    hostRead s 4 off =
      .next (if s.busy && isResultReg r then s.respondFree fun v => v else s.respond (readReg s r)) := by
  have hw : wellAligned 4 off = true := wellAligned_iff.mpr ⟨rfl, aligned_of_regAt hr⟩
  simp only [hostRead, hw, hr]
  cases r with
  | bufData => exact absurd rfl hport
  | status => exact absurd rfl hstatus
  | _ => rfl

/-- While no command runs every register but the port reads its value (R73). -/
theorem hostRead_of_idle (hr : regAt off.toNat = some r) (hport : r ≠ .bufData) (hidle : s.latch = none) :
    hostRead s 4 off = .next (s.respond (readReg s r)) := by
  by_cases hstatus : r = .status
  · subst hstatus
    rw [eq_of_regAt_eq_status hr, hostRead_status_of_idle hidle]
    rfl
  · rw [hostRead_of_regAt hr hport hstatus, State.busy, hidle]
    rfl

/-- A register that is no result register reads its value at every time (R73(a)). -/
theorem hostRead_of_not_result (hr : regAt off.toNat = some r)
    (hkind : r ≠ .bufData ∧ r ≠ .status ∧ isResultReg r = false) (s : State) :
    hostRead s 4 off = .next (s.respond (readReg s r)) := by
  obtain ⟨hport, hstatus, hresult⟩ := hkind
  rw [hostRead_of_regAt hr hport hstatus, hresult, Bool.and_false]
  rfl

/-- A result register reads a free value while a command runs (R73(b), log 4). -/
theorem hostRead_of_result_busy (hr : regAt off.toNat = some r) (hresult : isResultReg r = true)
    (hbusy : s.latch.isSome = true) : hostRead s 4 off = .next (s.respondFree fun v => v) := by
  have hport : r ≠ .bufData := by rintro rfl; cases hresult
  have hstatus : r ≠ .status := by rintro rfl; cases hresult
  rw [hostRead_of_regAt hr hport hstatus, hresult, State.busy, hbusy]
  rfl

/-- A read of anything but the port leaves the answer, its value or a free one, and nothing else (R83). -/
theorem hostRead_eq_next_of_ne_port {t : State} {size : Nat} (hoff : off ≠ 0x088) (h : hostRead s size off = .next t) :
    (∃ v, t = s.respond v) ∨ ∃ f, t = s.respondFree f := by
  unfold hostRead at h
  split at h
  · cases h
  split at h
  · cases h; exact .inl ⟨_, rfl⟩
  case h_2 hport => exact absurd (eq_of_regAt_eq_bufData hport) hoff
  all_goals
    cases h
    split_ifs
    · exact .inr ⟨_, rfl⟩
    · exact .inl ⟨_, rfl⟩

end

/-! ### What the updates of a write are -/

theorem State.unlessBusy_of_busy {s : State} (h : s.latch.isSome = true) (t : State) : s.unlessBusy t = s.reject :=
  if_pos h

theorem State.unlessBusy_of_idle {s : State} (h : s.latch = none) (t : State) : s.unlessBusy t = t :=
  if_neg (State.not_busy_of_idle h)

/-- The first error is kept (R247). -/
theorem State.recordError_eq (s : State) (e : ErrCode) :
    s.recordError e = { s with error := match s.error with | none => some e | some first => some first } := by
  unfold State.recordError
  cases s.error <;> rfl

/-- The W1C bits of `STATUS` (R77): a bit written 1 clears its field. -/
theorem State.ackStatus_eq (s : State) (v : Word) : s.ackStatus v =
    { s with
      done := if v.getLsbD 1 = true then false else s.done
      error := if v.getLsbD 2 = true then none else s.error
      rej := if v.getLsbD 3 = true then false else s.rej } := by
  have hclear : ∀ a b : Bool, (a && !b) = if b = true then false else a := by decide
  rw [State.ackStatus, hclear, hclear]

/-! ### The port -/

section

variable {s : State}

theorem portRead_of_busy (h : s.latch.isSome = true) : portRead s = .next (s.reject.respondFree fun v => v) :=
  if_pos h

theorem portRead_of_capacity_le (hidle : s.latch = none) (h : capacity (selectedBuffer s.bufSel) ≤ s.bufIdx.toNat) :
    portRead s = .next ((s.recordError .bufAcc).respond 0) := by
  simp [portRead, State.busy, hidle, h]

/-- Inside the capacity a written word is read and the index moves on (R80). -/
theorem portRead_of_written {v : Word} (hidle : s.latch = none)
    (h : s.bufIdx.toNat < capacity (selectedBuffer s.bufSel))
    (hv : s.bufWord (selectedBuffer s.bufSel) s.bufIdx.toNat = some v) :
    portRead s = .next { s.respond v with bufIdx := s.bufIdx + 1 } := by
  simp [portRead, State.busy, hidle, Nat.not_le.mpr h, hv]

/-- Inside the capacity a word with a clear mark is the model's fault (R61, log 5). -/
theorem portRead_of_unwritten (hidle : s.latch = none) (h : s.bufIdx.toNat < capacity (selectedBuffer s.bufSel))
    (hv : s.bufWord (selectedBuffer s.bufSel) s.bufIdx.toNat = none) :
    portRead s = .fault (.unwritten (selectedBuffer s.bufSel) s.bufIdx.toNat) := by
  simp [portRead, State.busy, hidle, Nat.not_le.mpr h, hv]

theorem portWrite_of_busy (h : s.latch.isSome = true) (v : Word) : portWrite s v = s.reject := if_pos h

/-- A write to another buffer than PCM or past `P_MAX` is `ERR_BUFACC` (R81). -/
theorem portWrite_of_bad_target (hidle : s.latch = none) (h : s.bufSel ≠ 0 ∨ Config.pMax ≤ s.bufIdx.toNat) (v : Word) :
    portWrite s v = s.recordError .bufAcc := by
  rw [portWrite, if_neg (State.not_busy_of_idle hidle)]
  split_ifs with hsel hidx
  · rfl
  · rfl
  · exact absurd h (not_or.mpr ⟨fun hne => hne ((selectedBuffer_eq_pcm_iff _).mp (not_not.mp hsel)), hidx⟩)

/-- A write to PCM below `P_MAX` stores its word (R81). -/
theorem portWrite_of_pcm (hidle : s.latch = none) (hsel : s.bufSel = 0) (hidx : s.bufIdx.toNat < Config.pMax)
    (v : Word) :
    portWrite s v = { (s.putCells .pcm [(s.bufIdx.toNat, v)]).invalidate with bufIdx := s.bufIdx + 1 } := by
  have hpcm : ¬ selectedBuffer s.bufSel ≠ .pcm := not_not.mpr ((selectedBuffer_eq_pcm_iff _).mpr hsel)
  rw [portWrite, if_neg (State.not_busy_of_idle hidle), if_neg hpcm, if_neg (Nat.not_le.mpr hidx)]

/-- A read after the store of one word, of that word and of every other. -/
theorem Memory.read_writeCells_singleton (m : Memory) {id : BufId} (hid : id ≠ .hann) (i : Nat) (v : Word) (b : BufId)
    (k : Nat) : (m.writeCells id [(i, v)]).read b k = if b = id ∧ k = i then some v else m.read b k := by
  by_cases hb : b = id
  · subst hb
    simp [Memory.read, Memory.writeCells, hid, Buffer.read_write]
  · rw [Memory.read_writeCells_ne m _ k hb, if_neg fun h => hb h.1]

/-- What a write of `BUF_DATA` into PCM leaves (R76, R81): the word, the next index, the invalidation. -/
theorem hostWrite_bufData_pcm (hidle : s.latch = none) (hsel : s.bufSel = 0) (hidx : s.bufIdx.toNat < Config.pMax)
    (v : Word) : ∃ m,
      hostWrite s 4 0x088 v =
        .next { s with mem := m, bufIdx := s.bufIdx + 1, stage := .invalid, tempoFound := false } ∧
      ∀ b k, m.read b k = if b = .pcm ∧ k = s.bufIdx.toNat then some v else s.mem.read b k :=
  ⟨s.mem.writeCells .pcm [(s.bufIdx.toNat, v)],
    (hostWrite_of_regAt (r := .bufData) rfl s v).trans (congrArg _ (portWrite_of_pcm hidle hsel hidx v)),
    Memory.read_writeCells_singleton s.mem (by decide) _ v⟩

end

/-- Settles O17, by the branches of R81. -/
theorem portWrites : Obligations.PortWrites := by
  intro s v
  have hwrite : hostWrite s 4 0x088 v = .next (portWrite s v) := hostWrite_of_regAt (r := .bufData) rfl s v
  refine ⟨fun hbusy => ?_, fun hidle hbad => ?_, fun hidle hsel hidx => hostWrite_bufData_pcm hidle hsel hidx v⟩
  · rw [hwrite, portWrite_of_busy hbusy]
    rfl
  · rw [hwrite, portWrite_of_bad_target hidle hbad]
    exact congrArg _ (s.recordError_eq .bufAcc)

/-! ### Steps -/

theorem step_of_inputs_nil {s : State} (h : s.inputs = []) : step s = engineTurn s := by
  rw [step, h]

theorem step_of_inputs_cons {s : State} {e : Event} {rest : List Event} (h : s.inputs = e :: rest) :
    step s = applyEvent { s with inputs := rest } e := by
  rw [step, h]

/-- The idle engine keeps all state (R258). -/
theorem engineTurn_of_idle {s : State} (h : s.latch = none) : engineTurn s = .next s := by
  rw [engineTurn, State.fetch, h]

/-- Settles O5: a step takes the first event, and the idle engine's turn changes nothing. -/
theorem stepTakesTheNextEvent : Obligations.StepTakesTheNextEvent := by
  intro s rest
  refine ⟨fun size off hin => step_of_inputs_cons hin, fun size off v hin => step_of_inputs_cons hin,
    fun hidle hin => ?_, fun hidle hin => ?_⟩
  · rw [step_of_inputs_nil hin, engineTurn_of_idle hidle]
  · rw [step_of_inputs_cons hin]
    exact engineTurn_of_idle hidle

/-! ### Host accesses -/

/-- Settles O11: the named offsets hold read-only registers, and no register stands outside the register table. -/
theorem ignoredWrites : Obligations.IgnoredWrites := by
  intro s off hal
  refine ⟨fun hmem v => ?_, fun hmem => ?_⟩
  · obtain ⟨r, hr, hro⟩ := exists_regAt_of_all (p := isReadOnlyReg) (by decide) hmem
    rw [hostWrite_of_regAt hr, writeReg_of_readOnly hro]
  · have hnone : regAt off.toNat = none := regAt_eq_none_of_not_mem hmem
    exact ⟨hostWrite_of_reserved hal hnone s, hostRead_of_reserved hal hnone s⟩

/-- Settles O12: such an access is not well aligned. -/
theorem malformedAccessIsABusError : Obligations.MalformedAccessIsABusError := by
  intro s size off v h
  have hw : wellAligned size off = false := by
    rw [Bool.eq_false_iff, ne_eq, wellAligned_iff]
    omega
  exact ⟨hostRead_of_not_wellAligned hw s, hostWrite_of_not_wellAligned hw s v⟩

/-- Settles O13. A CTRL write is a soft reset whether the engine is busy or not; without one it is a configuration
write. -/
theorem statusAndControlWrites : Obligations.StatusAndControlWrites := by
  intro s v
  constructor
  · exact (hostWrite_of_regAt (r := .status) rfl s v).trans (congrArg _ (s.ackStatus_eq v))
  · rw [hostWrite_of_regAt (r := .ctrl) rfl]
    rfl

/-- Settles O14: an idle engine takes the write, and the PCM word is stored as in O17. -/
theorem configurationWrites : Obligations.ConfigurationWrites := by
  intro s v hidle
  have hstore : ∀ {off : BitVec 12} {r : Reg} (t : State), regAt off.toNat = some r → writeReg s v r = s.unlessBusy t →
      hostWrite s 4 off v = .next t := by
    intro off r t hr hwrite
    rw [hostWrite_of_regAt hr, hwrite, State.unlessBusy_of_idle hidle]
  refine ⟨hstore (r := .sr) _ rfl rfl, hstore (r := .nsamp) _ rfl rfl, hstore (r := .fps) _ rfl rfl,
    hstore (r := .smooth) _ rfl rfl, fun hbit => hstore (r := .ctrl) _ rfl ?_,
    fun hsel hidx => hostWrite_bufData_pcm hidle hsel hidx v⟩
  rw [writeReg, hbit]
  rfl

/-- Settles O16, by the branches of R80; HANN is computed, so that each of its words is written (R58). -/
theorem portReads : Obligations.PortReads := by
  intro s
  simp only [hostRead_bufData]
  refine ⟨portRead_of_busy, fun hidle hcap => ?_, fun hidle hidx => ⟨fun v hv => portRead_of_written hidle hidx hv,
    portRead_of_unwritten hidle hidx, fun hsel => portRead_of_written hidle hidx ?_⟩⟩
  · rw [portRead_of_capacity_le hidle hcap, s.recordError_eq]
    rfl
  · rw [hsel]
    rfl

/-- Settles O18: the idle engine stores the value, and the busy one rejects it. -/
theorem portSelectionWrites : Obligations.PortSelectionWrites := by
  intro s v
  have hsel : hostWrite s 4 0x080 v = .next (s.unlessBusy { s with bufSel := v.truncate 3 }) :=
    hostWrite_of_regAt (r := .bufSel) rfl s v
  have hidx : hostWrite s 4 0x084 v = .next (s.unlessBusy { s with bufIdx := v }) :=
    hostWrite_of_regAt (r := .bufIdx) rfl s v
  rw [hsel, hidx]
  refine ⟨fun hidle => ?_, fun hbusy => ?_⟩
  · rw [State.unlessBusy_of_idle hidle, State.unlessBusy_of_idle hidle, BitVec.truncate,
      BitVec.setWidth_eq_extractLsb' (by decide)]
    exact ⟨rfl, rfl⟩
  · rw [State.unlessBusy_of_busy hbusy, State.unlessBusy_of_busy hbusy]
    exact ⟨rfl, rfl⟩

/-! ### Register values -/

theorem readReg_ctrl (s : State) : readReg s .ctrl = if s.hannSym = true then 2 else 0 := by
  rw [readReg]
  cases s.hannSym <;> rfl

/-- The bits of `IRQ_EN` (R31). -/
theorem irqEnWord_bits (s : State) : (irqEnWord s).getLsbD 0 = s.doneIe ∧ (irqEnWord s).getLsbD 1 = s.errIe ∧
    (irqEnWord s).getLsbD 2 = s.rejIe ∧ (irqEnWord s).extractLsb' 3 29 = 0 := by
  have hdone := Bool.toNat_le s.doneIe
  have herr := Bool.toNat_le s.errIe
  have hrej := Bool.toNat_le s.rejIe
  have hword : (irqEnWord s).toNat = s.doneIe.toNat + 2 * s.errIe.toNat + 4 * s.rejIe.toNat := by
    rw [irqEnWord, BitVec.toNat_ofNat, Nat.mod_eq_of_lt (by omega)]
  have hreserved : ((irqEnWord s).extractLsb' 3 29).toNat = 0 :=
    (extractLsb'_toNat_eq_div_mod _ 3 29).trans (by omega)
  exact ⟨getLsbD_eq_of_toNat (by omega), getLsbD_eq_of_toNat (by omega), getLsbD_eq_of_toNat (by omega),
    BitVec.eq_of_toNat_eq hreserved⟩

/-- A word put together from two by a mask has the second's bits under the mask. -/
theorem merge_and_mask (a f m : Word) : (a &&& ~~~m ||| f &&& m) &&& m = f &&& m := by
  ext i
  simp only [BitVec.getElem_and, BitVec.getElem_or, BitVec.getElem_not]
  cases m[i] <;> simp

/-- A word put together from two by a mask has the first's bits outside the mask. -/
theorem merge_and_not_mask (a f m : Word) : (a &&& ~~~m ||| f &&& m) &&& ~~~m = a &&& ~~~m := by
  ext i
  simp only [BitVec.getElem_and, BitVec.getElem_or, BitVec.getElem_not]
  cases m[i] <;> simp

/-- Settles O19, register by register of the table, with STATUS put together from its value and a free word while a
command runs. -/
theorem registerReads : Obligations.RegisterReads := by
  intro s reads free readsFree hopMax capacities
  have hreads : ∀ {off : BitVec 12} (r : Reg), (regAt off.toNat = some r ∧ r ≠ .bufData ∧ r ≠ .status ∧
      isResultReg r = false) → reads off (readReg s r) := fun _ ⟨hr, hkind⟩ => hostRead_of_not_result hr hkind s
  have hcapacity : capacity (selectedBuffer s.bufSel) = capacities.getD s.bufSel.toNat 0 :=
    capacity_selectedBuffer s.bufSel
  refine ⟨⟨pMax_pos, pMax_le, frameMax_pos, frameMax_le⟩, selectedBuffer_eq_getD _, hcapacity,
    ⟨hreads .id (by decide), readReg_ctrl s ▸ hreads .ctrl (by decide), hreads .cmd (by decide),
      ⟨irqEnWord s, hreads .irqEn (by decide), irqEnWord_bits s⟩, hreads .paramPmax (by decide),
      hreads .paramFmax (by decide), hreads .sr (by decide), hreads .nsamp (by decide), hreads .fps (by decide),
      hreads .smooth (by decide), hreads .bufSel (by decide), hreads .bufIdx (by decide),
      hcapacity ▸ hreads .bufCap (by decide)⟩, fun hidle => ?_, fun hbusy => ⟨fun off hmem => ?_, ?_⟩⟩
  · have hreadsIdle : ∀ {off : BitVec 12} (r : Reg), (regAt off.toNat = some r ∧ r ≠ .bufData) →
        reads off (readReg s r) := fun _ ⟨hr, hport⟩ => hostRead_of_idle hr hport hidle
    exact ⟨hreadsIdle .status (by decide), hreadsIdle .nhops (by decide), hreadsIdle .nframes (by decide),
      hreadsIdle .onsetCount (by decide), hreadsIdle .tempoLag (by decide), hreadsIdle .tempoBpm (by decide),
      hreadsIdle .peakAmp (by decide), hreadsIdle .peakRms (by decide), hreadsIdle .peakFlux (by decide),
      hreadsIdle (.peakBand 0) (by decide), hreadsIdle (.peakBand 1) (by decide), hreadsIdle (.peakBand 2) (by decide),
      hreadsIdle (.peakBand 3) (by decide), hreadsIdle (.peakBand 4) (by decide), hreadsIdle (.peakBand 5) (by decide),
      hreadsIdle (.peakBand 6) (by decide)⟩
  · obtain ⟨r, hr, hresult⟩ := exists_regAt_of_all (p := isResultReg) (by decide) hmem
    exact hostRead_of_result_busy hr hresult hbusy
  · exact ⟨busyStatusWord s free, hostRead_status_of_busy hbusy, merge_and_mask _ _ _, merge_and_not_mask _ _ _⟩

/-- Settles O20: such a read is answered with a value or with a free one. -/
theorem readsHaveNoSideEffect : Obligations.ReadsHaveNoSideEffect := by
  intro s t size off hoff h
  rcases hostRead_eq_next_of_ne_port hoff h with ⟨v, rfl⟩ | ⟨f, rfl⟩ <;> rfl

end Sys2Proof.Machine


/-! ## Encoding: the command words and what the engine does with the others -/

namespace Sys2Proof.Machine

/-! ### The fields of a word -/

theorem opField_lt (w : Word) : opField w < 2 ^ 8 := BitVec.isLt _

theorem argField_lt (w : Word) : argField w < 2 ^ 24 := BitVec.isLt _

/-- `OP` as a mask (R101, R106). -/
theorem toNat_and_0xFF (w : Word) : (w &&& 0xFF).toNat = opField w := by
  have hmask : (w &&& 0xFF).toNat = w.toNat % 2 ^ 8 := Nat.and_two_pow_sub_one_eq_mod w.toNat 8
  have := toNat_eq_fields w
  have := opField_lt w
  omega

/-- `ARG` as a shift (R102). -/
theorem toNat_shiftRight_8 (w : Word) : (w >>> 8).toNat = argField w := by
  have := toNat_eq_fields w
  have := opField_lt w
  rw [BitVec.toNat_ushiftRight, Nat.shiftRight_eq_div_pow]
  omega

/-- The mask/match form of SPECTRUM (R106). -/
theorem and_0xFF_eq_2_iff (w : Word) : w &&& 0xFF = 0x02 ↔ opField w = 0x02 := by
  rw [← toNat_and_0xFF, ← BitVec.toNat_inj]
  rfl

theorem shiftRight_8_eq_0_iff (w : Word) : w >>> 8 = 0 ↔ argField w = 0 := by
  rw [← toNat_shiftRight_8, ← BitVec.toNat_inj]
  rfl

/-! ### The fields of a command -/

theorem opcodeOf_le (i : Instr) : opcodeOf i ≤ 0x0A := by cases i <;> simp [opcodeOf]

theorem argOf_eq_zero {i : Instr} (h : ∀ n, i ≠ .spectrum n) : argOf i = 0 := by
  cases i with
  | spectrum n => exact absurd rfl (h n)
  | _ => rfl

/-- A command has a word exactly when its argument fits `ARG` (R102, R109). -/
theorem wellFormed_iff (i : Instr) : i.wellFormed = true ↔ argOf i < 2 ^ 24 := by
  cases i with
  | spectrum h => exact decide_eq_true_iff
  | _ => exact ⟨fun _ => by decide, fun _ => rfl⟩

theorem opField_encode (i : Instr) : opField (encode i) = opcodeOf i := by
  cases i with
  | spectrum h => exact Laws.OpcodeField.spectrum h
  | _ => rfl

theorem argField_encode {i : Instr} (h : i.wellFormed = true) : argField (encode i) = argOf i := by
  have hword : (encode i).toNat = (argOf i * 256 + opcodeOf i) % 2 ^ 32 := BitVec.toNat_ofNat _ _
  have hfields := toNat_eq_fields (encode i)
  rw [opField_encode] at hfields
  have := (wellFormed_iff i).mp h
  have := opcodeOf_le i
  omega

/-- The opcode map (R103, R106): which opcodes and arguments are those of a command. -/
theorem exists_instr_iff (op arg : Nat) :
    (∃ i, op = opcodeOf i ∧ arg = argOf i) ↔ op ≤ 0x0A ∧ (op = 0x02 ∨ arg = 0) := by
  constructor
  · rintro ⟨i, rfl, rfl⟩
    refine ⟨opcodeOf_le i, ?_⟩
    cases i with
    | spectrum h => exact .inl rfl
    | _ => exact .inr rfl
  · rintro ⟨hop, rfl | rfl⟩
    · exact ⟨.spectrum arg, rfl, rfl⟩
    · interval_cases op
      exacts [⟨.nop, rfl, rfl⟩, ⟨.config, rfl, rfl⟩, ⟨.spectrum 0, rfl, rfl⟩, ⟨.analyze, rfl, rfl⟩,
        ⟨.onset, rfl, rfl⟩, ⟨.tempo, rfl, rfl⟩, ⟨.resample, rfl, rfl⟩, ⟨.smooth, rfl, rfl⟩, ⟨.normalize, rfl, rfl⟩,
        ⟨.beat, rfl, rfl⟩, ⟨.run, rfl, rfl⟩]

/-! ### The decoder -/

/-- A word decodes to the command whose opcode and argument are its fields (R101 to R103, R105). -/
theorem decode_eq_ok_iff {w : Word} {i : Instr} :
    decode w = .ok i ↔ opField w = opcodeOf i ∧ argField w = argOf i := by
  refine ⟨fields_of_decode, fun ⟨hop, harg⟩ => ?_⟩
  cases i with
  | spectrum h =>
    rw [decode, hop, harg]
    rfl
  | _ =>
    rw [decode, hop]
    exact if_pos harg

/-- Which words are commands (R106). -/
theorem exists_decode_eq_ok_iff (w : Word) :
    (∃ i, decode w = .ok i) ↔ opField w ≤ 0x0A ∧ (opField w = 0x02 ∨ argField w = 0) := by
  simp only [decode_eq_ok_iff, exists_instr_iff]

/-- Every other word is BADCMD (R106). -/
theorem exists_decode_eq_error_iff (w : Word) : (∃ b, decode w = .error b) ↔ ¬∃ i, decode w = .ok i := by
  cases decode w <;> simp

/-- Settles O1: both directions compare the two fields of a word with those of a command. -/
theorem decodeAndEncodeAgree : Obligations.DecodeAndEncodeAgree := by
  refine ⟨fun i hi => decode_eq_ok_iff.mpr ⟨opField_encode i, argField_encode hi⟩, fun w i h => ⟨?_, ?_⟩⟩
  · obtain ⟨-, harg⟩ := decode_eq_ok_iff.mp h
    exact (wellFormed_iff i).mpr (harg ▸ argField_lt w)
  · exact (eq_ofNat_of_decode h).symm

/-- Settles O2: masks and shifts are the fields, and a word with `ARG = 0` is its opcode. -/
theorem decodingByMaskAndMatch : Obligations.DecodingByMaskAndMatch := by
  intro w
  rw [exists_decode_eq_error_iff, exists_decode_eq_ok_iff, toNat_and_0xFF, and_0xFF_eq_2_iff, shiftRight_8_eq_0_iff]
  refine ⟨Iff.rfl, Iff.rfl, fun i hi => ?_, fun h => ?_⟩
  · have hall : w &&& 0xFFFFFFFF = w := BitVec.and_allOnes
    have := toNat_eq_fields w
    have := opField_lt w
    have := opcodeOf_le i
    rw [decode_eq_ok_iff, hall, argOf_eq_zero hi]
    omega
  · rw [decode_eq_ok_iff, toNat_shiftRight_8]
    exact and_congr_right fun _ => eq_comm

/-- Settles O3, by running the decoder on each word. -/
theorem commandWords : Obligations.CommandWords := by
  unfold Obligations.CommandWords
  decide

/-! ### Words that are no command, and arguments out of range -/

/-- The error path where no error stands (R243). -/
theorem State.fail_of_error_none {s : State} (h : s.error = none) (e : ErrCode) :
    s.fail e = { s with error := some e, latch := none } := by
  rw [State.fail, State.recordError, h]
  rfl

/-- A latched word that is no command fails with ERR_BADCMD and has no other effect (R104 to R106). -/
theorem step_of_not_command {s : State} {w : Word} (hin : s.inputs = []) (hlatch : s.latch = some w)
    (herr : s.error = none) (hw : ¬(opField w ≤ 0x0A ∧ (opField w = 0x02 ∨ argField w = 0))) :
    step s = .next { s with error := some .badCmd, latch := none } := by
  rw [← exists_decode_eq_ok_iff, ← exists_decode_eq_error_iff] at hw
  obtain ⟨b, hb⟩ := hw
  rw [step_of_inputs_nil hin, ← State.fail_of_error_none herr, engineTurn, State.fetch, hlatch]
  simp only [hb]

/-- A configured SPECTRUM stops at a hop index out of range (R155). -/
theorem spectrumBody_of_nhops_le {s : State} {h : Nat} (hstage : s.stage ≠ .invalid) (hconf : configHolds s = true)
    (hrange : s.nhops.toNat ≤ h) : spectrumBody h s = .error (.error .range) := by
  have hstageOk : check (s.stage != .invalid) .seq = .ok () := check_eq_ok.mpr (bne_iff_ne.mpr hstage)
  have hconfOk : assumeConfig s = .ok () := assume_eq_ok.mpr hconf
  have hrangeFails : check (h < s.nhops.toNat) .range = .error (.error .range) :=
    check_eq_error.mpr ⟨decide_eq_false (Nat.not_lt.mpr hrange), rfl⟩
  rw [spectrumBody, hstageOk, hconfOk, hrangeFails]
  rfl

/-- Settles O6: a reserved opcode is above RUN's, so that the word is no command. -/
theorem reservedOpcodesFail : Obligations.ReservedOpcodesFail := by
  intro s w hin hlatch herr hreserved
  rw [toNat_and_0xFF] at hreserved
  exact step_of_not_command hin hlatch herr fun ⟨hop, _⟩ => absurd hop (by omega)

/-- Settles O7: with such an argument a word is no command, and SPECTRUM takes every argument and checks it when it
runs. -/
theorem argumentsAreChecked : Obligations.ArgumentsAreChecked := by
  refine ⟨fun s w hin hlatch herr hop harg => ?_, fun w hop => ?_, fun s h herr hstage hconf hrange => ?_⟩
  · rw [Ne, and_0xFF_eq_2_iff] at hop
    rw [Ne, shiftRight_8_eq_0_iff] at harg
    exact step_of_not_command hin hlatch herr fun ⟨_, hcommand⟩ => hcommand.elim hop harg
  · exact decode_eq_ok_iff.mpr ⟨(and_0xFF_eq_2_iff w).mp hop, (toNat_shiftRight_8 w).symm⟩
  · calc exec (.spectrum h) s
      _ = finish s (spectrumBody h s) := rfl
      _ = .next (s.fail .range) := by rw [spectrumBody_of_nhops_le hstage hconf hrange, finish_error]
      _ = .next { s with error := some .range, latch := none } := by rw [State.fail_of_error_none herr]

end Sys2Proof.Machine

/-! ## Commands: acceptance, the engine's turn, and the stage -/

namespace Sys2Proof.Machine

/-! ### Acceptance and the engine's turn -/

/-- A command that decodes is run by the engine's turn (R121). -/
theorem engineTurn_of_decode {s : State} {w : Word} {i : Instr} (hlatch : s.latch = some w) (hdec : decode w = .ok i) :
    engineTurn s = exec i s := by
  simp only [engineTurn, State.fetch, hlatch, hdec]

/-- Settles O4: the turn that comes next is the decoded command. -/
theorem stepRunsTheDecodedCommand : Obligations.StepRunsTheDecodedCommand := by
  intro s w i hlatch hdec
  refine ⟨fun hin => ?_, fun rest hin => ?_⟩
  · rw [step_of_inputs_nil hin, engineTurn_of_decode hlatch hdec]
  · rw [step_of_inputs_cons hin]
    exact engineTurn_of_decode (s := { s with inputs := rest }) hlatch hdec

/-- A command word is rejected while a command runs or an error stands, and accepted otherwise (R120). -/
theorem offerCommand_eq (s : State) (v : Word) :
    offerCommand s v = if s.latch.isSome = true ∨ s.error ≠ none then s.reject else s.accept v := by
  have hcond : (s.busy || s.err) = true ↔ s.latch.isSome = true ∨ s.error ≠ none := by
    rw [Bool.or_eq_true, State.busy, State.err, Option.isSome_iff_ne_none (o := s.error)]
  rw [offerCommand]
  exact if_congr hcond rfl rfl

/-- Settles O10: a write at the offset of `CMD` offers its value. -/
theorem commandAcceptance : Obligations.CommandAcceptance := by
  intro s v
  have hwrite : hostWrite s 4 0x00C v = .next (offerCommand s v) := hostWrite_of_regAt (r := .cmd) rfl s v
  rw [hwrite, offerCommand_eq]
  rfl

/-- Settles O30: NOP's body is the state itself, which completes. -/
theorem nopCompletes : Obligations.NopCompletes := fun s => finish_ok s s

/-! ### No error and no DONE stand while a command runs -/

theorem BusyInv.of_idle {s : State} (h : s.latch = none) : BusyInv s :=
  fun hbusy => absurd hbusy (State.not_busy_of_idle h)

/-- What keeps the latch, ERR and DONE keeps the rule. -/
theorem BusyInv.of_eq {s t : State} (hs : BusyInv s) (hlatch : t.latch = s.latch) (herr : t.error = s.error)
    (hdone : t.done = s.done) : BusyInv t := by
  unfold BusyInv State.busy State.err
  rw [hlatch, herr, hdone]
  exact hs

/-- The engine's turn ends idle, or changes nothing (R121, R258). -/
theorem engineTurn_keeps_busyInv {s t : State} (hs : BusyInv s) (h : engineTurn s = .next t) : BusyInv t := by
  rcases engineTurn_eq_next h with rfl | rfl | ⟨w, i, -, -, hexec⟩
  · exact hs
  · exact .of_idle rfl
  · exact .of_idle (exec_effect hexec).2

/-- No host read touches the latch (R83). -/
theorem hostRead_latch {s t : State} {size : Nat} {off : BitVec 12} (h : hostRead s size off = .next t) :
    t.latch = s.latch := by
  rcases hostRead_eq_next h with ⟨v, rfl⟩ | ⟨f, rfl⟩ | ⟨f, rfl⟩ | rfl | ⟨v, rfl⟩ <;> rfl

/-- While a command runs a host read answers, or is rejected: it records no error (R73, R80). -/
theorem hostRead_of_busy {s t : State} {size : Nat} {off : BitVec 12} (hbusy : s.latch.isSome = true)
    (h : hostRead s size off = .next t) :
    (∃ v, t = s.respond v) ∨ (∃ f, t = s.respondFree f) ∨ ∃ f, t = s.reject.respondFree f := by
  by_cases hoff : off = 0x088
  · subst hoff
    cases hal : wellAligned size 0x088 with
    | false =>
      rw [hostRead_of_not_wellAligned hal] at h
      cases h
    | true =>
      obtain ⟨rfl, -⟩ := wellAligned_iff.mp hal
      rw [hostRead_bufData, portRead_of_busy hbusy] at h
      cases h
      exact .inr (.inr ⟨_, rfl⟩)
  · exact (hostRead_eq_next_of_ne_port hoff h).imp id .inl

theorem hostRead_keeps_busyInv {s t : State} {size : Nat} {off : BitVec 12} (hs : BusyInv s)
    (h : hostRead s size off = .next t) : BusyInv t := by
  cases hlatch : s.latch with
  | none => exact .of_idle ((hostRead_latch h).trans hlatch)
  | some w =>
    rcases hostRead_of_busy (by rw [hlatch]; rfl) h with ⟨v, rfl⟩ | ⟨f, rfl⟩ | ⟨f, rfl⟩ <;> exact hs

/-- A write that the running engine rejects, and that leaves an idle engine idle, keeps the rule (R75). -/
theorem unlessBusy_keeps_busyInv {s u : State} (hs : BusyInv s) (hu : u.latch = s.latch) :
    BusyInv (s.unlessBusy u) := by
  cases hlatch : s.latch with
  | none =>
    rw [State.unlessBusy_of_idle hlatch]
    exact .of_idle (hu.trans hlatch)
  | some w =>
    rw [State.unlessBusy_of_busy (by rw [hlatch]; rfl)]
    exact hs

/-- Acceptance clears DONE, and takes place only where no error stands (R120). -/
theorem offerCommand_keeps_busyInv {s : State} (hs : BusyInv s) (v : Word) : BusyInv (offerCommand s v) := by
  unfold offerCommand
  split_ifs with h
  · exact hs
  · intro _
    rw [Bool.or_eq_true, not_or, Bool.not_eq_true, Bool.not_eq_true] at h
    exact ⟨h.2, rfl⟩

theorem portWrite_keeps_busyInv {s : State} (hs : BusyInv s) (v : Word) : BusyInv (portWrite s v) := by
  cases hlatch : s.latch with
  | none =>
    rcases portWrite_cases s v with h | h | h <;> rw [h] <;> exact .of_idle hlatch
  | some w =>
    rw [portWrite_of_busy (by rw [hlatch]; rfl)]
    exact hs

/-- An acknowledgement can only clear ERR and DONE (R77). -/
theorem ackStatus_keeps_busyInv {s : State} (hs : BusyInv s) (v : Word) : BusyInv (s.ackStatus v) := by
  intro hbusy
  obtain ⟨herr, hdone⟩ := hs hbusy
  have herror : s.error = none := Option.not_isSome_iff_eq_none.mp (Bool.eq_false_iff.mp herr)
  rw [State.ackStatus, State.err, herror, hdone]
  exact ⟨by rw [ite_self]; rfl, rfl⟩

theorem writeReg_keeps_busyInv {s : State} (hs : BusyInv s) (v : Word) (r : Reg) : BusyInv (writeReg s v r) := by
  cases r with
  | ctrl =>
    rw [writeReg]
    split
    · exact .of_idle rfl
    · exact unlessBusy_keeps_busyInv hs rfl
  | status => exact ackStatus_keeps_busyInv hs v
  | cmd => exact offerCommand_keeps_busyInv hs v
  | sr | nsamp | fps | smooth | bufSel | bufIdx => exact unlessBusy_keeps_busyInv hs rfl
  | bufData => exact portWrite_keeps_busyInv hs v
  | _ => exact hs

/-- Settles O56: a command ends idle, and while one runs the host can neither record an error nor set DONE. -/
theorem stepKeepsBusyInv : Obligations.StepKeepsBusyInv := by
  intro s t hs h
  obtain ⟨rest, h⟩ := step_eq_next h
  have hu : BusyInv { s with inputs := rest } := hs
  rcases h with h | ⟨size, off, h⟩ | ⟨size, off, v, h⟩ | rfl
  · exact engineTurn_keeps_busyInv hu h
  · exact hostRead_keeps_busyInv hu h
  · rcases hostWrite_eq_next h with rfl | ⟨r, rfl⟩
    · exact hu
    · exact writeReg_keeps_busyInv hu v r
  · exact .of_idle rfl

/-! ### The stage a body leaves (R122) -/

section

variable {s t : State}

theorem configBody_stage (h : configBody s = .ok t) : t.stage = .configured := by
  obtain ⟨nh, nf, -, rfl⟩ := configBody_eq_ok.mp h
  rfl

theorem analyzeBody_stage (h : analyzeBody s = .ok t) : t.stage = .analyzed := by
  obtain ⟨-, -, xs, -, -, rfl⟩ := analyzeBody_eq_ok.mp h
  rfl

theorem onsetBody_stage (h : onsetBody s = .ok t) : t.stage = .onsets := by
  obtain ⟨-, -, fs, -, -, -, rfl⟩ := onsetBody_eq_ok.mp h
  rfl

theorem tempoBody_stage (h : tempoBody s = .ok t) : t.stage = .tempo := by
  obtain ⟨-, -, ons, -, rfl⟩ := tempoBody_eq_ok.mp h
  rfl

theorem resampleBody_stage (h : resampleBody s = .ok t) : t.stage = .resampled := by
  obtain ⟨-, -, -, -, rfl⟩ := resampleBody_eq_ok.mp h
  rfl

theorem smoothBody_stage (h : smoothBody s = .ok t) : t.stage = .smoothed := by
  obtain ⟨-, -, -, -, rfl⟩ := smoothBody_eq_ok.mp h
  rfl

theorem normalizeBody_stage (h : normalizeBody s = .ok t) : t.stage = .normalized := by
  obtain ⟨-, -, -, -, rfl⟩ := normalizeBody_eq_ok.mp h
  rfl

theorem beatBody_stage (h : beatBody s = .ok t) : t.stage = .complete := by
  obtain ⟨-, -, ons, -, -, rfl⟩ := beatBody_eq_ok.mp h
  rfl

theorem spectrumBody_stage {n : Nat} (h : spectrumBody n s = .ok t) : t.stage = s.stage := by
  obtain ⟨-, -, -, xs, -, -, rfl⟩ := spectrumBody_eq_ok.mp h
  exact State.withSpectrum_stage s _

end

/-! ### The stage discipline -/

/-- A computation that requires another stage fails with ERR_SEQ (R122). -/
theorem requireStage_bind_of_ne {s : State} {st : Stage} (h : (s.stage == st) = false) (f : Unit → Cmd State) :
    (requireStage s st >>= f) = .error (.error .seq) :=
  Cmd.bind_eq_error.mpr (.inl (check_eq_error.mpr ⟨h, rfl⟩))

/-- A command whose required stage does not hold fails with ERR_SEQ (R122). -/
theorem exec_of_stage_not_allowed {i : Instr} {s : State} (h : stageAllows i s.stage = false) :
    exec i s = .next (s.fail .seq) := by
  have hfail : ∀ {c : Cmd State}, c = .error (.error .seq) → finish s c = .next (s.fail .seq) := by
    rintro c rfl
    exact finish_error s .seq
  cases i with
  | nop | config | run => cases h
  | spectrum n => exact hfail (Cmd.bind_eq_error.mpr (.inl (check_eq_error.mpr ⟨h, rfl⟩)))
  | analyze | onset | tempo | resample | smooth | normalize | beat => exact hfail (requireStage_bind_of_ne h _)

/-- A command that ends without an error has completed (R121, R243). -/
theorem finish_completes {s t : State} {c : Cmd State} (h : finish s c = .next t) (herr : t.error = none) :
    ∃ u, c = .ok u ∧ t = u.complete := by
  rcases finish_eq_next.mp h with hok | ⟨e, -, rfl⟩
  · exact hok
  · cases herr

/-- A sequence of one command is that command. -/
theorem runSequence_singleton (c : State → Cmd State) (s : State) : runSequence [c] s = finish s (c s) := by
  rcases hc : c s with (e | f) | u
  · rw [runSequence_cons_error hc, finish_error]
  · rw [runSequence_cons_fault hc, finish_fault]
  · rw [runSequence_cons_ok hc, runSequence_nil, finish_ok]

/-- A sequence that ends without an error has completed its last command (R129, R130). -/
theorem runSequence_completes_last {cs : List (State → Cmd State)} {c : State → Cmd State} {s t : State}
    (h : runSequence (cs ++ [c]) s = .next t) (herr : t.error = none) : ∃ u v, c u = .ok v ∧ t = v.complete := by
  induction cs generalizing s with
  | nil =>
    rw [List.nil_append, runSequence_singleton] at h
    obtain ⟨v, hv, rfl⟩ := finish_completes h herr
    exact ⟨s, v, hv, rfl⟩
  | cons c' cs ih =>
    rw [List.cons_append] at h
    rcases hc : c' s with (e | f) | u
    · rw [runSequence_cons_error hc] at h
      cases h
      cases herr
    · rw [runSequence_cons_fault hc] at h
      cases h
    · rw [runSequence_cons_ok hc] at h
      exact ih h

/-- A command that completes leaves the stage of R122's table. -/
theorem stage_of_completed {i : Instr} {s t : State} (h : exec i s = .next t) (herr : t.error = none) :
    t.stage = stageAfter i s.stage := by
  have hbody : ∀ {c : Cmd State}, finish s c = .next t → (∀ u, c = .ok u → u.stage = stageAfter i s.stage) →
      t.stage = stageAfter i s.stage := by
    intro c hc hstage
    obtain ⟨u, hu, rfl⟩ := finish_completes hc herr
    exact hstage u hu
  cases i with
  | nop =>
    refine hbody (c := nopBody s) h fun u hu => ?_
    cases hu
    rfl
  | config => exact hbody h fun _ => configBody_stage
  | spectrum n => exact hbody h fun _ => spectrumBody_stage
  | analyze => exact hbody h fun _ => analyzeBody_stage
  | onset => exact hbody h fun _ => onsetBody_stage
  | tempo => exact hbody h fun _ => tempoBody_stage
  | resample => exact hbody h fun _ => resampleBody_stage
  | smooth => exact hbody h fun _ => smoothBody_stage
  | normalize => exact hbody h fun _ => normalizeBody_stage
  | beat => exact hbody h fun _ => beatBody_stage
  | run =>
    obtain ⟨u, v, hv, rfl⟩ := runSequence_completes_last (cs := runCommands.dropLast) (c := beatBody) h herr
    exact (State.complete_stage v).trans (beatBody_stage hv)

/-- Settles O26: the stage check comes first in every command that has one, and each body sets its own stage. -/
theorem stageDiscipline : Obligations.StageDiscipline := by
  intro i s herr
  refine ⟨fun hstage => ?_, fun t h hnone => stage_of_completed h hnone⟩
  rw [exec_of_stage_not_allowed hstage, State.fail_of_error_none herr]

end Sys2Proof.Machine

/-! ## RUN as its eight commands -/

namespace Sys2Proof.Machine

/-! ### A body sees neither DONE nor BUSY -/

/-- A body that neither reads nor changes DONE and BUSY and records no error itself: it does the same whether the
command before it has ended on its own or as a step of RUN (R129). -/
structure StatusBlind (c : State → Cmd State) : Prop where
  complete : ∀ s, c s.complete = State.complete <$> c s
  keeps : ∀ s t, c s = .ok t → t.error = s.error ∧ t.done = s.done

theorem configBody_complete (s : State) : configBody s.complete = State.complete <$> configBody s := by
  have hcounts : configCounts s.complete = configCounts s := rfl
  unfold configBody
  rw [hcounts]
  split <;> rfl

theorem analyzeBody_complete (s : State) : analyzeBody s.complete = State.complete <$> analyzeBody s := by
  simp only [analyzeBody, map_bind]
  rfl

theorem onsetBody_complete (s : State) : onsetBody s.complete = State.complete <$> onsetBody s := by
  simp only [onsetBody, map_bind]
  rfl

theorem tempoBody_complete (s : State) : tempoBody s.complete = State.complete <$> tempoBody s := by
  simp only [tempoBody, map_bind]
  rfl

theorem resampleBody_complete (s : State) : resampleBody s.complete = State.complete <$> resampleBody s := by
  simp only [resampleBody, map_bind]
  rfl

theorem smoothBody_complete (s : State) : smoothBody s.complete = State.complete <$> smoothBody s := by
  simp only [smoothBody, map_bind]
  rfl

theorem normalizeBody_complete (s : State) : normalizeBody s.complete = State.complete <$> normalizeBody s := by
  simp only [normalizeBody, map_bind]
  rfl

theorem beatBody_complete (s : State) : beatBody s.complete = State.complete <$> beatBody s := by
  simp only [beatBody, map_bind]
  rfl

/-- The commands of RUN are blind to DONE and BUSY. -/
theorem runCommands_statusBlind : ∀ c ∈ runCommands, StatusBlind c := by
  intro c hc
  simp only [runCommands, List.mem_cons, List.not_mem_nil, or_false] at hc
  rcases hc with rfl | rfl | rfl | rfl | rfl | rfl | rfl | rfl
  · refine ⟨configBody_complete, fun s t h => ?_⟩
    obtain ⟨nh, nf, -, rfl⟩ := configBody_eq_ok.mp h
    exact ⟨rfl, rfl⟩
  · refine ⟨analyzeBody_complete, fun s t h => ?_⟩
    obtain ⟨-, -, xs, -, -, rfl⟩ := analyzeBody_eq_ok.mp h
    exact ⟨State.analyzed_error .., State.analyzed_done ..⟩
  · refine ⟨onsetBody_complete, fun s t h => ?_⟩
    obtain ⟨-, -, fs, -, -, -, rfl⟩ := onsetBody_eq_ok.mp h
    exact ⟨State.withOnsets_error .., State.withOnsets_done ..⟩
  · refine ⟨tempoBody_complete, fun s t h => ?_⟩
    obtain ⟨-, -, ons, -, rfl⟩ := tempoBody_eq_ok.mp h
    exact ⟨State.withTempo_error .., State.withTempo_done ..⟩
  · refine ⟨resampleBody_complete, fun s t h => ?_⟩
    obtain ⟨-, -, -, -, rfl⟩ := resampleBody_eq_ok.mp h
    exact ⟨State.resampled_error s, State.resampled_done s⟩
  · refine ⟨smoothBody_complete, fun s t h => ?_⟩
    obtain ⟨-, -, -, -, rfl⟩ := smoothBody_eq_ok.mp h
    exact ⟨State.smoothed_error s, State.smoothed_done s⟩
  · refine ⟨normalizeBody_complete, fun s t h => ?_⟩
    obtain ⟨-, -, -, -, rfl⟩ := normalizeBody_eq_ok.mp h
    exact ⟨State.normalized_error s, State.normalized_done s⟩
  · refine ⟨beatBody_complete, fun s t h => ?_⟩
    obtain ⟨-, -, ons, -, -, rfl⟩ := beatBody_eq_ok.mp h
    exact ⟨State.withBeats_error .., State.withBeats_done ..⟩

/-! ### Commands in turn and as one sequence -/

/-- DONE as RUN leaves it at its end: 1 exactly where no error is recorded (R25, R130). -/
def settleDone : Host.Outcome State Fault Refusal → Host.Outcome State Fault Refusal
  | .next t => .next { t with done := !t.err }
  | .fault f => .fault f
  | .refused r => .refused r

theorem settleDone_complete {s : State} (herr : s.error = none) :
    settleDone (.next s.complete) = .next s.complete := by
  simp [settleDone, State.complete, State.err, herr]

/-- A command that fails after others have completed leaves DONE 0 in RUN. -/
theorem settleDone_fail {s : State} (hdone : s.done = false) (e : ErrCode) :
    settleDone (.next (s.complete.fail e)) = .next (s.fail e) := by
  simp [settleDone, State.fail, State.recordError, State.complete, State.err, hdone]

/-- The instruction is the command that ends as every command but RUN does, with this body (R121). -/
def HasBody (i : Instr) (c : State → Cmd State) : Prop := ∀ s, exec i s = finish s (c s)

theorem pipeline_hasBody : List.Forall₂ HasBody pipeline runCommands :=
  .cons (fun _ => rfl) <| .cons (fun _ => rfl) <| .cons (fun _ => rfl) <| .cons (fun _ => rfl) <|
    .cons (fun _ => rfl) <| .cons (fun _ => rfl) <| .cons (fun _ => rfl) <| .cons (fun _ => rfl) .nil

section

variable {i : Instr} {is : List Instr} {c : State → Cmd State} {s : State}

theorem runInTurn_cons_ok {u : State} (hi : HasBody i c) (h : c s = .ok u) (herr : u.error = none) :
    runInTurn (i :: is) s = runInTurn is u.complete := by
  rw [runInTurn, hi s, h, finish_ok]
  simp [State.err, herr]

theorem runInTurn_cons_error {e : ErrCode} (hi : HasBody i c) (h : c s = .error (.error e)) :
    runInTurn (i :: is) s = .next (s.fail e) := by
  rw [runInTurn, hi s, h, finish_error]
  rfl

theorem runInTurn_cons_fault {f : Fault} (hi : HasBody i c) (h : c s = .error (.fault f)) :
    runInTurn (i :: is) s = .fault f := by
  rw [runInTurn, hi s, h, finish_fault]

/-- Whether the state before the first command is one in which a command has just completed makes no difference but for
DONE. -/
theorem settleDone_runInTurn_complete (hi : HasBody i c) (hc : StatusBlind c) (herr : s.error = none) :
    settleDone (runInTurn (i :: is) s.complete) = settleDone (runInTurn (i :: is) s) := by
  have hcomplete := hc.complete s
  rcases h : c s with (e | f) | u <;> rw [h] at hcomplete
  · rw [runInTurn_cons_error hi h, runInTurn_cons_error hi hcomplete]
    rfl
  · rw [runInTurn_cons_fault hi h, runInTurn_cons_fault hi hcomplete]
  · have hu : u.error = none := (hc.keeps s u h).1.trans herr
    rw [runInTurn_cons_ok hi h hu, runInTurn_cons_ok hi hcomplete hu]
    rfl

/-- A sequence of bodies ends as its commands issued one after another do, up to DONE (R129, R130). -/
theorem runSequence_eq_settleDone_runInTurn {cs : List (State → Cmd State)} (hcs : List.Forall₂ HasBody is cs)
    (hblind : ∀ c ∈ cs, StatusBlind c) (herr : s.error = none) (hdone : s.done = false) :
    runSequence cs s = settleDone (runInTurn is s.complete) := by
  induction hcs generalizing s with
  | nil =>
    rw [runSequence_nil, runInTurn, settleDone_complete herr]
  | @cons i c is cs hi _ ih =>
    have hc : StatusBlind c := hblind c List.mem_cons_self
    have hcomplete := hc.complete s
    rcases h : c s with (e | f) | u <;> rw [h] at hcomplete
    · rw [runSequence_cons_error h, runInTurn_cons_error hi hcomplete, settleDone_fail hdone]
    · rw [runSequence_cons_fault h, runInTurn_cons_fault hi hcomplete]
      rfl
    · obtain ⟨hu, hudone⟩ := hc.keeps s u h
      rw [runSequence_cons_ok h, runInTurn_cons_ok hi hcomplete (hu.trans herr)]
      exact ih (fun c' h' => hblind c' (List.mem_cons_of_mem _ h')) (hu.trans herr) (hudone.trans hdone)

end

/-- Settles O40: each body of RUN does what its command does, whose completion changes only DONE and BUSY, which no body
looks at. -/
theorem runIsThePipeline : Obligations.RunIsThePipeline := by
  intro s herr hdone
  calc exec .run s
    _ = settleDone (runInTurn pipeline s.complete) :=
      runSequence_eq_settleDone_runInTurn pipeline_hasBody runCommands_statusBlind herr hdone
    _ = settleDone (runInTurn pipeline s) :=
      settleDone_runInTurn_complete (fun _ => rfl) (runCommands_statusBlind configBody List.mem_cons_self) herr

end Sys2Proof.Machine

/-! ## CONFIG -/

namespace Sys2Proof.Machine

/-! ### The checks of R126 in real values -/

theorem realValue_pos_iff (w : Word) : 0 < realValue w ↔ 0 < realUnits w := by
  rw [realValue, lt_div_iff₀ (by positivity), zero_mul, Int.cast_pos]

theorem realValue_le_one_iff (w : Word) : realValue w ≤ 1 ↔ realUnits w ≤ 2 ^ 149 := by
  rw [realValue, div_le_one (by positivity)]
  norm_cast

/-- A word that is no NaN and at most 1 in magnitude is finite. -/
theorem isFinite_of_magUnits_le {w : Word} (hnan : isNaN w = false) (h : magUnits w ≤ 2 ^ 149) : isFinite w = true := by
  refine isFinite_of_not hnan (Bool.eq_false_iff.mpr fun hinf => ?_)
  have hunits : unitsOfBits 0x7F800000 = 2 ^ 23 * 2 ^ 254 := by decide
  rw [magUnits_eq, (isInf_iff w).mp hinf, hunits] at h
  exact absurd h (by norm_num)

theorem validSr_iff (sr : Word) : validSr sr = true ↔ 1 ≤ sr.toNat ∧ sr.toNat ≤ 192000 := by
  simp [validSr]

theorem validFps_iff (fps : Word) : validFps fps = true ↔ isFinite fps = true ∧ 0 < realValue fps := by
  rw [realValue_pos_iff, validFps, Bool.and_eq_true, decide_eq_true_iff]

theorem validSmooth_iff (w : Word) :
    validSmooth w = true ↔ isNaN w = false ∧ 0 ≤ realValue w ∧ realValue w ≤ 1 := by
  rw [realValue_nonneg_iff, realValue_le_one_iff, validSmooth, inUnit_iff]
  refine and_congr_left fun ⟨h0, h1⟩ => ⟨not_isNaN_of_finite, fun hnan => isFinite_of_magUnits_le hnan ?_⟩
  have := natAbs_realUnits w
  omega

/-! ### The counts of R127 and R128 -/

theorem nHops_eq_ceil (nsamp : Nat) : (nHops nsamp : ℤ) = ⌈(nsamp : ℚ) / 1024⌉ := by
  have hlo : nsamp ≤ 1024 * nHops nsamp := by unfold nHops; omega
  have hhi : 1024 * nHops nsamp ≤ nsamp + 1023 := by unfold nHops; omega
  rw [eq_comm, Int.ceil_eq_iff, lt_div_iff₀ (by norm_num), div_le_iff₀ (by norm_num)]
  qify at hlo hhi
  constructor
  · push_cast
    linarith
  · push_cast
    linarith

/-- `floor(NSAMP·FPS/SR + 1/2)` on exact values (R128). -/
theorem nFrames_eq_floor {sr : Nat} {fps : Word} (nsamp : Nat) (hsr : 1 ≤ sr) (hfps : 0 < realValue fps) :
    (nFrames nsamp (magUnits fps) sr : ℤ) = ⌊(nsamp : ℚ) * realValue fps / sr + 1 / 2⌋ := by
  have hunits : realUnits fps = magUnits fps := by
    have := (realValue_pos_iff fps).mp hfps
    have := natAbs_realUnits fps
    omega
  have hsr' : (sr : ℚ) ≠ 0 := by positivity
  have hfrac : (nsamp : ℚ) * realValue fps / sr + 1 / 2 =
      ((2 * nsamp * magUnits fps + 2 ^ 149 * sr : ℕ) : ℚ) / ((2 * (2 ^ 149 * sr) : ℕ) : ℚ) := by
    rw [realValue, hunits]
    push_cast
    field_simp
    ring
  rw [hfrac, Int.floor_div_natCast, Int.floor_natCast]
  rfl

/-! ### CONFIG's checks in their order -/

/-- The registers pass the checks of R126. -/
def ValidRegisters (s : State) : Prop := validSr s.sr = true ∧ validFps s.fps = true ∧ validSmooth s.smooth = true

theorem configCounts_of_invalid {s : State} (h : ¬ValidRegisters s) : configCounts s = .error .param := by
  unfold configCounts
  split_ifs with hsr hfps hsmooth
  · rfl
  · rfl
  · rfl
  all_goals exact absurd ⟨by simpa using hsr, by simpa using hfps, by simpa using hsmooth⟩ h

theorem configCounts_of_valid {s : State} (h : ValidRegisters s) : configCounts s =
    if s.nsamp.toNat = 0 then .error .empty
    else if Config.pMax < s.nsamp.toNat then .error .range
    else if Config.frameMax < nFrames s.nsamp.toNat s.fpsUnits s.sr.toNat then .error .range
    else .ok (nHops s.nsamp.toNat, nFrames s.nsamp.toNat s.fpsUnits s.sr.toNat) := by
  obtain ⟨hsr, hfps, hsmooth⟩ := h
  simp [configCounts, hsr, hfps, hsmooth]

/-- A CONFIG whose checks fail takes the error path (R125, R243). -/
theorem exec_config_of_error {s : State} {e : ErrCode} (herr : s.error = none) (h : configCounts s = .error e) :
    exec .config s = .next { s with error := some e, latch := none } := by
  have hbody : configBody s = .error (.error e) := configBody_eq_error.mpr ⟨e, h, rfl⟩
  rw [← State.fail_of_error_none herr]
  exact (congrArg (finish s) hbody).trans (finish_error s e)

/-- A CONFIG whose checks pass completes (R125). -/
theorem exec_config_of_ok {s : State} {nh nf : Nat} (h : configCounts s = .ok (nh, nf)) :
    exec .config s = .next (s.configured nh nf).complete :=
  (congrArg (finish s) (configBody_eq_ok.mpr ⟨nh, nf, h, rfl⟩)).trans (finish_ok s _)

/-- The counts fit the registers and the buffers (R127, R131). -/
theorem counts_of_configCounts {s : State} {nh nf : Nat} (h : configCounts s = .ok (nh, nf)) :
    (word nh).toNat = nh ∧ (word nf).toNat = nf ∧ 1 ≤ nh ∧ nh ≤ Config.hopMax := by
  have hc : configCounts (s.configured nh nf) = .ok ((word nh).toNat, (word nf).toNat) :=
    configHolds_iff.mp (configHolds_configured h)
  have hcounts : (nh, nf) = ((word nh).toNat, (word nf).toNat) := Except.ok.inj (h.symm.trans hc)
  obtain ⟨hnh, hnf⟩ := Prod.mk.inj hcounts
  have hfacts := configFacts (configHolds_configured h)
  exact ⟨hnh.symm, hnf.symm, hnh ▸ hfacts.nhopsPos, hnh ▸ hfacts.nhopsLe⟩

/-- A word with CONFIG's opcode and a nonzero `ARG` fails with ERR_BADCMD (R105, R245). -/
theorem step_of_config_with_argument {s : State} {w : Word} (hin : s.inputs = []) (hlatch : s.latch = some w)
    (herr : s.error = none) (hop : w &&& 0xFF = 0x01) (harg : w >>> 8 ≠ 0) :
    step s = .next { s with error := some .badCmd, latch := none } := by
  have hop : opField w = 0x01 := by rw [← toNat_and_0xFF, hop]; rfl
  rw [Ne, shiftRight_8_eq_0_iff] at harg
  refine step_of_not_command hin hlatch herr fun ⟨_, hcommand⟩ => hcommand.elim (fun h => ?_) harg
  rw [hop] at h
  cases h

/-- Settles O28: the branches of CONFIG's checks, with R126's conditions and the counts read as exact numbers. -/
theorem configChecksAndWrites : Obligations.ConfigChecksAndWrites := by
  intro s herr frames fails srOk fpsOk smoothOk
  have hvalid : srOk ∧ fpsOk ∧ smoothOk ↔ ValidRegisters s :=
    and_congr (validSr_iff s.sr).symm (and_congr (validFps_iff s.fps).symm (validSmooth_iff s.smooth).symm)
  refine ⟨fun w hin hlatch hop harg => step_of_config_with_argument hin hlatch herr hop harg,
    fun hbad => exec_config_of_error herr (configCounts_of_invalid (hvalid.not.mp hbad)), fun hok => ?_⟩
  have hcounts := configCounts_of_valid (hvalid.mp hok)
  have hframes : (nFrames s.nsamp.toNat s.fpsUnits s.sr.toNat : ℤ) = ⌊frames⌋ :=
    nFrames_eq_floor s.nsamp.toNat hok.1.1 hok.2.1.2
  refine ⟨fun h0 => ?_, fun h0 hcap => ?_, fun h0 hcap hfcap => ?_, fun h0 hcap hfcap => ?_⟩
  · exact exec_config_of_error herr (by rw [hcounts, if_pos h0])
  · exact exec_config_of_error herr (by rw [hcounts, if_neg h0, if_pos hcap])
  · exact exec_config_of_error herr (by rw [hcounts, if_neg h0, if_neg (by omega), if_pos (by omega)])
  · rw [if_neg h0, if_neg (by omega), if_neg (by omega)] at hcounts
    obtain ⟨hnh, hnf, hpos, hle⟩ := counts_of_configCounts hcounts
    refine ⟨_, _, exec_config_of_ok hcounts, ?_⟩
    rw [State.configured_nhops, State.configured_nframes, hnh, hnf]
    exact ⟨nHops_eq_ceil _, hpos, hle, hframes⟩

end Sys2Proof.Machine

/-! ## RUN completes -/

namespace Sys2Proof.Machine

/-! ### The commands after ANALYZE complete at their stage -/

/-- A computation that ends with no error code: it completes or records a fault. -/
def NoErrCode {α : Type} (c : Cmd α) : Prop := ∀ e, c ≠ .error (.error e)

theorem noErrCode_ok {α : Type} (x : α) : NoErrCode (.ok x : Cmd α) := fun _ h => nomatch h

theorem noErrCode_bind {α β : Type} {a : Cmd α} {g : α → Cmd β} (ha : NoErrCode a) (hg : ∀ x, NoErrCode (g x)) :
    NoErrCode (a >>= g) := by
  intro e h
  rcases Cmd.bind_eq_error.mp h with h | ⟨x, -, h⟩
  · exact ha e h
  · exact hg x e h

theorem noErrCode_assume (b : Bool) (f : Fault) : NoErrCode (assume b f) :=
  fun _ h => nomatch (assume_eq_error.mp h).2

theorem noErrCode_readWords (m : Memory) (id : BufId) (is : List Nat) : NoErrCode (readWords m id is) := by
  intro e h
  obtain ⟨i, -, -, hfault⟩ := readWords_eq_error h
  cases hfault

/-- The shape of a body that reads words and checks these and what it makes of them (R16). -/
theorem noErrCode_readThenAssume {m : Memory} {id : BufId} {is : List Nat} {b b' : List Word → Bool} {f f' : Fault}
    {t : List Word → State} :
    NoErrCode (readWords m id is >>= fun ws =>
      assume (b ws) f >>= fun _ => assume (b' ws) f' >>= fun _ => .ok (t ws)) :=
  noErrCode_bind (noErrCode_readWords _ _ _) fun _ => noErrCode_bind (noErrCode_assume _ _) fun _ =>
    noErrCode_bind (noErrCode_assume _ _) fun _ => noErrCode_ok _

theorem noErrCode_readOnsets (s : State) : NoErrCode (readOnsets s) :=
  noErrCode_bind (noErrCode_readWords _ _ _) fun _ => noErrCode_ok _

/-- At the stage a command requires its stage check passes (R122). -/
theorem noErrCode_of_stage {s : State} {st : Stage} {c : Cmd State} (hstage : s.stage = st) (hc : NoErrCode c) :
    NoErrCode (requireStage s st >>= fun _ => assumeConfig s >>= fun _ => c) := by
  have hcheck : requireStage s st = .ok () := check_eq_ok.mpr (beq_iff_eq.mpr hstage)
  rw [hcheck]
  exact noErrCode_bind (noErrCode_ok ()) fun _ => noErrCode_bind (noErrCode_assume _ _) fun _ => hc

theorem exists_ok_of_noErrCode_noFault {α : Type} {c : Cmd α} (he : NoErrCode c) (hf : NoFault c) : ∃ x, c = .ok x := by
  rcases c with (e | f) | x
  · exact absurd rfl (he e)
  · exact absurd rfl (hf f)
  · exact ⟨x, rfl⟩

section

variable {s : State}

theorem onsetBody_completes (hs : PipelineInv s) (hstage : s.stage = .analyzed) : ∃ t, onsetBody s = .ok t :=
  exists_ok_of_noErrCode_noFault (noErrCode_of_stage hstage noErrCode_readThenAssume) (onsetBody_noFault hs)

theorem tempoBody_completes (hs : PipelineInv s) (hstage : s.stage = .onsets) : ∃ t, tempoBody s = .ok t := by
  refine exists_ok_of_noErrCode_noFault (noErrCode_of_stage hstage ?_) (tempoBody_noFault hs)
  exact noErrCode_bind (noErrCode_readOnsets s) fun _ => noErrCode_ok _

theorem resampleBody_completes (hs : PipelineInv s) (hstage : s.stage = .tempo) : ∃ t, resampleBody s = .ok t :=
  exists_ok_of_noErrCode_noFault (noErrCode_of_stage hstage noErrCode_readThenAssume) (resampleBody_noFault hs)

theorem smoothBody_completes (hs : PipelineInv s) (hstage : s.stage = .resampled) : ∃ t, smoothBody s = .ok t :=
  exists_ok_of_noErrCode_noFault (noErrCode_of_stage hstage noErrCode_readThenAssume) (smoothBody_noFault hs)

theorem normalizeBody_completes (hs : PipelineInv s) (hstage : s.stage = .smoothed) :
    ∃ t, normalizeBody s = .ok t :=
  exists_ok_of_noErrCode_noFault (noErrCode_of_stage hstage noErrCode_readThenAssume) (normalizeBody_noFault hs)

theorem beatBody_completes (hs : PipelineInv s) (hstage : s.stage = .normalized) : ∃ t, beatBody s = .ok t := by
  refine exists_ok_of_noErrCode_noFault (noErrCode_of_stage hstage ?_) (beatBody_noFault hs)
  exact noErrCode_bind (noErrCode_readOnsets s) fun _ => noErrCode_bind (noErrCode_assume _ _) fun _ => noErrCode_ok _

/-- ANALYZE completes on a legal stream of finite rms and flux (R16, R156). -/
theorem analyzeBody_completes {xs : List Word} (hstage : s.stage = .configured) (hconf : configHolds s = true)
    (hlen : xs.length = s.nsamp.toNat)
    (hread : ∀ n v, xs[n]? = some v → s.mem.read .pcm n = some v ∧ legalSample v = true)
    (hfin : ∀ h, h < s.nhops.toNat → HopIsFinite s xs h) : analyzeBody s = .ok (s.analyzed xs (hopRecords s xs)) := by
  have hlegal : ∀ v ∈ xs, legalSample v = true := by
    intro v hv
    obtain ⟨n, hn⟩ := List.mem_iff_getElem?.mp hv
    exact (hread n v hn).2
  have hpcm : readPcm s.mem (List.range s.nsamp.toNat) = .ok xs := by
    refine readPcm_eq_ok.mpr ⟨List.ext_getElem? fun n => ?_, hlegal⟩
    rcases Nat.lt_or_ge n xs.length with hn | hn
    · have := (hread n xs[n] (List.getElem?_eq_getElem hn)).1
      simp [List.getElem?_range (hlen ▸ hn), List.getElem?_eq_getElem hn, this]
    · simp [List.getElem?_eq_none hn, hlen ▸ hn]
  refine analyzeBody_eq_ok.mpr ⟨hstage, hconf, xs, hpcm, fun v hv => ?_, rfl⟩
  rw [List.append_assoc] at hv
  rcases List.mem_append.mp hv with hv | hv
  · obtain ⟨r, hr, hv⟩ := List.mem_flatMap.mp hv
    obtain ⟨h, hh, rfl⟩ := List.mem_map.mp hr
    exact isFinite_of_feature
      (boundedFeature_of_finite_words (configFacts hconf).srLe hlegal (hfin h (List.mem_range.mp hh)) v hv).1
  · exact spectrum_words_finite (hopWindow_legal hlegal _) v hv

end

/-! ### The pipeline, step by step -/

/-- A pipeline in which every command of RUN completes, with the state each leaves (R129). -/
structure PipelineRun (s : State) where
  configured : State
  analyzed : State
  onsets : State
  tempo : State
  resampled : State
  smoothed : State
  normalized : State
  beats : State
  config_ok : configBody s = .ok configured
  analyze_ok : analyzeBody configured = .ok analyzed
  onset_ok : onsetBody analyzed = .ok onsets
  tempo_ok : tempoBody onsets = .ok tempo
  resample_ok : resampleBody tempo = .ok resampled
  smooth_ok : smoothBody resampled = .ok smoothed
  normalize_ok : normalizeBody smoothed = .ok normalized
  beat_ok : beatBody normalized = .ok beats

namespace PipelineRun

variable {s : State} (r : PipelineRun s)

/-- RUN ends where the pipeline does (R129). -/
theorem exec_run : exec .run s = .next r.beats.complete := by
  change runSequence runCommands s = _
  rw [runCommands, runSequence_cons_ok r.config_ok, runSequence_cons_ok r.analyze_ok, runSequence_cons_ok r.onset_ok,
    runSequence_cons_ok r.tempo_ok, runSequence_cons_ok r.resample_ok, runSequence_cons_ok r.smooth_ok,
    runSequence_cons_ok r.normalize_ok, runSequence_cons_ok r.beat_ok, runSequence_nil]

/-- What every command of RUN keeps holds at the end. -/
theorem induction {P : State → Prop} (hc : ∀ c ∈ runCommands, ∀ u v, P u → c u = .ok v → P v) (hs : P s) :
    P r.beats := by
  simp only [runCommands, List.forall_mem_cons] at hc
  obtain ⟨hconfig, hanalyze, honset, htempo, hresample, hsmooth, hnormalize, hbeat, -⟩ := hc
  exact hbeat _ _ (hnormalize _ _ (hsmooth _ _ (hresample _ _ (htempo _ _ (honset _ _ (hanalyze _ _
    (hconfig _ _ hs r.config_ok) r.analyze_ok) r.onset_ok) r.tempo_ok) r.resample_ok) r.smooth_ok) r.normalize_ok)
    r.beat_ok

theorem inv_configured : PipelineInv r.configured := configBody_keeps_pipelineInv r.config_ok
theorem inv_analyzed : PipelineInv r.analyzed := analyzeBody_keeps_pipelineInv r.inv_configured r.analyze_ok
theorem inv_onsets : PipelineInv r.onsets := onsetBody_keeps_pipelineInv r.inv_analyzed r.onset_ok
theorem inv_tempo : PipelineInv r.tempo := tempoBody_keeps_pipelineInv r.inv_onsets r.tempo_ok
theorem inv_resampled : PipelineInv r.resampled := resampleBody_keeps_pipelineInv r.inv_tempo r.resample_ok
theorem inv_smoothed : PipelineInv r.smoothed := smoothBody_keeps_pipelineInv r.inv_resampled r.smooth_ok
theorem inv_normalized : PipelineInv r.normalized := normalizeBody_keeps_pipelineInv r.inv_smoothed r.normalize_ok
theorem inv_beats : PipelineInv r.beats := beatBody_keeps_pipelineInv r.inv_normalized r.beat_ok

theorem stage_beats : r.beats.stage = .complete := beatBody_stage r.beat_ok

/-- No command of a completed pipeline touches ERR. -/
theorem error_beats : r.beats.error = s.error :=
  r.induction (P := fun u => u.error = s.error)
    (fun c hc u v hu h => ((runCommands_statusBlind c hc).keeps u v h).1.trans hu) rfl

/-- The counts at the end are those of the configuration, which RUN leaves as it is (R127, R128). -/
theorem counts_beats {nh nf : Nat} (h : configCounts s = .ok (nh, nf)) :
    r.beats.nhops.toNat = nh ∧ r.beats.nframes.toNat = nf := by
  obtain ⟨-, -, -, -, -, -, hsr, hnsamp, hfps, hsmooth, -⟩ := commandsKeepTheHostsRegisters .run s _ r.exec_run
  simp only [State.complete_sr, State.complete_nsamp, State.complete_fps, State.complete_smooth]
    at hsr hnsamp hfps hsmooth
  have hcounts : configCounts r.beats = configCounts s := by
    unfold configCounts State.fpsUnits
    rw [hsr, hnsamp, hfps, hsmooth]
  have hholds := configHolds_iff.mp (r.inv_beats.configHolds (by rw [r.stage_beats]; decide))
  obtain ⟨hnh, hnf⟩ := Prod.mk.inj (Except.ok.inj (h.symm.trans (hcounts.symm.trans hholds)))
  exact ⟨hnh.symm, hnf.symm⟩

end PipelineRun

/-- A valid configuration and a legal stream of finite rms and flux take the pipeline to its end (R129). -/
theorem exists_pipelineRun {s : State} {xs : List Word} {nh nf : Nat} (hcounts : configCounts s = .ok (nh, nf))
    (hlen : xs.length = s.nsamp.toNat)
    (hread : ∀ n v, xs[n]? = some v → s.mem.read .pcm n = some v ∧ legalSample v = true)
    (hfin : ∀ h, h < nh → HopIsFinite s xs h) : Nonempty (PipelineRun s) := by
  have hconfig : configBody s = .ok (s.configured nh nf) := configBody_eq_ok.mpr ⟨nh, nf, hcounts, rfl⟩
  have hnh : (s.configured nh nf).nhops.toNat = nh := (counts_of_configCounts hcounts).1
  have hanalyze := analyzeBody_completes (s := s.configured nh nf) rfl (configHolds_configured hcounts) hlen hread
    fun h hh => hfin h (hnh ▸ hh)
  have hinv := analyzeBody_keeps_pipelineInv (configBody_keeps_pipelineInv hconfig) hanalyze
  obtain ⟨a, honset⟩ := onsetBody_completes hinv (analyzeBody_stage hanalyze)
  have hinv := onsetBody_keeps_pipelineInv hinv honset
  obtain ⟨b, htempo⟩ := tempoBody_completes hinv (onsetBody_stage honset)
  have hinv := tempoBody_keeps_pipelineInv hinv htempo
  obtain ⟨c, hresample⟩ := resampleBody_completes hinv (tempoBody_stage htempo)
  have hinv := resampleBody_keeps_pipelineInv hinv hresample
  obtain ⟨d, hsmooth⟩ := smoothBody_completes hinv (resampleBody_stage hresample)
  have hinv := smoothBody_keeps_pipelineInv hinv hsmooth
  obtain ⟨e, hnormalize⟩ := normalizeBody_completes hinv (smoothBody_stage hsmooth)
  have hinv := normalizeBody_keeps_pipelineInv hinv hnormalize
  obtain ⟨f, hbeat⟩ := beatBody_completes hinv (normalizeBody_stage hnormalize)
  exact ⟨_, _, a, b, c, d, e, f, hconfig, hanalyze, honset, htempo, hresample, hsmooth, hnormalize, hbeat⟩

/-! ### The frame records are written -/

/-- A store clears no mark. -/
theorem Buffer.read_writeCells_ne_none {b : Buffer} {i : Nat} (h : Buffer.read b i ≠ none) (cs : List (Nat × Word)) :
    Buffer.read (Buffer.writeCells b cs) i ≠ none := by
  induction cs generalizing b with
  | nil => exact h
  | cons c cs ih =>
    refine ih ?_
    rw [Buffer.read_write]
    split_ifs
    · exact Option.some_ne_none _
    · exact h

/-- Every word of every frame record is written. -/
def FramesWritten (s : State) : Prop := ∀ k, k < 16 * s.nframes.toNat → s.mem.read .frame k ≠ none

theorem framesWritten_resampled (s : State) : FramesWritten s.resampled := by
  intro k hk
  rw [State.resampled_nframes] at hk
  have hj : k % 16 < (frameRecord s (k / 16)).length := by
    rw [frameRecord_length]
    omega
  rw [(State.resampled_read s .frame k).1 (k / 16) (k % 16) rfl (by omega) (by omega) (by omega),
    List.getElem?_eq_getElem hj]
  exact Option.some_ne_none _

theorem FramesWritten.of_writeCells {s t : State} {cs : List (Nat × Word)} (hs : FramesWritten s)
    (hnf : t.nframes = s.nframes) (hmem : t.mem = s.mem.writeCells .frame cs) : FramesWritten t := by
  intro k hk
  rw [hmem]
  exact Buffer.read_writeCells_ne_none (hs k (hnf ▸ hk)) cs

theorem PipelineRun.framesWritten_beats {s : State} (r : PipelineRun s) : FramesWritten r.beats := by
  obtain ⟨-, -, -, -, hresampled⟩ := resampleBody_eq_ok.mp r.resample_ok
  obtain ⟨-, -, -, -, hsmoothed⟩ := smoothBody_eq_ok.mp r.smooth_ok
  obtain ⟨-, -, -, -, hnormalized⟩ := normalizeBody_eq_ok.mp r.normalize_ok
  obtain ⟨-, -, ons, -, -, hbeats⟩ := beatBody_eq_ok.mp r.beat_ok
  have hres : FramesWritten r.resampled := hresampled ▸ framesWritten_resampled r.tempo
  have hsmo : FramesWritten r.smoothed :=
    hsmoothed ▸ hres.of_writeCells (State.smoothed_nframes _) (State.smoothed_mem _)
  have hnor : FramesWritten r.normalized :=
    hnormalized ▸ hsmo.of_writeCells (State.normalized_nframes _) (State.normalized_mem _)
  exact hbeats ▸ hnor.of_writeCells (State.withBeats_nframes _ _) (State.withBeats_mem _ _)

/-- Settles O39: after CONFIG and ANALYZE the pipeline invariants leave no later command anything to stop on. -/
theorem runCompletes : Obligations.RunCompletes := by
  intro s xs nh nf hcounts hlen hread hfin
  obtain ⟨r⟩ := exists_pipelineRun hcounts hlen hread hfin
  obtain ⟨hnh, hnf⟩ := r.counts_beats hcounts
  obtain ⟨ons, -, -, -, -, hcount⟩ := r.inv_beats.onsetList (by rw [r.stage_beats]; decide)
  exact ⟨r.beats.complete, r.exec_run, r.stage_beats, rfl, rfl, r.error_beats, hnh, hnf, hnh ▸ hcount,
    fun k hk => r.framesWritten_beats k (hnf.symm ▸ hk)⟩

end Sys2Proof.Machine

/-! ## RUN on silence -/

namespace Sys2Proof.Machine

/-! ### Arithmetic on +0.0 -/

/-- A feature of magnitude 0 is +0.0. -/
theorem eq_zero32_of_feature {w : Word} (h : isFeature w = true ∧ magUnits w ≤ 0) : w = zero32 := by
  obtain ⟨hf, h0⟩ := h
  rw [magUnits_eq, ← unitsOfBits_zero, unitsOfBits_le_iff ((isFinite_iff w).mp (isFinite_of_feature hf)).le] at h0
  rw [← withSign_signBit_magBits w, signBit_of_feature hf, Nat.le_zero.mp h0]
  rfl

section

variable {a : Word}

theorem mul32_zero32_left (ha : isFeature a = true) : mul32 zero32 a = zero32 :=
  eq_zero32_of_feature (mul32_feature_le isFeature_zero32 ha rep_zero (by simp))

theorem mul32_zero32_right (ha : isFeature a = true) : mul32 a zero32 = zero32 :=
  eq_zero32_of_feature (mul32_feature_le ha isFeature_zero32 rep_zero (by simp))

/-- A quotient by a feature that is not zero. -/
theorem div32_zero32 (ha : isFeature a = true) (h0 : magUnits a ≠ 0) : div32 zero32 a = zero32 :=
  eq_zero32_of_feature (div32_feature_le isFeature_zero32 ha h0 rep_zero (by simp))

/-- A zero of either sign and +0.0 add up to +0.0 (R12). -/
theorem add32_zero32 (ha : isFinite a = true) (h0 : magUnits a = 0) : add32 a zero32 = zero32 := by
  have hunits : realUnits a = 0 := by
    have := natAbs_realUnits a
    omega
  rw [add32_of_finite ha isFinite_zero32, hunits, if_pos (by decide), show signBit zero32 = false from rfl,
    Bool.and_false]
  rfl

end

@[simp] theorem add32_zero32_zero32 : add32 zero32 zero32 = zero32 := add32_zero32 isFinite_zero32 magUnits_zero32

@[simp] theorem sqrt32_zero32 : sqrt32 zero32 = zero32 :=
  eq_zero32_of_feature (sqrt32_feature_le isFeature_zero32 rep_zero (by simp))

@[simp] theorem abs32_zero32 : abs32 zero32 = zero32 := rfl

@[simp] theorem max32_zero32_zero32 : max32 zero32 zero32 = zero32 :=
  or_self_iff.mp (max32_spec (by decide) (by decide)).1

/-- A fold whose every step keeps a value stays there. -/
theorem foldl_eq_of_fixed {α β : Type} {f : β → α → β} {b : β} {l : List α} (h : ∀ a ∈ l, f b a = b) :
    l.foldl f b = b := by
  induction l with
  | nil => rfl
  | cons a l ih =>
    rw [List.foldl_cons, h a List.mem_cons_self]
    exact ih fun a' ha' => h a' (List.mem_cons_of_mem _ ha')

/-! ### The features of a silent hop -/

/-- Every word of the list is +0.0. -/
def Silent (ws : List Word) : Prop := ∀ v ∈ ws, v = zero32

theorem silent_replicate (n : Nat) : Silent (List.replicate n zero32) := fun _ hv => List.eq_of_mem_replicate hv

theorem foldl_add32_of_silent {ws : List Word} (h : Silent ws) : ws.foldl add32 zero32 = zero32 :=
  foldl_eq_of_fixed fun a ha => by rw [h a ha, add32_zero32_zero32]

section

variable {m : List Word} (hm : Silent m)

include hm

theorem rmsOf_of_silent : rmsOf m = zero32 := by
  have hterm : ∀ c ∈ m.zipIdx, add32 zero32 (mul32 (parsevalWeight c.2) (mul32 c.1 c.1)) = zero32 := by
    intro c hc
    rw [hm c.1 (fst_mem_of_mem_zipIdx hc).1, mul32_zero32_left isFeature_zero32,
      mul32_zero32_right (parsevalWeight_spec c.2).1, add32_zero32_zero32]
  rw [rmsOf, foldl_eq_of_fixed hterm, sqrt32_zero32, div32_zero32 (by decide) (by decide)]

theorem centroidOf_of_silent (sr : Nat) : centroidOf sr m = zero32 := by
  unfold centroidOf
  simp only
  rw [foldl_add32_of_silent hm, if_pos magUnits_zero32]

theorem bandMean_of_silent (hlen : m.length ≤ 2 ^ 24) (sr b : Nat) : bandMean sr m b = zero32 := by
  have hbins : Silent (bandBins sr m b) := by
    intro v hv
    obtain ⟨c, hc, rfl⟩ := List.mem_map.mp hv
    exact hm _ (fst_mem_of_mem_zipIdx (List.mem_filter.mp hc).1).1
  have hle : (bandBins sr m b).length ≤ 2 ^ 24 := by
    rw [bandBins, List.length_map]
    exact (List.length_filter_le _ _).trans (by rwa [List.length_zipIdx])
  obtain ⟨hf, hmag⟩ := magUnits_rne32_nat hle
  unfold bandMean
  simp only
  split_ifs with h0
  · rfl
  · rw [foldl_add32_of_silent hbins, div32_zero32 hf (by rw [hmag]; positivity)]

theorem fluxOf_of_silent {p : List Word} (hp : Silent p) : fluxOf m p = zero32 := by
  have hterm : ∀ c ∈ m.zip p, fluxTerm zero32 c = zero32 := by
    rintro ⟨a, b⟩ hc
    rw [hm a (List.of_mem_zip hc).1, hp b (List.of_mem_zip hc).2]
    rfl
  rw [fluxOf, foldl_eq_of_fixed hterm, sqrt32_zero32]

theorem peakOf_of_silent : peakOf m = zero32 :=
  foldl_eq_of_fixed fun v hv => by rw [hm v hv, abs32_zero32, max32_zero32_zero32]

theorem silent_hopWindow (h : Nat) : Silent (hopWindow m h) := fun _ hv => (mem_hopWindow hv).elim (hm _) id

/-- A silent window has silent magnitudes: FFT-ZERO (R15). -/
theorem hopMagnitudes_of_silent (sym : Bool) (h : Nat) : hopMagnitudes sym m h = List.replicate 1025 zero32 := by
  have hzero : ∀ v ∈ hopWindow m h, magUnits v = 0 := fun v hv => by rw [silent_hopWindow hm h v hv, magUnits_zero32]
  exact fftmag_of_zeros fun v hv => (windowed_of_zeros hzero v hv).2

theorem previousMagnitudes_of_silent (sym : Bool) (h : Nat) :
    previousMagnitudes sym m h = List.replicate 1025 zero32 := by
  cases h with
  | zero => rfl
  | succ h => exact hopMagnitudes_of_silent hm sym h

end

/-- The features of a silent hop. -/
def silentRecord : HopRecord := ⟨zero32, zero32, zero32, Bands.zeros, zero32⟩

/-- Every hop of a silent stream has the silent record (R146 to R152). -/
theorem hopRecord_of_silent {xs : List Word} (hxs : Silent xs) (sr : Nat) (sym : Bool) (h : Nat) :
    hopRecord sr sym xs h = silentRecord := by
  have hm := silent_replicate 1025
  have hband : bandMean sr (List.replicate 1025 zero32) = fun _ => zero32 :=
    funext fun b => bandMean_of_silent hm (by rw [List.length_replicate]; norm_num) sr b
  rw [hopRecord, hopMagnitudes_of_silent hxs, previousMagnitudes_of_silent hxs, rmsOf_of_silent hm,
    centroidOf_of_silent hm, fluxOf_of_silent hm hm, hband, peakOf_of_silent (silent_hopWindow hxs h)]
  rfl

theorem silentRecord_words (j : Nat) (hj : j < 12) : silentRecord.words[j]? = some zero32 := by
  interval_cases j <;> rfl

theorem Bands.get_zeros (b : Nat) : Bands.zeros.get b = zero32 := by
  unfold Bands.get
  split <;> rfl

theorem globalPeak_of_silent {f : HopRecord → Word} {rs : List HopRecord} (hrs : ∀ r ∈ rs, r = silentRecord)
    (hf : f silentRecord = zero32) : globalPeak f rs = zero32 :=
  foldl_eq_of_fixed fun r hr => by rw [hrs r hr, hf, max32_zero32_zero32]

/-! ### The detectors on silence -/

/-- A silent hop is no candidate: its flux does not exceed the threshold (R182). -/
theorem onsetsOf_of_zeros {sr : Nat} {flux : List Nat} (h : ∀ f ∈ flux, f = 0) : onsetsOf sr flux = [] := by
  have hcand : ∀ i ∈ List.range flux.length, ¬isCandidate flux i = true := by
    intro i _
    have hzero : flux.getD i 0 ≤ 0 := getD_le (fun f hf => (h f hf).le) i
    rw [isCandidate, decide_eq_true_iff]
    omega
  rw [onsetsOf, List.filter_eq_nil_iff.mpr hcand]
  rfl

theorem autocorr_nil (n l : Nat) : autocorr [] n l = 0 := by
  simp [autocorr]

/-- Where no lag has energy there is no tempo (R188). -/
theorem tempoLagOf_of_zeros {R : Nat → Nat} (h : ∀ l, R l = 0) (ls : List Nat) : tempoLagOf R ls = none := by
  cases ls with
  | nil => rfl
  | cons l ls => simp [tempoLagOf, h]

/-! ### The frame functions on silence -/

theorem interpolate_zero32 {fr : Word} (hf : isFeature fr = true ∧ magUnits fr ≤ 2 ^ 149) :
    interpolate fr zero32 zero32 = zero32 := by
  obtain ⟨hc, -, -⟩ := complement_spec (inUnit_of_feature hf.1 hf.2)
  rw [interpolate, mul32_zero32_left hc, mul32_zero32_left hf.1, add32_zero32_zero32]

/-- One step of the filter on +0.0 (R206): the weight may be -0.0. -/
theorem emaStep_zero32 {lam : Word} (hl : inUnit lam = true) :
    add32 (mul32 lam zero32) (mul32 (sub32 one32 lam) zero32) = zero32 := by
  obtain ⟨hc, -, -⟩ := complement_spec hl
  obtain ⟨hf, h0⟩ := mul32_le (u := 0) (isFinite_of_inUnit hl) isFinite_zero32 rep_zero (by simp)
  rw [mul32_zero32_right hc, add32_zero32 hf (Nat.le_zero.mp h0)]

theorem silent_emaFrom {lam : Word} (hl : inUnit lam = true) {xs : List Word} (hxs : Silent xs) :
    Silent (emaFrom lam (sub32 one32 lam) zero32 xs) := by
  induction xs with
  | nil => exact hxs
  | cons x xs ih =>
    intro v hv
    rw [emaFrom, hxs x List.mem_cons_self, emaStep_zero32 hl] at hv
    rcases List.mem_cons.mp hv with rfl | hv
    · rfl
    · exact ih (fun u hu => hxs u (List.mem_cons_of_mem _ hu)) v hv

theorem silent_emaForward {lam : Word} (hl : inUnit lam = true) {xs : List Word} (hxs : Silent xs) :
    Silent (emaForward lam (sub32 one32 lam) xs) := by
  cases xs with
  | nil => exact hxs
  | cons x xs =>
    intro v hv
    rw [emaForward, hxs x List.mem_cons_self] at hv
    rcases List.mem_cons.mp hv with rfl | hv
    · rfl
    · exact silent_emaFrom hl (fun u hu => hxs u (List.mem_cons_of_mem _ hu)) v hv

theorem silent_smoothSeries {lam : Word} (hl : inUnit lam = true) {xs : List Word} (hxs : Silent xs) :
    Silent (smoothSeries lam xs) := by
  intro v hv
  rw [smoothSeries, emaBackward, List.mem_reverse] at hv
  exact silent_emaForward hl (fun u hu => silent_emaForward hl hxs u (List.mem_reverse.mp hu)) v hv

/-- +0.0 normalises to +0.0 by every peak (R210). -/
theorem normalise_zero32 {p : Word} (hp : isFeature p = true) : normalise zero32 p = zero32 := by
  rw [normalise]
  split_ifs with h0
  · rfl
  · rw [div32_zero32 hp h0, max32_zero32_zero32]
    rfl

/-! ### What each command leaves on silence -/

/-- The hop records but their threshold words are +0.0. -/
def SilentHops (s : State) : Prop :=
  ∀ h j, h < s.nhops.toNat → j < 11 → s.mem.read .hopf (12 * h + j) = some zero32

/-- The series words of every frame record are +0.0. -/
def SilentFrames (s : State) : Prop :=
  ∀ k i, k < s.nframes.toNat → i < 10 → s.mem.read .frame (16 * k + 2 + i) = some zero32

/-- The peaks are +0.0. -/
structure SilentPeaks (s : State) : Prop where
  amp : s.peakAmp = zero32
  rms : s.peakRms = zero32
  flux : s.peakFlux = zero32
  bands : s.peakBands = Bands.zeros

theorem SilentHops.keep {s t : State} (hs : SilentHops s) (hc : KeepsConfig s t) (hf : KeepsFeatures s t) :
    SilentHops t :=
  fun h j hh hj => (hf.hopf h j hj).trans (hs h j (hc.nhops ▸ hh) hj)

theorem SilentPeaks.keep {s t : State} (hs : SilentPeaks s) (hf : KeepsFeatures s t) (hamp : t.peakAmp = s.peakAmp) :
    SilentPeaks t :=
  ⟨hamp.trans hs.amp, hf.peakRms.trans hs.rms, hf.peakFlux.trans hs.flux, hf.peakBands.trans hs.bands⟩

theorem hopRecords_of_silent {s : State} {xs : List Word} (hxs : Silent xs) :
    ∀ r ∈ hopRecords s xs, r = silentRecord := by
  intro r hr
  obtain ⟨h, -, rfl⟩ := List.mem_map.mp hr
  exact hopRecord_of_silent hxs _ _ h

theorem silentHops_analyzed {s : State} {xs : List Word} (hxs : Silent xs) :
    SilentHops (s.analyzed xs (hopRecords s xs)) := by
  intro h j hh hj
  rw [State.analyzed_nhops] at hh
  have hread := (State.analyzed_hopf s xs (hopRecord s.sr.toNat s.hannSym xs) s.nhops.toNat (12 * h + j)).1 h j rfl hh
    (by omega)
  rw [hopRecord_of_silent hxs, silentRecord_words j (by omega)] at hread
  exact hread

theorem silentPeaks_analyzed {s : State} {xs : List Word} (hxs : Silent xs) :
    SilentPeaks (s.analyzed xs (hopRecords s xs)) := by
  have hrs := hopRecords_of_silent (s := s) hxs
  have hband : (fun b => globalPeak (fun r => r.bands.get b) (hopRecords s xs)) = fun _ => zero32 :=
    funext fun b => globalPeak_of_silent hrs (Bands.get_zeros b)
  refine ⟨?_, ?_, ?_, ?_⟩
  · rw [State.analyzed_peakAmp, globalPeak_of_silent hrs rfl]
  · rw [State.analyzed_peakRms, globalPeak_of_silent hrs rfl]
  · rw [State.analyzed_peakFlux, globalPeak_of_silent hrs rfl]
  · rw [State.analyzed_peakBands, hband]
    rfl

/-- ONSET finds nothing on silent hop records (R185). -/
theorem onsetsOf_of_silentHops {s : State} (hs : SilentHops s) {fs : List Word}
    (hread : readWords s.mem .hopf ((List.range s.nhops.toNat).map fun i => 12 * i + 2) = .ok fs) :
    onsetsOf s.sr.toNat (fs.map magUnits) = [] := by
  refine onsetsOf_of_zeros fun f hf => ?_
  obtain ⟨v, hv, rfl⟩ := List.mem_map.mp hf
  obtain ⟨i, hi, hvi⟩ := mem_of_readWords hread hv
  obtain ⟨h, hh, rfl⟩ := List.mem_map.mp hi
  rw [hs h 2 (List.mem_range.mp hh) (by norm_num)] at hvi
  rw [← Option.some.inj hvi, magUnits_zero32]

theorem readOnsets_of_count_zero {s : State} {ons : List Nat} (h : s.onsetCount = 0) (hread : readOnsets s = .ok ons) :
    ons = [] := by
  obtain ⟨ws, hws, rfl⟩ := readOnsets_eq_ok.mp hread
  have hlen := length_of_readWords hws
  rw [h, List.length_range] at hlen
  rw [List.length_eq_zero_iff.mp hlen]
  rfl

theorem resampledValue_of_silentHops {s : State} (hc : ConfigFacts s) (hs : SilentHops s) (k : Nat) {i : Nat}
    (hi : i < 10) : resampledValue s k i = zero32 := by
  have hn := hc.nhopsPos
  have hj : seriesHopWord i < 11 := by
    unfold seriesHopWord
    split_ifs <;> omega
  have hword : ∀ h, h < s.nhops.toNat → s.hopWord h (seriesHopWord i) = zero32 := fun h hh => by
    rw [State.hopWord, hs h _ hh hj]
    rfl
  unfold resampledValue
  simp only
  split_ifs with hlast
  · exact hword _ (by omega)
  · rw [hword _ (by omega), hword _ (by omega), interpolate_zero32 (frameFrac_inUnit hc.fpsPos)]

theorem silentFrames_resampled {s : State} (hc : ConfigFacts s) (hs : SilentHops s) : SilentFrames s.resampled := by
  intro k i hk hi
  rw [State.resampled_nframes] at hk
  rw [(State.resampled_read s .frame _).1 k (2 + i) rfl (by omega) hk (by omega), frameRecord_series s k hi,
    resampledValue_of_silentHops hc hs k hi]

theorem SilentFrames.frameWord {s : State} (hs : SilentFrames s) {k i : Nat} (hk : k < s.nframes.toNat) (hi : i < 10) :
    s.frameWord k (seriesFrameWord i) = zero32 := by
  rw [State.frameWord, seriesFrameWord, ← Nat.add_assoc, hs k i hk hi]
  rfl

theorem silentFrames_smoothed {s : State} (hc : ConfigFacts s) (hs : SilentFrames s) : SilentFrames s.smoothed := by
  intro k i hk hi
  rw [State.smoothed_nframes] at hk
  have hseries : Silent (frameSeries s i) := by
    intro v hv
    obtain ⟨k', hk', rfl⟩ := List.mem_map.mp hv
    exact hs.frameWord (List.mem_range.mp hk') hi
  have hlt : k < (smoothSeries s.smooth (frameSeries s i)).length := by simpa [frameSeries] using hk
  rw [State.smoothed_mem, (Memory.read_frameSeries s.mem _ _ .frame _).1 k i rfl rfl hk hi, smoothedTable_getD s hi,
    List.getD_eq_getElem _ _ hlt, silent_smoothSeries hc.smoothUnit hseries _ (List.getElem_mem hlt)]

theorem silentFrames_normalized {s : State} (hs : SilentFrames s)
    (hpeaks : ∀ i, i < 10 → isFeature (seriesPeak s i) = true) : SilentFrames s.normalized := by
  intro k i hk hi
  rw [State.normalized_nframes] at hk
  rw [State.normalized_mem, (Memory.read_frameSeries s.mem _ _ .frame _).1 k i rfl rfl hk hi, hs.frameWord hk hi,
    normalise_zero32 (hpeaks i hi)]

theorem silentFrames_withBeats {s : State} (hs : SilentFrames s) (ons : List Nat) : SilentFrames (s.withBeats ons) := by
  intro k i hk hi
  rw [State.withBeats_nframes] at hk
  rw [(State.withBeats_read s ons .frame _).2 (by omega), hs k i hk hi]

/-- Without onsets the beat words of every frame are +0.0 (R213 to R215). -/
theorem beatWords_withBeats_nil (s : State) {k j : Nat} (hk : k < s.nframes.toNat) (hj : 12 ≤ j) (hj' : j ≤ 14) :
    (s.withBeats []).mem.read .frame (16 * k + j) = some zero32 := by
  obtain ⟨hintensity, hphase, hbeat⟩ := (State.withBeats_read s [] .frame (16 * k + j)).1 k rfl hk
  rcases show j = 12 ∨ j = 13 ∨ j = 14 by omega with rfl | rfl | rfl
  · exact hintensity rfl
  · exact hphase rfl
  · exact hbeat rfl

/-- The series are words 2 to 11 of a record (R57). -/
theorem SilentFrames.read {s : State} (hs : SilentFrames s) {k j : Nat} (hk : k < s.nframes.toNat) (hj : 2 ≤ j)
    (hj' : j ≤ 11) : s.mem.read .frame (16 * k + j) = some zero32 := by
  rw [show 16 * k + j = 16 * k + 2 + (j - 2) by omega]
  exact hs k (j - 2) hk (by omega)

/-! ### The pipeline on silence -/

/-- The results that are registers: no peak, no onset, no tempo. -/
structure SilentResults (s : State) : Prop extends SilentPeaks s where
  count : s.onsetCount = 0
  found : s.tempoFound = false
  lag : s.tempoLag = 0
  bpm : s.tempoBpm = 0

theorem SilentResults.keep {s t : State} (hs : SilentResults s) (hk : KeepsAllButFrames s t)
    (hamp : t.peakAmp = s.peakAmp) : SilentResults t :=
  ⟨hs.toSilentPeaks.keep hk.features hamp, hk.onsets.count.trans hs.count, hk.tempo.found.trans hs.found,
    hk.tempo.lag.trans hs.lag, hk.tempo.bpm.trans hs.bpm⟩

/-- TEMPO finds none in an empty onset list (R188, R190). -/
theorem silentResults_withTempo_nil {s : State} (hs : SilentPeaks s) (hcount : s.onsetCount = 0) :
    SilentResults (s.withTempo []) := by
  have hnone : tempoLagOf (autocorr [] s.nhops.toNat) (lags s.sr.toNat) = none :=
    tempoLagOf_of_zeros (autocorr_nil s.nhops.toNat) _
  refine ⟨hs.keep (keepsFeatures_withTempo s []) (State.withTempo_peakAmp s []), ?_, ?_, ?_, ?_⟩
  · rw [State.withTempo_onsetCount, hcount]
  · rw [State.withTempo_tempoFound, hnone]
    rfl
  · rw [State.withTempo_tempoLag, hnone]
  · rw [State.withTempo_tempoBpm, hnone]
    rfl

/-- Every sample of the stream is +0.0. -/
def SilentStream (s : State) : Prop := ∀ n, n < s.nsamp.toNat → s.mem.read .pcm n = some zero32

/-- What ANALYZE reads of a silent stream. -/
theorem silent_of_readPcm {s : State} {xs : List Word} (hs : SilentStream s)
    (hread : readPcm s.mem (List.range s.nsamp.toNat) = .ok xs) : Silent xs := by
  intro v hv
  have hmem : some v ∈ (List.range s.nsamp.toNat).map (s.mem.read .pcm) := by
    rw [(readPcm_eq_ok.mp hread).1]
    exact List.mem_map_of_mem hv
  obtain ⟨n, hn, hvn⟩ := List.mem_map.mp hmem
  rw [hs n (List.mem_range.mp hn)] at hvn
  exact (Option.some.inj hvn).symm

namespace PipelineRun

variable {s : State} (r : PipelineRun s)

section

variable (hs : SilentStream s)

include hs

theorem silent_analyzed : SilentHops r.analyzed ∧ SilentPeaks r.analyzed := by
  obtain ⟨nh, nf, -, hconfigured⟩ := configBody_eq_ok.mp r.config_ok
  obtain ⟨-, -, xs, hread, -, hanalyzed⟩ := analyzeBody_eq_ok.mp r.analyze_ok
  have hstream : SilentStream r.configured := hconfigured ▸ hs
  have hxs := silent_of_readPcm hstream hread
  rw [hanalyzed]
  exact ⟨silentHops_analyzed hxs, silentPeaks_analyzed hxs⟩

theorem silent_onsets : SilentHops r.onsets ∧ SilentPeaks r.onsets ∧ r.onsets.onsetCount = 0 := by
  obtain ⟨hhops, hpeaks⟩ := r.silent_analyzed hs
  obtain ⟨-, -, fs, hread, -, -, honsets⟩ := onsetBody_eq_ok.mp r.onset_ok
  have hlen : (fs.map magUnits).length = r.analyzed.nhops.toNat := by
    rw [List.length_map, length_of_readWords hread, List.length_map, List.length_range]
  have hfeat := keepsFeatures_withOnsets r.analyzed hlen
  rw [honsets]
  refine ⟨hhops.keep (keepsConfig_withOnsets _ _) hfeat, hpeaks.keep hfeat (State.withOnsets_peakAmp _ _), ?_⟩
  rw [State.withOnsets_onsetCount, onsetsOf_of_silentHops hhops hread]
  rfl

theorem silent_tempo : SilentHops r.tempo ∧ SilentResults r.tempo := by
  obtain ⟨hhops, hpeaks, hcount⟩ := r.silent_onsets hs
  obtain ⟨-, -, ons, hread, htempo⟩ := tempoBody_eq_ok.mp r.tempo_ok
  rw [htempo, readOnsets_of_count_zero hcount hread]
  exact ⟨hhops.keep (keepsConfig_withTempo _ _) (keepsFeatures_withTempo _ _),
    silentResults_withTempo_nil hpeaks hcount⟩

theorem silent_resampled : SilentFrames r.resampled ∧ SilentResults r.resampled := by
  obtain ⟨hhops, hresults⟩ := r.silent_tempo hs
  obtain ⟨-, hconf, -, -, hresampled⟩ := resampleBody_eq_ok.mp r.resample_ok
  rw [hresampled]
  exact ⟨silentFrames_resampled (configFacts hconf) hhops,
    hresults.keep (keepsAllButFrames_resampled _) (State.resampled_peakAmp _)⟩

theorem silent_smoothed : SilentFrames r.smoothed ∧ SilentResults r.smoothed := by
  obtain ⟨hframes, hresults⟩ := r.silent_resampled hs
  obtain ⟨-, hconf, -, -, hsmoothed⟩ := smoothBody_eq_ok.mp r.smooth_ok
  rw [hsmoothed]
  exact ⟨silentFrames_smoothed (configFacts hconf) hframes,
    hresults.keep (keepsAllButFrames_smoothed _) (State.smoothed_peakAmp _)⟩

theorem silent_normalized : SilentFrames r.normalized ∧ SilentResults r.normalized := by
  obtain ⟨hframes, hresults⟩ := r.silent_smoothed hs
  obtain ⟨-, -, -, hpeaks, hnormalized⟩ := normalizeBody_eq_ok.mp r.normalize_ok
  rw [hnormalized]
  exact ⟨silentFrames_normalized hframes fun i hi => hpeaks _ (List.mem_map_of_mem (List.mem_range.mpr hi)),
    hresults.keep (keepsAllButFrames_normalized _) (State.normalized_peakAmp _)⟩

/-- On silence the pipeline ends without peaks, onsets and tempo, and with words 2 to 14 of every frame record +0.0. -/
theorem silent_beats : SilentResults r.beats ∧
    ∀ k j, k < r.beats.nframes.toNat → 2 ≤ j → j ≤ 14 → r.beats.mem.read .frame (16 * k + j) = some zero32 := by
  obtain ⟨hframes, hresults⟩ := r.silent_normalized hs
  obtain ⟨-, -, ons, hread, -, hbeats⟩ := beatBody_eq_ok.mp r.beat_ok
  rw [hbeats, readOnsets_of_count_zero hresults.count hread]
  refine ⟨hresults.keep (keepsAllButFrames_withBeats _ _) (State.withBeats_peakAmp _ _), fun k j hk hj hj' => ?_⟩
  rcases Nat.lt_or_ge j 12 with hlt | hge
  · exact (silentFrames_withBeats hframes []).read hk hj (by omega)
  · exact beatWords_withBeats_nil _ (State.withBeats_nframes _ _ ▸ hk) hge hj'

end

end PipelineRun

/-- A silent stream is legal and has finite rms and flux, whatever `NUM` is: FFT-ZERO (R15) fixes its magnitudes. -/
theorem exists_pipelineRun_of_silentStream {s : State} {nh nf : Nat} (hcounts : configCounts s = .ok (nh, nf))
    (hs : SilentStream s) : Nonempty (PipelineRun s) := by
  refine exists_pipelineRun hcounts (xs := List.replicate s.nsamp.toNat zero32) List.length_replicate
    (fun n v hv => ?_) fun h _ => ?_
  · obtain ⟨hn, rfl⟩ := List.getElem?_eq_some_iff.mp hv
    rw [List.length_replicate] at hn
    rw [List.getElem_replicate]
    exact ⟨hs n hn, by decide⟩
  · rw [HopIsFinite, hopRecord_of_silent (silent_replicate _)]
    exact ⟨isFinite_zero32, isFinite_zero32⟩

/-- Settles O41: RUN completes on silence, and +0.0 goes through every command to the frame records. -/
theorem runOnSilence : Obligations.RunOnSilence := by
  intro s nh nf hcounts hpcm
  have hs : SilentStream s := hpcm
  obtain ⟨r⟩ := exists_pipelineRun_of_silentStream hcounts hs
  obtain ⟨hresults, hframes⟩ := r.silent_beats hs
  obtain ⟨-, hnf⟩ := r.counts_beats hcounts
  refine ⟨r.beats.complete, r.exec_run, r.stage_beats, rfl, hresults.count, hresults.found, hresults.lag, hresults.bpm,
    hresults.amp, hresults.rms, hresults.flux, fun b => ?_, fun k j hk => hframes k j (hnf.symm ▸ hk)⟩
  rw [State.complete_peakBands, hresults.bands, Bands.get_zeros]
  rfl

end Sys2Proof.Machine

/-! ## Bands -/

namespace Sys2Proof.Machine

/-- The edges of the bands in Hz (R7): band `b` lies between the edges `b` and `b + 1`. -/
def bandEdges : List Nat := [20, 60, 250, 500, 2000, 4000, 6000, 20000]

theorem bandLo_eq_edge {b : Nat} (hb : b < 7) : bandLo b = bandEdges.getD b 0 := by
  interval_cases b <;> rfl

theorem bandHi_eq_edge {b : Nat} (hb : b < 7) : bandHi b = bandEdges.getD (b + 1) 0 := by
  interval_cases b <;> rfl

theorem inBand_iff {sr b k : Nat} : inBand sr b k = true ↔ bandLo b * 2048 ≤ k * sr ∧ k * sr < bandHi b * 2048 := by
  rw [inBand, Bool.and_eq_true, decide_eq_true_iff, decide_eq_true_iff]

/-- Of two bands the lower one ends where the higher one begins or before it. -/
theorem bandHi_le_bandLo : ∀ b' < 7, ∀ b < b', bandHi b ≤ bandLo b' := by decide

theorem bandLo_ge (b : Nat) : 20 ≤ bandLo b := by
  unfold bandLo
  split <;> decide

theorem bandHi_le (b : Nat) : bandHi b ≤ 20000 := by
  unfold bandHi
  split <;> decide

/-- A bin is in no two bands (R149). -/
theorem inBand_unique {sr b b' k : Nat} (hb : b < 7) (hb' : b' < 7) (h : inBand sr b k = true)
    (h' : inBand sr b' k = true) : b' = b := by
  obtain ⟨hlo, hhi⟩ := inBand_iff.mp h
  obtain ⟨hlo', hhi'⟩ := inBand_iff.mp h'
  rcases Nat.lt_trichotomy b b' with hlt | heq | hgt
  · have := bandHi_le_bandLo b' hb' b hlt
    omega
  · exact heq.symm
  · have := bandHi_le_bandLo b hb b' hgt
    omega

/-- The centre frequency of a bin against an edge, without the division (R147, R149). -/
theorem edge_le_freq_iff {e k sr : Nat} : (e : ℚ) ≤ (k : ℚ) * sr / 2048 ↔ e * 2048 ≤ k * sr := by
  rw [le_div_iff₀ (by norm_num)]
  exact_mod_cast Iff.rfl

theorem freq_lt_edge_iff {e k sr : Nat} : (k : ℚ) * sr / 2048 < (e : ℚ) ↔ k * sr < e * 2048 := by
  rw [div_lt_iff₀ (by norm_num)]
  exact_mod_cast Iff.rfl

theorem inBand_iff_freq {sr b k : Nat} :
    inBand sr b k = true ↔ (bandLo b : ℚ) ≤ (k : ℚ) * sr / 2048 ∧ (k : ℚ) * sr / 2048 < (bandHi b : ℚ) := by
  rw [edge_le_freq_iff, freq_lt_edge_iff, inBand_iff]

/-- An edge of R7 as a rational number. -/
theorem cast_bandEdge (b : Nat) :
    ([20, 60, 250, 500, 2000, 4000, 6000, 20000] : List ℚ).getD b 0 = (bandEdges.getD b 0 : ℕ) := by
  have hmap : ([20, 60, 250, 500, 2000, 4000, 6000, 20000] : List ℚ) = bandEdges.map Nat.cast := by
    norm_num [bandEdges]
  rw [hmap, ← Nat.cast_zero, List.getD_map]

/-- R149's table: the bins of each band at 44100 Hz. -/
theorem inBand_44100_iff {b k : Nat} (hb : b < 7) : inBand 44100 b k = true ↔
    [1, 3, 12, 24, 93, 186, 279].getD b 0 ≤ k ∧ k ≤ [2, 11, 23, 92, 185, 278, 928].getD b 0 := by
  rw [inBand_iff]
  interval_cases b <;> simp only [bandLo, bandHi, List.getD_cons_zero, List.getD_cons_succ] <;> omega

/-- Settles O46: a band is the interval of its two edges, and the edges rise. -/
theorem bandMembership : Obligations.BandMembership := by
  refine ⟨fun sr b k _ _ hb => ⟨?_, fun b' hb' h h' => inBand_unique hb hb' h h', fun h => ?_⟩,
    fun b k hb _ => inBand_44100_iff hb⟩
  · rw [cast_bandEdge, cast_bandEdge, ← bandLo_eq_edge hb, ← bandHi_eq_edge hb]
    exact inBand_iff_freq
  · obtain ⟨hlo, hhi⟩ := inBand_iff_freq.mp h
    have hmin : (20 : ℚ) ≤ bandLo b := by exact_mod_cast bandLo_ge b
    have hmax : (bandHi b : ℚ) ≤ 20000 := by exact_mod_cast bandHi_le b
    exact ⟨hmin.trans hlo, hhi.trans_le hmax⟩

end Sys2Proof.Machine

/-! ## Reading the stream: legal samples, and the first illegal one -/

namespace Sys2Proof.Machine

/-! ### Legal samples -/

/-- The real value of a word without its sign (R11). -/
theorem abs_realValue (w : Word) : |realValue w| = (magUnits w : ℚ) / 2 ^ 149 := by
  rw [← realValue_abs32, realValue, realUnits_of_pos (signBit_abs32 w), magUnits_abs32, Int.cast_natCast]

/-- A sample is legal when it is finite and in [-1, 1] (R142). -/
theorem legalSample_iff_realValue (v : Word) : legalSample v = true ↔ isFinite v = true ∧ |realValue v| ≤ 1 := by
  rw [legalSample_iff, abs_realValue, div_le_one (by positivity)]
  exact and_congr_right' (by exact_mod_cast Iff.rfl)

/-- Reading consecutive PCM words that hold a legal list answers the list (R142). -/
theorem readPcm_of_legal {m : Memory} {a : Nat} {xs : List Word}
    (hread : ∀ j v, xs[j]? = some v → m.read .pcm (a + j) = some v ∧ legalSample v = true) :
    readPcm m (List.range' a xs.length) = .ok xs := by
  refine readPcm_eq_ok.mpr ⟨List.ext_getElem? fun j => ?_, fun v hv => ?_⟩
  · rcases Nat.lt_or_ge j xs.length with hj | hj
    · have := (hread j xs[j] (List.getElem?_eq_getElem hj)).1
      simp [List.getElem?_range' hj, List.getElem?_eq_getElem hj, this]
    · simp [hj]
  · obtain ⟨j, hj⟩ := List.mem_iff_getElem?.mp hv
    exact (hread j v hj).2

/-- Reading consecutive PCM words fails with ERR_PCM on an illegal one whose predecessors are legal (R142). -/
theorem readPcm_range'_of_illegal {m : Memory} {a len n : Nat} {v : Word} (han : a ≤ n) (hn : n < a + len)
    (hv : m.read .pcm n = some v) (hbad : ¬(isFinite v = true ∧ |realValue v| ≤ 1))
    (hbefore : ∀ k, a ≤ k → k < n → ∃ u, m.read .pcm k = some u ∧ isFinite u = true ∧ |realValue u| ≤ 1) :
    readPcm m (List.range' a len) = .error (.error .pcm) := by
  have hsplit : List.range' a len = List.range' a (n - a) ++ n :: List.range' (n + 1) (a + len - (n + 1)) := by
    rw [← List.range'_succ, show len = (n - a) + (a + len - (n + 1) + 1) by omega, ← List.range'_append_1]
    congr 2 <;> omega
  rw [hsplit]
  refine readPcm_of_illegal (fun k hk => ?_) hv ?_
  · rw [List.mem_range'_1] at hk
    obtain ⟨u, hu, hlegal⟩ := hbefore k hk.1 (by omega)
    exact ⟨u, hu, (legalSample_iff_realValue u).mpr hlegal⟩
  · rw [Bool.eq_false_iff]
    exact fun h => hbad ((legalSample_iff_realValue v).mp h)

/-! ### ANALYZE and SPECTRUM once their stage and configuration checks have passed -/

section

variable {s : State} (hconf : configHolds s = true)

include hconf

/-- ANALYZE after its stage check: the stream, and the check that no feature overflowed (R156). -/
theorem analyzeBody_of_configured (hstage : s.stage = .configured) :
    analyzeBody s = readPcm s.mem (List.range s.nsamp.toNat) >>= fun xs =>
      assumeFinite ((hopRecords s xs).flatMap HopRecord.words ++
        fftmag (windowed s.hannSym (hopWindow xs (s.nhops.toNat - 1))) ++
        waveform (windowed s.hannSym (hopWindow xs (s.nhops.toNat - 1)))) >>= fun _ =>
      .ok (s.analyzed xs (hopRecords s xs)) := by
  have hcheck : requireStage s .configured = .ok () := check_eq_ok.mpr (beq_iff_eq.mpr hstage)
  have hassume : assumeConfig s = .ok () := assume_eq_ok.mpr hconf
  rw [analyzeBody, hcheck, hassume]
  rfl

/-- SPECTRUM after its stage and range checks: the window, and the check of R16 (R155). -/
theorem spectrumBody_of_inRange {h : Nat} (hstage : s.stage ≠ .invalid) (hh : h < s.nhops.toNat) :
    spectrumBody h s = readPcm s.mem (windowIndices s.nsamp.toNat h) >>= fun x =>
      assumeFinite (fftmag (windowed s.hannSym (padWindow x)) ++ waveform (windowed s.hannSym (padWindow x))) >>=
        fun _ => .ok (s.withSpectrum (windowed s.hannSym (padWindow x))) := by
  have hcheck : check (s.stage != .invalid) .seq = .ok () := check_eq_ok.mpr (bne_iff_ne.mpr hstage)
  have hassume : assumeConfig s = .ok () := assume_eq_ok.mpr hconf
  have hrange : check (decide (h < s.nhops.toNat)) .range = .ok () := check_eq_ok.mpr (decide_eq_true hh)
  rw [spectrumBody, hcheck, hassume, hrange]
  rfl

end

/-- Settles O29: past the stage and configuration checks, reading the samples comes first, and it stops on the illegal
one. -/
theorem illegalSamplesFail : Obligations.IllegalSamplesFail := by
  intro s n v herr hconf hv hbad
  rw [← State.fail_of_error_none herr]
  refine ⟨fun hstage hn hbefore => ?_, fun h hstage hh hlo hhi hbefore => ?_⟩
  · have hread : readPcm s.mem (List.range s.nsamp.toNat) = .error (.error .pcm) := by
      rw [List.range_eq_range']
      exact readPcm_range'_of_illegal (Nat.zero_le n) (by omega) hv hbad fun k _ hk => hbefore k hk
    change finish s (analyzeBody s) = _
    rw [analyzeBody_of_configured hconf hstage, hread]
    rfl
  · have hread : readPcm s.mem (windowIndices s.nsamp.toNat h) = .error (.error .pcm) :=
      readPcm_range'_of_illegal hlo (by omega) hv hbad hbefore
    change finish s (spectrumBody h s) = _
    rw [spectrumBody_of_inRange hconf hstage hh, hread]
    rfl

end Sys2Proof.Machine

/-! ## Windows, point by point -/

namespace Sys2Proof.Machine

/-! ### The windows and what is computed of them -/

/-- A list of known length is what its index function lists. -/
theorem eq_map_range_getD {α : Type} {l : List α} {n : Nat} (h : l.length = n) (d : α) :
    l = (List.range n).map fun k => l.getD k d := by
  subst h
  refine List.ext_getElem (by simp) fun k hk _ => ?_
  simp [hk]

theorem getD_map_range {α : Type} (f : Nat → α) {n k : Nat} (hk : k < n) (d : α) :
    ((List.range n).map f).getD k d = f k := by
  simp [List.getD, hk]

/-- The padding is what an index beyond the samples reads (R140). -/
theorem getD_padWindow (x : List Word) (n : Nat) : (padWindow x).getD n zero32 = x.getD n zero32 := by
  rcases Nat.lt_or_ge n x.length with hn | hn
  · rw [padWindow, List.getD_append _ _ _ _ hn]
  · rw [padWindow, List.getD_append_right _ _ _ _ hn, List.getD_eq_default _ _ hn]
    exact List.getElem?_getD_replicate_default_eq _ _ _

/-- Point `n` of the window of hop `h` is sample `1024h + n`, +0.0 past the end of the stream (R140). -/
theorem getD_hopWindow (xs : List Word) (h : Nat) {n : Nat} (hn : n < 2048) :
    (hopWindow xs h).getD n zero32 = xs.getD (h * 1024 + n) zero32 := by
  rw [hopWindow, getD_padWindow, List.getD, List.getElem?_take_of_lt hn, List.getElem?_drop]
  rfl

/-- The windowed samples of a full window, point by point (R144). -/
theorem windowed_eq_map {sym : Bool} {x : List Word} (hx : x.length = 2048) :
    windowed sym x = (List.range 2048).map fun n => mul32 (x.getD n zero32) (hann sym n) := by
  conv_lhs => rw [windowed, eq_map_range_getD hx zero32, List.zipWith_map]
  rw [List.zipWith_self]

theorem windowed_padWindow_eq_map {sym : Bool} {x : List Word} (hx : x.length ≤ 2048) :
    windowed sym (padWindow x) = (List.range 2048).map fun n => mul32 (x.getD n zero32) (hann sym n) := by
  rw [windowed_eq_map (padWindow_length hx)]
  simp only [getD_padWindow]

theorem windowed_hopWindow_eq_map (sym : Bool) (xs : List Word) (h : Nat) : windowed sym (hopWindow xs h) =
    (List.range 2048).map fun n => mul32 (xs.getD (h * 1024 + n) zero32) (hann sym n) := by
  rw [windowed_eq_map (hopWindow_length xs h)]
  exact List.map_congr_left fun n hn => by rw [getD_hopWindow xs h (List.mem_range.mp hn)]

/-- Point `j` of the waveform averages the windowed samples `4j` to `4j + 3` (R153). -/
theorem waveform_getElem? {w : List Word} {j : Nat} (hj : 4 * j + 3 < w.length) :
    (waveform w)[j]? = some (mul32 quarter32 (add32 (add32 (add32 (w.getD (4 * j) zero32)
      (w.getD (4 * j + 1) zero32)) (w.getD (4 * j + 2) zero32)) (w.getD (4 * j + 3) zero32))) := by
  induction w using waveform.induct generalizing j with
  | case1 a b c d rest ih =>
    rw [waveform]
    cases j with
    | zero => rfl
    | succ j =>
      simp only [List.length_cons] at hj
      exact ih (by omega)
  | case2 w h =>
    match w, h with
    | a :: b :: c :: d :: rest, h => exact absurd rfl (h a b c d rest)
    | [], _ | [_], _ | [_, _], _ | [_, _, _], _ => simp at hj

/-! ### SPECTRUM -/

/-- SPECTRUM completes on a window of legal samples (R155, R16). -/
theorem spectrumBody_completes {s : State} {h : Nat} {x : List Word} (hstage : s.stage ≠ .invalid)
    (hconf : configHolds s = true) (hh : h < s.nhops.toNat)
    (hread : readPcm s.mem (windowIndices s.nsamp.toNat h) = .ok x) :
    spectrumBody h s = .ok (s.withSpectrum (windowed s.hannSym (padWindow x))) :=
  spectrumBody_eq_ok.mpr ⟨hstage, hconf, hh, x, hread,
    spectrum_words_finite (padWindow_legal (readPcm_eq_ok.mp hread).2), rfl⟩

/-- Settles O31: the window of legal samples has finite words, which SPECTRUM stores in MAG and WAVE. -/
theorem spectrumCompletes : Obligations.SpectrumCompletes := by
  intro s h xs hstage hconf hh hlen hread x samples at'
  have hpcm : readPcm s.mem (windowIndices s.nsamp.toNat h) = .ok xs := by
    rw [windowIndices, ← hlen]
    exact readPcm_of_legal hread
  have hw : windowed s.hannSym (padWindow xs) = samples := windowed_padWindow_eq_map (by omega)
  have hsamples : samples.length = 2048 := by simp [samples]
  have hmem := State.withSpectrum_read s hsamples
  refine ⟨(s.withSpectrum samples).mem, ?_, fun k hk => ?_, fun j hj => ?_, fun b k hmag hwave => ?_⟩
  · rw [← hw]
    change finish s (spectrumBody h s) = _
    rw [spectrumBody_completes hstage hconf hh hpcm]
    rfl
  · rw [hmem, if_pos ⟨rfl, hk⟩]
    exact ⟨rfl, by simp [fftmag_length, hk]⟩
  · rw [hmem, if_neg (by simp), if_pos ⟨rfl, hj⟩]
    exact waveform_getElem? (by omega)
  · rw [hmem, if_neg hmag, if_neg hwave]

end Sys2Proof.Machine

/-! ## The peak amplitude -/

namespace Sys2Proof.Machine

/-! ### Running maxima -/

/-- `pk` is the largest of the word `acc` and the words `g a`, in real values. -/
structure IsLargest {α : Type} (g : α → Word) (l : List α) (acc pk : Word) : Prop where
  feature : isFeature pk = true
  start_le : realValue acc ≤ realValue pk
  le : ∀ a ∈ l, realValue (g a) ≤ realValue pk
  attained : pk = acc ∨ ∃ a ∈ l, pk = g a

/-- The running maximum of features is the largest of them (R152, R154). -/
theorem isLargest_foldl_max32 {α : Type} {g : α → Word} {l : List α} {acc : Word} (hacc : isFeature acc = true)
    (hg : ∀ a ∈ l, isFeature (g a) = true) : IsLargest g l acc (l.foldl (fun pk a => max32 pk (g a)) acc) := by
  induction l generalizing acc with
  | nil => exact ⟨hacc, le_rfl, by simp, .inl rfl⟩
  | cons a l ih =>
    have hga := hg a List.mem_cons_self
    obtain ⟨hor, hmax⟩ := realValue_max32 (isFinite_of_feature hacc) (isFinite_of_feature hga)
    have hstep : isFeature (max32 acc (g a)) = true := by
      rcases hor with h | h <;> rw [h] <;> assumption
    obtain ⟨hpk, hge, hall, hpick⟩ := ih hstep fun a' ha' => hg a' (List.mem_cons_of_mem _ ha')
    rw [hmax] at hge
    refine ⟨hpk, (le_max_left _ _).trans hge, fun a' ha' => ?_, ?_⟩
    · rcases List.mem_cons.mp ha' with rfl | ha'
      · exact (le_max_right _ _).trans hge
      · exact hall a' ha'
    · rcases hpick with h | ⟨a', ha', h⟩
      · exact hor.imp h.trans fun hor => ⟨a, List.mem_cons_self, h.trans hor⟩
      · exact .inr ⟨a', List.mem_cons_of_mem _ ha', h⟩

theorem isLargest_peakOf {x : List Word} (hx : ∀ v ∈ x, isFinite v = true) : IsLargest abs32 x zero32 (peakOf x) :=
  isLargest_foldl_max32 isFeature_zero32 fun v hv =>
    (isFeature_iff _).mpr ⟨(isFinite_abs32 v).trans (hx v hv), signBit_abs32 v⟩

theorem isLargest_globalPeak {f : HopRecord → Word} {rs : List HopRecord} (h : ∀ r ∈ rs, isFeature (f r) = true) :
    IsLargest f rs zero32 (globalPeak f rs) :=
  isLargest_foldl_max32 isFeature_zero32 h

/-! ### The peaks of the hops and of the stream -/

@[simp] theorem realValue_zero32 : realValue zero32 = 0 := (realValue_eq_zero_iff zero32).mpr magUnits_zero32

/-- Every sample is in the window of the hop it starts in (R127, R140). -/
theorem exists_mem_hopWindow {xs : List Word} {v : Word} (hv : v ∈ xs) :
    ∃ h, h < nHops xs.length ∧ v ∈ hopWindow xs h := by
  obtain ⟨n, hn, rfl⟩ := List.getElem_of_mem hv
  refine ⟨n / 1024, by rw [nHops]; omega, ?_⟩
  have hlt : n % 1024 < 2048 := by omega
  have hpoint := getD_hopWindow xs (n / 1024) hlt
  rw [show n / 1024 * 1024 + n % 1024 = n by omega, List.getD_eq_getElem _ _ hn,
    List.getD_eq_getElem _ _ (by rwa [hopWindow_length])] at hpoint
  exact hpoint ▸ List.getElem_mem _

section

variable {s : State} {xs : List Word} (hxs : ∀ v ∈ xs, legalSample v = true)

include hxs

theorem isLargest_peakOf_hopWindow (h : Nat) : IsLargest abs32 (hopWindow xs h) zero32 (peakOf (hopWindow xs h)) :=
  isLargest_peakOf fun v hv => (hopWindow_legal hxs h v hv).1

theorem isLargest_peak_hopRecords :
    IsLargest HopRecord.peak (hopRecords s xs) zero32 (globalPeak HopRecord.peak (hopRecords s xs)) :=
  isLargest_globalPeak fun r hr => by
    obtain ⟨h, -, rfl⟩ := List.mem_map.mp hr
    exact (isLargest_peakOf_hopWindow hxs h).feature

/-- No sample is larger than the largest of the hops' peaks (R152, R154). -/
theorem abs_le_globalPeak (hlen : nHops xs.length = s.nhops.toNat) {v : Word} (hv : v ∈ xs) :
    |realValue v| ≤ realValue (globalPeak HopRecord.peak (hopRecords s xs)) := by
  obtain ⟨h, hh, hmem⟩ := exists_mem_hopWindow hv
  have hr : hopRecord s.sr.toNat s.hannSym xs h ∈ hopRecords s xs :=
    List.mem_map_of_mem (List.mem_range.mpr (hlen ▸ hh))
  calc |realValue v|
    _ = realValue (abs32 v) := (realValue_abs32 v).symm
    _ ≤ realValue (peakOf (hopWindow xs h)) := (isLargest_peakOf_hopWindow hxs h).le v hmem
    _ = realValue (hopRecord s.sr.toNat s.hannSym xs h).peak := rfl
    _ ≤ realValue (globalPeak HopRecord.peak (hopRecords s xs)) := (isLargest_peak_hopRecords hxs).le _ hr

/-- The largest of the hops' peaks is +0.0 or the magnitude of a sample: the padding adds no other value (R140). -/
theorem globalPeak_eq_abs32 : globalPeak HopRecord.peak (hopRecords s xs) = zero32 ∨
    ∃ v ∈ xs, globalPeak HopRecord.peak (hopRecords s xs) = abs32 v := by
  rcases (isLargest_peak_hopRecords (s := s) hxs).attained with hzero | ⟨r, hr, heq⟩
  · exact .inl hzero
  · obtain ⟨h, -, rfl⟩ := List.mem_map.mp hr
    have hpeak : globalPeak HopRecord.peak (hopRecords s xs) = peakOf (hopWindow xs h) := heq
    rw [hpeak]
    rcases (isLargest_peakOf_hopWindow hxs h).attained with hzero | ⟨v, hv, habs⟩
    · exact .inl hzero
    · rcases mem_hopWindow hv with hv | rfl
      · exact .inr ⟨v, hv, habs⟩
      · exact .inl (habs.trans abs32_zero32)

/-- The largest of the hops' peaks is the magnitude of a sample, on silence too (R154). -/
theorem exists_globalPeak_eq_abs (hlen : nHops xs.length = s.nhops.toNat) (hne : xs ≠ []) :
    ∃ v ∈ xs, realValue (globalPeak HopRecord.peak (hopRecords s xs)) = |realValue v| := by
  rcases globalPeak_eq_abs32 (s := s) hxs with hzero | ⟨v, hv, habs⟩
  · obtain ⟨v, hv⟩ := List.exists_mem_of_ne_nil xs hne
    have hle := abs_le_globalPeak hxs hlen hv
    rw [hzero, realValue_zero32] at hle ⊢
    exact ⟨v, hv, le_antisymm (abs_nonneg _) hle⟩
  · exact ⟨v, hv, by rw [habs, realValue_abs32]⟩

end

/-- Settles O53: the windows cover the stream, so the largest peak of the hops is the stream's. -/
theorem peakAmplitudeOfTheStream : Obligations.PeakAmplitudeOfTheStream := by
  intro s t _ h hnone
  obtain ⟨u, hu, rfl⟩ := finish_completes (c := analyzeBody s) h hnone
  obtain ⟨-, hconf, xs, hread, -, rfl⟩ := analyzeBody_eq_ok.mp hu
  have hxs := (readPcm_eq_ok.mp hread).2
  have hfacts := configFacts hconf
  obtain ⟨hlen, hstream⟩ := isStream_of_readPcm hread
  have hhops : nHops xs.length = s.nhops.toNat := hlen ▸ hfacts.nhops.symm
  rw [State.complete_peakAmp, State.analyzed_peakAmp]
  refine ⟨fun n v hn hvn => abs_le_globalPeak hxs hhops ?_, ?_⟩
  · have hget := List.getElem?_eq_getElem (hlen ▸ hn : n < xs.length)
    rw [hstream n _ hget] at hvn
    exact Option.some.inj hvn ▸ List.getElem_mem _
  · have hne : xs ≠ [] := List.ne_nil_of_length_pos (hlen ▸ hfacts.nsampPos)
    obtain ⟨v, hv, heq⟩ := exists_globalPeak_eq_abs hxs hhops hne
    obtain ⟨n, hn⟩ := List.mem_iff_getElem?.mp hv
    exact ⟨n, v, hlen ▸ (List.getElem?_eq_some_iff.mp hn).1, hstream n v hn, heq⟩

end Sys2Proof.Machine

/-! ## What ANALYZE and SPECTRUM depend on (R159) -/

namespace Sys2Proof.Machine

/-- Reading PCM depends on the words read only. -/
theorem readPcm_congr {m m' : Memory} {is : List Nat} (h : ∀ i ∈ is, m.read .pcm i = m'.read .pcm i) :
    readPcm m is = readPcm m' is := by
  induction is with
  | nil => rfl
  | cons i is ih =>
    rw [readPcm, readPcm, h i List.mem_cons_self, ih fun j hj => h j (List.mem_cons_of_mem _ hj)]

/-- Word `j` of the record of hop `h` as ANALYZE leaves it (R157). -/
theorem State.analyzed_read_hopRecord (s : State) (xs : List Word) {h j : Nat} (hh : h < s.nhops.toNat) (hj : j < 12) :
    (s.analyzed xs (hopRecords s xs)).mem.read .hopf (12 * h + j) =
      (hopRecord s.sr.toNat s.hannSym xs h).words[j]? :=
  (State.analyzed_hopf s xs (hopRecord s.sr.toNat s.hannSym xs) s.nhops.toNat (12 * h + j)).1 h j rfl hh hj

/-- The inputs of ANALYZE and SPECTRUM (R159): the samples of the stream, `SR`, `NSAMP` and `HANN_SYM`. -/
structure SameInputs (s s' : State) : Prop where
  sr : s.sr = s'.sr
  nsamp : s.nsamp = s'.nsamp
  hannSym : s.hannSym = s'.hannSym
  pcm : ∀ n, n < s.nsamp.toNat → s.mem.read .pcm n = s'.mem.read .pcm n

/-- The words that SPECTRUM stores (R155). -/
def SameSpectrum (t t' : State) : Prop :=
  (∀ k, k < 1025 → t.mem.read .mag k = t'.mem.read .mag k) ∧ ∀ k, k < 512 → t.mem.read .wave k = t'.mem.read .wave k

/-- The words and peaks that ANALYZE stores (R154, R156 to R158). -/
structure SameAnalysis (t t' : State) : Prop where
  peakAmp : t.peakAmp = t'.peakAmp
  peakRms : t.peakRms = t'.peakRms
  peakFlux : t.peakFlux = t'.peakFlux
  peakBands : t.peakBands = t'.peakBands
  hopf : ∀ k, k < 12 * t.nhops.toNat → t.mem.read .hopf k = t'.mem.read .hopf k
  spectrum : SameSpectrum t t'

section

variable {s s' : State} (h : SameInputs s s')

include h

theorem SameInputs.readPcm_eq {is : List Nat} (his : ∀ i ∈ is, i < s.nsamp.toNat) :
    readPcm s.mem is = readPcm s'.mem is :=
  readPcm_congr fun i hi => h.pcm i (his i hi)

/-- NHOPS follows from NSAMP where the configuration holds (R127, R249). -/
theorem SameInputs.nhops_eq (hconf : configHolds s = true) (hconf' : configHolds s' = true) :
    s.nhops.toNat = s'.nhops.toNat := by
  rw [(configFacts hconf).nhops, (configFacts hconf').nhops, h.nsamp]

theorem SameInputs.hopRecords_eq (hn : s.nhops.toNat = s'.nhops.toNat) (xs : List Word) :
    hopRecords s xs = hopRecords s' xs := by
  rw [hopRecords, hopRecords, hn, h.sr, h.hannSym]

/-- Two completed SPECTRUMs store the same words. -/
theorem SameInputs.spectrum {n : Nat} {u u' : State} (hu : spectrumBody n s = .ok u)
    (hu' : spectrumBody n s' = .ok u') : SameSpectrum u u' := by
  obtain ⟨-, -, -, xs, hread, -, rfl⟩ := spectrumBody_eq_ok.mp hu
  obtain ⟨-, -, -, xs', hread', -, rfl⟩ := spectrumBody_eq_ok.mp hu'
  rw [h.readPcm_eq fun i => mem_windowIndices, h.nsamp, hread'] at hread
  cases hread
  have hlen : xs.length ≤ 2048 := by
    have := congrArg List.length (readPcm_eq_ok.mp hread').1
    simp only [windowIndices, List.length_map, List.length_range'] at this
    omega
  have hw : (windowed s'.hannSym (padWindow xs)).length = 2048 := windowed_length (padWindow_length hlen)
  rw [h.hannSym]
  refine ⟨fun k hk => ?_, fun k hk => ?_⟩ <;>
    simp only [State.withSpectrum_read _ hw, hk, and_self, if_true, reduceCtorEq, false_and, if_false]

/-- Two completed ANALYZEs store the same words and peaks. -/
theorem SameInputs.analysis {u u' : State} (hu : analyzeBody s = .ok u) (hu' : analyzeBody s' = .ok u') :
    SameAnalysis u u' := by
  obtain ⟨-, hconf, xs, hread, -, rfl⟩ := analyzeBody_eq_ok.mp hu
  obtain ⟨-, hconf', xs', hread', -, rfl⟩ := analyzeBody_eq_ok.mp hu'
  rw [h.readPcm_eq fun i => List.mem_range.mp, h.nsamp, hread'] at hread
  cases hread
  have hn := h.nhops_eq hconf hconf'
  have hrs := h.hopRecords_eq hn xs
  refine ⟨?_, ?_, ?_, ?_, fun k hk => ?_, fun k hk => ?_, fun k hk => ?_⟩
  · rw [State.analyzed_peakAmp, State.analyzed_peakAmp, hrs]
  · rw [State.analyzed_peakRms, State.analyzed_peakRms, hrs]
  · rw [State.analyzed_peakFlux, State.analyzed_peakFlux, hrs]
  · rw [State.analyzed_peakBands, State.analyzed_peakBands, hrs]
  · rw [State.analyzed_nhops] at hk
    rw [show k = 12 * (k / 12) + k % 12 by omega, State.analyzed_read_hopRecord _ _ (by omega) (by omega),
      State.analyzed_read_hopRecord _ _ (by omega) (by omega), h.sr, h.hannSym]
  · simp only [State.analyzed_read _ _ _ (show BufId.mag ≠ .hopf by decide), hk, and_self, if_true, hn, h.hannSym]
  · simp only [State.analyzed_read _ _ _ (show BufId.wave ≠ .hopf by decide), hk, and_self, if_true, reduceCtorEq,
      false_and, if_false, hn, h.hannSym]

end

/-- Settles O54: both commands read their inputs only, and compute the rest. -/
theorem analysisIsDeterministic : Obligations.AnalysisIsDeterministic := by
  intro s s' t t' hsr hnsamp hsym hpcm _ _
  have hin : SameInputs s s' := ⟨hsr, hnsamp, hsym, hpcm⟩
  refine ⟨fun h h' hnone hnone' => ?_, fun n h h' hnone hnone' => ?_⟩
  · obtain ⟨u, hu, rfl⟩ := finish_completes (c := analyzeBody s) h hnone
    obtain ⟨u', hu', rfl⟩ := finish_completes (c := analyzeBody s') h' hnone'
    obtain ⟨hamp, hrms, hflux, hbands, hhopf, hmag, hwave⟩ := hin.analysis hu hu'
    exact ⟨hamp, hrms, hflux, hbands, hhopf, hmag, hwave⟩
  · obtain ⟨u, hu, rfl⟩ := finish_completes (c := spectrumBody n s) h hnone
    obtain ⟨u', hu', rfl⟩ := finish_completes (c := spectrumBody n s') h' hnone'
    obtain ⟨hmag, hwave⟩ := hin.spectrum hu hu'
    exact ⟨hmag, hwave⟩

end Sys2Proof.Machine

/-! ## The features of a hop, loop by loop -/

namespace Sys2Proof.Machine

/-! ### The loops over the bins and the points of a hop -/

/-- The bins between the edges of a band (R149). -/
def binsOfBand (sr b : Nat) : List Nat := (List.range 1025).filter fun k =>
  decide (bandEdges.getD b 0 * 2048 ≤ k * sr ∧ k * sr < bandEdges.getD (b + 1) 0 * 2048)

section

variable {m : List Word} (hm : m.length = 1025)

include hm

/-- Numbered magnitudes, bin by bin. -/
theorem zipIdx_eq_map_bins : m.zipIdx = (List.range 1025).map fun k => (m.getD k zero32, k) := by
  refine List.ext_getElem (by simp [hm]) fun k hk _ => ?_
  rw [List.length_zipIdx] at hk
  simp [hk]

theorem foldl_zipIdx_eq_loop (f : Word → Word × Nat → Word) (acc : Word) :
    m.zipIdx.foldl f acc = (List.range 1025).foldl (fun acc k => f acc (m.getD k zero32, k)) acc := by
  rw [zipIdx_eq_map_bins hm, List.foldl_map]

theorem foldl_add32_eq_loop :
    m.foldl add32 zero32 = (List.range 1025).foldl (fun acc k => add32 acc (m.getD k zero32)) zero32 := by
  conv_lhs => rw [eq_map_range_getD hm zero32, List.foldl_map]

/-- R146's loop. -/
theorem rmsOf_eq_loop : rmsOf m = div32 (sqrt32 ((List.range 1025).foldl (fun acc k => add32 acc
    (mul32 (if k = 0 ∨ k = 1024 then 0x3F800000 else 0x40000000)
      (mul32 (m.getD k zero32) (m.getD k zero32)))) zero32)) 0x45000000 := by
  rw [rmsOf, foldl_zipIdx_eq_loop hm]
  rfl

/-- R148's loops. -/
theorem centroidOf_eq_loop (sr : Nat) : centroidOf sr m =
    if realValue ((List.range 1025).foldl (fun acc k => add32 acc (m.getD k zero32)) zero32) = 0 then zero32
    else div32
      ((List.range 1025).foldl (fun acc k => add32 acc (mul32 (rne32 (k * sr) 2048) (m.getD k zero32))) zero32)
      ((List.range 1025).foldl (fun acc k => add32 acc (m.getD k zero32)) zero32) := by
  rw [centroidOf, foldl_zipIdx_eq_loop hm, foldl_add32_eq_loop hm]
  simp only [realValue_eq_zero_iff]
  rfl

theorem bandBins_eq_map {b : Nat} (hb : b < 7) (sr : Nat) :
    bandBins sr m b = (binsOfBand sr b).map fun k => m.getD k zero32 := by
  have hin : inBand sr b =
      fun k => decide (bandEdges.getD b 0 * 2048 ≤ k * sr ∧ k * sr < bandEdges.getD (b + 1) 0 * 2048) := by
    funext k
    rw [Bool.eq_iff_iff, inBand_iff, decide_eq_true_iff, bandLo_eq_edge hb, bandHi_eq_edge hb]
  rw [bandBins, zipIdx_eq_map_bins hm, List.filter_map, List.map_map, binsOfBand, ← hin]
  rfl

/-- R150's loop. -/
theorem bandMean_eq_loop {b : Nat} (hb : b < 7) (sr : Nat) : bandMean sr m b =
    if (binsOfBand sr b).length = 0 then zero32
    else div32 ((binsOfBand sr b).foldl (fun acc k => add32 acc (m.getD k zero32)) zero32)
      (rne32 (binsOfBand sr b).length 1) := by
  rw [bandMean, bandBins_eq_map hm hb, List.length_map, List.foldl_map]

end

theorem isFinite_sub32_of_features {a b : Word} (ha : isFeature a = true) (hb : isFeature b = true) :
    isFinite (sub32 a b) = true := by
  have hrep : Rep (max (magUnits a) (magUnits b)) := by
    rcases max_choice (magUnits a) (magUnits b) with h | h <;> rw [h]
    · exact rep_magUnits (isFinite_of_feature ha)
    · exact rep_magUnits (isFinite_of_feature hb)
  exact (sub32_features_le ha hb hrep (le_max_left _ _) (le_max_right _ _)).1

/-- A bin counts towards the flux when its magnitude rose (R151). -/
theorem fluxTerm_of_features {a b : Word} (ha : isFeature a = true) (hb : isFeature b = true) (acc : Word) :
    fluxTerm acc (a, b) =
      if 0 < realValue (sub32 a b) then add32 acc (mul32 (sub32 a b) (sub32 a b)) else acc := by
  rw [fluxTerm]
  simp only [isFinite_sub32_of_features ha hb, Bool.true_and, decide_eq_true_eq, realValue_pos_iff, ← not_lt, ite_not]

/-- R151's loop. -/
theorem fluxOf_eq_loop {m p : List Word} (hm : m.length = 1025) (hp : p.length = 1025)
    (hfm : ∀ v ∈ m, isFeature v = true) (hfp : ∀ v ∈ p, isFeature v = true) :
    fluxOf m p = sqrt32 ((List.range 1025).foldl (fun acc k =>
      if 0 < realValue (sub32 (m.getD k zero32) (p.getD k zero32))
      then add32 acc (mul32 (sub32 (m.getD k zero32) (p.getD k zero32)) (sub32 (m.getD k zero32) (p.getD k zero32)))
      else acc) zero32) := by
  have hfeat : ∀ {l : List Word}, l.length = 1025 → (∀ v ∈ l, isFeature v = true) → ∀ k ∈ List.range 1025,
      isFeature (l.getD k zero32) = true := fun hl hf k hk => by
    have hk : k < _ := hl.symm ▸ List.mem_range.mp hk
    rw [List.getD_eq_getElem _ _ hk]
    exact hf _ (List.getElem_mem hk)
  have hzip : m.zip p = (List.range 1025).map fun k => (m.getD k zero32, p.getD k zero32) := by
    conv_lhs => rw [eq_map_range_getD hm zero32, eq_map_range_getD hp zero32, List.zip_map']
  rw [fluxOf, hzip, List.foldl_map]
  exact congrArg sqrt32 (List.foldl_ext _ _ _ fun acc k hk =>
    fluxTerm_of_features (hfeat hm hfm k hk) (hfeat hp hfp k hk) acc)

/-- R152's loop. -/
theorem peakOf_hopWindow_eq_loop (xs : List Word) (h : Nat) : peakOf (hopWindow xs h) =
    (List.range 2048).foldl (fun pk n => max32 pk (xs.getD (h * 1024 + n) zero32 &&& 0x7FFFFFFF)) zero32 := by
  rw [peakOf, eq_map_range_getD (hopWindow_length xs h) zero32, List.foldl_map]
  exact List.foldl_ext _ _ _ fun pk n hn => by rw [getD_hopWindow xs h (List.mem_range.mp hn), abs32]

/-! ### The magnitudes of a hop -/

theorem hopMagnitudes_eq (sym : Bool) (xs : List Word) (h : Nat) : hopMagnitudes sym xs h =
    fftmag ((List.range 2048).map fun n => mul32 (xs.getD (h * 1024 + n) zero32) (hann sym n)) := by
  rw [hopMagnitudes, windowed_hopWindow_eq_map]

theorem hopMagnitudes_length (sym : Bool) (xs : List Word) (h : Nat) : (hopMagnitudes sym xs h).length = 1025 :=
  fftmag_length _

theorem previousMagnitudes_length (sym : Bool) (xs : List Word) (h : Nat) :
    (previousMagnitudes sym xs h).length = 1025 := by
  cases h with
  | zero => exact List.length_replicate
  | succ h => exact hopMagnitudes_length sym xs h

/-- Before hop 0 stand magnitudes +0.0, before every other hop those of the hop before it (R151). -/
theorem getD_previousMagnitudes (sym : Bool) (xs : List Word) (h k : Nat) :
    (previousMagnitudes sym xs h).getD k zero32 =
      if h = 0 then zero32 else (hopMagnitudes sym xs (h - 1)).getD k zero32 := by
  cases h with
  | zero => exact List.getElem?_getD_replicate_default_eq _ _ _
  | succ h => rfl

/-! ### The records and the global peaks -/

theorem Bands.tabulate_congr {f g : Nat → Word} (h : ∀ b, b < 7 → f b = g b) : Bands.tabulate f = Bands.tabulate g := by
  rw [Bands.tabulate, h 0 (by decide), h 1 (by decide), h 2 (by decide), h 3 (by decide), h 4 (by decide),
    h 5 (by decide), h 6 (by decide)]
  rfl

theorem HopRecord.words_band (r : HopRecord) {b : Nat} (hb : b < 7) : r.words[3 + b]? = some (r.bands.get b) := by
  interval_cases b <;> rfl

/-- R154's loop. -/
theorem globalPeak_hopRecords {s : State} {xs : List Word} {f : HopRecord → Word} {g : Nat → Word}
    (h : ∀ i, f (hopRecord s.sr.toNat s.hannSym xs i) = g i) :
    globalPeak f (hopRecords s xs) = (List.range s.nhops.toNat).foldl (fun pk i => max32 pk (g i)) zero32 := by
  rw [globalPeak, hopRecords, List.foldl_map]
  simp only [h]

/-! ### ANALYZE -/

/-- An rms or a flux that overflows is the fault of R16 (log 8). -/
theorem analyzeBody_of_overflow {s : State} {xs : List Word} (hstage : s.stage = .configured)
    (hconf : configHolds s = true) (hread : readPcm s.mem (List.range s.nsamp.toNat) = .ok xs)
    (hover : ¬∀ h, h < s.nhops.toNat → HopIsFinite s xs h) : analyzeBody s = .error (.fault .notFinite) := by
  rw [analyzeBody_of_configured hconf hstage, hread]
  refine Cmd.bind_eq_error.mpr (.inr ⟨xs, rfl, Cmd.bind_eq_error.mpr (.inl (assume_eq_error.mpr
    ⟨Bool.eq_false_iff.mpr fun hall => hover fun h hh => ?_, rfl⟩))⟩)
  have hword : ∀ w ∈ (hopRecord s.sr.toNat s.hannSym xs h).words, isFinite w = true := fun w hw =>
    List.all_eq_true.mp hall w (List.mem_append_left _ (List.mem_append_left _
      (List.mem_flatMap.mpr ⟨_, List.mem_map_of_mem (List.mem_range.mpr hh), hw⟩)))
  exact ⟨hword _ (HopRecord.rms_mem_words _), hword _ (HopRecord.flux_mem_words _)⟩

section

variable {s : State} {xs : List Word} {rms centroid flux peak : Nat → Word} {band : Nat → Nat → Word}
  (hrec : ∀ h, hopRecord s.sr.toNat s.hannSym xs h =
    ⟨rms h, centroid h, flux h, Bands.tabulate fun b => band b h, peak h⟩)

include hrec

/-- The words of a hop record after ANALYZE (R157). -/
theorem State.analyzed_read_hopf {h : Nat} (hh : h < s.nhops.toNat) :
    let mem := (s.analyzed xs (hopRecords s xs)).mem
    mem.read .hopf (12 * h) = some (rms h) ∧ mem.read .hopf (12 * h + 1) = some (centroid h) ∧
      mem.read .hopf (12 * h + 2) = some (flux h) ∧
      (∀ b, b < 7 → mem.read .hopf (12 * h + 3 + b) = some (band b h)) ∧
      mem.read .hopf (12 * h + 10) = some (peak h) ∧ mem.read .hopf (12 * h + 11) = some zero32 := by
  have hword := fun j (hj : j < 12) => State.analyzed_read_hopRecord s xs hh hj
  rw [hrec] at hword
  refine ⟨hword 0 (by decide), hword 1 (by decide), hword 2 (by decide), fun b hb => ?_, hword 10 (by decide),
    hword 11 (by decide)⟩
  rw [Nat.add_assoc, hword (3 + b) (by omega), HopRecord.words_band _ hb, Bands.get_tabulate _ hb]

/-- What ANALYZE and its completion leave in each field, the peaks as R154's loops (R156 to R158). -/
theorem State.complete_analyzed : (s.analyzed xs (hopRecords s xs)).complete =
    { s with
      mem := (s.analyzed xs (hopRecords s xs)).mem
      peakAmp := (List.range s.nhops.toNat).foldl (fun pk h => max32 pk (peak h)) zero32
      peakRms := (List.range s.nhops.toNat).foldl (fun pk h => max32 pk (rms h)) zero32
      peakFlux := (List.range s.nhops.toNat).foldl (fun pk h => max32 pk (flux h)) zero32
      peakBands := Bands.tabulate fun b => (List.range s.nhops.toNat).foldl (fun pk h => max32 pk (band b h)) zero32
      stage := .analyzed, done := true, latch := none } := by
  rw [← globalPeak_hopRecords (f := HopRecord.peak) fun h => congrArg HopRecord.peak (hrec h),
    ← globalPeak_hopRecords (f := HopRecord.rms) fun h => congrArg HopRecord.rms (hrec h),
    ← globalPeak_hopRecords (f := HopRecord.flux) fun h => congrArg HopRecord.flux (hrec h),
    ← Bands.tabulate_congr fun b hb => globalPeak_hopRecords (f := fun r => r.bands.get b) fun h => by
      rw [hrec, Bands.get_tabulate _ hb]]
  cases s
  rfl

theorem hopIsFinite_iff (h : Nat) : HopIsFinite s xs h ↔ isFinite (rms h) = true ∧ isFinite (flux h) = true := by
  rw [HopIsFinite, hrec]

end

/-- The words of MAG after ANALYZE: the magnitudes of the last hop (R158). -/
theorem State.analyzed_read_mag (s : State) (xs : List Word) (rs : List HopRecord) {k : Nat} (hk : k < 1025) :
    (s.analyzed xs rs).mem.read .mag k =
      some ((hopMagnitudes s.hannSym xs (s.nhops.toNat - 1)).getD k zero32) := by
  have hlt : k < (hopMagnitudes s.hannSym xs (s.nhops.toNat - 1)).length := (hopMagnitudes_length ..).symm ▸ hk
  rw [State.analyzed_read _ _ _ (by decide), if_pos ⟨rfl, hk⟩, List.getD_eq_getElem _ _ hlt,
    ← List.getElem?_eq_getElem hlt]
  rfl

/-- The words of WAVE after ANALYZE: the waveform of the last hop (R153, R158). -/
theorem State.analyzed_read_wave (s : State) (xs : List Word) (rs : List HopRecord) {j : Nat} (hj : j < 512)
    {f : Nat → Word} (hf : windowed s.hannSym (hopWindow xs (s.nhops.toNat - 1)) = (List.range 2048).map f) :
    (s.analyzed xs rs).mem.read .wave j = some (mul32 quarter32
      (add32 (add32 (add32 (f (4 * j)) (f (4 * j + 1))) (f (4 * j + 2))) (f (4 * j + 3)))) := by
  rw [State.analyzed_read _ _ _ (by decide), if_neg (by simp), if_pos ⟨rfl, hj⟩, hf,
    waveform_getElem? (by rw [List.length_map, List.length_range]; omega), getD_map_range f (by omega),
    getD_map_range f (by omega), getD_map_range f (by omega), getD_map_range f (by omega)]

/-- The words that ANALYZE leaves as they were (R156, R158). -/
theorem State.analyzed_read_other (s : State) (xs : List Word) {b : BufId} {k : Nat}
    (hhopf : ¬(b = .hopf ∧ k < 12 * s.nhops.toNat)) (hmag : ¬(b = .mag ∧ k < 1025)) (hwave : ¬(b = .wave ∧ k < 512)) :
    (s.analyzed xs (hopRecords s xs)).mem.read b k = s.mem.read b k := by
  by_cases hb : b = .hopf
  · subst hb
    exact (State.analyzed_hopf s xs (hopRecord s.sr.toNat s.hannSym xs) s.nhops.toNat k).2
      (Nat.not_lt.mp fun hk => hhopf ⟨rfl, hk⟩)
  · rw [State.analyzed_read _ _ _ hb, if_neg hmag, if_neg hwave]

/-- Settles O32: each feature is its loop, so a record is the record of the loops; with finite rms and flux every word
of the records is finite, and ANALYZE stores them. -/
theorem analyzeCompletes : Obligations.AnalyzeCompletes := by
  intro s xs hstage hconf hlen hread sr last x sample mags m p rms num den centroid flux edges bins band peak best
    finite
  have hpcm : readPcm s.mem (List.range s.nsamp.toNat) = .ok xs := by
    rw [List.range_eq_range', ← hlen]
    exact readPcm_of_legal fun n v hv => (Nat.zero_add n).symm ▸ hread n v hv
  have hxs := (readPcm_eq_ok.mp hpcm).2
  have hmags : ∀ h, hopMagnitudes s.hannSym xs h = mags h := hopMagnitudes_eq s.hannSym xs
  have hml : ∀ h, (mags h).length = 1025 := fun h => fftmag_length _
  have hflux : ∀ h, fluxOf (mags h) (previousMagnitudes s.hannSym xs h) = flux h := fun h => by
    rw [fluxOf_eq_loop (hml h) (previousMagnitudes_length s.hannSym xs h)
      (hmags h ▸ hopMagnitudes_feature hxs h) (previousMagnitudes_feature hxs h)]
    simp only [getD_previousMagnitudes, hmags]
    rfl
  have hband : ∀ h b, b < 7 → bandMean sr (mags h) b = band b h := fun h b hb => bandMean_eq_loop (hml h) hb sr
  have hrec : ∀ h, hopRecord sr s.hannSym xs h =
      ⟨rms h, centroid h, flux h, Bands.tabulate fun b => band b h, peak h⟩ := fun h => by
    rw [hopRecord, hmags, rmsOf_eq_loop (hml h), centroidOf_eq_loop (hml h), hflux,
      Bands.tabulate_congr (hband h), peakOf_hopWindow_eq_loop]
  have hfinite : finite ↔ ∀ h, h < s.nhops.toNat → HopIsFinite s xs h :=
    forall₂_congr fun h _ => (hopIsFinite_iff hrec h).symm
  refine ⟨fun h _ => hrec h, fun hfin => ?_, fun hinf => ?_⟩
  · refine ⟨(s.analyzed xs (hopRecords s xs)).mem, ?_, fun h hh => State.analyzed_read_hopf hrec hh, fun k hk => ?_,
      fun j hj => ?_, fun b k => State.analyzed_read_other s xs⟩
    · change finish s (analyzeBody s) = _
      rw [analyzeBody_completes hstage hconf hlen hread (hfinite.mp hfin), finish_ok, State.complete_analyzed hrec]
      rfl
    · rw [State.analyzed_read_mag s xs _ hk, hmags]
    · exact State.analyzed_read_wave s xs _ hj (windowed_hopWindow_eq_map s.hannSym xs last)
  · change finish s (analyzeBody s) = _
    rw [analyzeBody_of_overflow hstage hconf hpcm fun h => hinf (hfinite.mpr h), finish_fault]

end Sys2Proof.Machine

/-! ## The onset detector -/

namespace Sys2Proof.Machine

/-! ### The median window and its median -/

/-- A stretch of a list, by its indices. -/
theorem take_drop_eq_map_getD {α : Type} {l : List α} {a n : Nat} (h : a + n ≤ l.length) (d : α) :
    (l.drop a).take n = (List.range' a n).map fun j => l.getD j d := by
  refine List.ext_getElem (by simp; omega) fun k hk _ => ?_
  have hlt : a + k < l.length := by simp at hk; omega
  simp [hlt]

/-- The window of hop `i` runs from 20 hops before it to 20 after it, truncated at the ends of the series (R181). -/
theorem medianWindow_eq_map {flux : List Nat} {i : Nat} (hi : i < flux.length) :
    medianWindow flux i =
      (List.range' (i - 20) (min (flux.length - 1) (i + 20) + 1 - (i - 20))).map fun j => flux.getD j 0 := by
  have hcount : min (flux.length - 1) (i + 20) - (i - 20) + 1 =
      min (flux.length - 1) (i + 20) + 1 - (i - 20) := by omega
  rw [medianWindow, hcount, take_drop_eq_map_getD (by omega)]

/-- The median of a sorted list, half of what `twiceMedian` holds: the middle value, or the mean of the two (R181). -/
theorem half_twiceMedian (ws : List Nat) : (twiceMedian ws : ℚ) / 2 =
    if (sortNat ws).length % 2 = 1 then ((sortNat ws).getD (((sortNat ws).length - 1) / 2) 0 : ℚ)
    else (((sortNat ws).getD ((sortNat ws).length / 2 - 1) 0 : ℚ) +
      ((sortNat ws).getD ((sortNat ws).length / 2) 0 : ℚ)) / 2 := by
  rw [twiceMedian]
  split_ifs
  · rw [Nat.cast_mul, Nat.cast_ofNat, mul_div_cancel_left₀ _ (by norm_num)]
  · rw [Nat.cast_add]

/-- The exact test of R182 without its denominators. -/
theorem isCandidate_iff (flux : List Nat) (i : Nat) :
    isCandidate flux i = true ↔ (twiceMedian (medianWindow flux i) : ℚ) / 2 * (8 / 5) < (flux.getD i 0 : ℚ) := by
  have hscale : (twiceMedian (medianWindow flux i) : ℚ) / 2 * (8 / 5) =
      ((4 * twiceMedian (medianWindow flux i) : ℕ) : ℚ) / 5 := by
    push_cast
    ring
  rw [isCandidate, decide_eq_true_iff, hscale, div_lt_iff₀ (by norm_num), mul_comm (flux.getD i 0 : ℚ)]
  exact_mod_cast Iff.rfl

/-- The threshold word is one rounding of 8/5 of the median (R183). -/
theorem isNearest_thresholdWord {flux : List Nat} {i : Nat} {med : ℚ}
    (hmed : (twiceMedian (medianWindow flux i) : ℚ) / 2 = med) (hr : InRange (8 * med / 5 / 2 ^ 149)) :
    IsNearest (thresholdWord flux i) (8 * med / 5 / 2 ^ 149) := by
  refine isNearest_pack_nonneg (by norm_num) ?_ hr
  rw [← hmed]
  push_cast
  ring

/-- Settles O47: the sorted window is `sortNat`'s, whose middle gives the median behind the test and the threshold. -/
theorem medianThreshold : Obligations.MedianThreshold := by
  intro flux i hi
  have hmed := half_twiceMedian (medianWindow flux i)
  refine ⟨sortNat (medianWindow flux i), sortNat_pairwise _, ?_, ?_, isNearest_thresholdWord hmed⟩
  · rw [← medianWindow_eq_map hi]
    exact sortNat_perm _
  · rw [isCandidate_iff, hmed]

/-! ### Coalescing -/

/-- The test of R184 without its denominators. -/
theorem spaced_iff {sr a b : Nat} (hsr : 1 ≤ sr) (hab : a ≤ b) :
    (3 : ℚ) / 20 ≤ ((b : ℚ) - a) * 1024 / sr ↔ 3 * sr ≤ (b - a) * 20480 := by
  have hsr' : (0 : ℚ) < sr := by exact_mod_cast hsr
  rw [le_div_iff₀ hsr', ← Nat.cast_sub hab, ← Nat.cast_le (α := ℚ)]
  push_cast
  constructor <;> intro h <;> linarith

theorem isCandidate_of_mem_onsetsOf {sr : Nat} {flux : List Nat} {o : Nat} (h : o ∈ onsetsOf sr flux) :
    isCandidate flux o = true :=
  (List.mem_filter.mp ((coalesce_sublist sr none _).subset h)).2

/-- Onsets rise and are at least 0.15 s apart (R184). -/
theorem onsetsOf_spaced (sr : Nat) (flux : List Nat) :
    (onsetsOf sr flux).Pairwise fun a b => a < b ∧ 3 * sr ≤ (b - a) * 20480 :=
  (onsetsOf_pairwise sr flux).and (coalesce_spaced sr none _ (List.pairwise_lt_range.filter _) (by simp)).2

/-- A dropped candidate is near the last onset kept before it, which is `last` or one of the list's own (R184). -/
theorem coalesce_dropped {sr : Nat} {last : Option Nat} {cs : List Nat} (hc : cs.Pairwise (· < ·)) {i : Nat}
    (hi : i ∈ cs) (hl : ∀ l, last = some l → ∀ c ∈ cs, l < c) (hdrop : i ∉ coalesce sr last cs) :
    ∃ o, (last = some o ∨ o ∈ coalesce sr last cs) ∧ o < i ∧ (i - o) * 20480 < 3 * sr ∧
      ∀ o' ∈ coalesce sr last cs, o' < i → o' ≤ o := by
  induction cs generalizing last with
  | nil => simp at hi
  | cons c cs ih =>
    obtain ⟨hlt, hcs⟩ := List.pairwise_cons.mp hc
    rw [coalesce] at hdrop ⊢
    split_ifs at hdrop ⊢ with hfar
    · rw [List.mem_cons, not_or] at hdrop
      have hi' : i ∈ cs := (List.mem_cons.mp hi).resolve_left hdrop.1
      obtain ⟨o, ho, hoi, hnear, hlatest⟩ := ih hcs hi' (fun l hlast => by cases hlast; exact hlt) hdrop.2
      have hmem : o ∈ c :: coalesce sr (some c) cs :=
        List.mem_cons.mpr (ho.imp_left fun h => (Option.some.inj h).symm)
      have hco : c ≤ o := (List.mem_cons.mp hmem).elim ge_of_eq
        fun h => (hlt o ((coalesce_sublist sr _ cs).subset h)).le
      refine ⟨o, .inr hmem, hoi, hnear, fun o' ho' => ?_⟩
      rcases List.mem_cons.mp ho' with rfl | ho'
      · exact fun _ => hco
      · exact hlatest o' ho'
    · rcases List.mem_cons.mp hi with rfl | hi'
      · cases last with
        | none => simp [farEnough] at hfar
        | some l =>
          have hnear : (i - l) * 20480 < 3 * sr := by simpa [farEnough] using hfar
          refine ⟨l, .inl rfl, hl l rfl i List.mem_cons_self, hnear, fun o' ho' ho'i => ?_⟩
          exact absurd (hlt o' ((coalesce_sublist sr _ cs).subset ho')) (by omega)
      · exact ih hcs hi' (fun l hlast d hd => hl l hlast d (List.mem_cons_of_mem _ hd)) hdrop

/-- Settles O48: coalescing keeps a sublist of the candidates, spaced by its test, and drops only what fails the test
against the last onset kept. -/
theorem coalescingKeepsTheEarliest : Obligations.CoalescingKeepsTheEarliest := by
  intro sr flux hsr ons
  have hcands : ((List.range flux.length).filter (isCandidate flux)).Pairwise (· < ·) := List.pairwise_lt_range.filter _
  refine ⟨fun o ho => ⟨onsetsOf_lt ho, isCandidate_of_mem_onsetsOf ho⟩, ?_, fun i hi hcand hdrop => ?_⟩
  · -- the statement reads the list as one of rationals
    rw [bind_pure_comp, List.map_eq_map]
    refine List.pairwise_map.mpr ((onsetsOf_spaced sr flux).imp fun h => ?_)
    exact ⟨Nat.cast_lt.mpr h.1, (spaced_iff hsr h.1.le).mpr h.2⟩
  · obtain ⟨o, ho, hoi, hnear, hlatest⟩ := coalesce_dropped hcands
      (List.mem_filter.mpr ⟨List.mem_range.mpr hi, hcand⟩) (by simp) hdrop
    refine ⟨o, ho.resolve_left (by simp), hoi, not_le.mp fun h => ?_, hlatest⟩
    exact absurd ((spaced_iff hsr hoi.le).mp h) (by omega)

/-! ### ONSET -/

/-- Reading words succeeds with a list whose words stand at the indices read. -/
theorem readWords_of_getElem? {m : Memory} {id : BufId} {vs : List Word} {f : Nat → Nat} {n : Nat}
    (hlen : vs.length = n) (h : ∀ i v, vs[i]? = some v → m.read id (f i) = some v) :
    readWords m id ((List.range n).map f) = .ok vs := by
  subst hlen
  refine readWords_eq_ok.mpr (List.ext_getElem (by simp) fun i _ hi => ?_)
  have hi' : i < vs.length := by simpa using hi
  simp [h i vs[i] (List.getElem?_eq_getElem hi')]

/-- ONSET completes on written fluxes whose thresholds cannot overflow (R185, log 8). -/
theorem onsetBody_of_fluxes {s : State} {fs : List Word} (hstage : s.stage = .analyzed) (hconf : configHolds s = true)
    (hlen : fs.length = s.nhops.toNat)
    (hread : ∀ i v, fs[i]? = some v → s.mem.read .hopf (12 * i + 2) = some v ∧ BoundedFeature v) :
    onsetBody s = .ok (s.withOnsets (fs.map magUnits)) := by
  have hfeat : ∀ v ∈ fs, BoundedFeature v := fun v hv => by
    obtain ⟨i, hi⟩ := List.mem_iff_getElem?.mp hv
    exact (hread i v hi).2
  have hcap : ∀ u ∈ fs.map magUnits, u ≤ 2 ^ 229 := List.forall_mem_map.mpr fun v hv => (hfeat v hv).2
  refine onsetBody_eq_ok.mpr ⟨hstage, hconf, fs, readWords_of_getElem? hlen fun i v hv => (hread i v hv).1,
    fun v hv => (hfeat v hv).1, List.forall_mem_map.mpr fun i _ => ?_, rfl⟩
  exact isFinite_of_feature (thresholdWord_spec (by norm_num) hcap i).1

/-- Settles O33: ONSET completes with the detector's words, which `State.withOnsets_read` reads back. -/
theorem onsetCompletes : Obligations.OnsetCompletes := by
  intro s fs hstage hconf hlen hread flux ons
  have hflux : flux.length = s.nhops.toNat := (List.length_map _).trans hlen
  have hmem := State.withOnsets_read s hflux
  refine ⟨(s.withOnsets flux).mem, ?_, hflux ▸ onsetsOf_length_le _ _, fun i hi => (hmem .hopf _).1 i rfl rfl hi,
    fun j hj => (hmem .onset j).2.1 rfl hj, fun b k => (hmem b k).2.2⟩
  change finish s (onsetBody s) = _
  rw [onsetBody_of_fluxes hstage hconf hlen hread]
  rfl

end Sys2Proof.Machine

/-! ## The tempo estimator -/

namespace Sys2Proof.Machine

/-! ### Lags and their tempo -/

/-- The lags in range are those of 60 to 200 BPM, without the divisions (R186). -/
theorem mem_lags_iff {sr l : Nat} : l ∈ lags sr ↔ 3 * sr ≤ 10240 * l ∧ 1024 * l ≤ sr := by
  rw [mem_lags, lagMin, lagMax]
  omega

theorem pairwise_lags (sr : Nat) : (lags sr).Pairwise (· < ·) := List.pairwise_lt_range'

theorem le_bpm_iff {sr l : Nat} (hl : 1 ≤ l) : 60 ≤ (60 : ℚ) * sr / (1024 * l) ↔ 1024 * l ≤ sr := by
  have hl' : (0 : ℚ) < 1024 * l := by exact_mod_cast Nat.mul_pos (by norm_num) hl
  rw [le_div_iff₀ hl', mul_le_mul_iff_right₀ (by norm_num)]
  exact_mod_cast Iff.rfl

theorem bpm_le_iff {sr l : Nat} (hl : 1 ≤ l) : (60 : ℚ) * sr / (1024 * l) ≤ 200 ↔ 3 * sr ≤ 10240 * l := by
  have hl' : (0 : ℚ) < 1024 * l := by exact_mod_cast Nat.mul_pos (by norm_num) hl
  rw [div_le_iff₀ hl', ← Nat.cast_le (α := ℚ)]
  push_cast
  constructor <;> intro h <;> linarith

theorem mem_lags_iff_bpm {sr l : Nat} (hsr : 1 ≤ sr) :
    l ∈ lags sr ↔ 1 ≤ l ∧ 60 ≤ (60 : ℚ) * sr / (1024 * l) ∧ (60 : ℚ) * sr / (1024 * l) ≤ 200 := by
  rw [mem_lags_iff]
  constructor
  · rintro ⟨hmin, hmax⟩
    have hl : 1 ≤ l := by omega
    exact ⟨hl, (le_bpm_iff hl).mpr hmax, (bpm_le_iff hl).mpr hmin⟩
  · rintro ⟨hl, hmax, hmin⟩
    exact ⟨(bpm_le_iff hl).mp hmin, (le_bpm_iff hl).mp hmax⟩

/-- The tempo value is one rounding of the lag's tempo (R189). -/
theorem isNearest_bpmWord {sr l : Nat} (hsr : 1 ≤ sr) (hl : l ∈ lags sr) :
    IsNearest (bpmWord sr l) ((60 : ℚ) * sr / (1024 * l)) := by
  obtain ⟨hpos, hmin, hmax⟩ := (mem_lags_iff_bpm hsr).mp hl
  have hr : InRange ((60 : ℚ) * sr / (1024 * l)) := by
    rw [InRange, abs_of_nonneg (by positivity)]
    exact hmax.trans_lt (by norm_num)
  have hcast : ((60 * sr : ℕ) : ℚ) / ((1024 * l : ℕ) : ℚ) = (60 : ℚ) * sr / (1024 * l) := by push_cast; rfl
  rw [← hcast] at hr ⊢
  exact roundingToNearestEven _ _ (by omega) hr

/-! ### The autocorrelation -/

/-- The autocorrelation counts the onsets that have an onset `l` hops later (R187). -/
theorem autocorr_eq_count {ons : List Nat} {n : Nat} (hons : ons.Pairwise (· < ·)) (hlt : ∀ o ∈ ons, o < n) (l : Nat) :
    autocorr ons n l = (ons.filter fun o => decide (o + l ∈ ons)).length := by
  refine List.Perm.length_eq ((List.perm_ext_iff_of_nodup (List.nodup_range.filter _) (hons.nodup.filter _)).mpr
    fun o => ?_)
  simp only [List.mem_filter, List.mem_range, Bool.and_eq_true, List.contains_iff_mem, decide_eq_true_iff]
  constructor
  · rintro ⟨-, ho, hol⟩
    exact ⟨ho, hol⟩
  · rintro ⟨ho, hol⟩
    have := hlt _ hol
    exact ⟨by omega, ho, hol⟩

/-! ### The selection of the lag -/

/-- `l` is the smallest of the lags with the largest count (R188). -/
def IsBestLag (R : Nat → Nat) (ls : List Nat) (l : Nat) : Prop :=
  l ∈ ls ∧ (∀ l' ∈ ls, R l' ≤ R l) ∧ ∀ l' ∈ ls, l' < l → R l' < R l

theorem IsBestLag.unique {R : Nat → Nat} {ls : List Nat} {a b : Nat} (ha : IsBestLag R ls a) (hb : IsBestLag R ls b) :
    a = b := by
  obtain ⟨hma, hmaxa, hlta⟩ := ha
  obtain ⟨hmb, hmaxb, hltb⟩ := hb
  rcases Nat.lt_trichotomy a b with h | h | h
  · exact absurd (hltb a hma h) (not_lt.mpr (hmaxa b hmb))
  · exact h
  · exact absurd (hlta b hmb h) (not_lt.mpr (hmaxb a hma))

/-- Scanning rising lags for a strictly larger count finds the smallest lag of the largest count (R188). -/
theorem isBestLag_bestLag (R : Nat → Nat) {best : Nat} {ls : List Nat} (h : (best :: ls).Pairwise (· < ·)) :
    IsBestLag R (best :: ls) (bestLag R best ls) := by
  induction ls generalizing best with
  | nil => simp [bestLag, IsBestLag]
  | cons l ls ih =>
    rw [List.pairwise_cons, List.forall_mem_cons] at h
    obtain ⟨⟨hbl, hbest⟩, hls⟩ := h
    rw [bestLag]
    split_ifs with hR
    · obtain ⟨hmem, hmax, hlt⟩ := ih hls
      have hb : R best < R (bestLag R l ls) := hR.trans_le (hmax l List.mem_cons_self)
      exact ⟨List.mem_cons_of_mem _ hmem, List.forall_mem_cons.mpr ⟨hb.le, hmax⟩,
        List.forall_mem_cons.mpr ⟨fun _ => hb, hlt⟩⟩
    · obtain ⟨hmem, hmax, hlt⟩ := ih (List.pairwise_cons.mpr ⟨hbest, (List.pairwise_cons.mp hls).2⟩)
      rw [List.forall_mem_cons] at hmax hlt
      have hl : R l ≤ R best := not_lt.mp hR
      refine ⟨?_, by simpa using ⟨hmax.1, hl.trans hmax.1, hmax.2⟩, ?_⟩
      · exact List.mem_cons.mpr ((List.mem_cons.mp hmem).imp_right (List.mem_cons_of_mem l))
      · simpa using ⟨hlt.1, fun h => hl.trans_lt (hlt.1 (hbl.trans h)), hlt.2⟩

/-- The tempo's lag is the best lag, found exactly when its count exceeds 0.3 of the zero-lag count (R188). -/
theorem tempoLagOf_eq_some_iff {R : Nat → Nat} {ls : List Nat} (hls : ls.Pairwise (· < ·)) {l : Nat} :
    tempoLagOf R ls = some l ↔ IsBestLag R ls l ∧ 3 * R 0 < 10 * R l := by
  cases ls with
  | nil => simp [tempoLagOf, IsBestLag]
  | cons a as =>
    have hbest := isBestLag_bestLag R hls
    simp only [tempoLagOf, Option.ite_none_right_eq_some, Option.some.injEq]
    constructor
    · rintro ⟨hfound, rfl⟩
      exact ⟨hbest, hfound⟩
    · rintro ⟨hl, hfound⟩
      obtain rfl := hbest.unique hl
      exact ⟨hfound, rfl⟩

/-- Settles O49: the scan over the rising lags finds the best one; the counts and the value are one lemma each. -/
theorem tempoSelection : Obligations.TempoSelection := by
  intro sr n ons hsr _ hons hlt corr bpm
  have hcount := autocorr_eq_count hons hlt
  refine ⟨fun l => mem_lags_iff_bpm hsr, ?_, hcount, fun l => ?_,
    fun l hl => ⟨isNearest_bpmWord hsr hl, (bpmWord_spec hsr hl).2⟩⟩
  · exact (hcount 0).trans (congrArg List.length (List.filter_eq_self.mpr fun o ho => decide_eq_true ho))
  · have hfound : (3 : ℚ) / 10 * corr 0 < corr l ↔ 3 * corr 0 < 10 * corr l := by
      rw [div_mul_eq_mul_div, div_lt_iff₀ (by norm_num), mul_comm (corr l : ℚ)]
      exact_mod_cast Iff.rfl
    rw [tempoLagOf_eq_some_iff (pairwise_lags sr), hfound, IsBestLag, and_assoc, and_assoc]

/-! ### TEMPO -/

/-- TEMPO and BEAT read back a written onset list (R55). -/
theorem readOnsets_of_getElem? {s : State} {ons : List Nat} (hlen : ons.length = s.onsetCount.toNat)
    (hread : ∀ j o, ons[j]? = some o → s.mem.read .onset j = some (word o) ∧ o < 2 ^ 32) : readOnsets s = .ok ons := by
  have hwords : readWords s.mem .onset ((List.range s.onsetCount.toNat).map id) = .ok (ons.map word) := by
    refine readWords_of_getElem? ((List.length_map _).trans hlen) fun j v hv => ?_
    rw [List.getElem?_map, Option.map_eq_some_iff] at hv
    obtain ⟨o, ho, rfl⟩ := hv
    exact (hread j o ho).1
  rw [List.map_id] at hwords
  refine readOnsets_eq_ok.mpr ⟨ons.map word, hwords, ?_⟩
  rw [List.map_map]
  refine (List.map_id'' (fun o => rfl) ons).symm.trans (List.map_congr_left fun o ho => ?_)
  obtain ⟨j, hj⟩ := List.mem_iff_getElem?.mp ho
  exact (word_toNat (hread j o hj).2).symm

/-- What TEMPO and its completion leave in each field (R190). -/
theorem State.complete_withTempo (s : State) (ons : List Nat) : (s.withTempo ons).complete =
    let found := tempoLagOf (autocorr ons s.nhops.toNat) (lags s.sr.toNat)
    { s with
      mem := (s.withTempo ons).mem
      tempoLag := match found with | some l => word l | none => 0
      tempoBpm := match found with | some l => bpmWord s.sr.toNat l | none => zero32
      tempoFound := found.isSome
      stage := .tempo, done := true, latch := none } := by
  cases s
  rfl

/-- Settles O34: TEMPO completes with the estimator's words, which `State.withTempo_read` reads back. -/
theorem tempoCompletes : Obligations.TempoCompletes := by
  intro s ons hstage hconf hlen hread corr
  have hmem := State.withTempo_read s ons
  refine ⟨(s.withTempo ons).mem, ?_, fun l hl => ?_, fun b k hb => ?_⟩
  · change finish s (tempoBody s) = _
    rw [tempoBody_eq_ok.mpr ⟨hstage, hconf, ons, readOnsets_of_getElem? hlen hread, rfl⟩, finish_ok,
      State.complete_withTempo]
    rfl
  · rw [hmem, if_pos ⟨rfl, Nat.lt_succ_of_le hl⟩, acorrWord]
    simp only [← mem_lags]
    rfl
  · rw [hmem, if_neg fun h => hb ⟨h.1, Nat.le_of_lt_succ h.2⟩]

end Sys2Proof.Machine

/-! ## The beat words (R212 to R215) -/

namespace Sys2Proof.Machine

/-! ### The anchor of a frame -/

section

variable {sr F k : Nat}

/-- Before the first onset's frame there is no anchor (R214). -/
theorem beatAnchor_eq_none_iff {ons : List Nat} :
    beatAnchor sr F k ons = none ↔ ∀ o ∈ ons, k < onsetFrame sr F o := by
  induction ons with
  | nil => simp [beatAnchor]
  | cons o rest ih =>
    rw [beatAnchor, List.forall_mem_cons, ← ih]
    cases beatAnchor sr F k rest <;> simp

/-- The anchor is the last onset whose frame is at most `k`, with the onset after it (R214). -/
theorem beatAnchor_append {before after : List Nat} {o : Nat} (ho : onsetFrame sr F o ≤ k)
    (hafter : ∀ o' ∈ after, k < onsetFrame sr F o') :
    beatAnchor sr F k (before ++ o :: after) = some (o, after.head?) := by
  induction before with
  | nil => rw [List.nil_append, beatAnchor, beatAnchor_eq_none_iff.mpr hafter, if_pos ho]
  | cons o' before ih => rw [List.cons_append, beatAnchor, ih]

end

/-! ### The ranges of the beat words -/

theorem isNaN_rne32 (n d : Nat) : isNaN (rne32 n d) = false := by
  rw [Bool.eq_false_iff, ne_eq, isNaN_iff, rne32, magBits_withSign _ (roundMag_lt _ _)]
  exact not_lt.mpr (roundMag_le_inf _ _)

theorem realUnits_rne32 (n d : Nat) : realUnits (rne32 n d) = magUnits (rne32 n d) :=
  realUnits_of_pos (signBit_pack _ _ _)

/-- The phase word is in [0, 1), whatever the ratio (R215). -/
theorem phaseWord_range (num den : Nat) :
    inUnit (phaseWord num den) = true ∧ realUnits (phaseWord num den) < 2 ^ 149 := by
  unfold phaseWord
  simp only
  split_ifs with hlt
  · have hunits := realUnits_rne32 num den
    refine ⟨(inUnit_iff _).mpr ⟨isFinite_of_magUnits_le (isNaN_rne32 num den) ?_, ?_, hlt.le⟩, hlt⟩ <;> omega
  · decide

theorem beatIntensity_inUnit (sr F : Nat) (ons : List Nat) (k : Nat) : inUnit (beatIntensity sr F ons k) = true := by
  unfold beatIntensity
  split
  · decide
  · split_ifs
    · decide
    · exact clamp_inUnit (numExp_not_isNaN _)

theorem beatPhase_range (sr F : Nat) (lag : Option Nat) (ons : List Nat) (k : Nat) :
    inUnit (beatPhase sr F lag ons k) = true ∧ realUnits (beatPhase sr F lag ons k) < 2 ^ 149 := by
  unfold beatPhase
  split
  · decide
  · exact phaseWord_range _ _
  · split
    · decide
    · exact phaseWord_range _ _

theorem isBeat_cases (sr F : Nat) (ons : List Nat) (k : Nat) :
    isBeat sr F ons k = zero32 ∨ isBeat sr F ons k = one32 := by
  unfold isBeat
  split_ifs
  · exact .inr rfl
  · exact .inl rfl

theorem realValue_lt_one_iff (w : Word) : realValue w < 1 ↔ realUnits w < 2 ^ 149 := by
  rw [realValue, div_lt_one (by positivity)]
  norm_cast

end Sys2Proof.Machine

/-! ## The frame records, stage by stage -/

namespace Sys2Proof.Machine

/-! ### The parts of the invariant -/

/-- What FrameInv asks for from stage 5 on: the time, the index and the hop of every frame. -/
def FrameHeaders (s : State) : Prop :=
  ∀ k, k < s.nframes.toNat →
    s.mem.read .frame (16 * k) = some (frameTime s.fpsUnits k) ∧ s.mem.read .frame (16 * k + 1) = some (word k) ∧
      ∃ h, h < s.nhops.toNat ∧ s.mem.read .frame (16 * k + 15) = some (word h)

/-- What FrameInv asks for from stage 7 on: the series words are in [0, 1]. -/
def UnitSeries (s : State) : Prop :=
  ∀ k i, k < s.nframes.toNat → i < 10 → ∃ v, s.mem.read .frame (16 * k + 2 + i) = some v ∧ inUnit v = true

/-- What FrameInv asks for at stage 8: the beat words in their ranges. -/
def BeatWordsInRange (s : State) : Prop :=
  ∀ k, k < s.nframes.toNat →
    (∃ v, s.mem.read .frame (16 * k + 12) = some v ∧ inUnit v = true) ∧
    (∃ v, s.mem.read .frame (16 * k + 13) = some v ∧ inUnit v = true ∧ realValue v < 1) ∧
    (s.mem.read .frame (16 * k + 14) = some zero32 ∨ s.mem.read .frame (16 * k + 14) = some one32)

theorem frameInv_iff (s : State) : FrameInv s ↔ (5 ≤ stageNumber s.stage → FrameHeaders s) ∧
    (7 ≤ stageNumber s.stage → UnitSeries s) ∧ (s.stage = .complete → BeatWordsInRange s) := Iff.rfl

theorem FrameInv.of_pipelineView_eq {s t : State} (h : t.pipelineView = s.pipelineView) (hs : FrameInv s) :
    FrameInv t := by
  have hview : ∀ u : State, FrameInv u.pipelineView ↔ FrameInv u := fun _ => Iff.rfl
  rw [← hview, h]
  exact hs

/-- Before stage 5 the invariant asks for nothing. -/
theorem FrameInv.of_stage_lt {s : State} (h : stageNumber s.stage < 5) : FrameInv s :=
  (frameInv_iff s).mpr ⟨fun h5 => absurd h5 (by omega), fun h7 => absurd h7 (by omega),
    fun h8 => absurd h (by rw [h8]; decide)⟩

/-- A command that keeps the time, index and hop words keeps the headers. -/
theorem FrameHeaders.keep {s t : State} (hs : FrameHeaders s) (hc : KeepsConfig s t)
    (hmem : ∀ j, ¬(2 ≤ j % 16 ∧ j % 16 ≤ 14) → t.mem.read .frame j = s.mem.read .frame j) : FrameHeaders t := by
  intro k hk
  have hfps : t.fpsUnits = s.fpsUnits := congrArg magUnits hc.fps
  rw [hmem _ (by omega), hmem _ (by omega), hmem _ (by omega), hfps, hc.nhops]
  exact hs k (hc.nframes ▸ hk)

/-! ### What each command establishes -/

theorem frameHeaders_resampled {s : State} (hn : 1 ≤ s.nhops.toNat) : FrameHeaders s.resampled := by
  intro k hk
  rw [State.resampled_nframes] at hk
  have hread := fun j (hj : j < 16) => (State.resampled_read s .frame (16 * k + j)).1 k j rfl rfl hk hj
  refine ⟨?_, hread 1 (by decide), min (framePos s.sr.toNat s.fpsUnits k) (s.nhops.toNat - 1), ?_,
    hread 15 (by decide)⟩
  · rw [State.fpsUnits, State.resampled_fps]
    exact hread 0 (by decide)
  · rw [State.resampled_nhops]
    omega

/-- Normalised features are in [0, 1] (R210). -/
theorem unitSeries_normalized {s : State} (hpeaks : ∀ i, i < 10 → isFeature (seriesPeak s i) = true)
    (hvalues : ∀ k i, k < s.nframes.toNat → i < 10 → isFeature (s.frameWord k (seriesFrameWord i)) = true) :
    UnitSeries s.normalized := by
  intro k i hk hi
  rw [State.normalized_nframes] at hk
  rw [State.normalized_mem, (Memory.read_frameSeries s.mem _ _ .frame _).1 k i rfl rfl hk hi]
  exact ⟨_, rfl, normalise_inUnit (hvalues k i hk hi) (hpeaks i hi)⟩

theorem beatWordsInRange_withBeats (s : State) (ons : List Nat) : BeatWordsInRange (s.withBeats ons) := by
  intro k hk
  rw [State.withBeats_nframes] at hk
  have hread := fun j => (State.withBeats_read s ons .frame j).1 k rfl hk
  obtain ⟨hphase, hlt⟩ := beatPhase_range s.sr.toNat s.fpsUnits s.foundLag ons k
  rw [(hread _).1 rfl, (hread _).2.1 rfl, (hread _).2.2 rfl]
  refine ⟨⟨_, rfl, beatIntensity_inUnit _ _ _ _⟩, ⟨_, rfl, hphase, (realValue_lt_one_iff _).mpr hlt⟩, ?_⟩
  exact (isBeat_cases s.sr.toNat s.fpsUnits ons k).imp (congrArg some) (congrArg some)

/-- The series words that SMOOTH and NORMALIZE read. -/
theorem frameWord_feature_of_readWords {s : State} {xs : List Word}
    (hread : readWords s.mem .frame (frameSeriesIndices s.nframes.toNat) = .ok xs)
    (hxs : ∀ v ∈ xs, isFeature v = true) {k i : Nat} (hk : k < s.nframes.toNat) (hi : i < 10) :
    isFeature (s.frameWord k (seriesFrameWord i)) = true := by
  have hidx : 16 * k + seriesFrameWord i ∈ frameSeriesIndices s.nframes.toNat :=
    List.mem_flatMap.mpr ⟨k, List.mem_range.mpr hk, List.mem_map_of_mem (List.mem_range.mpr hi)⟩
  have hmem := List.mem_map_of_mem (f := s.mem.read .frame) hidx
  rw [readWords_eq_ok.mp hread] at hmem
  obtain ⟨v, hv, hvk⟩ := List.mem_map.mp hmem
  rw [State.frameWord, ← hvk]
  exact hxs v hv

/-! ### Each body keeps the invariant -/

theorem spectrumBody_keeps_frameInv {n : Nat} {s t : State} (hs : FrameInv s) (h : spectrumBody n s = .ok t) :
    FrameInv t := by
  obtain ⟨-, -, -, xs, -, -, rfl⟩ := spectrumBody_eq_ok.mp h
  unfold FrameInv State.fpsUnits
  simp only [State.withSpectrum_read_ne s _ (show BufId.frame ≠ .mag by decide) (by decide), State.withSpectrum_stage,
    State.withSpectrum_nframes, State.withSpectrum_fps, State.withSpectrum_nhops]
  exact hs

theorem resampleBody_keeps_frameInv {s t : State} (h : resampleBody s = .ok t) : FrameInv t := by
  obtain ⟨-, hconf, -, -, rfl⟩ := resampleBody_eq_ok.mp h
  rw [frameInv_iff, State.resampled_stage]
  exact ⟨fun _ => frameHeaders_resampled (configFacts hconf).nhopsPos, fun h => absurd h (by decide),
    fun h => absurd h (by decide)⟩

theorem smoothBody_keeps_frameInv {s t : State} (hs : FrameInv s) (h : smoothBody s = .ok t) : FrameInv t := by
  obtain ⟨hstage, -, -, -, rfl⟩ := smoothBody_eq_ok.mp h
  obtain ⟨hheaders, -⟩ := (frameInv_iff s).mp hs
  rw [frameInv_iff, State.smoothed_stage]
  refine ⟨fun _ => ?_, fun h => absurd h (by decide), fun h => absurd h (by decide)⟩
  refine (hheaders (by rw [hstage]; decide)).keep (keepsAllButFrames_smoothed s).config fun j hj => ?_
  rw [State.smoothed_mem, (Memory.read_frameSeries s.mem _ _ .frame j).2 (by omega)]

theorem normalizeBody_keeps_frameInv {s t : State} (hs : FrameInv s) (h : normalizeBody s = .ok t) : FrameInv t := by
  obtain ⟨hstage, -, ⟨xs, hread, hxs⟩, hpeaks, rfl⟩ := normalizeBody_eq_ok.mp h
  obtain ⟨hheaders, -⟩ := (frameInv_iff s).mp hs
  rw [frameInv_iff, State.normalized_stage]
  refine ⟨fun _ => ?_, fun _ => ?_, fun h => absurd h (by decide)⟩
  · refine (hheaders (by rw [hstage]; decide)).keep (keepsAllButFrames_normalized s).config fun j hj => ?_
    rw [State.normalized_mem, (Memory.read_frameSeries s.mem _ _ .frame j).2 (by omega)]
  · exact unitSeries_normalized (fun i hi => hpeaks _ (List.mem_map_of_mem (List.mem_range.mpr hi)))
      fun k i => frameWord_feature_of_readWords hread hxs

theorem beatBody_keeps_frameInv {s t : State} (hs : FrameInv s) (h : beatBody s = .ok t) : FrameInv t := by
  obtain ⟨hstage, -, ons, -, -, rfl⟩ := beatBody_eq_ok.mp h
  obtain ⟨hheaders, hunit, -⟩ := (frameInv_iff s).mp hs
  have hmem := fun j => (State.withBeats_read s ons .frame j).2
  rw [frameInv_iff]
  refine ⟨fun _ => ?_, fun _ k i hk hi => ?_, fun _ => beatWordsInRange_withBeats s ons⟩
  · exact (hheaders (by rw [hstage]; decide)).keep (keepsAllButFrames_withBeats s ons).config
      fun j hj => hmem j (by omega)
  · rw [State.withBeats_nframes] at hk
    rw [hmem _ (by omega)]
    exact hunit (by rw [hstage]; decide) k i hk hi

/-- Every command of RUN keeps the range invariant of the frame records. -/
theorem runCommands_keep_frameInv : ∀ c ∈ runCommands, ∀ s t, FrameInv s → c s = .ok t → FrameInv t := by
  intro c hc s t hs h
  have hbefore : ∀ {st}, t.stage = st → stageNumber st < 5 → FrameInv t := fun hst hlt => .of_stage_lt (hst ▸ hlt)
  simp only [runCommands, List.mem_cons, List.not_mem_nil, or_false] at hc
  rcases hc with rfl | rfl | rfl | rfl | rfl | rfl | rfl | rfl
  · exact hbefore (configBody_stage h) (by decide)
  · exact hbefore (analyzeBody_stage h) (by decide)
  · exact hbefore (onsetBody_stage h) (by decide)
  · exact hbefore (tempoBody_stage h) (by decide)
  · exact resampleBody_keeps_frameInv h
  · exact smoothBody_keeps_frameInv hs h
  · exact normalizeBody_keeps_frameInv hs h
  · exact beatBody_keeps_frameInv hs h

/-! ### Steps -/

theorem engineTurn_keeps_frameInv {s t : State} (hs : FrameInv s) (h : engineTurn s = .next t) : FrameInv t := by
  rcases engineTurn_eq_next h with rfl | rfl | ⟨w, i, -, -, hexec⟩
  · exact hs
  · exact hs.of_pipelineView_eq rfl
  · exact exec_induction (P := FrameInv) (fun _ _ _ => spectrumBody_keeps_frameInv) runCommands_keep_frameInv
      (fun _ hu => hu.of_pipelineView_eq rfl) (fun _ _ hu => hu.of_pipelineView_eq rfl) hs hexec

theorem hostWrite_keeps_frameInv {s t : State} {size : Nat} {off : BitVec 12} {v : Word} (hs : FrameInv s)
    (h : hostWrite s size off v = .next t) : FrameInv t := by
  rcases hostWrite_eq_next h with rfl | ⟨r, rfl⟩
  · exact hs
  · rcases pipelineView_writeReg s v r with hview | ⟨hstage, -⟩
    · exact hs.of_pipelineView_eq hview
    · exact .of_stage_lt (by rw [hstage]; decide)

/-- Settles O59: RESAMPLE, NORMALIZE and BEAT each establish the part of their stage, and the words they and SMOOTH write
are not those of the other parts; a host access leaves what the invariant looks at, or invalidates. -/
theorem stepKeepsFrameInv : Obligations.StepKeepsFrameInv := by
  intro s t hs h
  obtain ⟨rest, h⟩ := step_eq_next h
  have hu : FrameInv { s with inputs := rest } := hs.of_pipelineView_eq rfl
  rcases h with h | ⟨size, off, h⟩ | ⟨size, off, v, h⟩ | rfl
  · exact engineTurn_keeps_frameInv hu h
  · exact hu.of_pipelineView_eq (pipelineView_hostRead h)
  · exact hostWrite_keeps_frameInv hu h
  · exact .of_stage_lt (by rw [State.hardReset_stage]; decide)

end Sys2Proof.Machine

/-! ## RESAMPLE, SMOOTH, NORMALIZE and BEAT complete -/

namespace Sys2Proof.Machine

/-! ### RESAMPLE -/

/-- Reading written words succeeds, and what holds of each of them holds of the list read. -/
theorem exists_readWords {P : Word → Prop} {m : Memory} {id : BufId} {is : List Nat}
    (h : ∀ i ∈ is, ∃ v, m.read id i = some v ∧ P v) : ∃ vs, readWords m id is = .ok vs ∧ ∀ v ∈ vs, P v := by
  cases hread : readWords m id is with
  | error e =>
    obtain ⟨i, hi, hnone, -⟩ := readWords_eq_error hread
    obtain ⟨v, hv, -⟩ := h i hi
    rw [hnone] at hv
    cases hv
  | ok vs =>
    refine ⟨vs, rfl, fun v hv => ?_⟩
    obtain ⟨i, hi, hvi⟩ := mem_of_readWords hread hv
    obtain ⟨u, hu, hP⟩ := h i hi
    exact Option.some.inj (hvi.symm.trans hu) ▸ hP

/-- The series words of the hop records are bounded features: what RESAMPLE reads (R205). -/
def HopSeriesFeatures (s : State) : Prop :=
  ∀ h j, h < s.nhops.toNat → j < 10 → ∃ v, s.mem.read .hopf (12 * h + j) = some v ∧ BoundedFeature v

theorem seriesHopWord_lt {i : Nat} (hi : i < 10) : seriesHopWord i < 10 := by
  unfold seriesHopWord
  split_ifs <;> omega

/-- The table of 43_frames.md section 1. -/
theorem seriesHopWord_eq_table {i : Nat} (hi : i < 10) :
    seriesHopWord i = [3, 4, 5, 6, 7, 8, 9, 0, 1, 2].getD i 0 := by
  interval_cases i <;> rfl

section

variable {s : State}

theorem HopSeriesFeatures.hopWord (hs : HopSeriesFeatures s) {h i : Nat} (hh : h < s.nhops.toNat) (hi : i < 10) :
    BoundedFeature (s.hopWord h (seriesHopWord i)) := by
  obtain ⟨v, hv, hb⟩ := hs h _ hh (seriesHopWord_lt hi)
  rw [State.hopWord, hv]
  exact hb

theorem HopSeriesFeatures.resampledValue (hs : HopSeriesFeatures s) (hc : ConfigFacts s) (k : Nat) {i : Nat}
    (hi : i < 10) : BoundedFeature (resampledValue s k i) := by
  have hn := hc.nhopsPos
  unfold Machine.resampledValue
  simp only
  split_ifs with hlast
  · exact hs.hopWord (by omega) hi
  · exact interpolate_spec (e := 229) (by norm_num) (by norm_num) (frameFrac_inUnit hc.fpsPos)
      (hs.hopWord (by omega) hi) (hs.hopWord (by omega) hi)

/-- RESAMPLE completes on bounded hop records: no interpolation and no frame time overflows (R205, log 8). -/
theorem resampleBody_of_hopSeries (hstage : s.stage = .tempo) (hconf : configHolds s = true)
    (hs : HopSeriesFeatures s) : resampleBody s = .ok s.resampled := by
  have hfacts := configFacts hconf
  obtain ⟨vs, hread, hvs⟩ := exists_readWords (P := BoundedFeature) (m := s.mem) (id := .hopf)
    (is := hopSeriesIndices s.nhops.toNat) (by
      intro i hi
      obtain ⟨h, hh, hi⟩ := List.mem_flatMap.mp hi
      obtain ⟨j, hj, rfl⟩ := List.mem_map.mp hi
      exact hs h j (List.mem_range.mp hh) (List.mem_range.mp hj))
  refine resampleBody_eq_ok.mpr ⟨hstage, hconf, ⟨vs, hread, fun v hv => (hvs v hv).1⟩, fun w hw => ?_, rfl⟩
  obtain ⟨k, hk, hw⟩ := List.mem_flatMap.mp hw
  rcases List.mem_cons.mp hw with rfl | hw
  · exact isFinite_of_feature (frameTime_spec hfacts.fpsPos hfacts.srPos (hfacts.nsampLe.trans pMax_le)
      (hfacts.nframes ▸ List.mem_range.mp hk)).1
  · obtain ⟨i, hi, rfl⟩ := List.mem_map.mp hw
    exact isFinite_of_feature (hs.resampledValue hfacts k (List.mem_range.mp hi)).1

/-- What RESAMPLE and its completion leave in each field (R205). -/
theorem State.complete_resampled (s : State) : s.resampled.complete =
    { s with mem := s.resampled.mem, stage := .resampled, done := true, latch := none } := by
  cases s
  rfl

/-- A word of a frame record after RESAMPLE (R205). -/
theorem State.resampled_read_record {k j : Nat} (hk : k < s.nframes.toNat) (hj : j < 16) :
    s.resampled.mem.read .frame (16 * k + j) = (frameRecord s k)[j]? :=
  (State.resampled_read s .frame _).1 k j rfl rfl hk hj

/-- Settles O35: on bounded hop records RESAMPLE completes with its records, whose words are read one by one. -/
theorem resampleCompletes : Obligations.ResampleCompletes := by
  intro s hstage hconf hs n hopWord X h0 fr
  refine ⟨s.resampled.mem, ?_, fun k hk => ?_, fun b k => (State.resampled_read s b k).2⟩
  · change finish s (resampleBody s) = _
    rw [resampleBody_of_hopSeries hstage hconf hs, finish_ok, State.complete_resampled]
  · have hread := fun j (hj : j < 16) => State.resampled_read_record hk hj
    refine ⟨hread 0 (by decide), hread 1 (by decide), fun i hi => ?_, hread 12 (by decide), hread 13 (by decide),
      hread 14 (by decide), hread 15 (by decide)⟩
    have hvalue : resampledValue s k i = if n - 1 ≤ h0 k then X i (n - 1)
        else interpolate (fr k) (X i (h0 k)) (X i (h0 k + 1)) := by
      simp only [resampledValue, State.hopWord, seriesHopWord_eq_table hi]
      rfl
    rw [Nat.add_assoc, hread (2 + i) (by omega), frameRecord_series s k hi, hvalue]
    rfl

end

/-! ### SMOOTH -/

section

variable {s : State}

/-- The series words of the frame records can be read where they are written (R208, R211). -/
theorem exists_readWords_frameSeries {P : Word → Prop}
    (h : ∀ k i, k < s.nframes.toNat → i < 10 → ∃ v, s.mem.read .frame (16 * k + 2 + i) = some v ∧ P v) :
    ∃ vs, readWords s.mem .frame (frameSeriesIndices s.nframes.toNat) = .ok vs ∧ ∀ v ∈ vs, P v := by
  refine exists_readWords fun i hi => ?_
  obtain ⟨k, hk, hi⟩ := List.mem_flatMap.mp hi
  obtain ⟨j, hj, rfl⟩ := List.mem_map.mp hi
  rw [seriesFrameWord, ← Nat.add_assoc]
  exact h k j (List.mem_range.mp hk) (List.mem_range.mp hj)

/-- SMOOTH completes on bounded frame records: the filter keeps the bound (R208, log 8). -/
theorem smoothBody_of_frameFeatures (hstage : s.stage = .resampled) (hconf : configHolds s = true)
    (hs : FrameFeatures s) : smoothBody s = .ok s.smoothed := by
  obtain ⟨vs, hread, hvs⟩ := exists_readWords_frameSeries hs
  refine smoothBody_eq_ok.mpr ⟨hstage, hconf, ⟨vs, hread, fun v hv => (hvs v hv).1⟩, fun w hw => ?_, rfl⟩
  obtain ⟨l, hl, hw⟩ := List.mem_flatten.mp hw
  obtain ⟨i, hi, rfl⟩ := List.mem_map.mp hl
  exact isFinite_of_feature (boundedFeature_smoothSeries (configFacts hconf) hs (List.mem_range.mp hi) w hw).1

theorem State.complete_smoothed (s : State) : s.smoothed.complete =
    { s with mem := s.smoothed.mem, stage := .smoothed, done := true, latch := none } := by
  cases s
  rfl

theorem State.frameWord_of_read {k i : Nat} {v : Word} (h : s.mem.read .frame (16 * k + 2 + i) = some v) :
    s.frameWord k (seriesFrameWord i) = v := by
  rw [State.frameWord, seriesFrameWord, ← Nat.add_assoc, h]
  rfl

/-- A series is the list whose words stand in the frame records (R57, R208). -/
theorem frameSeries_eq {xs : List Word} {i : Nat} (hlen : xs.length = s.nframes.toNat)
    (hread : ∀ k v, xs[k]? = some v → s.mem.read .frame (16 * k + 2 + i) = some v) : frameSeries s i = xs := by
  refine List.ext_getElem (by simp [frameSeries, hlen]) fun k _ hk => ?_
  simp only [frameSeries, List.getElem_map, List.getElem_range]
  exact State.frameWord_of_read (hread k xs[k] (List.getElem?_eq_getElem hk))

/-- The series words after SMOOTH (R208). -/
theorem State.smoothed_read_series {k i : Nat} (hk : k < s.nframes.toNat) (hi : i < 10) :
    s.smoothed.mem.read .frame (16 * k + 2 + i) = (smoothSeries s.smooth (frameSeries s i))[k]? ∧
      s.smoothed.mem.read .frame (16 * k + 2 + i) ≠ none := by
  have hlt : k < (smoothSeries s.smooth (frameSeries s i)).length := by simpa [frameSeries] using hk
  rw [State.smoothed_mem, (Memory.read_frameSeries s.mem _ _ .frame _).1 k i rfl rfl hk hi, smoothedTable_getD s hi,
    List.getD_eq_getElem _ _ hlt, List.getElem?_eq_getElem hlt]
  exact ⟨rfl, Option.some_ne_none _⟩

end

/-- Settles O36: SMOOTH completes with the filtered series, which `State.smoothed_read_series` reads back. -/
theorem smoothCompletes : Obligations.SmoothCompletes := by
  intro s series hstage hconf hlen hread
  have hs : FrameFeatures s := fun k i hk hi => by
    have hk' : k < (series i).length := (hlen i hi).symm ▸ hk
    exact ⟨_, hread i k _ hi (List.getElem?_eq_getElem hk')⟩
  refine ⟨s.smoothed.mem, ?_, fun i k hi hk => ?_, fun b k hb => ?_⟩
  · change finish s (smoothBody s) = _
    rw [smoothBody_of_frameFeatures hstage hconf hs, finish_ok, State.complete_smoothed]
  · rw [← frameSeries_eq (hlen i hi) fun k v hv => (hread i k v hi hv).1]
    exact State.smoothed_read_series hk hi
  · rw [State.smoothed_mem, (Memory.read_frameSeries s.mem _ _ b k).2 hb]

/-! ### NORMALIZE -/

section

variable {s : State}

/-- NORMALIZE completes on series words and peaks that are features (R211). -/
theorem normalizeBody_of_features (hstage : s.stage = .smoothed) (hconf : configHolds s = true)
    (hs : ∀ k i, k < s.nframes.toNat → i < 10 →
      ∃ v, s.mem.read .frame (16 * k + 2 + i) = some v ∧ isFeature v = true)
    (hpeaks : ∀ i, i < 10 → isFeature (seriesPeak s i) = true) : normalizeBody s = .ok s.normalized :=
  normalizeBody_eq_ok.mpr ⟨hstage, hconf, exists_readWords_frameSeries hs,
    List.forall_mem_map.mpr fun i hi => hpeaks i (List.mem_range.mp hi), rfl⟩

/-- The peaks are features where the peak registers are: the centroid's is half the sample rate (R209). -/
theorem seriesPeak_feature (hsr : s.sr.toNat ≤ 192000) (hbands : ∀ b, b < 7 → isFeature (s.peakBands.get b) = true)
    (hrms : isFeature s.peakRms = true) (hflux : isFeature s.peakFlux = true) (i : Nat) :
    isFeature (seriesPeak s i) = true := by
  unfold seriesPeak
  split_ifs with h7
  · exact hbands i h7
  · exact hrms
  · exact (rne32_feature_le (u := 2 ^ 229) two_pos (rep_pow (by norm_num))
      (le_trans (Nat.mul_le_mul_right _ hsr) (by norm_num))).1
  · exact hflux

theorem State.complete_normalized (s : State) : s.normalized.complete =
    { s with mem := s.normalized.mem, stage := .normalized, done := true, latch := none } := by
  cases s
  rfl

/-- The series words after NORMALIZE (R210, R211). -/
theorem State.normalized_read_series {k i : Nat} {v : Word} (hk : k < s.nframes.toNat) (hi : i < 10)
    (hv : s.mem.read .frame (16 * k + 2 + i) = some v) :
    s.normalized.mem.read .frame (16 * k + 2 + i) = some (normalise v (seriesPeak s i)) := by
  rw [State.normalized_mem, (Memory.read_frameSeries s.mem _ _ .frame _).1 k i rfl rfl hk hi,
    State.frameWord_of_read hv]

end

/-- Settles O37: NORMALIZE completes with `normalise` of every series word, which is in [0, 1] by its clamp. -/
theorem normalizeCompletes : Obligations.NormalizeCompletes := by
  intro s value hstage hconf hread hbands hrms hflux peak
  have hpeaks := seriesPeak_feature (configFacts hconf).srLe hbands hrms hflux
  refine ⟨s.normalized.mem, ?_, fun k i hk hi => ?_, fun b k hb => ?_⟩
  · change finish s (normalizeBody s) = _
    rw [normalizeBody_of_features hstage hconf (fun k i hk hi => ⟨_, hread k i hk hi⟩) fun i _ => hpeaks i, finish_ok,
      State.complete_normalized]
  · obtain ⟨hv, hfeature⟩ := hread k i hk hi
    rw [State.normalized_read_series hk hi hv]
    have hpeak : seriesPeak s i = peak i := rfl
    refine ⟨fun h0 => ?_, fun h0 => ?_, _, rfl, realValue_of_inUnit (normalise_inUnit hfeature (hpeaks i))⟩
    · rw [normalise, hpeak, if_pos h0]
    · rw [normalise, hpeak, if_neg h0]
  · rw [State.normalized_mem, (Memory.read_frameSeries s.mem _ _ b k).2 hb]

/-! ### BEAT -/

theorem State.complete_withBeats (s : State) (ons : List Nat) : (s.withBeats ons).complete =
    { s with mem := (s.withBeats ons).mem, stage := .complete, done := true, latch := none } := by
  cases s
  rfl

/-- A rising onset list, with a lag that is not 0 where a tempo is found, is what BEAT relies on (R55, R190). -/
theorem beatInputsHold_of_pairwise {s : State} {ons : List Nat} (hrising : ons.Pairwise (· < ·))
    (hlag : s.tempoFound = true → s.tempoLag ≠ 0) : beatInputsHold s ons = true := by
  rw [beatInputsHold, decide_eq_true hrising, Bool.true_and]
  cases hfound : s.tempoFound with
  | false => rfl
  | true => exact bne_iff_ne.mpr fun h0 => hlag hfound (BitVec.eq_of_toNat_eq h0)

/-- Settles O38: BEAT completes on the onset list with its beat words, which `State.withBeats_read` reads back. -/
theorem beatCompletes : Obligations.BeatCompletes := by
  intro s ons hstage hconf hlen hread hrising hlag lag
  refine ⟨(s.withBeats ons).mem, ?_, fun k hk => ?_, fun b k => (State.withBeats_read s ons b k).2⟩
  · change finish s (beatBody s) = _
    rw [beatBody_eq_ok.mpr ⟨hstage, hconf, ons, readOnsets_of_getElem? hlen hread,
      beatInputsHold_of_pairwise hrising hlag, rfl⟩, finish_ok, State.complete_withBeats]
  · have hword := fun j => (State.withBeats_read s ons .frame j).1 k rfl hk
    exact ⟨(hword _).1 rfl, (hword _).2.1 rfl, (hword _).2.2 rfl⟩

end Sys2Proof.Machine

/-! ## Frame positions, interpolation and the filter -/

namespace Sys2Proof.Machine

/-! ### Arithmetic with zeros and ones -/

section

variable {x z : Word}

theorem roundMag_magUnits (hx : isFinite x = true) {n d : Nat} (hd : 0 < d) (hn : n = magUnits x * d) :
    roundMag n d = magBits x :=
  roundMag_exact hd ((isFinite_iff x).mp hx).le (magUnits_eq x ▸ hn)

theorem mul32_one32_left (hx : isFinite x = true) : mul32 one32 x = x := by
  rw [mul32_of_finite isFinite_one32 hx, magUnits_one32, roundMag_magUnits hx (by positivity) (Nat.mul_comm _ _),
    show signBit one32 = false from rfl, Bool.false_bne, withSign_signBit_magBits]

theorem mul32_one32_right (hx : isFinite x = true) : mul32 x one32 = x := by
  rw [mul32_comm hx isFinite_one32, mul32_one32_left hx]

theorem add32_comm {a b : Word} (ha : isFinite a = true) (hb : isFinite b = true) : add32 a b = add32 b a := by
  rw [add32_of_finite ha hb, add32_of_finite hb ha, Int.add_comm, Bool.and_comm]

theorem realUnits_eq_zero (h : magUnits z = 0) : realUnits z = 0 := by
  have := natAbs_realUnits z
  omega

/-- A zero of either sign adds nothing to a feature (R12). -/
theorem add32_zero_left (hz : isFinite z = true) (hz0 : magUnits z = 0) (hx : isFeature x = true) :
    add32 z x = x := by
  have hsign := signBit_of_feature hx
  rw [add32_of_finite hz (isFinite_of_feature hx), realUnits_eq_zero hz0, realUnits_of_pos hsign, Int.zero_add,
    Int.natAbs_natCast, roundMag_magUnits (isFinite_of_feature hx) one_pos (Nat.mul_one _).symm]
  split_ifs with h0
  · rw [hsign, Bool.and_false]
    exact (eq_zero32_of_feature ⟨hx, by omega⟩).symm
  · rw [decide_eq_false (by omega), ← hsign, withSign_signBit_magBits]

theorem add32_zero_right (hz : isFinite z = true) (hz0 : magUnits z = 0) (hx : isFeature x = true) :
    add32 x z = x := by
  rw [add32_comm (isFinite_of_feature hx) hz, add32_zero_left hz hz0 hx]

/-- The complement of a zero weight of either sign. -/
theorem sub32_one32_of_zero (hz : isFinite z = true) (hz0 : magUnits z = 0) : sub32 one32 z = one32 := by
  rw [sub32_of_finite isFinite_one32 hz]
  exact add32_zero_right (by simpa using hz) (by simpa using hz0) isFeature_one32

theorem sub32_one32_one32 : sub32 one32 one32 = zero32 := by decide

/-- Only one word has the value 1. -/
theorem eq_one32_of_realValue (hx : isFinite x = true) (h1 : realValue x = 1) : x = one32 := by
  have hunits : realUnits x = 2 ^ 149 := by
    rw [realValue, div_eq_one_iff_eq (by positivity)] at h1
    exact_mod_cast h1
  have hsign : signBit x = false := Bool.eq_false_iff.mpr fun hneg => by
    rw [realUnits, if_pos hneg] at hunits
    omega
  have hmag : magUnits x = magUnits one32 := by
    rw [magUnits_one32, ← natAbs_realUnits, hunits]
    rfl
  have hbits : magBits x = magBits one32 := by
    rw [← roundMag_magUnits hx one_pos (Nat.mul_one _).symm, hmag,
      roundMag_magUnits isFinite_one32 one_pos (Nat.mul_one _).symm]
  rw [← withSign_signBit_magBits x, hsign, hbits]
  rfl

end

/-! ### Frame positions and interpolation -/

/-- A positive word is its magnitude. -/
theorem magUnits_cast_of_pos {w : Word} (h : 0 < realValue w) : (magUnits w : ℚ) = realValue w * 2 ^ 149 := by
  have hunits : realUnits w = magUnits w := by
    have := (realValue_pos_iff w).mp h
    have := natAbs_realUnits w
    omega
  rw [realValue, hunits, div_mul_cancel₀ _ (by positivity)]
  push_cast
  rfl

theorem magUnits_pos {w : Word} (h : 0 < realValue w) : 0 < magUnits w := by
  have hunits := (realValue_pos_iff w).mp h
  have := natAbs_realUnits w
  omega

/-- An integer quotient is the floor of the exact one. -/
theorem natCast_div_eq_floor {n d : Nat} {q : ℚ} (hq : q = (n : ℚ) / d) : ((n / d : ℕ) : ℤ) = ⌊q⌋ := by
  rw [hq, Rat.floor_natCast_div_natCast]
  rfl

theorem inRange_natCast_div {n d : Nat} (h : n ≤ d) : InRange ((n : ℚ) / d) := by
  have hle : (n : ℚ) / d ≤ 1 := div_le_one_of_le₀ (by exact_mod_cast h) (by positivity)
  exact inRange_small (by positivity) (by linarith)

/-- The rounded fraction of an exact quotient (R203, R215). -/
theorem isNearest_rne32_mod {n d : Nat} {q : ℚ} (hd : 0 < d) (hq : q = (n : ℚ) / d) :
    IsNearest (rne32 (n % d) d) (q - ⌊q⌋) := by
  rw [hq, Int.self_sub_floor, Int.fract_div_natCast_eq_div_natCast_mod]
  exact roundingToNearestEven _ _ hd (inRange_natCast_div (Nat.mod_lt n hd).le)

section

variable {x0 x1 : Word} (h0 : isFeature x0 = true) (h1 : isFeature x1 = true)

include h0 h1

/-- At a hop the interpolation is that hop's value (R203). -/
theorem interpolate_zero32_left : interpolate zero32 x0 x1 = x0 := by
  rw [interpolate, sub32_one32_of_zero isFinite_zero32 magUnits_zero32, mul32_one32_right (isFinite_of_feature h0),
    mul32_zero32_right h1, add32_zero_right isFinite_zero32 magUnits_zero32 h0]

theorem interpolate_one32_left : interpolate one32 x0 x1 = x1 := by
  rw [interpolate, sub32_one32_one32, mul32_zero32_right h0, mul32_one32_right (isFinite_of_feature h1),
    add32_zero_left isFinite_zero32 magUnits_zero32 h1]

end

/-- Settles O50: time and position are quotients of integers, rounded or cut once; the weights of the interpolation are
those of `interpolate_spec`, and at its ends one of them is 0 and the other 1. -/
theorem framePositionsAndInterpolation : Obligations.FramePositionsAndInterpolation := by
  refine ⟨fun sr k fps hpos _ => ?_, fun _ _ _ => rfl,
    fun x0 x1 h0 h1 => ⟨interpolate_zero32_left h0 h1, interpolate_one32_left h0 h1⟩⟩
  have hF := magUnits_pos hpos
  have hcast := magUnits_cast_of_pos hpos
  have htime : (k : ℚ) / realValue fps = ((k * 2 ^ 149 : ℕ) : ℚ) / (magUnits fps : ℕ) := by
    push_cast
    rw [hcast]
    exact (mul_div_mul_right _ _ (by positivity)).symm
  have hq : (k : ℚ) * sr / (1024 * realValue fps) =
      ((k * sr * 2 ^ 149 : ℕ) : ℚ) / ((1024 * magUnits fps : ℕ) : ℚ) := by
    push_cast
    rw [hcast, ← mul_assoc]
    exact (mul_div_mul_right _ _ (by positivity)).symm
  refine ⟨fun hr => ?_, natCast_div_eq_floor hq, isNearest_rne32_mod (by omega) hq, fun x0 x1 h0 h1 => ?_⟩
  · rw [htime] at hr ⊢
    exact roundingToNearestEven _ _ hF hr
  · exact interpolate_spec (e := 229) (by norm_num) (by norm_num) (frameFrac_inUnit hF) h0 h1

/-! ### The recurrences of the filter -/

section

variable {lam c : Word}

theorem getD_emaFrom (prev : Word) {xs : List Word} {t : Nat} (ht : t < xs.length) (d : Word) :
    (emaFrom lam c prev xs).getD t d =
      add32 (mul32 lam ((prev :: emaFrom lam c prev xs).getD t d)) (mul32 c (xs.getD t d)) := by
  induction xs generalizing prev t with
  | nil => simp at ht
  | cons x xs ih =>
    cases t with
    | zero => rfl
    | succ t => exact ih _ (Nat.lt_of_succ_lt_succ ht)

/-- The recurrence of R206, point by point. -/
theorem getD_emaForward_succ {xs : List Word} {t : Nat} (ht : t + 1 < xs.length) (d : Word) :
    (emaForward lam c xs).getD (t + 1) d =
      add32 (mul32 lam ((emaForward lam c xs).getD t d)) (mul32 c (xs.getD (t + 1) d)) := by
  cases xs with
  | nil => simp at ht
  | cons x xs => exact getD_emaFrom x (Nat.lt_of_succ_lt_succ ht) d

theorem getD_emaForward_zero (xs : List Word) (d : Word) : (emaForward lam c xs).getD 0 d = xs.getD 0 d := by
  cases xs <;> rfl

/-- The backward pass starts from the last value (R207). -/
theorem getD_emaBackward_last {ys : List Word} (hpos : 0 < ys.length) (d : Word) :
    (emaBackward lam c ys).getD (ys.length - 1) d = ys.getD (ys.length - 1) d := by
  rw [emaBackward, List.getD_reverse _ (by simpa), emaForward_length, List.length_reverse, Nat.sub_self,
    getD_emaForward_zero, List.getD_reverse _ hpos, Nat.sub_zero]

/-- The recurrence of R207, point by point. -/
theorem getD_emaBackward {ys : List Word} {t : Nat} (ht : t + 1 < ys.length) (d : Word) :
    (emaBackward lam c ys).getD t d =
      add32 (mul32 lam ((emaBackward lam c ys).getD (t + 1) d)) (mul32 c (ys.getD t d)) := by
  have hlen : (emaForward lam c ys.reverse).length = ys.length := by simp
  have hidx : ys.length - 1 - t = ys.length - 1 - (t + 1) + 1 := by omega
  rw [emaBackward, List.getD_reverse _ (by omega), List.getD_reverse _ (by omega), hlen, hidx,
    getD_emaForward_succ (by rw [List.length_reverse]; omega), List.getD_reverse _ (by omega)]
  rw [show ys.length - 1 - (ys.length - 1 - (t + 1) + 1) = t by omega]

end

/-! ### The ends of the filter -/

theorem emaFrom_of_zero {lam : Word} (hl : isFinite lam = true) (h0 : magUnits lam = 0) {xs : List Word}
    (hxs : ∀ v ∈ xs, isFeature v = true) {prev : Word} (hp : isFeature prev = true) :
    emaFrom lam one32 prev xs = xs := by
  induction xs generalizing prev with
  | nil => rfl
  | cons x xs ih =>
    obtain ⟨hx, hrest⟩ := List.forall_mem_cons.mp hxs
    obtain ⟨hfin, hmag⟩ := mul32_le (u := 0) hl (isFinite_of_feature hp) rep_zero (by simp [h0])
    have hstep : add32 (mul32 lam prev) (mul32 one32 x) = x := by
      rw [mul32_one32_left (isFinite_of_feature hx), add32_zero_left hfin (Nat.le_zero.mp hmag) hx]
    rw [emaFrom, hstep, ih hrest hx]

/-- With a factor 0 of either sign a pass changes nothing (R206). -/
theorem emaForward_of_zero {lam : Word} (hl : isFinite lam = true) (h0 : magUnits lam = 0) {xs : List Word}
    (hxs : ∀ v ∈ xs, isFeature v = true) : emaForward lam one32 xs = xs := by
  cases xs with
  | nil => rfl
  | cons x xs =>
    obtain ⟨hx, hrest⟩ := List.forall_mem_cons.mp hxs
    rw [emaForward, emaFrom_of_zero hl h0 hrest hx]

theorem emaFrom_one32 {xs : List Word} (hxs : ∀ v ∈ xs, isFeature v = true) {prev : Word}
    (hp : isFeature prev = true) : emaFrom one32 zero32 prev xs = List.replicate xs.length prev := by
  induction xs with
  | nil => rfl
  | cons x xs ih =>
    obtain ⟨hx, hrest⟩ := List.forall_mem_cons.mp hxs
    have hstep : add32 (mul32 one32 prev) (mul32 zero32 x) = prev := by
      rw [mul32_one32_left (isFinite_of_feature hp), mul32_zero32_left hx,
        add32_zero_right isFinite_zero32 magUnits_zero32 hp]
    rw [emaFrom, hstep, ih hrest]
    rfl

/-- With factor 1 a pass repeats its first value (R206). -/
theorem emaForward_one32 {x : Word} {xs : List Word} (hxs : ∀ v ∈ x :: xs, isFeature v = true) :
    emaForward one32 zero32 (x :: xs) = List.replicate (xs.length + 1) x := by
  obtain ⟨hx, hrest⟩ := List.forall_mem_cons.mp hxs
  rw [emaForward, emaFrom_one32 hrest hx]
  rfl

theorem smoothSeries_of_zero {lam : Word} (hl : isFinite lam = true) (h0 : magUnits lam = 0) {xs : List Word}
    (hxs : ∀ v ∈ xs, isFeature v = true) : smoothSeries lam xs = xs := by
  simp only [smoothSeries, emaBackward]
  rw [sub32_one32_of_zero hl h0, emaForward_of_zero hl h0 hxs,
    emaForward_of_zero hl h0 fun v hv => hxs v (List.mem_reverse.mp hv), List.reverse_reverse]

theorem smoothSeries_one32 {x : Word} {xs : List Word} (hxs : ∀ v ∈ x :: xs, isFeature v = true) :
    smoothSeries one32 (x :: xs) = List.replicate (xs.length + 1) x := by
  have hrep : ∀ v ∈ x :: List.replicate xs.length x, isFeature v = true := fun v hv => by
    rw [← List.replicate_succ] at hv
    exact List.eq_of_mem_replicate hv ▸ hxs x List.mem_cons_self
  simp only [smoothSeries, emaBackward]
  rw [sub32_one32_one32, emaForward_one32 hxs, List.reverse_replicate, List.replicate_succ, emaForward_one32 hrep,
    List.length_replicate, List.reverse_replicate]
  rfl

/-- Settles O51: both passes are the recurrence, the second on the reversed list; at the ends one of the two weights is
0, so a pass is the identity or repeats its first value. -/
theorem smoothingRecurrences : Obligations.SmoothingRecurrences := by
  intro lam xs hlam hxs
  have hfin := isFinite_of_inUnit hlam
  have hlen := emaForward_length lam (sub32 one32 lam) xs
  refine ⟨emaForward lam (sub32 one32 lam) xs, hlen, smoothSeries_length lam xs, fun hpos => ⟨?_, ?_⟩,
    fun t ht => ⟨getD_emaForward_succ ht zero32, getD_emaBackward (hlen.symm ▸ ht) zero32⟩, fun h0 => ?_,
    fun h1 t ht => ?_⟩
  · exact getD_emaForward_zero xs zero32
  · have hlast := getD_emaBackward_last (lam := lam) (c := sub32 one32 lam) (hlen.symm ▸ hpos) zero32
    rwa [hlen] at hlast
  · exact smoothSeries_of_zero hfin ((realValue_eq_zero_iff lam).mp h0) hxs
  · cases xs with
    | nil => simp at ht
    | cons x xs =>
      rw [eq_one32_of_realValue hfin h1, smoothSeries_one32 hxs]
      exact List.getD_replicate _ ht

end Sys2Proof.Machine

/-! ## The beat words on exact values -/

namespace Sys2Proof.Machine

/-! ### Onsets and frames -/

theorem onsetFrame_mono (sr F : Nat) {o o' : Nat} (h : o ≤ o') : onsetFrame sr F o ≤ onsetFrame sr F o' :=
  Nat.div_le_div_right (Nat.mul_le_mul_right _ (Nat.mul_le_mul_right _ h))

/-- Every anchor is an onset of frame at most `k` after which the onsets have later frames (R214). -/
theorem exists_of_beatAnchor_eq_some {sr F k : Nat} {ons : List Nat} {o : Nat} {next : Option Nat}
    (h : beatAnchor sr F k ons = some (o, next)) :
    ∃ before after, ons = before ++ o :: after ∧ onsetFrame sr F o ≤ k ∧
      ∀ o' ∈ after, k < onsetFrame sr F o' := by
  induction ons with
  | nil => cases h
  | cons o' rest ih =>
    rw [beatAnchor] at h
    cases hrest : beatAnchor sr F k rest with
    | some a =>
      rw [hrest] at h
      cases h
      obtain ⟨before, after, rfl, hanchor⟩ := ih hrest
      exact ⟨o' :: before, after, rfl, hanchor⟩
    | none =>
      rw [hrest] at h
      simp only at h
      split_ifs at h with hle
      cases h
      exact ⟨[], rest, rfl, hle, beatAnchor_eq_none_iff.mp hrest⟩

/-- In an onset's frame the intensity is 1.0: the anchor's frame is that frame (R214). -/
theorem beatIntensity_of_onset {sr F k : Nat} {ons : List Nat} (hrising : ons.Pairwise (· < ·)) {o : Nat}
    (ho : o ∈ ons) (hframe : onsetFrame sr F o = k) : beatIntensity sr F ons k = one32 := by
  unfold beatIntensity
  cases hanchor : beatAnchor sr F k ons with
  | none =>
    have := beatAnchor_eq_none_iff.mp hanchor o ho
    omega
  | some a =>
    obtain ⟨o', next⟩ := a
    obtain ⟨before, after, rfl, hle, hafter⟩ := exists_of_beatAnchor_eq_some hanchor
    obtain ⟨-, -, hacross⟩ := List.pairwise_append.mp hrising
    have hge : onsetFrame sr F o ≤ onsetFrame sr F o' := by
      rcases List.mem_append.mp ho with hbefore | hrest
      · exact onsetFrame_mono sr F (hacross o hbefore o' List.mem_cons_self).le
      · rcases List.mem_cons.mp hrest with rfl | hlater
        · exact le_rfl
        · have := hafter o hlater
          omega
    exact if_pos (by omega)

theorem isBeat_of_onset {sr F k : Nat} {ons : List Nat} {o : Nat} (ho : o ∈ ons) (hframe : onsetFrame sr F o = k) :
    isBeat sr F ons k = one32 := by
  have hany : (ons.any fun o => onsetFrame sr F o == k) = true :=
    List.any_eq_true.mpr ⟨o, ho, beq_iff_eq.mpr hframe⟩
  exact if_pos hany

theorem isBeat_of_no_onset {sr F k : Nat} {ons : List Nat} (h : ¬∃ o ∈ ons, onsetFrame sr F o = k) :
    isBeat sr F ons k = zero32 := by
  refine if_neg fun hany => h ?_
  obtain ⟨o, ho, hframe⟩ := List.any_eq_true.mp hany
  exact ⟨o, ho, beq_iff_eq.mp hframe⟩

/-- Before the first onset's frame (R214, R215). -/
theorem beatWords_of_no_anchor {sr F k : Nat} {ons : List Nat} (h : ∀ o ∈ ons, k < onsetFrame sr F o)
    (lag : Option Nat) : beatIntensity sr F ons k = zero32 ∧ beatPhase sr F lag ons k = zero32 := by
  rw [beatIntensity, beatPhase, beatAnchor_eq_none_iff.mpr h]
  exact ⟨rfl, rfl⟩

/-! ### The phase word -/

/-- The phase word is the nearest word of its ratio, unless that is 1 (R215). -/
theorem phaseWord_of_isNearest {num den : Nat} {q : ℚ} (h : IsNearest (rne32 num den) q) :
    ∃ u, IsNearest u q ∧ phaseWord num den = if realValue u < 1 then u else 0x3F7FFFFF := by
  refine ⟨rne32 num den, h, ?_⟩
  simp only [phaseWord, realValue_lt_one_iff]
  rfl

/-! ### The time since an onset -/

/-- The time from an onset to the start of frame `k` in seconds, 0 if the onset is later (R214). -/
def elapsed (sr k : Nat) (fps : Word) (o : Nat) : ℚ := max 0 ((k : ℚ) / realValue fps - (o : ℚ) * 1024 / sr)

section

variable {sr k : Nat} {fps : Word}

theorem onsetFrame_eq_floor (hpos : 0 < realValue fps) (sr o : Nat) :
    (onsetFrame sr (magUnits fps) o : ℤ) = ⌊(o : ℚ) * 1024 * realValue fps / sr⌋ := by
  refine natCast_div_eq_floor ?_
  push_cast
  rw [magUnits_cast_of_pos hpos, ← mul_assoc, mul_comm _ ((2 : ℚ) ^ 149)]
  exact (mul_div_mul_left _ _ (by positivity)).symm

/-- A difference cut off at 0. -/
theorem natCast_sub_eq_max (a b : Nat) : ((a - b : ℕ) : ℚ) = max 0 ((a : ℚ) - b) := by
  rcases Nat.le_total b a with h | h
  · rw [Nat.cast_sub h, max_eq_right (sub_nonneg.mpr (by exact_mod_cast h))]
  · rw [Nat.sub_eq_zero_of_le h, max_eq_left (sub_nonpos.mpr (by exact_mod_cast h)), Nat.cast_zero]

/-- Between an onset and a later frame's onset the phase is a ratio of at most 1 (R215). -/
theorem sinceOnset_le_of_lt_onsetFrame {F o next : Nat} (hnext : k < onsetFrame sr F next) :
    sinceOnset sr F k o ≤ F * 1024 * (next - o) := by
  have hle : k * (2 ^ 149 * sr) ≤ next * 1024 * F :=
    (Nat.mul_le_mul_right _ hnext.le).trans (Nat.div_mul_le_self _ _)
  have hgap : F * 1024 * (next - o) = next * 1024 * F - o * 1024 * F := by
    rw [← Nat.sub_mul, ← Nat.sub_mul]
    ring
  rw [sinceOnset, hgap, Nat.mul_assoc k]
  exact Nat.sub_le_sub_right hle _

variable (hsr : 1 ≤ sr) (hpos : 0 < realValue fps)

include hsr hpos

theorem sinceOnset_div (o : Nat) :
    (sinceOnset sr (magUnits fps) k o : ℚ) / (magUnits fps * sr) = elapsed sr k fps o := by
  have hsr' : (0 : ℚ) < sr := by exact_mod_cast hsr
  have hscale : (0 : ℚ) < magUnits fps * sr := mul_pos (by exact_mod_cast magUnits_pos hpos) hsr'
  have htime : (k : ℚ) / realValue fps - (o : ℚ) * 1024 / sr =
      (((k * 2 ^ 149 * sr : ℕ) : ℚ) - ((o * 1024 * magUnits fps : ℕ) : ℚ)) / (magUnits fps * sr) := by
    push_cast
    rw [magUnits_cast_of_pos hpos, sub_div]
    congr 1
    · rw [mul_div_mul_right _ _ hsr'.ne']
      exact (mul_div_mul_right _ _ (by positivity)).symm
    · field_simp
  rw [elapsed, sinceOnset, natCast_sub_eq_max, htime, ← zero_div ((magUnits fps : ℚ) * sr), max_div_div_right hscale.le,
    zero_div]

/-- The time since an onset over a span of `n` hops, as a quotient of integers (R215). -/
theorem elapsed_div (o n : Nat) :
    elapsed sr k fps o / (1024 * (n : ℚ) / sr) =
      (sinceOnset sr (magUnits fps) k o : ℚ) / ((magUnits fps * 1024 * n : ℕ) : ℚ) := by
  rw [← sinceOnset_div hsr hpos, div_div]
  push_cast
  congr 1
  field_simp

/-- The decay of the intensity after an onset's frame (R214). -/
theorem beatIntensity_after_onset {ons : List Nat} {o : Nat} {next : Option Nat}
    (hanchor : beatAnchor sr (magUnits fps) k ons = some (o, next)) (hlt : onsetFrame sr (magUnits fps) o < k)
    (hr : InRange (elapsed sr k fps o * 20 / 3)) :
    ∃ a, IsNearest a (-(elapsed sr k fps o * 20 / 3)) ∧
      beatIntensity sr (magUnits fps) ons k = min32 one32 (max32 zero32 (numExp a)) := by
  have hratio : elapsed sr k fps o * 20 / 3 =
      ((20 * sinceOnset sr (magUnits fps) k o : ℕ) : ℚ) / ((3 * magUnits fps * sr : ℕ) : ℚ) := by
    rw [← sinceOnset_div hsr hpos]
    push_cast
    field_simp
  rw [hratio] at hr ⊢
  refine ⟨_, (roundingToNearestEven _ _ ?_ hr).neg, ?_⟩
  · have := magUnits_pos hpos
    positivity
  · rw [beatIntensity, hanchor]
    exact if_neg hlt.ne

/-- The phase between an onset and the next one (R215). -/
theorem beatPhase_between {ons : List Nat} {o next : Nat} (lag : Option Nat)
    (hanchor : beatAnchor sr (magUnits fps) k ons = some (o, some next)) (hlt : o < next)
    (hnext : k < onsetFrame sr (magUnits fps) next) :
    ∃ u, IsNearest u (elapsed sr k fps o / (((next : ℚ) - o) * 1024 / sr)) ∧
      beatPhase sr (magUnits fps) lag ons k = if realValue u < 1 then u else 0x3F7FFFFF := by
  have hden : 0 < magUnits fps * 1024 * (next - o) :=
    Nat.mul_pos (Nat.mul_pos (magUnits_pos hpos) (by norm_num)) (by omega)
  rw [← Nat.cast_sub hlt.le, mul_comm _ (1024 : ℚ), elapsed_div hsr hpos, beatPhase, hanchor]
  exact phaseWord_of_isNearest (roundingToNearestEven _ _ hden
    (inRange_natCast_div (sinceOnset_le_of_lt_onsetFrame hnext)))

/-- The phase after the last onset, by the tempo's lag (R215). -/
theorem beatPhase_by_lag {ons : List Nat} {o l : Nat}
    (hanchor : beatAnchor sr (magUnits fps) k ons = some (o, none)) (hl : 1 ≤ l) :
    let q := elapsed sr k fps o / (1024 * (l : ℚ) / sr)
    ∃ u, IsNearest u (q - ⌊q⌋) ∧
      beatPhase sr (magUnits fps) (some l) ons k = if realValue u < 1 then u else 0x3F7FFFFF := by
  have hden : 0 < magUnits fps * 1024 * l := Nat.mul_pos (Nat.mul_pos (magUnits_pos hpos) (by norm_num)) hl
  rw [beatPhase, hanchor]
  exact phaseWord_of_isNearest (isNearest_rne32_mod hden (elapsed_div hsr hpos o l))

end

/-- Settles O52: frames and ratios are integer quotients; the anchor is the last onset of a frame at most `k`, and each
clause is the branch of the definitions that the anchor selects. -/
theorem beatFields : Obligations.BeatFields := by
  intro sr k fps ons lag hsr _ hpos hrising hlag F frame d
  have hframe : ∀ o, frame o = (onsetFrame sr F o : ℤ) := fun o => (onsetFrame_eq_floor hpos sr o).symm
  obtain ⟨hphase, hlt⟩ := beatPhase_range sr F lag ons k
  simp only [hframe, Nat.cast_inj, Nat.cast_lt, Nat.cast_le]
  refine ⟨?_, isBeat_of_no_onset, fun h => beatWords_of_no_anchor h lag, ?_, beatIntensity_inUnit sr F ons k, hphase,
    (realValue_lt_one_iff _).mpr hlt⟩
  · rintro ⟨o, ho, hok⟩
    exact ⟨isBeat_of_onset ho hok, beatIntensity_of_onset hrising ho hok⟩
  · rintro before o after rfl hle hafter
    have hanchor := beatAnchor_append (before := before) hle hafter
    refine ⟨beatIntensity_after_onset hsr hpos hanchor, ?_, ?_, ?_⟩
    · rintro next more rfl
      obtain ⟨-, hfrom, -⟩ := List.pairwise_append.mp hrising
      exact beatPhase_between hsr hpos lag hanchor (List.rel_of_pairwise_cons hfrom List.mem_cons_self)
        (hafter next List.mem_cons_self)
    · rintro l rfl rfl
      exact beatPhase_by_lag hsr hpos hanchor (hlag l rfl)
    · rintro rfl rfl
      rw [beatPhase, hanchor]
      rfl

end Sys2Proof.Machine

/-! ## Exceptions: errors, rejections and the interrupt line -/

namespace Sys2Proof.Machine

/-! ### Errors -/

/-- Every command but RUN is one body, and no body that completes has touched ERR: a code is recorded on the error path
only (R243). -/
theorem exists_body_of_ne_run {i : Instr} (hi : i ≠ .run) :
    ∃ c, HasBody i c ∧ ∀ s u, c s = .ok u → u.error = s.error := by
  have hpipeline : ∀ c ∈ runCommands, ∀ s u, c s = .ok u → u.error = s.error :=
    fun c hc s u h => ((runCommands_statusBlind c hc).keeps s u h).1
  cases i with
  | nop => exact ⟨nopBody, fun _ => rfl, fun s u h => by cases h; rfl⟩
  | spectrum n =>
    refine ⟨spectrumBody n, fun _ => rfl, fun s u h => ?_⟩
    obtain ⟨-, -, -, xs, -, -, rfl⟩ := spectrumBody_eq_ok.mp h
    exact State.withSpectrum_error s _
  | config | analyze | onset | tempo | resample | smooth | normalize | beat =>
    exact ⟨_, fun _ => rfl, hpipeline _ (by simp [runCommands])⟩
  | run => exact absurd rfl hi

/-- Settles O27: a body that stops is thrown away, so that only the error path is left; one that completes still has no
error. -/
theorem errorsArePrecise : Obligations.ErrorsArePrecise := by
  intro i s t hi herr h
  obtain ⟨c, hbody, hkeeps⟩ := exists_body_of_ne_run hi
  rw [hbody s] at h
  rcases finish_eq_next.mp h with ⟨u, hu, rfl⟩ | ⟨e, -, rfl⟩
  · exact .inr ⟨(hkeeps s u hu).trans herr, rfl, rfl⟩
  · exact .inl ⟨e, State.fail_of_error_none herr e⟩

/-! ### Rejections -/

/-- The registers of which every write is rejected while a command runs (R75, R246): the four configuration registers
and the port. A write of `CTRL` is a soft reset if its bit 0 is 1, and one of `CMD` is rejected on an error too. -/
def isGuardedReg : Reg → Bool
  | .sr | .nsamp | .fps | .smooth | .bufSel | .bufIdx | .bufData => true
  | _ => false

theorem writeReg_of_guarded_busy {s : State} {r : Reg} (hbusy : s.latch.isSome = true) (hr : isGuardedReg r = true)
    (v : Word) : writeReg s v r = s.reject := by
  cases r with
  | sr | nsamp | fps | smooth | bufSel | bufIdx => exact State.unlessBusy_of_busy hbusy _
  | bufData => exact portWrite_of_busy hbusy v
  | _ => cases hr

/-- A write of `CTRL` that is no soft reset is a configuration write (R75, R78). -/
theorem writeReg_ctrl_of_busy {s : State} {v : Word} (hbusy : s.latch.isSome = true) (hbit : v.getLsbD 0 = false) :
    writeReg s v .ctrl = s.reject := by
  rw [writeReg, hbit]
  exact State.unlessBusy_of_busy hbusy _

/-- Settles O15: the events (a), (b) and (c) of R246 one by one; IRQ_EN has no guard. -/
theorem rejections : Obligations.Rejections := by
  intro s v
  refine ⟨fun hclosed => ?_, fun hbusy => ⟨fun off hmem => ?_, fun hbit => ?_, ?_⟩,
    hostWrite_of_regAt (r := .irqEn) rfl s v⟩
  · rw [hostWrite_of_regAt (r := .cmd) rfl, writeReg, offerCommand_eq, if_pos hclosed]
    rfl
  · obtain ⟨r, hr, hguarded⟩ := exists_regAt_of_all (p := isGuardedReg) (by decide) hmem
    rw [hostWrite_of_regAt hr, writeReg_of_guarded_busy hbusy hguarded]
    rfl
  · rw [hostWrite_of_regAt (r := .ctrl) rfl, writeReg_ctrl_of_busy hbusy hbit]
    rfl
  · exact ⟨s.free, s.freeCtr + 1, portRead_of_busy hbusy⟩

/-! ### The interrupt line -/

/-- The line is high exactly where a status bit is 1 whose enable is 1 (R251). -/
theorem State.irq_iff (s : State) : s.irq = true ↔
    (s.done = true ∧ s.doneIe = true) ∨ (s.err = true ∧ s.errIe = true) ∨ (s.rej = true ∧ s.rejIe = true) := by
  simp only [State.irq, Bool.or_eq_true, Bool.and_eq_true, or_assoc]

/-- With DONE, ERR and REJ all 0 the line is low, whatever is enabled (R251, R252). -/
theorem State.irq_of_status_clear {s : State} (hdone : s.done = false) (herr : s.error = none) (hrej : s.rej = false) :
    s.irq = false := by
  simp [State.irq, State.err, hdone, herr, hrej]

/-- With nothing enabled the line is low, whatever STATUS says (R251). -/
theorem State.irq_of_masked {s : State} (hdone : s.doneIe = false) (herr : s.errIe = false) (hrej : s.rejIe = false) :
    s.irq = false := by
  simp [State.irq, hdone, herr, hrej]

/-- The line in terms of the words that the host reads, bit by bit of `STATUS` and `IRQ_EN` (R23, R31, R251). -/
theorem irq_iff_statusWord_irqEnWord (s : State) : s.irq = true ↔
    ((statusWord s).getLsbD 1 = true ∧ (irqEnWord s).getLsbD 0 = true) ∨
    ((statusWord s).getLsbD 2 = true ∧ (irqEnWord s).getLsbD 1 = true) ∨
    ((statusWord s).getLsbD 3 = true ∧ (irqEnWord s).getLsbD 2 = true) := by
  obtain ⟨-, hdone, herr, hrej, -⟩ := statusFields s
  obtain ⟨hdoneIe, herrIe, hrejIe, -⟩ := irqEnWord_bits s
  rw [hdone, herr, hrej, hdoneIe, herrIe, hrejIe]
  exact s.irq_iff

/-- Settles O22: an acknowledgement of all three bits clears the status, a write of 0 to IRQ_EN masks it, and both
resets clear it. -/
theorem interruptLine : Obligations.InterruptLine := by
  intro s
  refine ⟨irq_iff_statusWord_irqEnWord s, fun t h => ?_, fun t h => ?_, fun t h => ?_,
    State.irq_of_status_clear rfl rfl rfl⟩
  · rw [hostWrite_of_regAt (r := .status) rfl] at h
    cases h
    exact State.irq_of_status_clear (Bool.and_false _) rfl (Bool.and_false _)
  · rw [hostWrite_of_regAt (r := .irqEn) rfl] at h
    cases h
    exact State.irq_of_masked rfl rfl rfl
  · rw [hostWrite_of_regAt (r := .ctrl) rfl] at h
    cases h
    exact State.irq_of_status_clear rfl rfl rfl

end Sys2Proof.Machine

/-! ## Resets -/

namespace Sys2Proof.Machine

/-! ### Marks that are cleared, and no others -/

/-- `m'` is `m` with the marks of the words in `p` cleared: these read as unwritten, and every other word as before. -/
def Memory.Cleared (p : BufId → Nat → Prop) (m m' : Memory) : Prop :=
  ∀ b k, (p b k → m'.read b k = none) ∧ (¬p b k → m'.read b k = m.read b k)

/-- The threshold words of `nh` hop records, the twelfth of each: by remainder as `abortOnsets` picks them, and by hop as
`abortedWord` does. -/
theorem thresholdWord_iff {nh k : Nat} : (k < 12 * nh ∧ k % 12 = 11) ↔ ∃ h, h < nh ∧ k = 12 * h + 11 := by
  constructor
  · rintro ⟨hk, hmod⟩
    exact ⟨k / 12, by omega, by omega⟩
  · rintro ⟨h, hh, rfl⟩
    omega

namespace Memory.Cleared

variable {p q : BufId → Nat → Prop} {m m' : Memory}

theorem refl (m : Memory) : Cleared (fun _ _ => False) m m := fun _ _ => ⟨False.elim, fun _ => rfl⟩

theorem congr (h : Cleared p m m') (hpq : ∀ b k, p b k ↔ q b k) : Cleared q m m' :=
  fun b k => ⟨fun hq => (h b k).1 ((hpq b k).mpr hq), fun hq => (h b k).2 (mt (hpq b k).mp hq)⟩

theorem clear (h : Cleared p m m') (id : BufId) (marks : Nat → Bool) :
    Cleared (fun b k => p b k ∨ b = id ∧ marks k = true) m (m'.clear id marks) := by
  intro b k
  obtain ⟨hgone, hkept⟩ := h b k
  rw [Memory.read_clear]
  refine ⟨fun hpk => ?_, fun hpk => ?_⟩
  · split_ifs with hmark
    · rfl
    · exact hgone (hpk.resolve_right hmark)
  · obtain ⟨hp, hmark⟩ := not_or.mp hpk
    rw [if_neg hmark, hkept hp]

/-! The parts of R272's table, each after what was cleared before. -/

theorem abortRecords (h : Cleared p m m') (nh nf : Nat) :
    Cleared (fun b k => p b k ∨ abortedWord nh nf .analyze b k) m (abortRecords m' nh) :=
  (((h.clear .hopf _).clear .mag _).clear .wave _).congr fun b k => by
    simp only [abortedWord, decide_eq_true_eq, or_assoc]

theorem abortOnsets (h : Cleared p m m') (nh nf : Nat) :
    Cleared (fun b k => p b k ∨ abortedWord nh nf .onset b k) m (abortOnsets m' nh) :=
  ((h.clear .hopf _).clear .onset _).congr fun b k => by
    simp only [abortedWord, Bool.and_eq_true, beq_iff_eq, decide_eq_true_eq, or_assoc, thresholdWord_iff]

theorem abortTempo (h : Cleared p m m') (nh nf : Nat) :
    Cleared (fun b k => p b k ∨ abortedWord nh nf .tempo b k) m (abortTempo m') :=
  (h.clear .acorr _).congr fun b k => by simp only [abortedWord, decide_eq_true_eq]

theorem abortFrames (h : Cleared p m m') (nf : Nat) :
    Cleared (fun b k => p b k ∨ b = .frame ∧ k < 16 * nf) m (abortFrames m' nf) :=
  (h.clear .frame _).congr fun b k => by simp only [decide_eq_true_eq]

/-- Where nothing was cleared before, the new part is all there is. -/
theorem of_false_or (h : Cleared (fun b k => False ∨ p b k) m m') : Cleared p m m' :=
  h.congr fun _ _ => or_iff_right id

end Memory.Cleared

/-! ### The command that a soft reset aborts -/

/-- The marks that aborting a command other than RUN clears are those of its row of R272. -/
theorem abortCommand_cleared (s : State) {i : Instr} (hi : i ≠ .run) :
    s.mem.Cleared (abortedWord s.nhops.toNat s.nframes.toNat i) (abortCommand s i) := by
  have hrefl := Memory.Cleared.refl s.mem
  cases i with
  | nop | config => exact hrefl
  | spectrum n =>
    refine ((hrefl.clear .mag _).clear .wave _).congr fun b k => ?_
    simp only [abortedWord, decide_eq_true_eq, false_or]
  | analyze => exact (hrefl.abortRecords _ _).of_false_or
  | onset => exact (hrefl.abortOnsets _ _).of_false_or
  | tempo => exact (hrefl.abortTempo _ _).of_false_or
  | resample | smooth | normalize | beat => exact (hrefl.abortFrames _).of_false_or
  | run => exact absurd rfl hi

/-- The words of RUN's row are those of the rows of its commands; the threshold words are among the record words. -/
theorem abortedWord_run_iff (nh nf : Nat) (b : BufId) (k : Nat) :
    (((abortedWord nh nf .analyze b k ∨ abortedWord nh nf .onset b k) ∨ abortedWord nh nf .tempo b k) ∨
      b = .frame ∧ k < 16 * nf) ↔ abortedWord nh nf .run b k := by
  have hthreshold : (∃ h, h < nh ∧ k = 12 * h + 11) → k < 12 * nh := by
    rintro ⟨h, hh, rfl⟩
    omega
  cases b with
  | hopf => simpa [abortedWord] using hthreshold
  | _ => simp [abortedWord]

/-- Aborting RUN clears the words of every command it is made of, with the counts that CONFIG would compute. -/
theorem abortCommand_run_cleared {s : State} {nh nf : Nat} (hcounts : configCounts s = .ok (nh, nf)) :
    s.mem.Cleared (abortedWord nh nf .run) (abortCommand s .run) := by
  have hanalyze := ((Memory.Cleared.refl s.mem).abortRecords nh nf).of_false_or
  simp only [abortCommand, hcounts]
  exact (((hanalyze.abortOnsets nh nf).abortTempo nh nf).abortFrames nf).congr (abortedWord_run_iff nh nf)

/-- RUN on a configuration that CONFIG would refuse writes nothing. -/
theorem abortCommand_run_of_error {s : State} {e : ErrCode} (hcounts : configCounts s = .error e) :
    abortCommand s .run = s.mem := by
  simp only [abortCommand, hcounts]

theorem State.memAfterAbort_of_idle {s : State} (h : s.latch = none) : s.memAfterAbort = s.mem := by
  rw [State.memAfterAbort, State.fetch, h]

theorem State.memAfterAbort_of_decode {s : State} {w : Word} {i : Instr} (h : s.latch = some w) (hi : decode w = .ok i) :
    s.memAfterAbort = abortCommand s i := by
  simp only [State.memAfterAbort, State.fetch, h, hi]

theorem State.memAfterAbort_of_not_command {s : State} {w : Word} {e : BadCommand} (h : s.latch = some w)
    (he : decode w = .error e) : s.memAfterAbort = s.mem := by
  simp only [State.memAfterAbort, State.fetch, h, he]

/-! ### The resets -/

/-- A write of `CTRL` with bit 0 set is a soft reset, busy or not (R78, R271). -/
theorem hostWrite_ctrl_softReset {v : Word} (hv : v.getLsbD 0 = true) (s : State) :
    hostWrite s 4 0x004 v = .next s.softReset := by
  rw [hostWrite_of_regAt (r := .ctrl) rfl, writeReg, if_pos hv]

/-- Settles O25: the memory is the one that aborting the latched command leaves, by the rows of R272. -/
theorem softResetAbortsTheCommand : Obligations.SoftResetAbortsTheCommand := by
  intro s v w hv hlatch
  refine ⟨s.memAfterAbort, hostWrite_ctrl_softReset hv s, fun i hdec hi => ?_, fun hdec b k => ⟨fun nh nf hcounts => ?_,
    fun e hcounts => ?_⟩, fun e hdec b k => ?_⟩
  · rw [State.memAfterAbort_of_decode hlatch hdec]
    exact abortCommand_cleared s hi
  · rw [State.memAfterAbort_of_decode hlatch hdec]
    exact abortCommand_run_cleared hcounts b k
  · rw [State.memAfterAbort_of_decode hlatch hdec, abortCommand_run_of_error hcounts]
  · rw [State.memAfterAbort_of_not_command hlatch hdec]

/-- Settles O24: with no command latched there is none to abort. -/
theorem softResetKeepsTheBuffers : Obligations.SoftResetKeepsTheBuffers := by
  intro s v hv hidle
  rw [hostWrite_ctrl_softReset hv, State.softReset, State.memAfterAbort_of_idle hidle]

/-- After reset no word is written (R273). -/
theorem read_reset_mem (b : BufId) (k : Nat) : State.reset.mem.read b k = none := by
  cases b <;> rfl

/-- Settles O23: the step takes the reset event. The two states it speaks of are the reset state up to the fields that
are no register. -/
theorem hardReset : Obligations.HardReset := by
  intro s rest hin
  refine ⟨step_of_inputs_cons hin, fun t ht => ?_⟩
  obtain ⟨inputs, readData, freeCtr, rfl⟩ : ∃ inputs readData freeCtr,
      t = { State.reset with inputs := inputs, readData := readData, freeCtr := freeCtr } := by
    rcases List.mem_pair.mp ht with rfl | rfl
    · exact ⟨_, _, _, rfl⟩
    · exact ⟨_, _, _, rfl⟩
  exact ⟨rfl, rfl, rfl, rfl, rfl, rfl, rfl, rfl, rfl, rfl, rfl, rfl, rfl, rfl, rfl, Bands.get_zeros, rfl, rfl, rfl, rfl,
    rfl, read_reset_mem, fun _ => rfl⟩

/-- Settles O55: after reset no command is latched, the memory is empty, and stage 0 asks for nothing. -/
theorem resetHasTheInvariants : Obligations.ResetHasTheInvariants := fun _ =>
  ⟨.of_idle rfl, memoryInv_of_empty rfl, .of_invalid rfl rfl, .of_stage_lt (show stageNumber .invalid < 5 by decide)⟩

end Sys2Proof.Machine
